-- ==== Sys2Proof/Word.lean ====
section
/-! DEFINITION. The widths of the T840's words (spec 1.5, R185, R188): window words, command operand words,
data words and table entries are 32 bits; physical addresses are 36 bits (R7); frames are 24 bits (R7). -/

namespace Sys2Proof

/-- A 32-bit word: a window word, a data word, a table entry or a client address. -/
abbrev Word := BitVec 32

/-- A physical frame number, 0..16777215 (R7). -/
abbrev Frame := BitVec 24

/-- A 36-bit physical address (R7). -/
abbrev PhysAddr := BitVec 36

/-- A client page number, 0..1048575 (R1). -/
abbrev PageNumber := BitVec 20

/-- A context number, 0..15 (R17). -/
abbrev ContextNumber := Fin 16

/-- A client port number, 0..3 (R36). -/
abbrev PortNumber := Fin 4

/-- A walk slot number, 0..3 (R84). -/
abbrev SlotNumber := Fin 4

end Sys2Proof
end

