-- ==== Sys2Proof/Config.lean ====
section
/-! DEFINITION. The constants the spec fixes for the part. The spec leaves no result value open, so this file
holds no free value (INVENTORY.md, What the manual leaves open). -/

namespace Sys2Proof.Config

/-- Entries of one request queue (R44). -/
abbrev requestQueueDepth : Nat := 8

/-- Credit of one port: return-list items plus completion records (R55). -/
abbrev credit : Nat := 8

/-- Entries of the page cache (R66). -/
abbrev pageCacheSize : Nat := 64

/-- Entries of the directory cache (R67). -/
abbrev dirCacheSize : Nat := 8

/-- Records of the fault log (R123). -/
abbrev faultLogSize : Nat := 16

/-- Commands of the command queue (R139). -/
abbrev commandQueueDepth : Nat := 8

/-- Transactions of the outstanding list (R160). -/
abbrev outstandingDepth : Nat := 16

/-- The URGENT run limit (R163). -/
abbrev runLimit : Nat := 4

/-- An age stops here (R168). -/
abbrev ageMax : Nat := 65535

/-- Largest limit ENABLE_CONTEXT admits (R17, R21). -/
abbrev limitMax : Nat := 1024

/-- Largest end a region write admits (R114). -/
abbrev regionEndMax : Nat := 4096

/-- Power-on response limit, microseconds (R167). -/
abbrev powerOnResponseLimit : BitVec 16 := 2000#16

/-- Power-on timebase, MHz (R167). -/
abbrev powerOnTimebase : BitVec 8 := 33#8

end Sys2Proof.Config
end

