-- ==== Sys2Proof/Syntax.lean ====
section
/-! DEFINITION. The commands of the T840: one constructor of `Instr` for each row of spec/opcode_table.json, with the
values that the row's event carries from outside. -/

namespace Sys2Proof

/-- The class of a request (R41). -/
inductive ReqClass where
  | normal
  | urgent
  deriving DecidableEq, Repr

/-- The kind of a request (R41). -/
inductive ReqKind where
  | read
  | write
  deriving DecidableEq, Repr

/-- The request record a client presents (R41): the length is the number of bytes as presented, legal or not. -/
structure Request where
  tag     : BitVec 6
  kind    : ReqKind
  cls     : ReqClass
  address : Word
  length  : Nat
  data    : List Word
  deriving DecidableEq, Repr

/-- The status of a memory response (R159). -/
inductive ResponseStatus where
  | ok
  | error
  deriving DecidableEq, Repr

/-- Which of a context's two window words a write names (R184). -/
inductive ContextWord where
  | frame
  | control
  deriving DecidableEq, Repr

/-- The events of spec/opcode_table.json. The rows that submit a command to the part's command queue carry the operand word the
host writes before the submit word (R139, R140); the two that use no operand field carry none. -/
inductive Instr where
  /-- POWER_ON_RESET (R179): RESETN is taken low. -/
  | powerOnReset
  /-- RESETN_RELEASE (R179): RESETN is released. -/
  | resetnRelease
  /-- DEVICE_RESET (R180): a device-control write whose reset field is 1. -/
  | deviceReset
  /-- REQUEST (R41): a client presents a request at its port. -/
  | request (port : PortNumber) (req : Request)
  /-- DELIVERY (R61): the client of the port is ready and takes the front completion record. -/
  | delivery (port : PortNumber)
  /-- RESPONSE (R165): a response of the memory side arrives, with its data words. -/
  | response (status : ResponseStatus) (data : List Word)
  /-- CLEARED (R172): CLEARED arrives from the memory side. -/
  | cleared
  /-- EXPIRY (R168): the tick at which the oldest outstanding transaction reaches the response limit. -/
  | expiry
  /-- CLEAR_EXPIRY (R171): the tick at which the age of the CLEAR reaches the response limit. -/
  | clearExpiry
  /-- GRANT (R161): the arbiter makes one grant. -/
  | grant
  /-- TRANSFER (R58): the FINISHING head of a port and class takes a credit. -/
  | transfer (port : PortNumber) (cls : ReqClass)
  /-- INVALIDATE_PAGE (R80), code 01h. -/
  | invalidatePage (operand : Word)
  /-- INVALIDATE_DIRECTORY (R80), code 02h. -/
  | invalidateDirectory (operand : Word)
  /-- INVALIDATE_CONTEXT (R80), code 03h. -/
  | invalidateContext (operand : Word)
  /-- INVALIDATE_ALL (R80), code 04h. -/
  | invalidateAll
  /-- SYNC (R151), code 08h. -/
  | sync (operand : Word)
  /-- ENABLE_CONTEXT (R21), code 10h. -/
  | enableContext (operand : Word)
  /-- DISABLE_CONTEXT (R22), code 11h. -/
  | disableContext (operand : Word)
  /-- RESUME (R134), code 18h. -/
  | resume (operand : Word)
  /-- TERMINATE (R136), code 19h. -/
  | terminate (operand : Word)
  /-- CLEAR_MEMORY_PORT (R171), code 20h. -/
  | clearMemoryPort
  /-- PROBE (R82), code 28h. -/
  | probe (operand : Word)
  /-- UNKNOWN_CODE (R143): a submit write whose code names no command. -/
  | unknownCode (code : BitVec 8)
  /-- OPEN (R37): a port-control write requesting OPEN. -/
  | openPort (port : PortNumber)
  /-- CLOSE (R38): a port-control write requesting CLOSE. -/
  | closePort (port : PortNumber)
  /-- PORT_BINDING_WRITE (R30): a write of a port binding word. -/
  | portBindingWrite (port : PortNumber) (value : Word)
  /-- CONTEXT_WRITE (R19): a write of a context frame or control word. -/
  | contextWrite (context : ContextNumber) (word : ContextWord) (value : Word)
  /-- REGION_ENTRY_WRITE (R114): a write of a region entry. -/
  | regionEntryWrite (entry : Fin 8) (value : Word)
  /-- TIMEBASE_WRITE (R167): a write of the timebase word. -/
  | timebaseWrite (value : Word)
  /-- RESPONSE_LIMIT_WRITE (R167): a write of the response limit word. -/
  | responseLimitWrite (value : Word)
  /-- INTERRUPT_STATUS_CLEAR (R182): a W1C write of the interrupt status. -/
  | interruptStatusClear (value : Word)
  /-- INTERRUPT_ENABLE_WRITE (R183): a write of the interrupt enables. -/
  | interruptEnableWrite (value : Word)
  /-- FAULT_LOG_POP (R127): a write of the pop word, whatever value it carries (R184). -/
  | faultLogPop (value : Word)
  /-- REGISTER_WRITE (R177): any host write: a byte offset of the window, the byte enables, the value. -/
  | registerWrite (offset : BitVec 12) (enables : BitVec 4) (value : Word)
  /-- COMMAND_TAKE (R142): the command unit takes the head of its queue. -/
  | commandTake
  /-- MALFORMED_READ (R178): a host read: a byte offset of the window and the byte enables. -/
  | malformedRead (offset : BitVec 12) (enables : BitVec 4)
  deriving DecidableEq, Repr

end Sys2Proof
end

