-- ==== Sys2Proof/Machine/Operands.lean ====
section
/-! DEFINITION. The fields of the words the part reads: client addresses (R1), table-entry addresses (R3, R5), command codes and
operand words (R186), the window map (R184) and the fields of written window words (R185). -/

namespace Sys2Proof.Machine

/-! ## The client address (R1) -/

/-- The client page number: the upper 20 bits of a client address (R1). -/
def clientPage (address : Word) : PageNumber := address.extractLsb' 12 20

/-- The offset: the low 12 bits of a client address (R1). -/
def clientOffset (address : Word) : BitVec 12 := address.extractLsb' 0 12

/-- The directory index of a client page number (R1). -/
def directoryIndex (page : PageNumber) : BitVec 10 := page.extractLsb' 10 10

/-- The page index of a client page number (R1). -/
def pageIndex (page : PageNumber) : BitVec 10 := page.extractLsb' 0 10

/-- The physical address frame × 4096 + offset (R7). -/
def dataAddress (frame : Frame) (offset : BitVec 12) : PhysAddr :=
  frame.setWidth 36 * 4096#36 + offset.setWidth 36

/-- The address of entry `index` of the table page in `frame`: frame × 4096 + index × 4 (R3, R5). -/
def entryAddress (frame : Frame) (index : BitVec 10) : PhysAddr :=
  frame.setWidth 36 * 4096#36 + index.setWidth 36 * 4#36

/-- The 16 MiB unit a physical address lies in, 0..4095 (R109). -/
def unitOf (address : PhysAddr) : Nat := address.toNat / 16777216

/-! ## The format rules (R43) -/

/-- Whether a request meets the five format rules of R43. -/
def wellFormedRequest (r : Request) : Bool :=
  decide (4 ≤ r.length) && decide (r.length ≤ 256) && decide (r.length % 4 = 0)
    && decide (r.address.toNat % 4 = 0)
    && decide ((clientOffset r.address).toNat + r.length ≤ 4096)
    && match r.kind with
       | .write => decide (r.data.length = r.length / 4)
       | .read => decide (r.data = [])

/-! ## Command codes and the operand word (R186) -/

/-- The eleven commands (R144, R186). -/
inductive CommandCode where
  | invalidatePage
  | invalidateDirectory
  | invalidateContext
  | invalidateAll
  | sync
  | enableContext
  | disableContext
  | resume
  | terminate
  | clearMemoryPort
  | probe
  deriving DecidableEq, Repr

/-- The code of each command in bits 7..0 of the submit word (R186). -/
def CommandCode.byte : CommandCode → BitVec 8
  | .invalidatePage => 0x01#8
  | .invalidateDirectory => 0x02#8
  | .invalidateContext => 0x03#8
  | .invalidateAll => 0x04#8
  | .sync => 0x08#8
  | .enableContext => 0x10#8
  | .disableContext => 0x11#8
  | .resume => 0x18#8
  | .terminate => 0x19#8
  | .clearMemoryPort => 0x20#8
  | .probe => 0x28#8

/-- The command a code names, if it names one (R143 check 1, R186). -/
def commandOfCode (code : BitVec 8) : Option CommandCode :=
  match code.toNat with
  | 0x01 => some .invalidatePage
  | 0x02 => some .invalidateDirectory
  | 0x03 => some .invalidateContext
  | 0x04 => some .invalidateAll
  | 0x08 => some .sync
  | 0x10 => some .enableContext
  | 0x11 => some .disableContext
  | 0x18 => some .resume
  | 0x19 => some .terminate
  | 0x20 => some .clearMemoryPort
  | 0x28 => some .probe
  | _ => none

/-- The code field of a submit word: bits 7..0, the rest ignored (R186). -/
def submitCode (w : Word) : BitVec 8 := w.extractLsb' 0 8

/-- The context field of an operand word: bits 31..24, 0..255 (R186). -/
def operandContext (w : Word) : BitVec 8 := w.extractLsb' 24 8

/-- The class field of an operand word: bit 23 (R186). -/
def operandClass (w : Word) : ReqClass := if w.getLsbD 23 then .urgent else .normal

/-- The port field of an operand word: bits 22..20, 0..7 (R186). -/
def operandPort (w : Word) : BitVec 3 := w.extractLsb' 20 3

/-- The page field of an operand word: bits 19..0 (R186). -/
def operandPage (w : Word) : PageNumber := w.extractLsb' 0 20

/-- The marker field of an operand word: bits 15..0 (R186). -/
def operandMarker (w : Word) : BitVec 16 := w.extractLsb' 0 16

/-- The context an operand word names, when its field is in 0..15 (R144). -/
def legalContext (w : Word) : Option ContextNumber :=
  if h : (operandContext w).toNat < 16 then some ⟨(operandContext w).toNat, h⟩ else none

/-- The port an operand word names, when its field is in 0..3 (R144). -/
def legalPort (w : Word) : Option PortNumber :=
  if h : (operandPort w).toNat < 4 then some ⟨(operandPort w).toNat, h⟩ else none

/-- The directory index an INVALIDATE_DIRECTORY names, when its page field is in 0..1023 (R144). -/
def legalDirectory (w : Word) : Option (BitVec 10) :=
  if (operandPage w).toNat < 1024 then some ((operandPage w).setWidth 10) else none

/-! ## The window map (R184) -/

/-- The words of the window (R184). -/
inductive Register where
  | deviceStatus
  | deviceControl
  | interruptStatus
  | interruptEnable
  | timebase
  | responseLimit
  | memoryPortStatus
  | portControl (port : PortNumber)
  | portStatus (port : PortNumber)
  | portBinding (port : PortNumber)
  | contextFrame (context : ContextNumber)
  | contextControl (context : ContextNumber)
  | regionEntry (entry : Fin 8)
  | operandWord
  | submitWord
  | commandUnitStatus
  | commandCounts
  | lastError
  | syncMarker
  | probeResult
  | faultLogStatus
  | faultRecord0
  | faultRecord1
  | faultRecord2
  | faultLogPop
  | parkedPlace (port : PortNumber) (cls : ReqClass)
  | parkedSummary
  deriving DecidableEq, Repr

/-- The words of the window at fixed offsets (R184). -/
def fixedRegisterAt (n : Nat) : Option Register :=
  match n with
  | 0x000 => some .deviceStatus
  | 0x004 => some .deviceControl
  | 0x010 => some .interruptStatus
  | 0x014 => some .interruptEnable
  | 0x018 => some .timebase
  | 0x01C => some .responseLimit
  | 0x020 => some .memoryPortStatus
  | 0x200 => some .operandWord
  | 0x204 => some .submitWord
  | 0x208 => some .commandUnitStatus
  | 0x20C => some .commandCounts
  | 0x210 => some .lastError
  | 0x214 => some .syncMarker
  | 0x218 => some .probeResult
  | 0x240 => some .faultLogStatus
  | 0x244 => some .faultRecord0
  | 0x248 => some .faultRecord1
  | 0x24C => some .faultRecord2
  | 0x250 => some .faultLogPop
  | 0x280 => some .parkedSummary
  | _ => none

/-- The word at an offset of the window, if R184 assigns one: the repeated words stand at a base plus a multiple of 4. -/
def registerAt (offset : BitVec 12) : Option Register :=
  let n := offset.toNat
  if n % 4 ≠ 0 then none
  else if 0x040 ≤ n ∧ n < 0x050 then some (.portControl (Fin.ofNat 4 ((n - 0x040) / 4)))
  else if 0x050 ≤ n ∧ n < 0x060 then some (.portStatus (Fin.ofNat 4 ((n - 0x050) / 4)))
  else if 0x060 ≤ n ∧ n < 0x070 then some (.portBinding (Fin.ofNat 4 ((n - 0x060) / 4)))
  else if 0x100 ≤ n ∧ n < 0x180 then
    if n % 8 = 0 then some (.contextFrame (Fin.ofNat 16 ((n - 0x100) / 8)))
    else some (.contextControl (Fin.ofNat 16 ((n - 0x100) / 8)))
  else if 0x180 ≤ n ∧ n < 0x1A0 then some (.regionEntry (Fin.ofNat 8 ((n - 0x180) / 4)))
  else if 0x260 ≤ n ∧ n < 0x280 then
    some (.parkedPlace (Fin.ofNat 4 ((n - 0x260) / 8)) (if n % 8 = 0 then .normal else .urgent))
  else fixedRegisterAt n

/-- An access is malformed when its byte enables do not select all four bytes (R178). -/
def malformedAccess (enables : BitVec 4) : Bool := enables != 0xF#4

/-! ## Fields of written window words (R185) -/

/-- The reset field of a device-control word: bit 0. -/
def controlReset (w : Word) : Bool := w.getLsbD 0

/-- The OPEN bit of a port-control word: bit 0. -/
def portControlOpen (w : Word) : Bool := w.getLsbD 0

/-- The CLOSE bit of a port-control word: bit 1. -/
def portControlClose (w : Word) : Bool := w.getLsbD 1

/-- The binding field of a port binding word: bits 3..0. -/
def bindingField (w : Word) : ContextNumber := (w.extractLsb' 0 4).toFin

/-- The directory frame field of a context frame word: bits 23..0. -/
def frameField (w : Word) : Frame := w.extractLsb' 0 24

/-- The limit field of a context control word: bits 10..0. -/
def limitField (w : Word) : BitVec 11 := w.extractLsb' 0 11

/-- The fault policy bit of a context control word: bit 16, 1 for STALL. -/
def policyField (w : Word) : Bool := w.getLsbD 16

/-- The writes permitted bit of a context control word: bit 17. -/
def writesField (w : Word) : Bool := w.getLsbD 17

/-- The record flags bit of a context control word: bit 18. -/
def recordField (w : Word) : Bool := w.getLsbD 18

/-- The end field of a region entry word: bits 12..0. -/
def endField (w : Word) : BitVec 13 := w.extractLsb' 0 13

/-- The kind field of a region entry word: bits 17..16. -/
def kindField (w : Word) : BitVec 2 := w.extractLsb' 16 2

/-- The timebase field: bits 7..0. -/
def timebaseField (w : Word) : BitVec 8 := w.extractLsb' 0 8

/-- The response limit field: bits 15..0. -/
def responseLimitField (w : Word) : BitVec 16 := w.extractLsb' 0 16

/-- The cause bits of an interrupt status or enable word: bits 7..0. -/
def causeField (w : Word) : BitVec 8 := w.extractLsb' 0 8

end Sys2Proof.Machine
end

