-- ==== Sys2Proof/WellFormed.lean ====
section
/-! DEFINITION. Which commands the rows of the table can carry. The meanings are total: a command that is not
well formed has an effect too (the effect of the access or code it names). -/

namespace Sys2Proof

/-- A host access names a word of the window, one word every four bytes (R177). -/
def wordOffset (offset : BitVec 12) : Bool := offset.toNat % 4 == 0

/-- The checks on a command's operands: UNKNOWN_CODE carries a code that names no command (R143), a host access a word offset (R177),
and MALFORMED_READ incomplete byte enables or an unassigned offset (R178). Every other operand is legal as its type stands. -/
def Instr.wellFormed : Instr → Bool
  | .unknownCode code => (Machine.commandOfCode code).isNone
  | .registerWrite offset _ _ => wordOffset offset
  | .malformedRead offset enables =>
      wordOffset offset && (Machine.malformedAccess enables || (Machine.registerAt offset).isNone)
  | .powerOnReset => true
  | .resetnRelease => true
  | .deviceReset => true
  | .request _ _ => true
  | .delivery _ => true
  | .response _ _ => true
  | .cleared => true
  | .expiry => true
  | .clearExpiry => true
  | .grant => true
  | .transfer _ _ => true
  | .invalidatePage _ => true
  | .invalidateDirectory _ => true
  | .invalidateContext _ => true
  | .invalidateAll => true
  | .sync _ => true
  | .enableContext _ => true
  | .disableContext _ => true
  | .resume _ => true
  | .terminate _ => true
  | .clearMemoryPort => true
  | .probe _ => true
  | .openPort _ => true
  | .closePort _ => true
  | .portBindingWrite _ _ => true
  | .contextWrite _ _ _ => true
  | .regionEntryWrite _ _ => true
  | .timebaseWrite _ => true
  | .responseLimitWrite _ => true
  | .interruptStatusClear _ => true
  | .interruptEnableWrite _ => true
  | .faultLogPop _ => true
  | .commandTake => true

end Sys2Proof
end

