-- ==== Sys2Proof/Decode.lean ====
section
/-! DEFINITION. The commands that a word spells by the bits of spec/opcode_table.json. No row of this block's table gives bits ("fields"
is empty in all 36): the rows are events, and the words the part itself decodes (submit words, operand words, window offsets)
are read by Machine/Operands.lean. So no word spells a command. -/

namespace Sys2Proof

/-- The command a word of `nbits` bits spells by the table's bits: none, since no row gives bits. -/
def decodeTableWord (_nbits _w : Nat) : Option Instr := none

end Sys2Proof
end

