-- ==== Sys2Proof/Machine/State.lean ====
section
/-! DEFINITION. The state of the T840, block by block, and its values at power-on reset and right after it. -/

namespace Sys2Proof.Machine

/-! ## Outcomes -/

/-- Reasons a step can stop with a fault. The spec names no event that stops the part: its own faults are records, head states
and interrupt causes, all of them next states. So the type has no constructor, nothing raises it, and that is safe. -/
inductive Fault where
  deriving DecidableEq, Repr

/-- Reasons a step can be refused. -/
inductive Refusal where
  /-- An event that has no meaning yet, by its mnemonic. Raised by an arm of exec only (none does); safe. -/
  | notModelled (mnemonic : String)
  deriving DecidableEq, Repr

/-! ## Client ports (spec chapter 4) -/

/-- One value for each class of a port. -/
structure PerClass (α : Type) where
  normal : α
  urgent : α
  deriving DecidableEq, Repr

/-- The completion statuses of R62. -/
inductive Status where
  | done
  | memoryError
  | faulted
  | rejectedFormat
  | noContext
  | aborted
  deriving DecidableEq, Repr

/-- The local completion statuses a FINISHING head can hold (R53). -/
inductive LocalStatus where
  | rejectedFormat
  | aborted
  | noContext
  | faulted
  deriving DecidableEq, Repr

/-- The state of a request-queue entry: QUEUED, or a head state of R47. A READY head holds its physical address (R44). -/
inductive EntryState where
  | queued
  | waitSlot
  | walking
  | ready (address : PhysAddr)
  | parked
  | finishing (status : LocalStatus)
  deriving DecidableEq, Repr

/-- An entry of a request queue (R44). -/
structure Entry where
  request   : Request
  malformed : Bool
  abortMark : Bool
  state     : EntryState
  deriving DecidableEq, Repr

/-- The state of a return-list item (R54). `watched` marks an IN_FLIGHT item as a member of the SYNC watch set (R151). -/
inductive ItemState where
  | inFlight (watched : Bool)
  | done (status : Status) (data : Option (List Word))
  deriving DecidableEq, Repr

/-- An item of a return list (R54). -/
structure Item where
  tag   : BitVec 6
  cls   : ReqClass
  kind  : ReqKind
  state : ItemState
  deriving DecidableEq, Repr

/-- A completion record (R62). -/
structure Completion where
  tag    : BitVec 6
  cls    : ReqClass
  kind   : ReqKind
  status : Status
  data   : Option (List Word)
  deriving DecidableEq, Repr

/-- The states of a client port (R36). -/
inductive PortState where
  | closed
  | open_
  | closing
  deriving DecidableEq, Repr

/-- A client port (R36). -/
structure Port where
  state       : PortState
  binding     : ContextNumber
  queues      : PerClass (List Entry)
  returns     : PerClass (List Item)
  completions : List Completion
  deriving DecidableEq, Repr

/-- The name of a request queue, and so of its head: a port and a class (R47). -/
structure HeadId where
  port : PortNumber
  cls  : ReqClass
  deriving DecidableEq, Repr

/-! ## Contexts (spec chapter 3) -/

/-- The states of a context (R17). -/
inductive ContextState where
  | off
  | active
  | draining
  deriving DecidableEq, Repr

/-- The fault policies (R17). -/
inductive Policy where
  | abort
  | stall
  deriving DecidableEq, Repr

/-- A context record (R17). -/
structure ContextRecord where
  state           : ContextState
  directoryFrame  : Frame
  limit           : BitVec 11
  policy          : Policy
  writesPermitted : Bool
  recordFlags     : Bool
  deriving DecidableEq, Repr

/-! ## The caches (spec chapter 5) -/

/-- A page-cache entry (R66). -/
structure PageEntry where
  context       : ContextNumber
  page          : PageNumber
  frame         : Frame
  readPermit    : Bool
  writePermit   : Bool
  modifiedKnown : Bool
  deriving DecidableEq, Repr

/-- A directory-cache entry (R67). -/
structure DirEntry where
  context    : ContextNumber
  index      : BitVec 10
  tableFrame : Frame
  deriving DecidableEq, Repr

/-! ## The table walker (spec chapter 6) and memory transactions (R158) -/

/-- What a transaction asks of the memory side (R158): an UPDATE names referenced, and modified-if-write-permit for a FLAG walk (R96). -/
inductive TxnOp where
  | read (length : Nat)
  | write (length : Nat) (data : List Word)
  | update (modifiedToo : Bool)
  deriving DecidableEq, Repr

/-- Kinds of walk (R84). -/
inductive WalkKind where
  | fill
  | flag
  deriving DecidableEq, Repr

/-- Stages of a walk (R84). -/
inductive WalkStage where
  | directory
  | page
  | update
  deriving DecidableEq, Repr

/-- A BUSY walk (R84). `awaiting` tells whether its transaction awaits a grant or is outstanding (R85); `watched` marks it as
a member of the SYNC watch set (R151). -/
structure Walk where
  kind       : WalkKind
  context    : ContextNumber
  page       : PageNumber
  stage      : WalkStage
  stale      : Bool
  abandoned  : Bool
  waiters    : List HeadId
  op         : TxnOp
  address    : PhysAddr
  awaiting   : Bool
  tableFrame : Option Frame
  entryWord  : Option Word
  watched    : Bool
  deriving DecidableEq, Repr

/-- The request values kept with a client transaction (R158). -/
structure RequestValues where
  port    : PortNumber
  cls     : ReqClass
  tag     : BitVec 6
  kind    : ReqKind
  context : ContextNumber
  address : Word
  deriving DecidableEq, Repr

/-- The origin of a transaction (R158): a client item, named by its request values, or a walk slot. -/
inductive Origin where
  | client (values : RequestValues)
  | walk (slot : SlotNumber)
  deriving DecidableEq, Repr

/-- A transaction of the outstanding list (R158). -/
structure Transaction where
  op      : TxnOp
  address : PhysAddr
  origin  : Origin
  age     : Nat
  deriving DecidableEq, Repr

/-- The states of the memory port (chapter 10). -/
inductive MemState where
  | running
  | failed
  | clearing
  deriving DecidableEq, Repr

/-! ## The region map (spec chapter 7) -/

/-- Region kinds (R109). -/
inductive RegionKind where
  | absent
  | open_
  | readOnly
  | tables
  deriving DecidableEq, Repr

/-- A region entry (R109). -/
structure RegionEntry where
  endUnit : BitVec 13
  kind    : RegionKind
  deriving DecidableEq, Repr

/-! ## The fault unit (spec chapter 8) -/

/-- The nine fault causes (R120). -/
inductive FaultCause where
  | limit
  | directoryInvalid
  | pageInvalid
  | readDenied
  | writeDenied
  | regionDenied
  | tableRegion
  | tableError
  | dataError
  deriving DecidableEq, Repr

/-- The outcome field of a fault record (R122). -/
inductive RecordOutcome where
  | aborted
  | parked
  deriving DecidableEq, Repr

/-- A fault record (R122). -/
structure FaultRecord where
  sequence : BitVec 16
  port     : PortNumber
  cls      : ReqClass
  tag      : BitVec 6
  kind     : ReqKind
  context  : ContextNumber
  address  : Word
  cause    : FaultCause
  outcome  : RecordOutcome
  deriving DecidableEq, Repr

/-- What a place of the parked table holds (R133). -/
structure ParkedPlace where
  sequence : BitVec 16
  cause    : FaultCause
  deriving DecidableEq, Repr

/-! ## The command unit (spec chapter 9) -/

/-- A command of the command queue (R139). -/
structure Command where
  number  : BitVec 16
  code    : BitVec 8
  operand : Word
  taken   : Bool
  deriving DecidableEq, Repr

/-- Error codes of the last-error word (R155). -/
inductive ErrorCode where
  | none_
  | unknownCode
  | badOperand
  | wrongState
  | nothingParked
  deriving DecidableEq, Repr

/-- The last-error word (R143). -/
structure LastError where
  code   : ErrorCode
  number : BitVec 16
  deriving DecidableEq, Repr

/-- The probe result (R83). -/
structure ProbeResult where
  hit           : Bool
  frame         : Frame
  readPermit    : Bool
  writePermit   : Bool
  modifiedKnown : Bool
  deriving DecidableEq, Repr

/-! ## The register window -/

/-- The device state (R179). -/
inductive DeviceState where
  | ready
  | resetting
  deriving DecidableEq, Repr

/-- The answers of a client port (R41). -/
inductive Answer where
  | accept
  | hold
  | decline
  deriving DecidableEq, Repr

/-- What an event hands to the outside: the answer to a request (R41), a completion record (R61), a transaction or a CLEAR sent to the
memory side (R158, R171), the data of a host read (R177). -/
inductive Output where
  | answer (port : PortNumber) (answer : Answer)
  | completion (port : PortNumber) (record : Completion)
  | transaction (op : TxnOp) (address : PhysAddr)
  | clear
  | readData (value : Word)
  deriving DecidableEq, Repr

/-! ## The whole part -/

/-- The state of the part. `pending` is the model's queue of events that are to come, and `emitted` what the latest event handed to
the outside (both are the model's own); every other field is named in the spec. -/
structure State where
  -- register window and interrupts
  resetnLow      : Bool
  device         : DeviceState
  irqStatus      : BitVec 8
  irqEnable      : BitVec 8
  -- client ports and contexts
  ports          : Vector Port 4
  contexts       : Vector ContextRecord 16
  -- caches, each front most recently used
  pageCache      : List PageEntry
  dirCache       : List DirEntry
  -- table walker
  slots          : Vector (Option Walk) 4
  startOrder     : List SlotNumber
  slotWait       : List HeadId
  -- region map
  regions        : Vector RegionEntry 8
  -- fault unit
  faultLog       : List FaultRecord
  nextSeq        : BitVec 16
  parked         : Vector (PerClass (Option ParkedPlace)) 4
  -- command unit
  commands       : List Command
  operandWord    : Word
  takenCount     : BitVec 16
  completedCount : BitVec 16
  lastError      : LastError
  syncMarker     : BitVec 16
  probe          : ProbeResult
  -- memory port
  memState       : MemState
  outstanding    : List Transaction
  responseLimit  : BitVec 16
  timebase       : BitVec 8
  tickLeft       : Nat
  lastUrgent     : PortNumber
  lastNormal     : PortNumber
  runCount       : Nat
  clearAge       : Nat
  clearRepeated  : Bool
  lateCleared    : Bool
  -- the model's own
  emitted        : List Output
  pending        : List Instr
  deriving DecidableEq, Repr

/-! ## Reset values -/

/-- A port after power-on reset (R63). -/
def Port.powerOn : Port :=
  { state := .closed, binding := 0, queues := ⟨[], []⟩, returns := ⟨[], []⟩, completions := [] }

/-- A context record after power-on reset (R18). -/
def ContextRecord.powerOn : ContextRecord :=
  { state := .off, directoryFrame := 0#24, limit := 0#11, policy := .abort,
    writesPermitted := false, recordFlags := false }

/-- A region entry after power-on reset (R110). -/
def RegionEntry.powerOn : RegionEntry := { endUnit := 0#13, kind := .absent }

/-- The last-error word after both resets (R143). -/
def LastError.reset : LastError := { code := .none_, number := 0#16 }

/-- The probe result after both resets (R83). -/
def ProbeResult.reset : ProbeResult :=
  { hit := false, frame := 0#24, readPermit := false, writePermit := false, modifiedKnown := false }

/-- The part while RESETN is held low: every piece of state at its power-on value (R179). DESIGN CHOICE (log entry 5): the device
state reads RESETTING and the memory port CLEARING with no CLEAR sent; neither can be observed before the release. -/
def State.powerOn : State :=
  { resetnLow := true
    device := .resetting
    irqStatus := 0#8
    irqEnable := 0#8
    ports := Vector.replicate 4 Port.powerOn
    contexts := Vector.replicate 16 ContextRecord.powerOn
    pageCache := []
    dirCache := []
    slots := Vector.replicate 4 none
    startOrder := []
    slotWait := []
    regions := Vector.replicate 8 RegionEntry.powerOn
    faultLog := []
    nextSeq := 0#16
    parked := Vector.replicate 4 ⟨none, none⟩
    commands := []
    operandWord := 0#32
    takenCount := 0#16
    completedCount := 0#16
    lastError := LastError.reset
    syncMarker := 0#16
    probe := ProbeResult.reset
    memState := .clearing
    outstanding := []
    responseLimit := Config.powerOnResponseLimit
    timebase := Config.powerOnTimebase
    tickLeft := Config.powerOnTimebase.toNat
    lastUrgent := 3
    lastNormal := 3
    runCount := 0
    clearAge := 0
    clearRepeated := false
    lateCleared := false
    emitted := []
    pending := [] }

/-- The part right after power-on reset: RESETN has just been released, the device is RESETTING, the memory port is CLEARING
and has sent its CLEAR (R174, R179; log entry 5). -/
def State.reset : State :=
  { State.powerOn with resetnLow := false, emitted := [.clear] }

end Sys2Proof.Machine
end

