-- ==== Sys2Proof/Machine/Flags.lean ====
section
/-! DEFINITION. Flag computations: the interrupt causes and INTN (R182, R183) and the flag bits of the table entries in memory (R188). -/

namespace Sys2Proof.Machine

/-! ## Interrupt causes (spec section 12.4) -/

/-- The eight interrupt causes. -/
inductive IrqCause where
  | faultLogged
  | logOverflow
  | syncDone
  | commandError
  | commandRefused
  | memoryFailed
  | programError
  | accessError
  deriving DecidableEq, Repr

/-- The bit number of a cause (section 12.4). -/
def IrqCause.bit : IrqCause → Nat
  | .faultLogged => 0
  | .logOverflow => 1
  | .syncDone => 2
  | .commandError => 3
  | .commandRefused => 4
  | .memoryFailed => 5
  | .programError => 6
  | .accessError => 7

/-- The mask of a cause in the interrupt status and enable words. -/
def IrqCause.mask (c : IrqCause) : BitVec 8 := 1#8 <<< c.bit

/-- Sets a cause; setting a set cause leaves it set (R182). -/
def State.raise (c : IrqCause) (s : State) : State := { s with irqStatus := s.irqStatus ||| c.mask }

/-- Whether a cause is set. -/
def State.causeSet (s : State) (c : IrqCause) : Bool := s.irqStatus.getLsbD c.bit

/-- Clears each cause written as 1 (R182). -/
def State.clearCauses (bits : BitVec 8) (s : State) : State := { s with irqStatus := s.irqStatus &&& ~~~bits }

/-- Whether INTN is asserted (low): at least one cause is both set and enabled (R183), and RESETN is not held low (R179). -/
def State.intnAsserted (s : State) : Bool := !s.resetnLow && (s.irqStatus &&& s.irqEnable) != 0#8

/-! ## Table entries (R188) -/

/-- The valid bit of a directory or page entry: bit 0. -/
def entryValid (w : Word) : Bool := w.getLsbD 0

/-- The read permit of a page entry: bit 1. -/
def entryRead (w : Word) : Bool := w.getLsbD 1

/-- The write permit of a page entry: bit 2. -/
def entryWrite (w : Word) : Bool := w.getLsbD 2

/-- The referenced flag of a page entry: bit 3. -/
def entryReferenced (w : Word) : Bool := w.getLsbD 3

/-- The modified flag of a page entry: bit 4. -/
def entryModified (w : Word) : Bool := w.getLsbD 4

/-- The frame of a page entry, or the table frame of a directory entry: bits 31..8. -/
def entryFrame (w : Word) : Frame := w.extractLsb' 8 24

/-- The word with referenced set: bit 3. -/
def setReferenced (w : Word) : Word := w ||| 0x8#32

/-- The word with modified set: bit 4. -/
def setModified (w : Word) : Word := w ||| 0x10#32

/-- The flags an UPDATE names, applied to the word it returned when that word is valid (R13, R97): referenced, and for a FLAG walk modified
when the word's write permit is yes. -/
def applyUpdate (kind : WalkKind) (w : Word) : Word :=
  match kind with
  | .fill => setReferenced w
  | .flag => if entryWrite w then setModified (setReferenced w) else setReferenced w

end Sys2Proof.Machine
end

