-- ==== Sys2Proof/Machine/Ops.lean ====
section
/-! DEFINITION. The named operations every block shares: per-class and per-number access, the request queues and their heads,
return lists and credit, walk slots, the region map, and what an event hands outside. -/

namespace Sys2Proof.Machine

/-! ## Access by class, port, context, slot -/

/-- The value of a class. -/
def PerClass.get {α : Type} (x : PerClass α) : ReqClass → α
  | .normal => x.normal
  | .urgent => x.urgent

/-- Replaces the value of a class. -/
def PerClass.set {α : Type} (x : PerClass α) (c : ReqClass) (v : α) : PerClass α :=
  match c with
  | .normal => { x with normal := v }
  | .urgent => { x with urgent := v }

/-- The four ports in ascending number. -/
def allPorts : List PortNumber := [0, 1, 2, 3]

/-- The sixteen contexts in ascending number. -/
def allContexts : List ContextNumber := [0, 1, 2, 3, 4, 5, 6, 7, 8, 9, 10, 11, 12, 13, 14, 15]

/-- The four walk slots in ascending number. -/
def allSlots : List SlotNumber := [0, 1, 2, 3]

/-- The eight request queues: ascending port, and within a port URGENT before NORMAL (the order of R80 step 3). -/
def allHeads : List HeadId :=
  [⟨0, .urgent⟩, ⟨0, .normal⟩, ⟨1, .urgent⟩, ⟨1, .normal⟩, ⟨2, .urgent⟩, ⟨2, .normal⟩, ⟨3, .urgent⟩, ⟨3, .normal⟩]

/-- The record of a port. -/
def State.port (s : State) (p : PortNumber) : Port := s.ports[p.val]

/-- Replaces the record of a port. -/
def State.setPort (p : PortNumber) (v : Port) (s : State) : State := { s with ports := s.ports.set p.val v }

/-- The record of a context. -/
def State.context (s : State) (c : ContextNumber) : ContextRecord := s.contexts[c.val]

/-- Replaces the record of a context. -/
def State.setContext (c : ContextNumber) (v : ContextRecord) (s : State) : State :=
  { s with contexts := s.contexts.set c.val v }

/-- The walk a slot holds, if it is BUSY. -/
def State.slot (s : State) (i : SlotNumber) : Option Walk := s.slots[i.val]

/-- Replaces what a slot holds. -/
def State.setSlot (i : SlotNumber) (v : Option Walk) (s : State) : State := { s with slots := s.slots.set i.val v }

/-- A region entry. -/
def State.region (s : State) (i : Fin 8) : RegionEntry := s.regions[i.val]

/-- Replaces a region entry. -/
def State.setRegion (i : Fin 8) (v : RegionEntry) (s : State) : State := { s with regions := s.regions.set i.val v }

/-- A place of the parked table (R133). -/
def State.parkedPlace (s : State) (h : HeadId) : Option ParkedPlace := (s.parked[h.port.val]).get h.cls

/-- Replaces a place of the parked table. -/
def State.setParked (h : HeadId) (v : Option ParkedPlace) (s : State) : State :=
  { s with parked := s.parked.set h.port.val ((s.parked[h.port.val]).set h.cls v) }

/-- The device takes host accesses, requests and deliveries: RESETN is released and the device is READY (R179, R181). -/
def State.ready (s : State) : Bool := !s.resetnLow && s.device == .ready

/-- Every context is OFF (R114). -/
def State.allOff (s : State) : Bool := s.contexts.toList.all fun c => c.state == .off

/-! ## What an event hands outside -/

/-- An event begins: nothing handed outside yet. -/
def State.beginEvent (s : State) : State := { s with emitted := [] }

/-- Hands a message outside, after those already handed. -/
def State.emit (o : Output) (s : State) : State := { s with emitted := s.emitted ++ [o] }

/-! ## Request queues (R44 to R47) -/

/-- A request queue, head first. -/
def State.queue (s : State) (h : HeadId) : List Entry := (s.port h.port).queues.get h.cls

/-- Replaces a request queue. -/
def State.setQueue (h : HeadId) (q : List Entry) (s : State) : State :=
  s.setPort h.port { s.port h.port with queues := (s.port h.port).queues.set h.cls q }

/-- The head entry of a queue. -/
def State.head? (s : State) (h : HeadId) : Option Entry := (s.queue h).head?

/-- The context a queue's requests are translated in: its port's binding (R31). -/
def State.boundContext (s : State) (h : HeadId) : ContextNumber := (s.port h.port).binding

/-- A queue with its head put in a state. -/
def withHeadState (st : EntryState) : List Entry → List Entry
  | [] => []
  | e :: rest => { e with state := st } :: rest

/-- Puts the head of a queue in a state. -/
def State.setHeadState (h : HeadId) (st : EntryState) (s : State) : State :=
  s.setQueue h (withHeadState st (s.queue h))

/-- Makes a head FINISHING with a local status (R53). -/
def State.finishHead (h : HeadId) (st : LocalStatus) (s : State) : State := s.setHeadState h (.finishing st)

/-! ## Return lists, completions and credit (R54 to R61) -/

/-- A port's credit in use: completion records plus return-list items (R55). -/
def Port.creditInUse (p : Port) : Nat :=
  p.completions.length + p.returns.normal.length + p.returns.urgent.length

/-- A port has a credit free (R55). -/
def Port.hasCredit (p : Port) : Bool := decide (p.creditInUse < Config.credit)

/-- All queues, lists and the completion queue of a port are empty (R39). -/
def Port.isEmpty (p : Port) : Bool :=
  p.queues.normal.isEmpty && p.queues.urgent.isEmpty && p.returns.normal.isEmpty
    && p.returns.urgent.isEmpty && p.completions.isEmpty

/-- The completion record of a DONE item (R60, R62). -/
def Item.record (i : Item) (st : Status) (data : Option (List Word)) : Completion :=
  { tag := i.tag, cls := i.cls, kind := i.kind, status := st, data := data }

/-- The records of the DONE items at the front of a return list, and the items left (R60). -/
def splitDone : List Item → List Completion × List Item
  | [] => ([], [])
  | i :: rest =>
    match i.state with
    | .inFlight _ => ([], i :: rest)
    | .done st data => (i.record st data :: (splitDone rest).1, (splitDone rest).2)

/-- DONE items at the front of a class's return list move into the completion queue, in order (R60). -/
def Port.flushReturns (c : ReqClass) (p : Port) : Port :=
  { p with
    returns := p.returns.set c (splitDone (p.returns.get c)).2
    completions := p.completions ++ (splitDone (p.returns.get c)).1 }

/-- An item enters the back of its class's return list, and R60 is applied. -/
def Port.pushReturn (i : Item) (p : Port) : Port :=
  Port.flushReturns i.cls { p with returns := p.returns.set i.cls (p.returns.get i.cls ++ [i]) }

/-- The first IN_FLIGHT item of a return list becomes DONE: transactions of one list end in issue order, so the oldest ends first
(R59, R165; log entry 8). -/
def endFirstInFlight (st : Status) (data : Option (List Word)) : List Item → List Item
  | [] => []
  | i :: rest =>
    match i.state with
    | .inFlight _ => { i with state := .done st data } :: rest
    | .done _ _ => i :: endFirstInFlight st data rest

/-- The end of the transaction of a port and class's oldest IN_FLIGHT item (R59), and the moves of R60. -/
def State.endItem (h : HeadId) (st : Status) (data : Option (List Word)) (s : State) : State :=
  let p := s.port h.port
  s.setPort h.port
    (Port.flushReturns h.cls { p with returns := p.returns.set h.cls (endFirstInFlight st data (p.returns.get h.cls)) })

/-- The head leaves its queue and its item enters the class return list (R46). -/
def moveHead (h : HeadId) (state : ItemState) (e : Entry) (s : State) : State :=
  let p := s.port h.port
  s.setPort h.port
    (Port.pushReturn { tag := e.request.tag, cls := h.cls, kind := e.request.kind, state := state }
      { p with queues := p.queues.set h.cls (p.queues.get h.cls).tail })

/-- The completion status of a local status (R53, R62). -/
def LocalStatus.status : LocalStatus → Status
  | .rejectedFormat => .rejectedFormat
  | .aborted => .aborted
  | .noContext => .noContext
  | .faulted => .faulted

/-- A CLOSING port whose queues, lists and completion queue are empty becomes CLOSED (R39). -/
def Port.closeIfEmpty (p : Port) : Port :=
  if p.state = .closing ∧ p.isEmpty = true then { p with state := .closed } else p

/-! ## Walk slots (R84, R91) -/

/-- The lowest-numbered FREE slot (R88). -/
def State.freeSlot? (s : State) : Option SlotNumber := allSlots.find? fun i => (s.slot i).isNone

/-- Whether a slot's walk is BUSY, not abandoned and of the given key (R89). -/
def walkOfKey (c : ContextNumber) (p : PageNumber) : Option Walk → Bool
  | some w => !w.abandoned && w.context == c && w.page == p
  | none => false

/-- The slot whose BUSY walk has the given key and is not abandoned (R89). -/
def State.findWalk (s : State) (c : ContextNumber) (p : PageNumber) : Option SlotNumber :=
  allSlots.find? fun i => walkOfKey c p (s.slot i)

/-- A walk ends: its slot becomes FREE and its fields are discarded (R84); it leaves the start order. -/
def State.releaseSlot (i : SlotNumber) (s : State) : State :=
  { s.setSlot i none with startOrder := s.startOrder.filter (· != i) }

/-! ## The region map (R111, R112) -/

/-- The kind of the first entry whose end is greater than the unit; ABSENT when there is none (R111). -/
def regionLookup (regions : List RegionEntry) (unit : Nat) : RegionKind :=
  match regions.find? fun r => decide (unit < r.endUnit.toNat) with
  | some r => r.kind
  | none => .absent

/-- The region kind of a physical address (R111). -/
def State.regionOf (s : State) (address : PhysAddr) : RegionKind :=
  regionLookup s.regions.toList (unitOf address)

/-- Whether a region kind admits a client access (R112). -/
def admitsClient : RegionKind → ReqKind → Bool
  | .open_, _ => true
  | .readOnly, .read => true
  | .readOnly, .write => false
  | .tables, _ => false
  | .absent, _ => false

/-- Whether a region kind admits a table access: a READ, or an UPDATE (R112). -/
def admitsTable : RegionKind → TxnOp → Bool
  | .open_, _ => true
  | .tables, _ => true
  | .readOnly, .read _ => true
  | .readOnly, _ => false
  | .absent, _ => false

end Sys2Proof.Machine
end

