-- ==== Sys2Proof/Machine/Cache.lean ====
section
/-! DEFINITION. The translation cache (spec chapter 5): recency order, lookup, fills and replacement, removal, the probe. -/

namespace Sys2Proof.Machine

/-! ## The page cache -/

/-- Whether an entry has the key (R68). -/
def PageEntry.hasKey (c : ContextNumber) (p : PageNumber) (e : PageEntry) : Bool := e.context == c && e.page == p

/-- The page-cache entry of a key, if one is held (R70). -/
def State.pageLookup (s : State) (c : ContextNumber) (p : PageNumber) : Option PageEntry :=
  s.pageCache.find? (PageEntry.hasKey c p)

/-- The page cache without the entry of a key; the rest keep their order (R78, R79). -/
def State.removePage (c : ContextNumber) (p : PageNumber) (s : State) : State :=
  { s with pageCache := s.pageCache.filter fun e => !e.hasKey c p }

/-- A hit moves its entry to the front (R70). -/
def State.touchPage (e : PageEntry) (s : State) : State :=
  { s with pageCache := e :: s.pageCache.filter fun x => !x.hasKey e.context e.page }

/-- A list with one more entry at the front; when it is full the entry at the back is removed first (R76, R77). -/
def pushFront {α : Type} (size : Nat) (x : α) (l : List α) : List α :=
  if l.length < size then x :: l else x :: l.take (size - 1)

/-- The fill of R76: a held entry of the key is refreshed at the front; otherwise the new entry is inserted there, in place of the
least recently used one when the cache is full. -/
def State.fillPage (e : PageEntry) (s : State) : State :=
  match s.pageLookup e.context e.page with
  | some _ => s.touchPage e
  | none => { s with pageCache := pushFront Config.pageCacheSize e s.pageCache }

/-- The entry a page-entry word gives (R75): modified-known is yes for a context that keeps no flags, or when the word shows modified. -/
def pageEntryOf (c : ContextNumber) (p : PageNumber) (recordFlags : Bool) (w : Word) : PageEntry :=
  { context := c, page := p, frame := entryFrame w, readPermit := entryRead w, writePermit := entryWrite w
    modifiedKnown := !recordFlags || entryModified w }

/-! ## The directory cache -/

/-- Whether an entry has the key (R68). -/
def DirEntry.hasKey (c : ContextNumber) (d : BitVec 10) (e : DirEntry) : Bool := e.context == c && e.index == d

/-- The directory-cache entry of a key, if one is held (R67). -/
def State.dirLookup (s : State) (c : ContextNumber) (d : BitVec 10) : Option DirEntry :=
  s.dirCache.find? (DirEntry.hasKey c d)

/-- A hit moves its entry to the front (R67). -/
def State.touchDir (e : DirEntry) (s : State) : State :=
  { s with dirCache := e :: s.dirCache.filter fun x => !x.hasKey e.context e.index }

/-- The fill of R77, as R76 for the page cache. -/
def State.fillDir (e : DirEntry) (s : State) : State :=
  match s.dirLookup e.context e.index with
  | some _ => s.touchDir e
  | none => { s with dirCache := pushFront Config.dirCacheSize e s.dirCache }

/-! ## Removal by scope (R79) and by disable (R22 step 1) -/

/-- What an invalidation covers (R79). -/
inductive Scope where
  | page (context : ContextNumber) (page : PageNumber)
  | directory (context : ContextNumber) (index : BitVec 10)
  | context (context : ContextNumber)
  | all
  deriving DecidableEq, Repr

/-- Whether a context and client page number lie in a scope (R79). -/
def Scope.covers (c : ContextNumber) (p : PageNumber) : Scope → Bool
  | .page c' p' => c == c' && p == p'
  | .directory c' d => c == c' && directoryIndex p == d
  | .context c' => c == c'
  | .all => true

/-- Whether an invalidation removes the directory-cache entry of a key (R79). -/
def Scope.coversDir (c : ContextNumber) (d : BitVec 10) : Scope → Bool
  | .page _ _ => false
  | .directory c' d' => c == c' && d == d'
  | .context c' => c == c'
  | .all => true

/-- Both caches lose the entries an invalidation names; the rest keep their order (R79, R80 step 1). -/
def State.removeScope (sc : Scope) (s : State) : State :=
  { s with
    pageCache := s.pageCache.filter fun e => !sc.covers e.context e.page
    dirCache := s.dirCache.filter fun e => !sc.coversDir e.context e.index }

/-! ## The probe (R82, R83) -/

/-- The probe result for a key: the entry as it stands, or a miss. -/
def State.probeResult (s : State) (c : ContextNumber) (p : PageNumber) : ProbeResult :=
  match s.pageLookup c p with
  | some e =>
    { hit := true, frame := e.frame, readPermit := e.readPermit, writePermit := e.writePermit
      modifiedKnown := e.modifiedKnown }
  | none => ProbeResult.reset

end Sys2Proof.Machine
end

