-- ==== Sys2Proof/Machine/FaultUnit.lean ====
section
/-! DEFINITION. The fault unit (spec chapter 8): the fault log, parking and finishing. This is the part's one shared operation for taking
a fault. -/

namespace Sys2Proof.Machine

/-- The log has room for a record (R124). -/
def State.logHasRoom (s : State) : Bool := decide (s.faultLog.length < Config.faultLogSize)

/-- A record is appended with the next sequence number, which advances, and FAULT_LOGGED is set (R124). -/
def State.appendRecord (v : RequestValues) (cause : FaultCause) (outcome : RecordOutcome) (s : State) : State :=
  State.raise .faultLogged
    { s with
      faultLog := s.faultLog ++ [{
        sequence := s.nextSeq, port := v.port, cls := v.cls, tag := v.tag, kind := v.kind
        context := v.context, address := v.address, cause := cause, outcome := outcome }]
      nextSeq := s.nextSeq + 1#16 }

/-- The six values handed over with a fault of a head (R121). -/
def State.requestValues (s : State) (h : HeadId) (r : Request) : RequestValues :=
  { port := h.port, cls := h.cls, tag := r.tag, kind := r.kind, context := s.boundContext h, address := r.address }

/-- The head is PARKED on the record about to be written, and its place takes the record's number and cause (R130, R133). -/
def State.parkHead (h : HeadId) (cause : FaultCause) (s : State) : State :=
  (s.setHeadState h .parked).setParked h (some { sequence := s.nextSeq, cause := cause })

/-- The fault unit takes a head fault (R129): with room in the log a record is written, and the head is parked under STALL or
finished FAULTED under ABORT; with the log full LOG_OVERFLOW is set and the head is finished FAULTED. -/
def takeHeadFault (cause : FaultCause) (h : HeadId) (s : State) : State :=
  match s.head? h with
  | none => s
  | some e =>
    let v := s.requestValues h e.request
    if s.logHasRoom then
      match (s.context (s.boundContext h)).policy with
      | .stall => (s.parkHead h cause).appendRecord v cause .parked
      | .abort => (s.finishHead h .faulted).appendRecord v cause .aborted
    else (s.finishHead h .faulted).raise .logOverflow

/-- The fault unit takes a DATA_ERROR (R132): a record with outcome ABORTED if the log has room, LOG_OVERFLOW if it has none. -/
def takeDataError (v : RequestValues) (s : State) : State :=
  if s.logHasRoom then s.appendRecord v .dataError .aborted else s.raise .logOverflow

end Sys2Proof.Machine
end

