-- ==== Sys2Proof/Machine/Walker.lean ====
section
/-! DEFINITION. Presentation of heads (R48 to R50, R70 to R74) and the table walker (spec chapter 6): walks, their stages, completion,
failure, stale restart, abandonment, and the slot wait list. -/

namespace Sys2Proof.Machine

/-! ## Forming table transactions (R92, R93) -/

/-- A walk forms a transaction: the region check first, then the memory port's state (R92). The walk that results awaits a grant, in the
stage of the transaction; an error is the cause the walk fails with. -/
def formTransaction (s : State) (w : Walk) (stage : WalkStage) (op : TxnOp) (address : PhysAddr) :
    Except FaultCause Walk :=
  if admitsTable (s.regionOf address) op then
    if s.memState = .running then
      .ok { w with stage := stage, op := op, address := address, awaiting := true }
    else .error .tableError
  else .error .tableRegion

/-- The stage after DIRECTORY, with the table frame it gave: PAGE for a FILL walk, UPDATE for a FLAG walk (R93, R94). -/
def formTableAccess (s : State) (w : Walk) (frame : Frame) : Except FaultCause Walk :=
  match w.kind with
  | .fill =>
    formTransaction s { w with tableFrame := some frame } .page (.read 4) (entryAddress frame (pageIndex w.page))
  | .flag =>
    formTransaction s { w with tableFrame := some frame } .update (.update true)
      (entryAddress frame (pageIndex w.page))

/-- A walk enters its directory stage (R93): a directory-cache hit moves its entry to the front and gives the table frame; a miss
forms a directory READ through the context's directory frame. -/
def enterDirectory (w : Walk) (s : State) : State × Except FaultCause Walk :=
  match s.dirLookup w.context (directoryIndex w.page) with
  | some e => (s.touchDir e, formTableAccess s w e.tableFrame)
  | none =>
    (s, formTransaction s w .directory (.read 4)
      (entryAddress (s.context w.context).directoryFrame (directoryIndex w.page)))

/-! ## Starting, joining and waiting (R88 to R90) -/

/-- A walk as it starts (R88); its transaction is formed on entering the directory stage. -/
def newWalk (kind : WalkKind) (c : ContextNumber) (p : PageNumber) (h : HeadId) : Walk :=
  { kind := kind, context := c, page := p, stage := .directory, stale := false, abandoned := false, waiters := [h]
    op := .read 4, address := 0#36, awaiting := true, tableFrame := none, entryWord := none, watched := false }

/-- A FREE slot starts a walk for a head (R88). A walk that fails at its first transaction leaves the slot FREE, and its one waiter
takes the fault (R100). -/
def startWalk (i : SlotNumber) (kind : WalkKind) (c : ContextNumber) (p : PageNumber) (h : HeadId) (s : State) :
    State :=
  match enterDirectory (newWalk kind c p h) s with
  | (s', .ok w) =>
    { (s'.setSlot i (some w)).setHeadState h .walking with startOrder := s'.startOrder ++ [i] }
  | (s', .error cause) => takeHeadFault cause h s'

/-- A head goes to the back of a BUSY walk's waiter list (R89). -/
def joinWalk (i : SlotNumber) (h : HeadId) (s : State) : State :=
  match s.slot i with
  | some w => (s.setSlot i (some { w with waiters := w.waiters ++ [h] })).setHeadState h .walking
  | none => s

/-- A head needs a walk of a kind (R72, R73): it joins the BUSY walk of its key, or starts one in the lowest-numbered FREE slot,
or waits at the back of the slot wait list. -/
def needWalk (kind : WalkKind) (c : ContextNumber) (p : PageNumber) (h : HeadId) (s : State) : State :=
  match s.findWalk c p with
  | some i => joinWalk i h s
  | none =>
    match s.freeSlot? with
    | some i => startWalk i kind c p h s
    | none => { s.setHeadState h .waitSlot with slotWait := s.slotWait ++ [h] }

/-! ## Lookup and presentation (R48, R70 to R72) -/

/-- The cause with which a hit refuses a request, if it does: the permission check of R8, then the region check of R9 (R71). -/
def accessFault (s : State) (c : ContextNumber) (r : Request) (e : PageEntry) : Option FaultCause :=
  match r.kind with
  | .read =>
    if !e.readPermit then some .readDenied
    else if admitsClient (s.regionOf (dataAddress e.frame (clientOffset r.address))) .read then none
    else some .regionDenied
  | .write =>
    if !(e.writePermit && (s.context c).writesPermitted) then some .writeDenied
    else if admitsClient (s.regionOf (dataAddress e.frame (clientOffset r.address))) .write then none
    else some .regionDenied

/-- What a hit that passes its checks gives (R72): READY at the physical address, or the need of a FLAG walk for a WRITE through an
entry with modified-known no. -/
def admitHit (c : ContextNumber) (r : Request) (e : PageEntry) (h : HeadId) (s : State) : State :=
  if r.kind = .write ∧ e.modifiedKnown = false then needWalk .flag c (clientPage r.address) h s
  else s.setHeadState h (.ready (dataAddress e.frame (clientOffset r.address)))

/-- The page-cache lookup of a head (R70 to R73). A hit moves its entry to the front whatever the checks decide. -/
def lookupHead (c : ContextNumber) (r : Request) (h : HeadId) (s : State) : State :=
  match s.pageLookup c (clientPage r.address) with
  | none => needWalk .fill c (clientPage r.address) h s
  | some e =>
    match accessFault s c r e with
    | some cause => takeHeadFault cause h (s.touchPage e)
    | none => admitHit c r e h (s.touchPage e)

/-- A head is presented for translation: the checks of R48 in their order. -/
def present (h : HeadId) (s : State) : State :=
  match s.head? h with
  | none => s
  | some e =>
    if e.malformed then s.finishHead h .rejectedFormat
    else if e.abortMark then s.finishHead h .aborted
    else if (s.context (s.boundContext h)).state ≠ .active then s.finishHead h .noContext
    else if (s.context (s.boundContext h)).limit.toNat ≤ (directoryIndex (clientPage e.request.address)).toNat then
      takeHeadFault .limit h s
    else lookupHead (s.boundContext h) e.request h s

/-- Heads are presented one after another (R80 step 3, R98 step 3). -/
def presentAll (hs : List HeadId) (s : State) : State := hs.foldl (fun t h => present h t) s

/-- While a slot is FREE and the slot wait list is not empty, its front head leaves it and is presented (R91). A presentation made
with a slot FREE never returns its head to the list, so one turn for each head of the list is enough. -/
def drainWait : Nat → State → State
  | 0, s => s
  | n + 1, s =>
    match s.freeSlot?, s.slotWait with
    | some _, h :: rest => drainWait n (present h { s with slotWait := rest })
    | _, _ => s

/-- The re-presentation of R91, after the rest of an event's work. -/
def representWaiting (s : State) : State := drainWait s.slotWait.length s

/-- A head becoming head, resumed or invalidated is presented; a slot that its walk freed again is offered to the slot wait list
(R48, R91, R100). -/
def presentHead (h : HeadId) (s : State) : State := representWaiting (present h s)

/-! ## Completion and failure (R98, R100) -/

/-- The fault is delivered to each waiter, in waiter order (R100 step 3). -/
def deliverFault (cause : FaultCause) (hs : List HeadId) (s : State) : State :=
  hs.foldl (fun t h => takeHeadFault cause h t) s

/-- A FLAG walk failing with PAGE_INVALID removes the entry of its key (R78). -/
def dropFlagged (w : Walk) (cause : FaultCause) (s : State) : State :=
  if w.kind = .flag ∧ cause = .pageInvalid then s.removePage w.context w.page else s

/-- A walk fails with a cause (R100, in its order). -/
def failWalk (i : SlotNumber) (cause : FaultCause) (s : State) : State :=
  match s.slot i with
  | none => s
  | some w => representWaiting (deliverFault cause w.waiters ((dropFlagged w cause s).releaseSlot i))

/-- A walk completes with its page entry word (R98, in its order). -/
def completeWalk (i : SlotNumber) (w : Walk) (word : Word) (s : State) : State :=
  representWaiting (presentAll w.waiters
    ((s.fillPage (pageEntryOf w.context w.page (s.context w.context).recordFlags word)).releaseSlot i))

/-- A walk goes on with the transaction it has formed, or fails with the cause that refused it. -/
def continueWalk (i : SlotNumber) (r : Except FaultCause Walk) (s : State) : State :=
  match r with
  | .ok w => s.setSlot i (some w)
  | .error cause => failWalk i cause s

/-! ## Responses to a walk (R94, R95, R97, R102, R104) -/

/-- A directory READ is answered OK (R94). -/
def takeDirectoryWord (i : SlotNumber) (w : Walk) (word : Word) (s : State) : State :=
  if entryValid word then
    let s' := s.fillDir { context := w.context, index := directoryIndex w.page, tableFrame := entryFrame word }
    continueWalk i (formTableAccess s' w (entryFrame word)) s'
  else failWalk i .directoryInvalid s

/-- A page READ is answered OK (R95). -/
def takePageWord (i : SlotNumber) (w : Walk) (word : Word) (s : State) : State :=
  if !entryValid word then failWalk i .pageInvalid s
  else if (s.context w.context).recordFlags && !entryReferenced word then
    continueWalk i (formTransaction s { w with entryWord := some word } .update (.update false) w.address) s
  else completeWalk i w word s

/-- An UPDATE is answered OK (R97). -/
def takeUpdateWord (i : SlotNumber) (w : Walk) (word : Word) (s : State) : State :=
  if entryValid word then completeWalk i w (applyUpdate w.kind word) s
  else failWalk i .pageInvalid s

/-- A walk restarts at its directory stage, keeping its kind, key, waiters and start order (R101, R102). -/
def restartWalk (i : SlotNumber) (w : Walk) (s : State) : State :=
  match enterDirectory { w with stage := .directory, stale := false, tableFrame := none, entryWord := none } s with
  | (s', r) => continueWalk i r s'

/-- An abandoned walk ends with no fill and no fault, and its slot is offered to the slot wait list (R104). -/
def endAbandoned (i : SlotNumber) (s : State) : State := representWaiting (s.releaseSlot i)

/-- The response to a walk's transaction is taken (R165): abandoned walks end, stale walks restart, others go on by their stage. -/
def takeWalkResponse (i : SlotNumber) (status : ResponseStatus) (data : List Word) (s : State) : State :=
  match s.slot i with
  | none => s
  | some w =>
    if w.abandoned then endAbandoned i s
    else if w.stale then restartWalk i w s
    else
      match status, data with
      | .error, _ => failWalk i .tableError s
      | .ok, [] => s
      | .ok, word :: _ =>
        match w.stage with
        | .directory => takeDirectoryWord i w word s
        | .page => takePageWord i w word s
        | .update => takeUpdateWord i w word s

/-- The memory port ends a walk's transaction (R105): abandoned walks end, every other fails with TABLE_ERROR, stale or not. -/
def endWalkTransaction (i : SlotNumber) (s : State) : State :=
  match s.slot i with
  | none => s
  | some w => if w.abandoned then endAbandoned i s else failWalk i .tableError s

/-! ## Invalidation and abandonment (R80, R101, R103) -/

/-- Whether a slot's walk is one that an invalidation marks: BUSY, not abandoned, key in the scope (R80 step 2). -/
def walkInScope (sc : Scope) : Option Walk → Bool
  | some w => !w.abandoned && sc.covers w.context w.page
  | none => false

/-- A walk is marked stale: one whose transaction awaits a grant restarts at once, its transaction withdrawn (R101). -/
def markStale (i : SlotNumber) (s : State) : State :=
  match s.slot i with
  | none => s
  | some w => if w.awaiting then restartWalk i w s else s.setSlot i (some { w with stale := true })

/-- Step 2 of an invalidation, over the walks in scope when the step begins (log entry 12). -/
def markScope (sc : Scope) (s : State) : State :=
  (allSlots.filter fun i => walkInScope sc (s.slot i)).foldl (fun t i => markStale i t) s

/-- Whether a head is READY with its translation in the scope (R80 step 3). -/
def readyInScope (sc : Scope) (s : State) (h : HeadId) : Bool :=
  match s.head? h with
  | some e =>
    match e.state with
    | .ready _ => sc.covers (s.boundContext h) (clientPage e.request.address)
    | _ => false
  | none => false

/-- Step 3 of an invalidation: the READY heads of the scope are presented again, in ascending port, URGENT before NORMAL. -/
def representReady (sc : Scope) (s : State) : State :=
  representWaiting (allHeads.foldl (fun t h => if readyInScope sc t h then present h t else t) s)

/-- The effect of an invalidation, in its three steps (R80). -/
def invalidate (sc : Scope) (s : State) : State := representReady sc (markScope sc (s.removeScope sc))

/-- A disable abandons a walk of its context: one awaiting a grant ends at once, the rest stay BUSY with no waiters (R103). -/
def abandonSlot (c : ContextNumber) (s : State) (i : SlotNumber) : State :=
  match s.slot i with
  | none => s
  | some w =>
    if w.context = c then
      if w.awaiting then s.releaseSlot i
      else s.setSlot i (some { w with abandoned := true, waiters := [] })
    else s

end Sys2Proof.Machine
end

