-- ==== Sys2Proof/Machine/CommandUnit.lean ====
section
/-! DEFINITION. The command unit (spec chapter 9): submission, the checks of a take, completion; the SYNC watch set and the drain of a
context, whose ends complete a waiting command. -/

namespace Sys2Proof.Machine

/-! ## Submission and completion (R141, R146) -/

/-- A submit write (R141): admitted at the back of the queue with the next number, or refused with COMMAND_REFUSED when the queue holds 8. -/
def submit (code : BitVec 8) (s : State) : State :=
  if s.ready then
    if s.commands.length < Config.commandQueueDepth then
      { s with
        commands := s.commands ++ [{ number := s.takenCount, code := code, operand := s.operandWord, taken := false }]
        takenCount := s.takenCount + 1#16 }
    else s.raise .commandRefused
  else s

/-- A write of the operand word (R140). -/
def writeOperand (value : Word) (s : State) : State := if s.ready then { s with operandWord := value } else s

/-- The head command completes: it leaves the queue and the completed count advances (R146). -/
def State.completeCommand (s : State) : State :=
  { s with commands := s.commands.tail, completedCount := s.completedCount + 1#16 }

/-- A command in error: the last-error word takes the code and the command's number, and COMMAND_ERROR is set (R143). -/
def State.recordError (code : ErrorCode) (number : BitVec 16) (s : State) : State :=
  State.raise .commandError { s with lastError := { code := code, number := number } }

/-- The states of the command unit (R142). -/
inductive UnitState where
  | idle
  | executing
  | waiting
  deriving DecidableEq, Repr

/-- The command unit's state follows from its queue (R142; log entry 20). -/
def State.unitState (s : State) : UnitState :=
  match s.commands with
  | [] => .idle
  | c :: _ => if c.taken then .waiting else .executing

/-! ## The checks of a take (R143 to R145) -/

/-- A command with legal operands (R144). -/
inductive CommandOp where
  | invalidate (scope : Scope)
  | sync (marker : BitVec 16)
  | enable (context : ContextNumber)
  | disable (context : ContextNumber)
  | resume (head : HeadId)
  | terminate (head : HeadId)
  | clearMemory
  | probe (context : ContextNumber) (page : PageNumber)
  deriving DecidableEq, Repr

/-- A context operand of a command, or BAD_OPERAND (R144). -/
def withContext (w : Word) (f : ContextNumber → CommandOp) : Except ErrorCode CommandOp :=
  match legalContext w with
  | some c => .ok (f c)
  | none => .error .badOperand

/-- A port and class operand of a command, or BAD_OPERAND (R144). -/
def withHead (w : Word) (f : HeadId → CommandOp) : Except ErrorCode CommandOp :=
  match legalPort w with
  | some p => .ok (f { port := p, cls := operandClass w })
  | none => .error .badOperand

/-- Checks 1 and 2 of R143: the code names a command, and each field the command uses is in its range (R144). -/
def decodeCommand (code : BitVec 8) (w : Word) : Except ErrorCode CommandOp :=
  match commandOfCode code with
  | none => .error .unknownCode
  | some .invalidatePage => withContext w fun c => .invalidate (.page c (operandPage w))
  | some .invalidateDirectory =>
    match legalDirectory w with
    | some d => withContext w fun c => .invalidate (.directory c d)
    | none => .error .badOperand
  | some .invalidateContext => withContext w fun c => .invalidate (.context c)
  | some .invalidateAll => .ok (.invalidate .all)
  | some .sync => .ok (.sync (operandMarker w))
  | some .enableContext => withContext w .enable
  | some .disableContext => withContext w .disable
  | some .resume => withHead w .resume
  | some .terminate => withHead w .terminate
  | some .clearMemoryPort => .ok .clearMemory
  | some .probe => withContext w fun c => .probe c (operandPage w)

/-- Whether the head of a queue is PARKED (R145). -/
def State.headParked (s : State) (h : HeadId) : Bool :=
  match s.head? h with
  | some e => e.state == .parked
  | none => false

/-- A limit that ENABLE_CONTEXT admits: 1..1024 (R17, R21). -/
def limitLegal (limit : BitVec 11) : Bool := decide (1 ≤ limit.toNat) && decide (limit.toNat ≤ Config.limitMax)

/-- Checks 3 and 4 of R143 on a command with legal operands (R145): the error, if there is one. -/
def stateError (s : State) : CommandOp → Option ErrorCode
  | .invalidate _ => none
  | .sync _ => none
  | .probe _ _ => none
  | .enable c =>
    if (s.context c).state ≠ .off then some .wrongState
    else if limitLegal (s.context c).limit then none else some .badOperand
  | .disable c => if (s.context c).state = .active then none else some .wrongState
  | .resume h => if s.headParked h then none else some .nothingParked
  | .terminate h => if s.headParked h then none else some .nothingParked
  | .clearMemory => if s.memState = .failed then none else some .wrongState

/-- The waiting command at the head of the queue, if the unit is WAITING (R142). -/
def State.waitingOp (s : State) : Option CommandOp :=
  match s.commands with
  | c :: _ =>
    if c.taken then
      match decodeCommand c.code c.operand with
      | .ok op => some op
      | .error _ => none
    else none
  | [] => none

/-! ## The SYNC watch set (R151 to R153) -/

/-- An item becomes a member when it is IN_FLIGHT (R151). -/
def watchItem (i : Item) : Item :=
  match i.state with
  | .inFlight _ => { i with state := .inFlight true }
  | .done _ _ => i

/-- The IN_FLIGHT items of a port become members (R151). -/
def watchPort (p : Port) : Port :=
  { p with returns := { normal := p.returns.normal.map watchItem, urgent := p.returns.urgent.map watchItem } }

/-- A BUSY walk becomes a member (R151). -/
def watchWalk (w : Option Walk) : Option Walk := w.map fun v => { v with watched := true }

/-- The watch set of a SYNC: every IN_FLIGHT item and every BUSY walk (R151). -/
def formWatchSet (s : State) : State :=
  { s with ports := s.ports.map watchPort, slots := s.slots.map watchWalk }

/-- Whether an item is a member. -/
def Item.isWatched (i : Item) : Bool :=
  match i.state with
  | .inFlight b => b
  | .done _ _ => false

/-- Whether a port holds a member. -/
def Port.holdsWatched (p : Port) : Bool := p.returns.normal.any Item.isWatched || p.returns.urgent.any Item.isWatched

/-- Whether a slot holds a member. -/
def slotWatched : Option Walk → Bool
  | some w => w.watched
  | none => false

/-- The watch set is empty (R153). -/
def State.watchEmpty (s : State) : Bool :=
  !(s.ports.toList.any Port.holdsWatched) && !(s.slots.toList.any slotWatched)

/-- A SYNC waiting with an empty watch set completes: its marker is written and SYNC_DONE is set (R153). -/
def settleSync (s : State) : State :=
  match s.waitingOp with
  | some (.sync marker) =>
    if s.watchEmpty then (State.raise .syncDone { s with syncMarker := marker }).completeCommand else s
  | _ => s

/-! ## The drain of a context (R25) -/

/-- Whether an item is IN_FLIGHT. -/
def Item.isInFlight (i : Item) : Bool :=
  match i.state with
  | .inFlight _ => true
  | .done _ _ => false

/-- A port holds nothing back: both request queues empty and no item IN_FLIGHT (R25). -/
def Port.isDrained (p : Port) : Bool :=
  p.queues.normal.isEmpty && p.queues.urgent.isEmpty
    && !(p.returns.normal.any Item.isInFlight) && !(p.returns.urgent.any Item.isInFlight)

/-- Whether a slot holds a walk of a context, abandoned or not (R25). -/
def slotOfContext (c : ContextNumber) : Option Walk → Bool
  | some w => w.context == c
  | none => false

/-- The drain condition of R25. -/
def State.drained (s : State) (c : ContextNumber) : Bool :=
  (s.ports.toList.all fun p => p.binding != c || p.isDrained) && !(s.slots.toList.any (slotOfContext c))

/-- A DRAINING context whose drain condition holds goes to OFF, and its waiting DISABLE_CONTEXT completes (R25, R149). -/
def settleContext (c : ContextNumber) (s : State) : State :=
  if (s.context c).state = .draining ∧ s.drained c = true then
    let off := s.setContext c { s.context c with state := .off }
    if s.waitingOp = some (.disable c) then off.completeCommand else off
  else s

/-- The tests made at the end of an event that can end a drain or empty a watch set (R25, R153). -/
def settle (s : State) : State := settleSync (allContexts.foldl (fun t c => settleContext c t) s)

end Sys2Proof.Machine
end

