-- ==== Sys2Proof/Machine/ClientPorts.lean ====
section
/-! DEFINITION. Client ports (spec chapter 4): the meanings of REQUEST, DELIVERY, TRANSFER, OPEN, CLOSE and PORT_BINDING_WRITE. -/

namespace Sys2Proof.Machine

/-! ## Requests (R41 to R45) -/

/-- The answer to a presented request (R41, R64). -/
def State.answerFor (s : State) (p : PortNumber) (r : Request) : Answer :=
  if s.ready = true ∧ (s.port p).state = .open_ then
    if (s.queue ⟨p, r.cls⟩).length < Config.requestQueueDepth then .accept else .hold
  else .decline

/-- The entry an accepted request makes (R43, R45): QUEUED, the malformed mark as R43 gives, write data dropped if malformed. -/
def newEntry (r : Request) : Entry :=
  if wellFormedRequest r then { request := r, malformed := false, abortMark := false, state := .queued }
  else { request := { r with data := [] }, malformed := true, abortMark := false, state := .queued }

/-- An accepted request is appended to its class queue; in an empty queue it is at once the head and is presented (R45). -/
def acceptRequest (p : PortNumber) (r : Request) (s : State) : State :=
  let h : HeadId := ⟨p, r.cls⟩
  let t := s.setQueue h (s.queue h ++ [newEntry r])
  if s.queue h = [] then presentHead h t else t

/-- A client presents a request: it is answered, and accepted if the answer is ACCEPT (R41). -/
def presentRequest (p : PortNumber) (r : Request) (s : State) : State :=
  let answered := s.emit (.answer p (s.answerFor p r))
  if s.answerFor p r = .accept then acceptRequest p r answered else answered

/-! ## Delivery (R61) and transfer (R58) -/

/-- The front completion record is delivered while the device is READY and there is one; on a CLOSING port the end of the drain is
tested (R39, R61). -/
def deliver (p : PortNumber) (s : State) : State :=
  match (s.port p).completions with
  | [] => s
  | r :: rest =>
    if s.ready then
      State.emit (.completion p r) (s.setPort p (Port.closeIfEmpty { s.port p with completions := rest }))
    else s

/-- The local status of a FINISHING head. -/
def Entry.finishing? (e : Entry) : Option LocalStatus :=
  match e.state with
  | .finishing st => some st
  | _ => none

/-- The head of a queue is FINISHING. -/
def State.headFinishing (s : State) (h : HeadId) : Bool :=
  match s.head? h with
  | some e => e.finishing?.isSome
  | none => false

/-- A FINISHING head may be transferred: its port has a credit, and when that is the last one a NORMAL head waits for a FINISHING URGENT
head of its port (R56, R58). -/
def State.transferAllowed (s : State) (h : HeadId) : Bool :=
  (s.port h.port).hasCredit &&
    !(h.cls == .normal && (s.port h.port).creditInUse + 1 == Config.credit && s.headFinishing ⟨h.port, .urgent⟩)

/-- A FINISHING head leaves its queue; its item enters the return list as DONE with the local status and no read data, and the next
entry becomes head and is presented (R46, R58). -/
def transfer (h : HeadId) (s : State) : State :=
  match s.head? h with
  | some e =>
    match e.finishing? with
    | some st =>
      if s.transferAllowed h then settle (presentHead h (moveHead h (.done st.status none) e s))
      else s
    | none => s
  | none => s

/-! ## Port control and binding (R30, R37 to R40) -/

/-- OPEN: a CLOSED port becomes OPEN; otherwise PROGRAM_ERROR (R37, R40). -/
def openPort (p : PortNumber) (s : State) : State :=
  if s.ready then
    if (s.port p).state = .closed then s.setPort p { s.port p with state := .open_ } else s.raise .programError
  else s

/-- CLOSE: an OPEN port becomes CLOSING, and CLOSED at once if it is empty; otherwise PROGRAM_ERROR (R38, R40). -/
def closePort (p : PortNumber) (s : State) : State :=
  if s.ready then
    if (s.port p).state = .open_ then s.setPort p (Port.closeIfEmpty { s.port p with state := .closing })
    else s.raise .programError
  else s

/-- A port-control write: the request it names, or PROGRAM_ERROR when it names both or neither (R40, R185). -/
def writePortControl (p : PortNumber) (value : Word) (s : State) : State :=
  match portControlOpen value, portControlClose value with
  | true, false => openPort p s
  | false, true => closePort p s
  | _, _ => if s.ready then s.raise .programError else s

/-- A binding write: taken while the port is CLOSED; otherwise PROGRAM_ERROR (R30). -/
def writeBinding (p : PortNumber) (value : Word) (s : State) : State :=
  if s.ready then
    if (s.port p).state = .closed then s.setPort p { s.port p with binding := bindingField value }
    else s.raise .programError
  else s

/-! ## Meanings -/

/-- REQUEST (R41). -/
def execRequest (p : PortNumber) (r : Request) (s : State) : Host.Outcome State Fault Refusal :=
  .next (presentRequest p r s.beginEvent)

/-- DELIVERY (R61). -/
def execDelivery (p : PortNumber) (s : State) : Host.Outcome State Fault Refusal := .next (deliver p s.beginEvent)

/-- TRANSFER (R58). -/
def execTransfer (p : PortNumber) (c : ReqClass) (s : State) : Host.Outcome State Fault Refusal :=
  .next (transfer ⟨p, c⟩ s.beginEvent)

/-- OPEN (R37). -/
def execOpenPort (p : PortNumber) (s : State) : Host.Outcome State Fault Refusal := .next (openPort p s.beginEvent)

/-- CLOSE (R38). -/
def execClosePort (p : PortNumber) (s : State) : Host.Outcome State Fault Refusal := .next (closePort p s.beginEvent)

/-- PORT_BINDING_WRITE (R30). -/
def execPortBindingWrite (p : PortNumber) (value : Word) (s : State) : Host.Outcome State Fault Refusal :=
  .next (writeBinding p value s.beginEvent)

end Sys2Proof.Machine
end

