-- ==== Sys2Proof/Machine/MemoryPort.lean ====
section
/-! DEFINITION. The memory port (spec chapter 10): the arbiter, responses, the timebase and the response limit, failure, the clear
handshake; and the meanings of GRANT, RESPONSE, CLEARED, EXPIRY, CLEAR_EXPIRY, TIMEBASE_WRITE and RESPONSE_LIMIT_WRITE. -/

namespace Sys2Proof.Machine

/-! ## The arbiter (R161 to R164) -/

/-- Whether a slot's walk has a transaction awaiting a grant. -/
def walkAwaits : Option Walk → Bool
  | some w => w.awaiting
  | none => false

/-- Whether an entry is READY. -/
def Entry.isReady (e : Entry) : Bool :=
  match e.state with
  | .ready _ => true
  | _ => false

/-- Whether the head of a queue is a candidate: READY, on a port with credit (R161). -/
def State.headCandidate (s : State) (h : HeadId) : Bool :=
  (s.port h.port).hasCredit &&
    match s.head? h with
    | some e => e.isReady
    | none => false

/-- The ports in the order a rotation looks at them: upward from the port after the last grant, wrapping from 3 to 0 (R162). -/
def rotation (last : PortNumber) : List PortNumber := [last + 1, last + 2, last + 3, last]

/-- The oldest walk with a transaction awaiting a grant (R162 step 1). -/
def State.walkWinner (s : State) : Option SlotNumber := s.startOrder.find? fun i => walkAwaits (s.slot i)

/-- The URGENT head the rotation chooses (R162 step 3). -/
def State.urgentWinner (s : State) : Option PortNumber :=
  (rotation s.lastUrgent).find? fun p => s.headCandidate ⟨p, .urgent⟩

/-- The NORMAL head the rotation chooses (R162 step 4). -/
def State.normalWinner (s : State) : Option PortNumber :=
  (rotation s.lastNormal).find? fun p => s.headCandidate ⟨p, .normal⟩

/-- What a grant chooses. -/
inductive Winner where
  | walk (slot : SlotNumber)
  | head (head : HeadId)
  deriving DecidableEq, Repr

/-- The winner among the candidates standing, if there is one (R162). -/
def State.winner (s : State) : Option Winner :=
  match s.walkWinner with
  | some i => some (.walk i)
  | none =>
    match s.urgentWinner, s.normalWinner with
    | none, none => none
    | some u, none => some (.head ⟨u, .urgent⟩)
    | none, some n => some (.head ⟨n, .normal⟩)
    | some u, some n =>
      if s.runCount = Config.runLimit then some (.head ⟨n, .normal⟩) else some (.head ⟨u, .urgent⟩)

/-- A transaction is issued: appended to the outstanding list with age 0 and sent to the memory side (R164). -/
def State.issue (op : TxnOp) (address : PhysAddr) (origin : Origin) (s : State) : State :=
  State.emit (.transaction op address)
    { s with outstanding := s.outstanding ++ [{ op := op, address := address, origin := origin, age := 0 }] }

/-- A walk's transaction is granted and becomes outstanding (R164). -/
def grantWalk (i : SlotNumber) (s : State) : State :=
  match s.slot i with
  | none => s
  | some w => (s.setSlot i (some { w with awaiting := false })).issue w.op w.address (.walk i)

/-- The operation of a client transaction (R57): a READ of length bytes, or a WRITE with the write data. -/
def clientOp (r : Request) : TxnOp :=
  match r.kind with
  | .read => .read r.length
  | .write => .write r.length r.data

/-- The arbiter's memory after a grant to a head (R162, R163): the rotation of its class, and the run count. -/
def rememberGrant (h : HeadId) (s : State) : State :=
  match h.cls with
  | .urgent => { s with lastUrgent := h.port, runCount := if s.normalWinner.isSome then s.runCount + 1 else 0 }
  | .normal => { s with lastNormal := h.port, runCount := 0 }

/-- A READY head is granted (R57, R164): its item is IN_FLIGHT, its transaction is issued at its physical address, and the next entry of
its queue becomes head and is presented. -/
def grantHead (h : HeadId) (s : State) : State :=
  match s.head? h with
  | some e =>
    match e.state with
    | .ready address =>
      presentHead h
        ((moveHead h (.inFlight false) e (rememberGrant h s)).issue (clientOp e.request) address
          (.client (s.requestValues h e.request)))
    | _ => s
  | none => s

/-- One grant of the arbiter, when its three conditions hold (R161). -/
def grant (s : State) : State :=
  if s.memState = .running ∧ s.outstanding.length < Config.outstandingDepth then
    match s.winner with
    | some (.walk i) => grantWalk i s
    | some (.head h) => settle (grantHead h s)
    | none => s
  else s

/-! ## Failure (R105, R169) -/

/-- The origin of a transaction takes its ending by the memory port (R169 step 2). -/
def endTransaction (t : Transaction) (s : State) : State :=
  match t.origin with
  | .client v => takeDataError v (s.endItem ⟨v.port, v.cls⟩ .memoryError none)
  | .walk i => endWalkTransaction i s

/-- Every transaction is ended in issue order, each leaving the list as it is ended (R169 step 2). -/
def endOutstanding : List Transaction → State → State
  | [], s => s
  | t :: rest, s => endOutstanding rest (endTransaction t { s with outstanding := rest })

/-- The walks still BUSY are failed, oldest first (R169 step 3, R105). -/
def failAwaiting (s : State) : State := s.startOrder.foldl (fun t i => endWalkTransaction i t) s

/-- The memory port enters FAILED from RUNNING (R169, in its order). The late-CLEARED mark is cleared, since the port leaves
RUNNING (R172). -/
def enterFailed (s : State) : State :=
  failAwaiting (endOutstanding s.outstanding
    (State.raise .memoryFailed { s with memState := .failed, lateCleared := false }))

/-! ## Responses (R165, R166, R170, R173) -/

/-- Whether a response has the shape R159 gives for a transaction. -/
def shapeFits (op : TxnOp) (status : ResponseStatus) (data : List Word) : Bool :=
  match status with
  | .error => data.isEmpty
  | .ok =>
    match op with
    | .read length => decide (data.length = length / 4)
    | .write _ _ => data.isEmpty
    | .update _ => decide (data.length = 1)

/-- The read data an OK response gives a client item: only for a READ (R59). -/
def readData (op : TxnOp) (data : List Word) : Option (List Word) :=
  match op with
  | .read _ => some data
  | _ => none

/-- The origin of the answered transaction takes the response (R165). -/
def takeResponse (t : Transaction) (status : ResponseStatus) (data : List Word) (s : State) : State :=
  match t.origin with
  | .client v =>
    match status with
    | .ok => s.endItem ⟨v.port, v.cls⟩ .done (readData t.op data)
    | .error => takeDataError v (s.endItem ⟨v.port, v.cls⟩ .memoryError none)
  | .walk i => takeWalkResponse i status data s

/-- A response arrives while the port is RUNNING (R165, R166). -/
def responseRunning (status : ResponseStatus) (data : List Word) (s : State) : State :=
  match s.outstanding with
  | [] => enterFailed s
  | t :: rest =>
    if shapeFits t.op status data then
      takeResponse t status data { s with outstanding := rest, lateCleared := false }
    else enterFailed s

/-- A response arrives: discarded in FAILED and CLEARING (R170, R173), and while RESETN is held low (R174). -/
def response (status : ResponseStatus) (data : List Word) (s : State) : State :=
  if s.resetnLow = false ∧ s.memState = .running then settle (responseRunning status data s) else s

/-! ## The timebase and the response limit (R167, R168, R171) -/

/-- The CLEAR expires: it is sent again, its age starts again from 0, and MEMORY_FAILED is set (R171). -/
def resendClear (s : State) : State :=
  State.emit .clear (State.raise .memoryFailed { s with clearAge := 0, clearRepeated := true })

/-- Whether an age has reached the response limit: never while the limit is 0 (R168). -/
def limitReached (limit : BitVec 16) (age : Nat) : Bool := decide (limit.toNat ≠ 0) && decide (limit.toNat ≤ age)

/-- One comparison with the response limit: of the oldest transaction in RUNNING, of the CLEAR in CLEARING (R168, R171). -/
def compareLimit (s : State) : State :=
  match s.memState with
  | .running =>
    match s.outstanding with
    | [] => s
    | t :: _ => if limitReached s.responseLimit t.age then settle (enterFailed s) else s
  | .clearing => if limitReached s.responseLimit s.clearAge then resendClear s else s
  | .failed => s

/-- An age one tick later; it stops at 65535 (R168). -/
def nextAge (age : Nat) : Nat := if age < Config.ageMax then age + 1 else age

/-- Every age counts one tick (R168, R171). -/
def advanceAges (s : State) : State :=
  { s with
    outstanding := s.outstanding.map fun t => { t with age := nextAge t.age }
    clearAge := if s.memState = .clearing then nextAge s.clearAge else s.clearAge }

/-- A tick: the ages count it, then the comparison is made (R168). -/
def tick (s : State) : State := compareLimit (advanceAges s)

/-- The next tick starts, of the length the timebase gives as it stands (R167). -/
def restartTick (s : State) : State := { s with tickLeft := s.timebase.toNat }

/-- One host clock cycle: the last cycle of the tick in progress makes the tick (R168). The ticks run from the release of RESETN. -/
def hostClock (s : State) : State :=
  if s.resetnLow then s
  else if s.tickLeft ≤ 1 then tick (restartTick s)
  else { s with tickLeft := s.tickLeft - 1 }

/-- The tick at which the oldest outstanding transaction reaches the response limit (R168; log entry 3). -/
def expire (s : State) : State :=
  if s.resetnLow = false ∧ s.memState = .running ∧ s.outstanding ≠ [] ∧ s.responseLimit.toNat ≠ 0 then
    settle (enterFailed (restartTick s))
  else s

/-- The tick at which the age of the CLEAR reaches the response limit (R171; log entry 3). -/
def expireClear (s : State) : State :=
  if s.resetnLow = false ∧ s.memState = .clearing ∧ s.responseLimit.toNat ≠ 0 then resendClear (restartTick s)
  else s

/-- A write of the timebase (R167): 0 is ignored with PROGRAM_ERROR; the tick in progress and the ages are kept. -/
def writeTimebase (value : Word) (s : State) : State :=
  if s.ready then
    if timebaseField value = 0#8 then s.raise .programError else { s with timebase := timebaseField value }
  else s

/-- A write of the response limit, which is a comparison itself (R167, R168, R173). -/
def writeResponseLimit (value : Word) (s : State) : State :=
  if s.ready then compareLimit { s with responseLimit := responseLimitField value } else s

/-! ## The clear handshake (R171, R172) -/

/-- CLEAR_MEMORY_PORT's take effect: the port goes from FAILED to CLEARING and sends CLEAR, whose age starts at 0 (R171). -/
def startClear (s : State) : State :=
  State.emit .clear { s with memState := .clearing, clearAge := 0, clearRepeated := false }

/-- The port enters RUNNING; the late-CLEARED mark is set when CLEAR was sent more than once in this CLEARING (R172). -/
def enterRunning (s : State) : State :=
  { s with memState := .running, lateCleared := s.clearRepeated, clearAge := 0, clearRepeated := false }

/-- A CLEARED that arrives in CLEARING ends it: the device becomes READY after a reset's clear, and otherwise the waiting
CLEAR_MEMORY_PORT completes (R172). -/
def clearedClearing (s : State) : State :=
  match s.device with
  | .resetting => { enterRunning s with device := .ready }
  | .ready => if s.waitingOp = some .clearMemory then (enterRunning s).completeCommand else enterRunning s

/-- CLEARED arrives (R166, R172). -/
def cleared (s : State) : State :=
  if s.resetnLow then s
  else
    match s.memState with
    | .clearing => clearedClearing s
    | .running => if s.lateCleared then { s with lateCleared := false } else settle (enterFailed s)
    | .failed => s.raise .memoryFailed

/-! ## Meanings -/

/-- GRANT (R161). -/
def execGrant (s : State) : Host.Outcome State Fault Refusal := .next (grant s.beginEvent)

/-- RESPONSE (R165). -/
def execResponse (status : ResponseStatus) (data : List Word) (s : State) : Host.Outcome State Fault Refusal :=
  .next (response status data s.beginEvent)

/-- CLEARED (R172). -/
def execCleared (s : State) : Host.Outcome State Fault Refusal := .next (cleared s.beginEvent)

/-- EXPIRY (R168). -/
def execExpiry (s : State) : Host.Outcome State Fault Refusal := .next (expire s.beginEvent)

/-- CLEAR_EXPIRY (R171). -/
def execClearExpiry (s : State) : Host.Outcome State Fault Refusal := .next (expireClear s.beginEvent)

/-- TIMEBASE_WRITE (R167). -/
def execTimebaseWrite (value : Word) (s : State) : Host.Outcome State Fault Refusal :=
  .next (writeTimebase value s.beginEvent)

/-- RESPONSE_LIMIT_WRITE (R167). -/
def execResponseLimitWrite (value : Word) (s : State) : Host.Outcome State Fault Refusal :=
  .next (writeResponseLimit value s.beginEvent)

end Sys2Proof.Machine
end

