-- ==== Sys2Proof/Machine/Commands.lean ====
section
/-! DEFINITION. The effects of the commands of the command queue and their takes (R142, R147, R148), and the meanings of the rows that
submit them and of COMMAND_TAKE. -/

namespace Sys2Proof.Machine

/-! ## Contexts (R21, R22) -/

/-- ENABLE_CONTEXT: the context goes from OFF to ACTIVE; nothing is presented (R21). -/
def enableContext (c : ContextNumber) (s : State) : State :=
  s.setContext c { s.context c with state := .active }

/-- What a disable does to the head of a queue (R22 step 3). -/
def disableHead (e : Entry) : Entry :=
  match e.state with
  | .queued => { e with abortMark := true }
  | .waitSlot => { e with state := .finishing .aborted }
  | .walking => { e with state := .finishing .aborted }
  | .ready _ => { e with state := .finishing .aborted }
  | .parked => { e with state := .finishing .aborted }
  | .finishing _ => e

/-- What a disable does to a request queue: the entries behind the head gain the abort mark (R22 step 3). -/
def disableQueue : List Entry → List Entry
  | [] => []
  | e :: rest => disableHead e :: rest.map fun x => { x with abortMark := true }

/-- What a disable does to the queues of a port bound to the context (R22 step 3). -/
def disablePort (c : ContextNumber) (p : Port) : Port :=
  if p.binding = c then
    { p with queues := { normal := disableQueue p.queues.normal, urgent := disableQueue p.queues.urgent } }
  else p

/-- The places of the parked heads of a context become empty (R22 step 3, R133). -/
def unparkContext (c : ContextNumber) (s : State) : State :=
  allHeads.foldl (fun t h => if t.boundContext h = c ∧ t.headParked h = true then t.setParked h none else t) s

/-- Step 3 of a disable: parked places, the slot wait list and the request queues of the context (R22). -/
def disableQueues (c : ContextNumber) (s : State) : State :=
  let u := unparkContext c s
  { u with
    ports := u.ports.map (disablePort c)
    slotWait := u.slotWait.filter fun h => u.boundContext h != c }

/-- Step 2 of a disable: the walks of the context are abandoned (R22, R103). -/
def abandonWalks (c : ContextNumber) (s : State) : State := allSlots.foldl (abandonSlot c) s

/-- DISABLE_CONTEXT: DRAINING, then the steps of R22; slots that became FREE are offered to the slot wait list after every step (R91). -/
def disableContext (c : ContextNumber) (s : State) : State :=
  representWaiting (disableQueues c (abandonWalks c
    ((s.setContext c { s.context c with state := .draining }).removeScope (.context c))))

/-! ## Parked heads (R134, R136) -/

/-- RESUME: the place is emptied and the head is presented (R134). -/
def resumeHead (h : HeadId) (s : State) : State := presentHead h (s.setParked h none)

/-- TERMINATE: the place is emptied and the head becomes FINISHING with FAULTED (R136). -/
def terminateHead (h : HeadId) (s : State) : State := (s.setParked h none).finishHead h .faulted

/-! ## The take of a command (R142 to R148) -/

/-- The effect of a command that has passed its checks, up to its completion (R147, R148). A waiting command is left at the head, and
completes within the take when its condition already holds. -/
def applyCommand (op : CommandOp) (s : State) : State :=
  match op with
  | .invalidate sc => (invalidate sc s).completeCommand
  | .enable c => (enableContext c s).completeCommand
  | .resume h => (resumeHead h s).completeCommand
  | .terminate h => (terminateHead h s).completeCommand
  | .probe c p => { s with probe := s.probeResult c p }.completeCommand
  | .sync _ => settleSync (formWatchSet s)
  | .disable c => settle (disableContext c s)
  | .clearMemory => startClear s

/-- The command unit, EXECUTING, takes its head in an event of its own (R142): taken becomes yes, the checks of R143 are made in order,
and the command completes in error, completes with its effect, or waits. -/
def takeCommand (s : State) : State :=
  match s.commands with
  | [] => s
  | c :: rest =>
    if c.taken then s
    else
      let t : State := { s with commands := { c with taken := true } :: rest }
      match decodeCommand c.code c.operand with
      | .error code => (t.recordError code c.number).completeCommand
      | .ok op =>
        match stateError t op with
        | some code => (t.recordError code c.number).completeCommand
        | none => applyCommand op t

/-- A row "submitted and taken" (log entry 4): the submit write, and the take when the command is the head at once, the queue having been
empty. Behind other commands it is admitted only, and COMMAND_TAKE takes it in its turn. -/
def submitAndTake (code : BitVec 8) (s : State) : State :=
  if s.commands = [] then takeCommand (submit code s) else submit code s

/-- The operand word is written, then the command is submitted (R139, R140). -/
def submitWith (code : CommandCode) (operand : Word) (s : State) : State :=
  submitAndTake code.byte (writeOperand operand s)

/-! ## Meanings -/

/-- INVALIDATE_PAGE (R79, R80). -/
def execInvalidatePage (operand : Word) (s : State) : Host.Outcome State Fault Refusal :=
  .next (submitWith .invalidatePage operand s.beginEvent)

/-- INVALIDATE_DIRECTORY (R79, R80). -/
def execInvalidateDirectory (operand : Word) (s : State) : Host.Outcome State Fault Refusal :=
  .next (submitWith .invalidateDirectory operand s.beginEvent)

/-- INVALIDATE_CONTEXT (R79, R80). -/
def execInvalidateContext (operand : Word) (s : State) : Host.Outcome State Fault Refusal :=
  .next (submitWith .invalidateContext operand s.beginEvent)

/-- INVALIDATE_ALL (R79, R80). -/
def execInvalidateAll (s : State) : Host.Outcome State Fault Refusal :=
  .next (submitAndTake CommandCode.invalidateAll.byte s.beginEvent)

/-- SYNC (R151 to R153). -/
def execSync (operand : Word) (s : State) : Host.Outcome State Fault Refusal :=
  .next (submitWith .sync operand s.beginEvent)

/-- ENABLE_CONTEXT (R21). -/
def execEnableContext (operand : Word) (s : State) : Host.Outcome State Fault Refusal :=
  .next (submitWith .enableContext operand s.beginEvent)

/-- DISABLE_CONTEXT (R22). -/
def execDisableContext (operand : Word) (s : State) : Host.Outcome State Fault Refusal :=
  .next (submitWith .disableContext operand s.beginEvent)

/-- RESUME (R134). -/
def execResume (operand : Word) (s : State) : Host.Outcome State Fault Refusal :=
  .next (submitWith .resume operand s.beginEvent)

/-- TERMINATE (R136). -/
def execTerminate (operand : Word) (s : State) : Host.Outcome State Fault Refusal :=
  .next (submitWith .terminate operand s.beginEvent)

/-- CLEAR_MEMORY_PORT (R150, R171). -/
def execClearMemoryPort (s : State) : Host.Outcome State Fault Refusal :=
  .next (submitAndTake CommandCode.clearMemoryPort.byte s.beginEvent)

/-- PROBE (R82). -/
def execProbe (operand : Word) (s : State) : Host.Outcome State Fault Refusal :=
  .next (submitWith .probe operand s.beginEvent)

/-- UNKNOWN_CODE (R143): admitted like any code, and in error at its take. -/
def execUnknownCode (code : BitVec 8) (s : State) : Host.Outcome State Fault Refusal :=
  .next (submitAndTake code s.beginEvent)

/-- COMMAND_TAKE (R142). -/
def execCommandTake (s : State) : Host.Outcome State Fault Refusal := .next (takeCommand s.beginEvent)

end Sys2Proof.Machine
end

