-- ==== Sys2Proof/Machine/Resets.lean ====
section
/-! DEFINITION. Power-on reset and device reset (R174, R179, R180): the meanings of POWER_ON_RESET, RESETN_RELEASE and DEVICE_RESET. -/

namespace Sys2Proof.Machine

/-- RESETN is taken low: every piece of state takes its power-on value (R179). The model's queue of events to come is kept. -/
def powerOnReset (s : State) : State := { State.powerOn with pending := s.pending }

/-- RESETN is released: RESETTING, the memory port enters CLEARING and sends CLEAR, and the ticks begin (R168, R174, R179). -/
def releaseResetn (s : State) : State :=
  if s.resetnLow then
    State.emit .clear
      { s with
        resetnLow := false
        device := .resetting
        memState := .clearing
        clearAge := 0
        clearRepeated := false
        tickLeft := s.timebase.toNat }
  else s

/-- A port at the start of RESETTING (R63): CLOSED and empty, its binding kept. -/
def Port.deviceReset (p : Port) : Port := { Port.powerOn with binding := p.binding }

/-- A context at the start of RESETTING (R18): OFF, its configuration fields kept. -/
def ContextRecord.deviceReset (c : ContextRecord) : ContextRecord := { c with state := .off }

/-- The event of a write that starts a device reset (R180): causes cleared, working state discarded, configuration kept, CLEAR sent. A
port already CLEARING sends CLEAR again within the same CLEARING (R174; log entry 9). -/
def startDeviceReset (s : State) : State :=
  State.emit .clear
    { s with
      device := .resetting
      irqStatus := 0#8
      ports := s.ports.map Port.deviceReset
      contexts := s.contexts.map ContextRecord.deviceReset
      pageCache := []
      dirCache := []
      slots := Vector.replicate 4 none
      startOrder := []
      slotWait := []
      faultLog := []
      nextSeq := 0#16
      parked := Vector.replicate 4 ⟨none, none⟩
      commands := []
      operandWord := 0#32
      takenCount := 0#16
      completedCount := 0#16
      lastError := LastError.reset
      syncMarker := 0#16
      probe := ProbeResult.reset
      memState := .clearing
      outstanding := []
      lastUrgent := 3
      lastNormal := 3
      runCount := 0
      clearAge := 0
      clearRepeated := s.memState == .clearing
      lateCleared := false }

/-- A device-control write with its reset field 1: taken while the device is READY (R180). -/
def deviceReset (s : State) : State := if s.ready then startDeviceReset s else s

/-- A device-control write: reset 1 starts a device reset, reset 0 sets PROGRAM_ERROR (R180). -/
def writeDeviceControl (value : Word) (s : State) : State :=
  if controlReset value then deviceReset s
  else if s.ready then s.raise .programError else s

/-! ## Meanings -/

/-- POWER_ON_RESET (R179). -/
def execPowerOnReset (s : State) : Host.Outcome State Fault Refusal := .next (powerOnReset s.beginEvent)

/-- RESETN_RELEASE (R179). -/
def execResetnRelease (s : State) : Host.Outcome State Fault Refusal := .next (releaseResetn s.beginEvent)

/-- DEVICE_RESET (R180). -/
def execDeviceReset (s : State) : Host.Outcome State Fault Refusal := .next (deviceReset s.beginEvent)

end Sys2Proof.Machine
end

