-- ==== Sys2Proof/Machine/Window.lean ====
section
/-! DEFINITION. The register window (spec chapter 12): what each word reads as (R185, R187), what a write of each word does (R177), malformed
accesses (R178); and the meanings of the window rows not owned by another file. -/

namespace Sys2Proof.Machine

/-! ## Encodings of fields in window words (R185, R187) -/

/-- A Boolean field at a bit position. -/
def bitAt (n : Nat) (b : Bool) : Word := if b then 1#32 <<< n else 0#32

/-- A number field at a bit position. -/
def fieldAt (n v : Nat) : Word := BitVec.ofNat 32 (v * 2 ^ n)

/-- 1 READY, 2 RESETTING. -/
def DeviceState.code : DeviceState → Nat
  | .ready => 1
  | .resetting => 2

/-- RUNNING, FAILED, CLEARING from 0. -/
def MemState.code : MemState → Nat
  | .running => 0
  | .failed => 1
  | .clearing => 2

/-- CLOSED, OPEN, CLOSING from 0. -/
def PortState.code : PortState → Nat
  | .closed => 0
  | .open_ => 1
  | .closing => 2

/-- OFF, ACTIVE, DRAINING from 0. -/
def ContextState.code : ContextState → Nat
  | .off => 0
  | .active => 1
  | .draining => 2

/-- ABORT, STALL from 0. -/
def Policy.code : Policy → Nat
  | .abort => 0
  | .stall => 1

/-- ABSENT, OPEN, READ_ONLY, TABLES from 0. -/
def RegionKind.code : RegionKind → Nat
  | .absent => 0
  | .open_ => 1
  | .readOnly => 2
  | .tables => 3

/-- IDLE, EXECUTING, WAITING from 0. -/
def UnitState.code : UnitState → Nat
  | .idle => 0
  | .executing => 1
  | .waiting => 2

/-- NONE, UNKNOWN_CODE, BAD_OPERAND, WRONG_STATE, NOTHING_PARKED from 0. -/
def ErrorCode.code : ErrorCode → Nat
  | .none_ => 0
  | .unknownCode => 1
  | .badOperand => 2
  | .wrongState => 3
  | .nothingParked => 4

/-- The cause codes of record word 2 (R187). -/
def FaultCause.code : FaultCause → Nat
  | .limit => 1
  | .directoryInvalid => 2
  | .pageInvalid => 3
  | .readDenied => 4
  | .writeDenied => 5
  | .regionDenied => 6
  | .tableRegion => 7
  | .tableError => 8
  | .dataError => 9

/-- NORMAL, URGENT from 0. -/
def classCode : ReqClass → Nat
  | .normal => 0
  | .urgent => 1

/-- READ, WRITE from 0. -/
def kindCode : ReqKind → Nat
  | .read => 0
  | .write => 1

/-- ABORTED, PARKED from 0. -/
def RecordOutcome.code : RecordOutcome → Nat
  | .aborted => 0
  | .parked => 1

/-- The region kind of the two kind bits of a region entry word (R185). -/
def regionKindOf (bits : BitVec 2) : RegionKind :=
  match bits.toNat with
  | 0 => .absent
  | 1 => .open_
  | 2 => .readOnly
  | _ => .tables

/-! ## What the words read as (R185, R187) -/

/-- The device-status word (R179, R185). -/
def statusWord (s : State) : Word := fieldAt 0 s.device.code ||| bitAt 8 (s.causeSet .memoryFailed)

/-- The port status word (R65, R185). -/
def portStatusWord (p : Port) : Word :=
  fieldAt 0 p.state.code ||| fieldAt 8 p.queues.normal.length ||| fieldAt 12 p.queues.urgent.length
    ||| fieldAt 16 p.creditInUse

/-- The context control word (R185). -/
def contextControlWord (c : ContextRecord) : Word :=
  fieldAt 0 c.limit.toNat ||| fieldAt 16 c.policy.code ||| bitAt 17 c.writesPermitted ||| bitAt 18 c.recordFlags
    ||| fieldAt 24 c.state.code

/-- The region entry word (R185). -/
def regionWord (r : RegionEntry) : Word := fieldAt 0 r.endUnit.toNat ||| fieldAt 16 r.kind.code

/-- The probe result word (R185). -/
def probeWord (r : ProbeResult) : Word :=
  bitAt 0 r.hit ||| bitAt 1 r.readPermit ||| bitAt 2 r.writePermit ||| bitAt 3 r.modifiedKnown
    ||| fieldAt 8 r.frame.toNat

/-- Fault record word 0 (R187). -/
def recordWord0 (r : FaultRecord) : Word :=
  fieldAt 0 r.sequence.toNat ||| fieldAt 16 r.port.val ||| fieldAt 18 (classCode r.cls) ||| fieldAt 19 (kindCode r.kind)
    ||| fieldAt 24 r.tag.toNat ||| fieldAt 31 r.outcome.code

/-- Fault record word 2 (R187). -/
def recordWord2 (r : FaultRecord) : Word := fieldAt 0 r.context.val ||| fieldAt 8 r.cause.code

/-- A word of the oldest fault record; 0 while the log is empty (R126). -/
def oldestWord (s : State) (f : FaultRecord → Word) : Word :=
  match s.faultLog with
  | [] => 0#32
  | r :: _ => f r

/-- A parked place word (R187). -/
def parkedWord : Option ParkedPlace → Word
  | some v => fieldAt 0 v.sequence.toNat ||| fieldAt 24 v.cause.code ||| bitAt 31 true
  | none => 0#32

/-- The parked summary word: bit 2p for (p, NORMAL), bit 2p + 1 for (p, URGENT) (R187). -/
def parkedSummaryWord (s : State) : Word :=
  allPorts.foldl (fun w p =>
    w ||| bitAt (2 * p.val) (s.parkedPlace ⟨p, .normal⟩).isSome
      ||| bitAt (2 * p.val + 1) (s.parkedPlace ⟨p, .urgent⟩).isSome) 0#32

/-- What a word of the window reads as while the device is READY (R177): words of type W read 0. -/
def registerValue (s : State) : Register → Word
  | .deviceStatus => statusWord s
  | .deviceControl => 0#32
  | .interruptStatus => s.irqStatus.setWidth 32
  | .interruptEnable => s.irqEnable.setWidth 32
  | .timebase => s.timebase.setWidth 32
  | .responseLimit => s.responseLimit.setWidth 32
  | .memoryPortStatus => fieldAt 0 s.memState.code ||| fieldAt 8 s.outstanding.length
  | .portControl _ => 0#32
  | .portStatus p => portStatusWord (s.port p)
  | .portBinding p => fieldAt 0 (s.port p).binding.val
  | .contextFrame c => (s.context c).directoryFrame.setWidth 32
  | .contextControl c => contextControlWord (s.context c)
  | .regionEntry i => regionWord (s.region i)
  | .operandWord => s.operandWord
  | .submitWord => 0#32
  | .commandUnitStatus => fieldAt 0 s.unitState.code
  | .commandCounts => fieldAt 0 s.takenCount.toNat ||| fieldAt 16 s.completedCount.toNat
  | .lastError => fieldAt 0 s.lastError.code.code ||| fieldAt 16 s.lastError.number.toNat
  | .syncMarker => s.syncMarker.setWidth 32
  | .probeResult => probeWord s.probe
  | .faultLogStatus => fieldAt 0 s.faultLog.length ||| fieldAt 16 s.nextSeq.toNat
  | .faultRecord0 => oldestWord s recordWord0
  | .faultRecord1 => oldestWord s fun r => r.address
  | .faultRecord2 => oldestWord s recordWord2
  | .faultLogPop => 0#32
  | .parkedPlace p c => parkedWord (s.parkedPlace ⟨p, c⟩)
  | .parkedSummary => parkedSummaryWord s

/-! ## Host reads (R177, R178, R179, R181) -/

/-- What a host read returns: while the device is not READY only the device-status word, and nothing while RESETN is low; in READY a
malformed read or one of an unassigned offset returns 0. -/
def readValue (offset : BitVec 12) (enables : BitVec 4) (s : State) : Word :=
  match registerAt offset with
  | none => 0#32
  | some r =>
    if s.resetnLow then 0#32
    else
      match s.device with
      | .resetting => if r = .deviceStatus then statusWord s else 0#32
      | .ready => if malformedAccess enables then 0#32 else registerValue s r

/-- A host access that R178 counts as an error: malformed, or of an unassigned offset. -/
def accessInError (offset : BitVec 12) (enables : BitVec 4) : Bool :=
  malformedAccess enables || (registerAt offset).isNone

/-- A host read (R177, R178): its data is handed out, and a read in error sets ACCESS_ERROR while the device is READY. -/
def hostRead (offset : BitVec 12) (enables : BitVec 4) (s : State) : State :=
  let answered := s.emit (.readData (readValue offset enables s))
  if s.ready = true ∧ accessInError offset enables = true then answered.raise .accessError else answered

/-! ## Host writes (R177) -/

/-- A write of a context frame word: taken while the context is OFF, else PROGRAM_ERROR (R19). -/
def writeContextFrame (c : ContextNumber) (value : Word) (s : State) : State :=
  if s.ready then
    if (s.context c).state = .off then s.setContext c { s.context c with directoryFrame := frameField value }
    else s.raise .programError
  else s

/-- A write of a context control word: taken while the context is OFF, else PROGRAM_ERROR; the state bits are ignored (R19, R185). -/
def writeContextControl (c : ContextNumber) (value : Word) (s : State) : State :=
  if s.ready then
    if (s.context c).state = .off then
      s.setContext c
        { s.context c with
          limit := limitField value
          policy := if policyField value then .stall else .abort
          writesPermitted := writesField value
          recordFlags := recordField value }
    else s.raise .programError
  else s

/-- A write of either word of a context (R19). -/
def writeContext (c : ContextNumber) (word : ContextWord) (value : Word) (s : State) : State :=
  match word with
  | .frame => writeContextFrame c value s
  | .control => writeContextControl c value s

/-- A write of a region entry: taken while every context is OFF and the end is at most 4096, else PROGRAM_ERROR (R114). -/
def writeRegion (i : Fin 8) (value : Word) (s : State) : State :=
  if s.ready then
    if s.allOff = true ∧ (endField value).toNat ≤ Config.regionEndMax then
      s.setRegion i { endUnit := endField value, kind := regionKindOf (kindField value) }
    else s.raise .programError
  else s

/-- A W1C write of the interrupt status (R182). -/
def writeInterruptStatus (value : Word) (s : State) : State :=
  if s.ready then s.clearCauses (causeField value) else s

/-- A write of the interrupt enables (R183). -/
def writeInterruptEnable (value : Word) (s : State) : State :=
  if s.ready then { s with irqEnable := causeField value } else s

/-- A pop write: the oldest record is removed, or PROGRAM_ERROR is set when the log is empty (R127). -/
def popFaultLog (s : State) : State :=
  if s.ready then
    match s.faultLog with
    | [] => s.raise .programError
    | _ :: rest => { s with faultLog := rest }
  else s

/-- A well-formed write of an assigned word (R177, R184): words of type RO ignore it and set no cause. -/
def writeRegister (r : Register) (value : Word) (s : State) : State :=
  match r with
  | .deviceControl => writeDeviceControl value s
  | .interruptStatus => writeInterruptStatus value s
  | .interruptEnable => writeInterruptEnable value s
  | .timebase => writeTimebase value s
  | .responseLimit => writeResponseLimit value s
  | .portControl p => writePortControl p value s
  | .portBinding p => writeBinding p value s
  | .contextFrame c => writeContextFrame c value s
  | .contextControl c => writeContextControl c value s
  | .regionEntry i => writeRegion i value s
  | .operandWord => writeOperand value s
  | .submitWord => submit (submitCode value) s
  | .faultLogPop => popFaultLog s
  | .deviceStatus => s
  | .memoryPortStatus => s
  | .portStatus _ => s
  | .commandUnitStatus => s
  | .commandCounts => s
  | .lastError => s
  | .syncMarker => s
  | .probeResult => s
  | .faultLogStatus => s
  | .faultRecord0 => s
  | .faultRecord1 => s
  | .faultRecord2 => s
  | .parkedPlace _ _ => s
  | .parkedSummary => s

/-- A host write (R177, R178): a malformed one, or one to an unassigned offset, is ignored and sets ACCESS_ERROR while READY. -/
def hostWrite (offset : BitVec 12) (enables : BitVec 4) (value : Word) (s : State) : State :=
  if malformedAccess enables then (if s.ready then s.raise .accessError else s)
  else
    match registerAt offset with
    | none => if s.ready then s.raise .accessError else s
    | some r => writeRegister r value s

/-! ## Meanings -/

/-- CONTEXT_WRITE (R19). -/
def execContextWrite (c : ContextNumber) (word : ContextWord) (value : Word) (s : State) :
    Host.Outcome State Fault Refusal :=
  .next (writeContext c word value s.beginEvent)

/-- REGION_ENTRY_WRITE (R114). -/
def execRegionEntryWrite (i : Fin 8) (value : Word) (s : State) : Host.Outcome State Fault Refusal :=
  .next (writeRegion i value s.beginEvent)

/-- INTERRUPT_STATUS_CLEAR (R182). -/
def execInterruptStatusClear (value : Word) (s : State) : Host.Outcome State Fault Refusal :=
  .next (writeInterruptStatus value s.beginEvent)

/-- INTERRUPT_ENABLE_WRITE (R183). -/
def execInterruptEnableWrite (value : Word) (s : State) : Host.Outcome State Fault Refusal :=
  .next (writeInterruptEnable value s.beginEvent)

/-- FAULT_LOG_POP (R127): whatever value the write carries (R184). -/
def execFaultLogPop (_value : Word) (s : State) : Host.Outcome State Fault Refusal := .next (popFaultLog s.beginEvent)

/-- REGISTER_WRITE (R177, R178). -/
def execRegisterWrite (offset : BitVec 12) (enables : BitVec 4) (value : Word) (s : State) :
    Host.Outcome State Fault Refusal :=
  .next (hostWrite offset enables value s.beginEvent)

/-- MALFORMED_READ (R178), and every other host read (log entry 13). -/
def execMalformedRead (offset : BitVec 12) (enables : BitVec 4) (s : State) : Host.Outcome State Fault Refusal :=
  .next (hostRead offset enables s.beginEvent)

end Sys2Proof.Machine
end

