-- ==== Sys2Proof/Machine/Dispatch.lean ====
section
/-! DEFINITION. One arm for each constructor of Instr: the event's effect on everything but the queue of events to come. -/

namespace Sys2Proof.Machine

def exec (i : Instr) (s : State) : Host.Outcome State Fault Refusal :=
  match i with
  | .powerOnReset => Sys2Proof.Machine.execPowerOnReset s
  | .resetnRelease => Sys2Proof.Machine.execResetnRelease s
  | .deviceReset => Sys2Proof.Machine.execDeviceReset s
  | .request port req => Sys2Proof.Machine.execRequest port req s
  | .delivery port => Sys2Proof.Machine.execDelivery port s
  | .response status data => Sys2Proof.Machine.execResponse status data s
  | .cleared => Sys2Proof.Machine.execCleared s
  | .expiry => Sys2Proof.Machine.execExpiry s
  | .clearExpiry => Sys2Proof.Machine.execClearExpiry s
  | .grant => Sys2Proof.Machine.execGrant s
  | .transfer port cls => Sys2Proof.Machine.execTransfer port cls s
  | .invalidatePage operand => Sys2Proof.Machine.execInvalidatePage operand s
  | .invalidateDirectory operand => Sys2Proof.Machine.execInvalidateDirectory operand s
  | .invalidateContext operand => Sys2Proof.Machine.execInvalidateContext operand s
  | .invalidateAll => Sys2Proof.Machine.execInvalidateAll s
  | .sync operand => Sys2Proof.Machine.execSync operand s
  | .enableContext operand => Sys2Proof.Machine.execEnableContext operand s
  | .disableContext operand => Sys2Proof.Machine.execDisableContext operand s
  | .resume operand => Sys2Proof.Machine.execResume operand s
  | .terminate operand => Sys2Proof.Machine.execTerminate operand s
  | .clearMemoryPort => Sys2Proof.Machine.execClearMemoryPort s
  | .probe operand => Sys2Proof.Machine.execProbe operand s
  | .unknownCode code => Sys2Proof.Machine.execUnknownCode code s
  | .openPort port => Sys2Proof.Machine.execOpenPort port s
  | .closePort port => Sys2Proof.Machine.execClosePort port s
  | .portBindingWrite port value => Sys2Proof.Machine.execPortBindingWrite port value s
  | .contextWrite context word value => Sys2Proof.Machine.execContextWrite context word value s
  | .regionEntryWrite entry value => Sys2Proof.Machine.execRegionEntryWrite entry value s
  | .timebaseWrite value => Sys2Proof.Machine.execTimebaseWrite value s
  | .responseLimitWrite value => Sys2Proof.Machine.execResponseLimitWrite value s
  | .interruptStatusClear value => Sys2Proof.Machine.execInterruptStatusClear value s
  | .interruptEnableWrite value => Sys2Proof.Machine.execInterruptEnableWrite value s
  | .faultLogPop value => Sys2Proof.Machine.execFaultLogPop value s
  | .registerWrite offset enables value => Sys2Proof.Machine.execRegisterWrite offset enables value s
  | .commandTake => Sys2Proof.Machine.execCommandTake s
  | .malformedRead offset enables => Sys2Proof.Machine.execMalformedRead offset enables s

end Sys2Proof.Machine
end

