-- ==== Sys2Proof/Machine/Step.lean ====
section
/-! DEFINITION. One step: the event at the front of the queue, or one host clock cycle when the queue is empty. -/

namespace Sys2Proof.Machine

/-- The step takes the event at the front of `pending` and runs it with the queue's rest. DESIGN CHOICE (log entry 2): with an empty queue
one cycle of the host clock passes, which is where the timebase ticks (R168). -/
def step (s : State) : Host.Outcome State Fault Refusal :=
  match s.pending with
  | [] => .next (hostClock s.beginEvent)
  | c :: rest => exec c { s with pending := rest }

/-- The state with the command a word spells put at the front of the queue; unchanged where the word spells none, which is every word of
this block's table. -/
def State.withFetchWord (s : State) (nbits w : Nat) : State :=
  match decodeTableWord nbits w with
  | some c => { s with pending := c :: s.pending }
  | none => s

end Sys2Proof.Machine
end

