-- ==== Sys2Proof/Safety.lean ====
section
/-! DEFINITION. What counts as a sound state of the part, in the terms the statements use: the bounds, the uniqueness and the links
between blocks that the spec's rules promise between events. -/

namespace Sys2Proof.Machine

/-! ## What translation work cannot reach -/

/-- An entry without its head state. -/
def Entry.outside (e : Entry) : Entry := { e with state := .queued }

/-- A port without the states of its queue entries. -/
def Port.outside (p : Port) : Port :=
  { p with queues := { normal := p.queues.normal.map Entry.outside, urgent := p.queues.urgent.map Entry.outside } }

/-- The state without what translation work may change: the states of queue entries, the caches, the walks and the lists of the walker, the
fault log and the parked table, and the causes FAULT_LOGGED and LOG_OVERFLOW. Two states with equal `outside` differ in these only. -/
def State.outside (s : State) : State :=
  { s with
    irqStatus := s.irqStatus &&& 0xFC#8
    ports := s.ports.map Port.outside
    pageCache := []
    dirCache := []
    slots := Vector.replicate 4 none
    startOrder := []
    slotWait := []
    faultLog := []
    nextSeq := 0#16
    parked := Vector.replicate 4 ⟨none, none⟩ }

/-! ## Bounds -/

/-- Every collection of one port is within its bound: 8 entries a request queue (R44), credit in use 8 (R55). -/
def Port.Bounded (p : Port) : Prop :=
  p.queues.normal.length ≤ 8 ∧ p.queues.urgent.length ≤ 8 ∧ p.creditInUse ≤ 8

/-- The collections are within the bounds of R44, R55, R66, R67, R123, R139 and R160, the run count within R163, the timebase and the
region ends within R167 and R109, and the ages within R158 and R168. -/
structure State.Bounded (s : State) : Prop where
  ports       : ∀ p, (s.port p).Bounded
  pageCache   : s.pageCache.length ≤ 64
  dirCache    : s.dirCache.length ≤ 8
  faultLog    : s.faultLog.length ≤ 16
  commands    : s.commands.length ≤ 8
  outstanding : s.outstanding.length ≤ 16
  runCount    : s.runCount ≤ 4
  timebase    : s.timebase ≠ 0#8
  regions     : ∀ i, (s.region i).endUnit.toNat ≤ 4096
  ages        : ∀ t ∈ s.outstanding, t.age ≤ 65535
  clearAge    : s.clearAge ≤ 65535

/-! ## Numbering -/

/-- The records of the fault log are numbered consecutively, modulo 65536, up to the next sequence number (R124). -/
def State.LogNumbered (s : State) : Prop :=
  ∀ k r, s.faultLog[k]? = some r → r.sequence = s.nextSeq - BitVec.ofNat 16 (s.faultLog.length - k)

/-- The commands of the queue bear the numbers from the completed count on, up to the taken count, and only the head can have been
taken (R141, R142, R146). -/
structure State.CommandsInOrder (s : State) : Prop where
  numbers : ∀ k c, s.commands[k]? = some c → c.number = s.completedCount + BitVec.ofNat 16 k
  counts  : s.takenCount = s.completedCount + BitVec.ofNat 16 s.commands.length
  head    : ∀ k c, s.commands[k]? = some c → c.taken = true → k = 0

/-- The DISABLE_CONTEXT of a DRAINING context waits, taken, at the head of the command queue; so at most one context is DRAINING, and none with the
queue empty (R22, R142, R149). -/
def State.DrainsHeld (s : State) : Prop :=
  ∀ c, (s.context c).state = .draining →
    ∃ cmd rest, s.commands = cmd :: rest ∧ cmd.taken = true ∧ cmd.code = 0x11#8 ∧ cmd.operand.toNat / 16777216 = c.val

/-! ## Caches and walks -/

/-- No two entries of a cache share a key, no two walks that are not abandoned share one, and every entry and every such walk is of an ACTIVE
context (R68, R88, R89); an abandoned walk has no waiters and its transaction is outstanding (R86, R103). -/
structure State.CachesSound (s : State) : Prop where
  pageKeys    : s.pageCache.Pairwise fun d e => (d.context, d.page) ≠ (e.context, e.page)
  dirKeys     : s.dirCache.Pairwise fun d e => (d.context, d.index) ≠ (e.context, e.index)
  pageActive  : ∀ e ∈ s.pageCache, (s.context e.context).state = .active
  dirActive   : ∀ e ∈ s.dirCache, (s.context e.context).state = .active
  walkKeys    : ∀ i j v w, s.slot i = some v → s.slot j = some w → v.abandoned = false → w.abandoned = false →
    v.context = w.context → v.page = w.page → i = j
  walkActive  : ∀ i w, s.slot i = some w → w.abandoned = false → (s.context w.context).state = .active
  abandoned   : ∀ i w, s.slot i = some w → w.abandoned = true → w.waiters = [] ∧ w.awaiting = false

/-! ## Ports and resets -/

/-- A CLOSED port holds no work (R31, R39). -/
def State.ClosedEmpty (s : State) : Prop := ∀ p, (s.port p).state = .closed → (s.port p).isEmpty = true

/-- The part holds no work and no result of any: the memory port is CLEARING with nothing outstanding, every port is CLOSED and every context OFF,
and there is no walk, no cache entry, no record, no parked head and no command. -/
structure State.Quiet (s : State) : Prop where
  memory   : s.memState = .clearing ∧ s.outstanding = []
  ports    : ∀ p, (s.port p).state = .closed
  contexts : ∀ c, (s.context c).state = .off
  walker   : (∀ i, s.slot i = none) ∧ s.startOrder = [] ∧ s.slotWait = []
  caches   : s.pageCache = [] ∧ s.dirCache = []
  faults   : s.faultLog = [] ∧ ∀ h, s.parkedPlace h = none
  commands : s.commands = []

/-- While the device is RESETTING the part is quiet (R18, R63, R69, R87, R123, R133, R156, R174), a CLOSED port is empty (R31), and while RESETN is
low the device counts as RESETTING (log entry 5). -/
structure State.ResetsQuiet (s : State) : Prop where
  pin    : s.resetnLow = true → s.device = .resetting
  quiet  : s.device = .resetting → s.Quiet
  closed : s.ClosedEmpty

/-! ## The walker and the memory port between events -/

/-- The slot wait list is empty whenever a slot is FREE (R91). -/
def State.Offered (s : State) : Prop := s.freeSlot? ≠ none → s.slotWait = []

/-- The start order lists the BUSY slots, each once (R84). -/
def State.Ordered (s : State) : Prop := (∀ i, i ∈ s.startOrder ↔ s.slot i ≠ none) ∧ s.startOrder.Nodup

/-- Between events: a slot is FREE only if the slot wait list is empty (R91); the start order lists the BUSY slots (R84); in FAILED and CLEARING
nothing is outstanding and no walk is BUSY (R106, R160). While RESETN is low the port is held in CLEARING (log entry 5). -/
structure State.WalkerSettled (s : State) : Prop where
  pin     : s.resetnLow = true → s.memState = .clearing
  offered : s.Offered
  ordered : s.Ordered
  quiet   : s.memState ≠ .running → s.outstanding = [] ∧ ∀ i, s.slot i = none

/-! ## Items and transactions -/

/-- The tags and kinds of the IN_FLIGHT items of a return list, oldest first. -/
def inFlightOf (l : List Item) : List (BitVec 6 × ReqKind) :=
  (l.filter Item.isInFlight).map fun i => (i.tag, i.kind)

/-- The tag and kind of a transaction issued for a port and class. -/
def Transaction.ofHead (h : HeadId) (t : Transaction) : Option (BitVec 6 × ReqKind) :=
  match t.origin with
  | .client v => if v.port = h.port ∧ v.cls = h.cls then some (v.tag, v.kind) else none
  | .walk _ => none

/-- For each port and class the outstanding client transactions are those of its IN_FLIGHT items, in the same order, so the response taken for
a transaction ends the item that it was issued for (R59, R158, R165). -/
def State.ItemsPaired (s : State) : Prop :=
  ∀ h : HeadId, inFlightOf ((s.port h.port).returns.get h.cls) = s.outstanding.filterMap (Transaction.ofHead h)

/-- The operation and address of a transaction, if a walk slot is its origin. -/
def Transaction.ofWalk (i : SlotNumber) (t : Transaction) : Option (TxnOp × PhysAddr) :=
  match t.origin with
  | .walk j => if j = i then some (t.op, t.address) else none
  | .client _ => none

/-- The operation and address of the one transaction that a slot has outstanding: that of a BUSY walk which awaits no grant (R85). -/
def walkOutstanding : Option Walk → List (TxnOp × PhysAddr)
  | some w => if w.awaiting = true then [] else [(w.op, w.address)]
  | none => []

/-- What a walk asks is of its stage and kind, and past the directory stage it asks at the place of its page in the table that its table frame names;
it holds an entry word in the UPDATE of a FILL walk only (R93 to R96). -/
inductive Walk.Fits (w : Walk) : Prop where
  | directory : w.stage = .directory → w.op = .read 4 → w.tableFrame = none → w.entryWord = none → Fits w
  | page (f : Frame) : w.stage = .page → w.kind = .fill → w.op = .read 4 → w.tableFrame = some f →
      w.address = entryAddress f (pageIndex w.page) → w.entryWord = none → Fits w
  | fillUpdate (f : Frame) (word : Word) : w.stage = .update → w.kind = .fill → w.op = .update false →
      w.tableFrame = some f → w.address = entryAddress f (pageIndex w.page) → w.entryWord = some word → Fits w
  | flagUpdate (f : Frame) : w.stage = .update → w.kind = .flag → w.op = .update true → w.tableFrame = some f →
      w.address = entryAddress f (pageIndex w.page) → w.entryWord = none → Fits w

/-- What a client transaction asks is of its request's kind (R57). -/
def TxnOp.OfKind : TxnOp → ReqKind → Prop
  | .read _, .read => True
  | .write _ _, .write => True
  | _, _ => False

/-- Every outstanding transaction of a walk is the one of a BUSY walk that awaits no grant, with its operation and address, and such a walk has exactly
one; every walk asks what fits its stage and kind, and every client transaction what fits its kind (R57, R85, R93 to R96, R160, R165). -/
structure State.TransactionsLinked (s : State) : Prop where
  walks   : ∀ i, s.outstanding.filterMap (Transaction.ofWalk i) = walkOutstanding (s.slot i)
  fits    : ∀ i w, s.slot i = some w → w.Fits
  clients : ∀ t ∈ s.outstanding, ∀ v, t.origin = .client v → t.op.OfKind v.kind

/-! ## Words the statements share -/

/-- No drain and no SYNC waits for the end of an event, so that end completes nothing (R25, R153). -/
def State.NoEnds (s : State) : Prop :=
  (∀ c, (s.context c).state ≠ .draining) ∧ ∀ m, s.waitingOp ≠ some (.sync m)

/-- No SYNC waits, and no context but the given one is DRAINING. -/
def State.DrainsOnly (s : State) (c : ContextNumber) : Prop :=
  (∀ d, (s.context d).state = .draining → d = c) ∧ ∀ m, s.waitingOp ≠ some (.sync m)

/-- The front item of a return list, if there is one, is IN_FLIGHT, as R60 leaves it. -/
def FrontInFlight (l : List Item) : Prop := ∀ i rest, l = i :: rest → i.isInFlight = true

/-- The completion record of a DONE item (R60, R62). -/
def Item.completion? (i : Item) : Option Completion :=
  match i.state with
  | .done st d => some { tag := i.tag, cls := i.cls, kind := i.kind, status := st, data := d }
  | .inFlight _ => none

/-- A head of the given queue and request passes the context and limit checks of presentation (R48, checks 3 and 4). -/
structure State.Translated (s : State) (h : HeadId) (r : Request) : Prop where
  active : (s.context (s.boundContext h)).state = .active
  limit  : r.address.toNat / 4194304 < (s.context (s.boundContext h)).limit.toNat

/-- The rights of an entry and of its context admit the request's kind (R8). -/
def State.Permits (s : State) (c : ContextNumber) (k : ReqKind) (e : PageEntry) : Prop :=
  match k with
  | .read => e.readPermit = true
  | .write => e.writePermit = true ∧ (s.context c).writesPermitted = true

/-- The region of a client data address admits the request's kind (R9). -/
def State.RegionAdmits (s : State) (k : ReqKind) (a : PhysAddr) : Prop :=
  match k with
  | .read => s.regionOf a = .open_ ∨ s.regionOf a = .readOnly
  | .write => s.regionOf a = .open_

/-- A lookup that hits the entry makes the head READY at the address (R71, R72). -/
structure State.HitReady (s : State) (c : ContextNumber) (r : Request) (e : PageEntry) (a : PhysAddr) : Prop where
  address : a = dataAddress e.frame (clientOffset r.address)
  permits : s.Permits c r.kind e
  region  : s.RegionAdmits r.kind a
  known   : r.kind = .write → e.modifiedKnown = true

/-- The cause with which a lookup that hits the entry refuses the request (R71). -/
def State.HitFault (s : State) (c : ContextNumber) (r : Request) (e : PageEntry) (cause : FaultCause) : Prop :=
  (¬ s.Permits c r.kind e ∧ r.kind = .read ∧ cause = .readDenied) ∨
  (¬ s.Permits c r.kind e ∧ r.kind = .write ∧ cause = .writeDenied) ∨
  (s.Permits c r.kind e ∧ ¬ s.RegionAdmits r.kind (dataAddress e.frame (clientOffset r.address)) ∧ cause = .regionDenied)

/-- The page cache with an entry moved to, or put at, its front (R70, R76). -/
def State.pageFront (s : State) (e : PageEntry) : List PageEntry :=
  e :: s.pageCache.filter fun x => !(x.context == e.context && x.page == e.page)

/-- No BUSY walk that is not abandoned has the key (R89). -/
def State.NoWalk (s : State) (c : ContextNumber) (p : PageNumber) : Prop :=
  ∀ i w, s.slot i = some w → w.abandoned = false → w.context = c → w.page ≠ p

/-- The lowest-numbered FREE slot (R88). -/
def State.LowestFree (s : State) (i : SlotNumber) : Prop := s.slot i = none ∧ ∀ j, j < i → s.slot j ≠ none

/-- The fields of a walk at its start (R88), with its first transaction: the stage it is in, what it asks, where, and the table frame that the
directory cache gave. -/
def startedWalk (k : WalkKind) (c : ContextNumber) (p : PageNumber) (h : HeadId) (stage : WalkStage) (op : TxnOp)
    (a : PhysAddr) (frame : Option Frame) : Walk :=
  { kind := k, context := c, page := p, stage := stage, stale := false, abandoned := false, waiters := [h], op := op
    address := a, awaiting := true, tableFrame := frame, entryWord := none, watched := false }

/-- The first candidate a rotation meets, counting upward from the port after the last grant and wrapping from 3 to 0 (R162). -/
def FirstAfter (last p : PortNumber) (candidate : PortNumber → Prop) : Prop :=
  candidate p ∧ ∃ k : Fin 4, p = last + 1 + k ∧ ∀ j : Fin 4, j < k → ¬ candidate (last + 1 + j)

/-- The command unit after a command that met an empty queue, was taken and completed, with the operand word as the submission left it (R140,
R141, R146). -/
def State.afterCommand (w : Word) (s : State) : State :=
  { s with
    operandWord := w, takenCount := s.takenCount + 1#16, completedCount := s.completedCount + 1#16, emitted := [] }

/-- The code and operand word of the rows that submit a command (R186). -/
def submission : Instr → Option (BitVec 8 × Option Word)
  | .invalidatePage w => some (0x01#8, some w)
  | .invalidateDirectory w => some (0x02#8, some w)
  | .invalidateContext w => some (0x03#8, some w)
  | .invalidateAll => some (0x04#8, none)
  | .sync w => some (0x08#8, some w)
  | .enableContext w => some (0x10#8, some w)
  | .disableContext w => some (0x11#8, some w)
  | .resume w => some (0x18#8, some w)
  | .terminate w => some (0x19#8, some w)
  | .clearMemoryPort => some (0x20#8, none)
  | .probe w => some (0x28#8, some w)
  | .unknownCode code => some (code, none)
  | _ => none

/-- The head of a queue is PARKED (R145). -/
def State.ParkedHead (s : State) (h : HeadId) : Prop := ∃ e q, s.queue h = e :: q ∧ e.state = .parked

/-- The context an operand word names (R186). -/
def operandNames (w : Word) (c : ContextNumber) : Prop := w.toNat / 16777216 = c.val

/-- The queue an operand word names: port in bits 22..20, class in bit 23 (R186). -/
def operandHead (w : Word) (h : HeadId) : Prop :=
  w.toNat / 1048576 % 8 = h.port.val ∧ (h.cls = .urgent ↔ w.getLsbD 23 = true)

/-- The checks of a command's operands and of the state of the part at its take: the error of the first that fails (R143 to R145). -/
inductive CommandFails (s : State) (code : BitVec 8) (w : Word) : ErrorCode → Prop where
  | unknown : code ∉ [0x01#8, 0x02#8, 0x03#8, 0x04#8, 0x08#8, 0x10#8, 0x11#8, 0x18#8, 0x19#8, 0x20#8, 0x28#8] →
      CommandFails s code w .unknownCode
  | context : code ∈ [0x01#8, 0x02#8, 0x03#8, 0x10#8, 0x11#8, 0x28#8] → 16 ≤ w.toNat / 16777216 →
      CommandFails s code w .badOperand
  | directory : code = 0x02#8 → 1024 ≤ w.toNat % 1048576 → CommandFails s code w .badOperand
  | port : code ∈ [0x18#8, 0x19#8] → 4 ≤ w.toNat / 1048576 % 8 → CommandFails s code w .badOperand
  | enableState (c : ContextNumber) : code = 0x10#8 → operandNames w c → (s.context c).state ≠ .off →
      CommandFails s code w .wrongState
  | enableLimit (c : ContextNumber) : code = 0x10#8 → operandNames w c → (s.context c).state = .off →
      ((s.context c).limit.toNat = 0 ∨ 1024 < (s.context c).limit.toNat) → CommandFails s code w .badOperand
  | disableState (c : ContextNumber) : code = 0x11#8 → operandNames w c → (s.context c).state ≠ .active →
      CommandFails s code w .wrongState
  | nothingParked (h : HeadId) : code ∈ [0x18#8, 0x19#8] → operandHead w h → ¬ s.ParkedHead h →
      CommandFails s code w .nothingParked
  | clearState : code = 0x20#8 → s.memState ≠ .failed → CommandFails s code w .wrongState

/-! ## The caches and the tables, as the statements say them -/

/-- The directory cache after a lookup of a key: a hit moves its entry to the front (R67). -/
def State.dirFront (s : State) (c : ContextNumber) (i : BitVec 10) : List DirEntry :=
  match s.dirLookup c i with
  | some d => d :: s.dirCache.filter fun x => !(x.context == d.context && x.index == d.index)
  | none => s.dirCache

/-- The page cache after a fill: a held entry of the key is refreshed at the front, else the new one is inserted there, in place of the entry at
the back when 64 are held (R76). -/
def State.filledPages (s : State) (e : PageEntry) : List PageEntry :=
  if s.pageLookup e.context e.page ≠ none then s.pageFront e
  else if s.pageCache.length < 64 then e :: s.pageCache
  else e :: s.pageCache.take 63

/-- The directory cache after a fill, in the same three ways, with 8 entries (R77). -/
def State.filledDirs (s : State) (d : DirEntry) : List DirEntry :=
  if s.dirLookup d.context d.index ≠ none then
    d :: s.dirCache.filter fun x => !(x.context == d.context && x.index == d.index)
  else if s.dirCache.length < 8 then d :: s.dirCache
  else d :: s.dirCache.take 7

/-- The region of an address admits a table READ or an UPDATE (R112, R115). -/
def State.TableAdmits (s : State) (op : TxnOp) (a : PhysAddr) : Prop :=
  match op with
  | .read _ => s.regionOf a ≠ .absent
  | .update _ => s.regionOf a = .open_ ∨ s.regionOf a = .tables
  | .write _ _ => False

/-- Why a lookup needs a walk, of which kind, and the page cache it leaves: a miss, or a WRITE that passes its checks on an entry with
modified-known no (R72, R73). -/
inductive State.NeedsWalk (s : State) (c : ContextNumber) (r : Request) : WalkKind → List PageEntry → Prop where
  | miss : s.pageLookup c (clientPage r.address) = none → NeedsWalk s c r .fill s.pageCache
  | flag (e : PageEntry) : s.pageLookup c (clientPage r.address) = some e → r.kind = .write → e.modifiedKnown = false →
      s.Permits c .write e → s.RegionAdmits .write (dataAddress e.frame (clientOffset r.address)) →
      NeedsWalk s c r .flag (s.pageFront e)

/-- The transaction that a walk of a kind forms on entering its directory stage, the stage it is then in and the table frame it then holds: a
directory READ on a directory-cache miss, else a page READ or an UPDATE (R93, R96). -/
inductive State.FirstAccess (s : State) (k : WalkKind) (c : ContextNumber) (p : PageNumber) :
    WalkStage → TxnOp → PhysAddr → Option Frame → Prop where
  | miss : s.dirLookup c (directoryIndex p) = none →
      FirstAccess s k c p .directory (.read 4) (entryAddress (s.context c).directoryFrame (directoryIndex p)) none
  | fill (d : DirEntry) : s.dirLookup c (directoryIndex p) = some d → k = .fill →
      FirstAccess s k c p .page (.read 4) (entryAddress d.tableFrame (pageIndex p)) (some d.tableFrame)
  | flag (d : DirEntry) : s.dirLookup c (directoryIndex p) = some d → k = .flag →
      FirstAccess s k c p .update (.update true) (entryAddress d.tableFrame (pageIndex p)) (some d.tableFrame)

/-- The cause with which a walk fails at the transaction that it forms: the region map refuses it, or, after that, the memory port is not RUNNING (R92,
R106). -/
def State.TableRefuses (s : State) (op : TxnOp) (a : PhysAddr) (cause : FaultCause) : Prop :=
  ¬ s.TableAdmits op a ∧ cause = .tableRegion ∨ s.TableAdmits op a ∧ s.memState ≠ .running ∧ cause = .tableError

/-- What a row of an invalidation removes and reaches, with the operand word it writes: the keys of the page cache, of walks and of READY heads,
and the keys of the directory cache (R79). -/
inductive InvalidationCovers :
    Instr → Option Word → (ContextNumber → PageNumber → Bool) → (ContextNumber → BitVec 10 → Bool) → Prop where
  | page (w : Word) (c : ContextNumber) : operandNames w c →
      InvalidationCovers (.invalidatePage w) (some w) (fun d p => d == c && p == w.extractLsb' 0 20) fun _ _ => false
  | directory (w : Word) (c : ContextNumber) : operandNames w c → w.toNat % 1048576 < 1024 →
      InvalidationCovers (.invalidateDirectory w) (some w)
        (fun d p => d == c && decide (p.toNat / 1024 = w.toNat % 1048576))
        fun d i => d == c && decide (i.toNat = w.toNat % 1048576)
  | context (w : Word) (c : ContextNumber) : operandNames w c →
      InvalidationCovers (.invalidateContext w) (some w) (fun d _ => d == c) fun d _ => d == c
  | all : InvalidationCovers .invalidateAll none (fun _ _ => true) fun _ _ => true

/-! ## Heads and the lists they stand in -/

/-- The head of a queue is WALKING (R47). -/
def State.WalkingHead (s : State) (h : HeadId) : Prop := ∃ e q, s.queue h = e :: q ∧ e.state = .walking

/-- The head of a queue is WAIT_SLOT (R47). -/
def State.WaitSlotHead (s : State) (h : HeadId) : Prop := ∃ e q, s.queue h = e :: q ∧ e.state = .waitSlot

/-- The waiters of the walks are the WALKING heads, each of one walk, of its context and page, at most 8 and at least one unless the walk is
abandoned (R47, R86); the slot wait list holds the WAIT_SLOT heads, at most 8 (R90); a parked place holds a value exactly while its head is PARKED
(R133); only entries behind a head are QUEUED (R46); and the front of a return list is IN_FLIGHT (R60). -/
structure State.HeadsLinked (s : State) : Prop where
  walking  : ∀ h, s.WalkingHead h ↔ ∃ i w, s.slot i = some w ∧ h ∈ w.waiters
  oneWalk  : ∀ i j v w h, s.slot i = some v → s.slot j = some w → h ∈ v.waiters → h ∈ w.waiters → i = j
  waiters  : ∀ i w, s.slot i = some w → w.waiters.Nodup ∧ w.waiters.length ≤ 8 ∧ (w.waiters = [] ↔ w.abandoned = true)
  keys     : ∀ i w h e q, s.slot i = some w → h ∈ w.waiters → s.queue h = e :: q →
    s.boundContext h = w.context ∧ clientPage e.request.address = w.page
  waitSlot : ∀ h, s.WaitSlotHead h ↔ h ∈ s.slotWait
  slotWait : s.slotWait.Nodup ∧ s.slotWait.length ≤ 8
  parked   : ∀ h, s.parkedPlace h ≠ none ↔ s.ParkedHead h
  queued   : ∀ h e q, s.queue h = e :: q → e.state ≠ .queued ∧ ∀ x ∈ q, x.state = .queued
  front    : ∀ h : HeadId, FrontInFlight ((s.port h.port).returns.get h.cls)

/-! ## Drains and waiting commands -/

/-- The drain condition of a context: no entry in a queue and no item IN_FLIGHT in a return list of a port bound to it, and no walk of it (R25). -/
def State.NothingLeft (s : State) (c : ContextNumber) : Prop :=
  (∀ h : HeadId, s.boundContext h = c →
    s.queue h = [] ∧ ∀ item : Item, item ∈ (s.port h.port).returns.get h.cls → item.isInFlight = false) ∧
  ∀ i w, s.slot i = some w → w.context ≠ c

/-- The watch set is empty: no item and no walk is marked (R151, R153). -/
def State.NoMember (s : State) : Prop :=
  (∀ (h : HeadId) (item : Item), item ∈ (s.port h.port).returns.get h.cls → item.state ≠ .inFlight true) ∧
  ∀ i w, s.slot i = some w → w.watched = false

/-- A context is DRAINING, alone, and its DISABLE_CONTEXT waits in front of commands not taken (R25, R142, R149). -/
structure State.DrainWait (s : State) (c : ContextNumber) (rest : List Command) : Prop where
  draining : (s.context c).state = .draining
  alone    : ∀ d, d ≠ c → (s.context d).state ≠ .draining
  head     : ∃ cmd, s.commands = cmd :: rest ∧ cmd.taken = true ∧ cmd.code = 0x11#8 ∧ operandNames cmd.operand c
  behind   : ∀ cmd ∈ rest, cmd.taken = false

/-- A SYNC with an operand word waits in front of commands not taken, and no context is DRAINING (R142, R151). -/
structure State.SyncWait (s : State) (operand : Word) (rest : List Command) : Prop where
  draining : ∀ c, (s.context c).state ≠ .draining
  head     : ∃ cmd, s.commands = cmd :: rest ∧ cmd.taken = true ∧ cmd.code = 0x08#8 ∧ cmd.operand = operand
  behind   : ∀ cmd ∈ rest, cmd.taken = false

/-- What waits for the end of an event goes on waiting: something is left of every DRAINING context, and the watch set of a SYNC that waits has a
member (R25, R153). -/
def State.StillWaits (s : State) : Prop :=
  (∀ d, (s.context d).state = .draining → ¬ s.NothingLeft d) ∧ ∀ m, s.waitingOp = some (.sync m) → ¬ s.NoMember

/-! ## A disable, as the statements say it -/

/-- A slot after its context's disable: a walk of the context whose transaction awaits a grant is gone, one whose transaction is outstanding stays BUSY,
abandoned and with no waiters; any other slot is as it was (R22 step 2, R103). -/
def abandonedWalk (c : ContextNumber) : Option Walk → Option Walk
  | none => none
  | some w =>
    if w.context = c then
      if w.awaiting then none else some { w with abandoned := true, waiters := [] }
    else some w

/-- An entry that is head when its context is disabled (R22 step 3). -/
def Entry.disabled (e : Entry) : Entry :=
  match e.state with
  | .finishing _ => e
  | .queued => { e with abortMark := true }
  | _ => { e with state := .finishing .aborted }

/-- A request queue of a disabled context: its head as `Entry.disabled` says, the abort mark on every entry behind it (R22 step 3). -/
def disabledQueue : List Entry → List Entry
  | [] => []
  | e :: q => e.disabled :: q.map fun x => { x with abortMark := true }

/-- The part once the steps of a DISABLE_CONTEXT are done that met an empty queue, before the slot wait list is presented to the slots they freed: the
context DRAINING; its entries gone from the caches, its walks abandoned, its queues disabled, its parked places empty, its heads out of the slot wait list;
and all else as it was, the rest of each list in its order (R22, R103, R140 to R142). -/
def State.disabled (s : State) (c : ContextNumber) (w : Word) : State :=
  { s.setContext c { s.context c with state := .draining } with
    ports := s.ports.map fun p =>
      if p.binding = c then
        { p with queues := { normal := disabledQueue p.queues.normal, urgent := disabledQueue p.queues.urgent } }
      else p
    pageCache := s.pageCache.filter fun e => e.context != c
    dirCache := s.dirCache.filter fun e => e.context != c
    slots := s.slots.map (abandonedWalk c)
    startOrder := s.startOrder.filter fun i => s.slot i = none ∨ abandonedWalk c (s.slot i) ≠ none
    slotWait := s.slotWait.filter fun h => s.boundContext h != c
    parked := Vector.ofFn fun p =>
      let left := fun h : HeadId => if s.boundContext h = c ∧ s.headParked h = true then none else s.parkedPlace h
      { normal := left ⟨p, .normal⟩, urgent := left ⟨p, .urgent⟩ }
    commands := [{ number := s.takenCount, code := 0x11#8, operand := w, taken := true }]
    operandWord := w
    takenCount := s.takenCount + 1#16
    emitted := [] }

/-! ## What events leave, as the statements say it -/

/-- The completion record of an item after a failure of the memory port: one IN_FLIGHT is DONE with MEMORY_ERROR and no data (R59, R169). -/
def Item.failed (i : Item) : Completion :=
  match i.state with
  | .inFlight _ => { tag := i.tag, cls := i.cls, kind := i.kind, status := .memoryError, data := none }
  | .done st d => { tag := i.tag, cls := i.cls, kind := i.kind, status := st, data := d }

/-- The request values of a client transaction (R158). -/
def Transaction.client? (t : Transaction) : Option RequestValues :=
  match t.origin with
  | .client v => some v
  | .walk _ => none

/-- The six values of a fault record that name a request (R121). -/
def FaultRecord.values (r : FaultRecord) : RequestValues :=
  { port := r.port, cls := r.cls, tag := r.tag, kind := r.kind, context := r.context, address := r.address }

/-- What a head fault leaves of the head's queue, given the records of the event: PARKED on its record under STALL, FINISHING with FAULTED under ABORT
or, with LOG_OVERFLOW, when the log is full (R129, R130). -/
def State.Faulted (s u : State) (records : List FaultRecord) (h : HeadId) (e : Entry) (q : List Entry)
    (cause : FaultCause) : Prop :=
  (∃ r ∈ records, r.cause = cause ∧
    r.values = { port := h.port, cls := h.cls, tag := e.request.tag, kind := e.request.kind
                 context := s.boundContext h, address := e.request.address } ∧
    ((s.context (s.boundContext h)).policy = .stall ∧ r.outcome = .parked ∧
        u.queue h = { e with state := .parked } :: q ∧
        u.parkedPlace h = some { sequence := r.sequence, cause := cause } ∨
      (s.context (s.boundContext h)).policy = .abort ∧ r.outcome = .aborted ∧
        u.queue h = { e with state := .finishing .faulted } :: q)) ∨
  (16 ≤ u.faultLog.length ∧ u.irqStatus.getLsbD 1 = true ∧ u.queue h = { e with state := .finishing .faulted } :: q)

/-- A FINISHING head is not transferred: the credit is used up, or a NORMAL head leaves the last one to a FINISHING URGENT head (R56, R58). -/
def State.TransferWaits (s : State) (h : HeadId) : Prop :=
  8 ≤ (s.port h.port).creditInUse ∨
    (h.cls = .normal ∧ (s.port h.port).creditInUse = 7 ∧
      ∃ e q st, s.queue ⟨h.port, .urgent⟩ = e :: q ∧ e.state = .finishing st)

/-- A FINISHING head in its return list, or its record in the completion queue when that list is empty, and the rest of its queue left (R46, R58,
R60). -/
def State.transferred (s : State) (h : HeadId) (e : Entry) (q : List Entry) (st : LocalStatus) : State :=
  { s.setPort h.port
      { s.port h.port with
        queues := (s.port h.port).queues.set h.cls q
        returns :=
          if (s.port h.port).returns.get h.cls = [] then (s.port h.port).returns
          else
            (s.port h.port).returns.set h.cls
              ((s.port h.port).returns.get h.cls ++
                [{ tag := e.request.tag, cls := h.cls, kind := e.request.kind, state := .done st.status none }])
        completions :=
          if (s.port h.port).returns.get h.cls = [] then
            (s.port h.port).completions ++
              [{ tag := e.request.tag, cls := h.cls, kind := e.request.kind, status := st.status, data := none }]
          else (s.port h.port).completions } with
    emitted := [] }

/-- A READY head granted: its item IN_FLIGHT in its return list, its READ or WRITE at its physical address outstanding and sent, the arbiter's memory
of it, and the rest of its queue left (R46, R57, R158, R162 to R164). -/
def State.granted (s : State) (h : HeadId) (e : Entry) (q : List Entry) (a : PhysAddr) : State :=
  let op : TxnOp :=
    match e.request.kind with
    | .read => .read e.request.length
    | .write => .write e.request.length e.request.data
  { s.setPort h.port
      { s.port h.port with
        queues := (s.port h.port).queues.set h.cls q
        returns := (s.port h.port).returns.set h.cls
          ((s.port h.port).returns.get h.cls ++
            [{ tag := e.request.tag, cls := h.cls, kind := e.request.kind, state := .inFlight false }]) } with
    outstanding := s.outstanding ++
      [{ op := op, address := a
         origin := .client
           { port := h.port, cls := h.cls, tag := e.request.tag, kind := e.request.kind
             context := (s.port h.port).binding, address := e.request.address }
         age := 0 }]
    lastUrgent := if h.cls = .urgent then h.port else s.lastUrgent
    lastNormal := if h.cls = .normal then h.port else s.lastNormal
    runCount :=
      if h.cls = .urgent ∧ (allPorts.any fun p => s.headCandidate ⟨p, .normal⟩) = true then s.runCount + 1 else 0
    emitted := [.transaction op a] }

/-- The first item of a return list ended with a status, its record and those of the DONE items behind it in the completion queue, and the answered
transaction gone (R59, R60, R165). -/
def State.answered (s : State) (v : RequestValues) (i : Item) (done later : List Item) (st : Status)
    (data : Option (List Word)) (rest : List Transaction) : State :=
  { s.setPort v.port
      { s.port v.port with
        returns := (s.port v.port).returns.set v.cls later
        completions := (s.port v.port).completions ++
          { tag := i.tag, cls := i.cls, kind := i.kind, status := st, data := data } ::
            done.filterMap Item.completion? } with
    outstanding := rest, lateCleared := false, emitted := [] }

/-- A walk gone at the response to its transaction: its slot FREE and out of the start order (R84, R165). -/
def State.walkEnded (s : State) (i : SlotNumber) (rest : List Transaction) : State :=
  { s.setSlot i none with
    startOrder := s.startOrder.filter (· ≠ i), outstanding := rest, lateCleared := false, emitted := [] }

/-- The oldest transaction gone at its response, before its origin takes it (R165). -/
def State.responseTaken (s : State) (rest : List Transaction) : State :=
  { s with outstanding := rest, lateCleared := false, emitted := [] }

/-- A response that the oldest transaction, of the given origin, takes while the port is RUNNING (R165). -/
structure State.Answers (s : State) (t : Transaction) (rest : List Transaction) (status : ResponseStatus)
    (data : List Word) : Prop where
  pin    : s.resetnLow = false
  state  : s.memState = .running
  oldest : s.outstanding = t :: rest
  shape  : shapeFits t.op status data = true

/-- The response that fails a walk which is neither stale nor abandoned: its cause, and the directory cache it leaves (R77, R92, R94, R95, R97,
R100). -/
inductive State.FailsWalk (s : State) (t : Transaction) (w : Walk) :
    ResponseStatus → List Word → FaultCause → List DirEntry → Prop where
  | error : FailsWalk s t w .error [] .tableError s.dirCache
  | directory (word : Word) : w.stage = .directory → t.op = .read 4 → word.getLsbD 0 = false →
      FailsWalk s t w .ok [word] .directoryInvalid s.dirCache
  | page (word : Word) : w.stage = .page → t.op = .read 4 → word.getLsbD 0 = false →
      FailsWalk s t w .ok [word] .pageInvalid s.dirCache
  | update (word : Word) (m : Bool) : w.stage = .update → t.op = .update m → word.getLsbD 0 = false →
      FailsWalk s t w .ok [word] .pageInvalid s.dirCache
  | region (word : Word) (op : TxnOp) : w.stage = .directory → t.op = .read 4 → word.getLsbD 0 = true →
      (w.kind = .fill ∧ op = .read 4 ∨ w.kind = .flag ∧ op = .update true) →
      ¬ s.TableAdmits op (entryAddress (word.extractLsb' 8 24) (pageIndex w.page)) →
      FailsWalk s t w .ok [word] .tableRegion
        (s.filledDirs { context := w.context, index := directoryIndex w.page, tableFrame := word.extractLsb' 8 24 })
  | flagRegion (word : Word) : w.stage = .page → t.op = .read 4 → word.getLsbD 0 = true →
      (s.context w.context).recordFlags = true → word.getLsbD 3 = false → ¬ s.TableAdmits (.update false) w.address →
      FailsWalk s t w .ok [word] .tableRegion s.dirCache

/-- The response that completes a walk which is neither stale nor abandoned, and the page-cache entry it fills (R75, R95, R97, R98). -/
structure State.CompletesWalk (s : State) (t : Transaction) (w : Walk) (word : Word) (entry : PageEntry) : Prop where
  valid   : word.getLsbD 0 = true
  context : entry.context = w.context
  page    : entry.page = w.page
  frame   : entry.frame = word.extractLsb' 8 24
  read    : entry.readPermit = word.getLsbD 1
  write   : entry.writePermit = word.getLsbD 2
  stage   :
    (w.stage = .page ∧ t.op = .read 4 ∧ ((s.context w.context).recordFlags = false ∨ word.getLsbD 3 = true) ∧
        entry.modifiedKnown = (!(s.context w.context).recordFlags || word.getLsbD 4)) ∨
      (w.stage = .update ∧ w.kind = .fill ∧ t.op = .update false ∧
        entry.modifiedKnown = (!(s.context w.context).recordFlags || word.getLsbD 4)) ∨
      (w.stage = .update ∧ w.kind = .flag ∧ t.op = .update true ∧
        entry.modifiedKnown = (!(s.context w.context).recordFlags || word.getLsbD 4 || word.getLsbD 2))

/-- The response that lets a walk which is neither stale nor abandoned go on: the walk with the transaction it forms, and the directory cache it leaves (R77,
R92, R94 to R96). -/
inductive State.AdvancesWalk (s : State) (t : Transaction) (w : Walk) (word : Word) : Walk → List DirEntry → Prop where
  | directory (stage : WalkStage) (op : TxnOp) : w.stage = .directory → t.op = .read 4 → word.getLsbD 0 = true →
      (w.kind = .fill ∧ stage = .page ∧ op = .read 4 ∨ w.kind = .flag ∧ stage = .update ∧ op = .update true) →
      s.TableAdmits op (entryAddress (word.extractLsb' 8 24) (pageIndex w.page)) →
      AdvancesWalk s t w word
        { w with
          stage := stage, op := op, address := entryAddress (word.extractLsb' 8 24) (pageIndex w.page), awaiting := true
          tableFrame := some (word.extractLsb' 8 24) }
        (s.filledDirs { context := w.context, index := directoryIndex w.page, tableFrame := word.extractLsb' 8 24 })
  | page : w.stage = .page → t.op = .read 4 → word.getLsbD 0 = true → (s.context w.context).recordFlags = true →
      word.getLsbD 3 = false → s.TableAdmits (.update false) w.address →
      AdvancesWalk s t w word
        { w with stage := .update, op := .update false, awaiting := true, entryWord := some word } s.dirCache

/-! ## Presentation, as the statements say it -/

/-- An entry that passes the first two checks of presentation (R48). -/
def Entry.Unmarked (e : Entry) : Prop := e.malformed = false ∧ e.abortMark = false

/-- The BUSY walk of a key that a head joins: not abandoned, and the only one where R89 is kept; a lower-numbered slot has none. -/
structure State.WalkOf (s : State) (c : ContextNumber) (p : PageNumber) (i : SlotNumber) (w : Walk) : Prop where
  busy    : s.slot i = some w
  live    : w.abandoned = false
  context : w.context = c
  page    : w.page = p
  lowest  : ∀ j v, j < i → s.slot j = some v → v.abandoned = false → v.context = c → v.page ≠ p

/-- A head of a request, presented, starts a walk in a slot: the walk as it starts, and the page cache it leaves (R72, R73, R88, R92, R93). -/
inductive State.StartsWalk (s : State) (h : HeadId) (r : Request) (i : SlotNumber) : Walk → List PageEntry → Prop where
  | start (k : WalkKind) (pages : List PageEntry) (stage : WalkStage) (op : TxnOp) (a : PhysAddr) (frame : Option Frame) :
      s.Translated h r → s.NeedsWalk (s.boundContext h) r k pages →
      s.NoWalk (s.boundContext h) (clientPage r.address) → s.LowestFree i →
      s.FirstAccess k (s.boundContext h) (clientPage r.address) stage op a frame → s.TableAdmits op a →
      s.memState = .running →
      StartsWalk s h r i (startedWalk k (s.boundContext h) (clientPage r.address) h stage op a frame) pages

/-- A walk started for a head: the slot BUSY and youngest, the head WALKING, a directory-cache entry that was hit at the front (R85, R88, R93). -/
def State.walkStarted (s : State) (h : HeadId) (e : Entry) (q : List Entry) (i : SlotNumber) (w : Walk)
    (pages : List PageEntry) : State :=
  { (s.setSlot i (some w)).setQueue h ({ e with state := .walking } :: q) with
    startOrder := s.startOrder ++ [i]
    pageCache := pages
    dirCache := s.dirFront w.context (directoryIndex w.page) }

/-- A head at the back of the waiter list of a walk (R89). -/
def State.walkJoined (s : State) (h : HeadId) (e : Entry) (q : List Entry) (i : SlotNumber) (w : Walk)
    (pages : List PageEntry) : State :=
  { (s.setSlot i (some { w with waiters := w.waiters ++ [h] })).setQueue h ({ e with state := .walking } :: q) with
    pageCache := pages }

/-- The fault with which presentation refuses a head of an ACTIVE context, and the caches it leaves: the limit, with nothing consulted; a hit that
R71 refuses, its entry at the front; the first transaction of a walk, refused by the region map or, after that, by a memory port that is not
RUNNING (R48, R70, R71, R92, R93, R100, R106). -/
inductive State.RefusesHead (s : State) (h : HeadId) (r : Request) :
    FaultCause → List PageEntry → List DirEntry → Prop where
  | limit : (s.context (s.boundContext h)).state = .active →
      (s.context (s.boundContext h)).limit.toNat ≤ r.address.toNat / 4194304 →
      RefusesHead s h r .limit s.pageCache s.dirCache
  | hit (x : PageEntry) (cause : FaultCause) : s.Translated h r →
      s.pageLookup (s.boundContext h) (clientPage r.address) = some x → s.HitFault (s.boundContext h) r x cause →
      RefusesHead s h r cause (s.pageFront x) s.dirCache
  | table (k : WalkKind) (pages : List PageEntry) (i : SlotNumber) (stage : WalkStage) (op : TxnOp) (a : PhysAddr)
      (frame : Option Frame) (cause : FaultCause) : s.Translated h r → s.NeedsWalk (s.boundContext h) r k pages →
      s.NoWalk (s.boundContext h) (clientPage r.address) → s.LowestFree i →
      s.FirstAccess k (s.boundContext h) (clientPage r.address) stage op a frame →
      s.TableRefuses op a cause →
      RefusesHead s h r cause pages (s.dirFront (s.boundContext h) (directoryIndex (clientPage r.address)))

/-- One presentation of the head of a queue and the state it leaves, its checks in their order; a queue with no entry has no head (R32, R33, R46,
R48, R70 to R73, R88 to R90). -/
inductive State.Presents (s : State) (h : HeadId) : State → Prop where
  | empty : s.queue h = [] → Presents s h s
  | malformed (e : Entry) (q : List Entry) : s.queue h = e :: q → e.malformed = true →
      Presents s h (s.setQueue h ({ e with state := .finishing .rejectedFormat } :: q))
  | marked (e : Entry) (q : List Entry) : s.queue h = e :: q → e.malformed = false → e.abortMark = true →
      Presents s h (s.setQueue h ({ e with state := .finishing .aborted } :: q))
  | noContext (e : Entry) (q : List Entry) : s.queue h = e :: q → e.Unmarked →
      (s.context (s.boundContext h)).state ≠ .active →
      Presents s h (s.setQueue h ({ e with state := .finishing .noContext } :: q))
  | refused (e : Entry) (q : List Entry) (cause : FaultCause) (pages : List PageEntry) (dirs : List DirEntry) :
      s.queue h = e :: q → e.Unmarked → s.RefusesHead h e.request cause pages dirs →
      Presents s h (takeHeadFault cause h { s with pageCache := pages, dirCache := dirs })
  | ready (e : Entry) (q : List Entry) (x : PageEntry) (a : PhysAddr) : s.queue h = e :: q → e.Unmarked →
      s.Translated h e.request → s.pageLookup (s.boundContext h) (clientPage e.request.address) = some x →
      s.HitReady (s.boundContext h) e.request x a →
      Presents s h { s.setQueue h ({ e with state := .ready a } :: q) with pageCache := s.pageFront x }
  | joins (e : Entry) (q : List Entry) (k : WalkKind) (pages : List PageEntry) (i : SlotNumber) (w : Walk) :
      s.queue h = e :: q → e.Unmarked → s.Translated h e.request → s.NeedsWalk (s.boundContext h) e.request k pages →
      s.WalkOf (s.boundContext h) (clientPage e.request.address) i w →
      Presents s h (s.walkJoined h e q i w pages)
  | starts (e : Entry) (q : List Entry) (i : SlotNumber) (w : Walk) (pages : List PageEntry) : s.queue h = e :: q →
      e.Unmarked → s.StartsWalk h e.request i w pages → Presents s h (s.walkStarted h e q i w pages)
  | waits (e : Entry) (q : List Entry) (k : WalkKind) (pages : List PageEntry) : s.queue h = e :: q → e.Unmarked →
      s.Translated h e.request → s.NeedsWalk (s.boundContext h) e.request k pages →
      s.NoWalk (s.boundContext h) (clientPage e.request.address) → (∀ i, s.slot i ≠ none) →
      Presents s h
        { s.setQueue h ({ e with state := .waitSlot } :: q) with pageCache := pages, slotWait := s.slotWait ++ [h] }

/-- Heads presented one after another, in the list's order (R98 step 3). -/
inductive PresentsInTurn : State → List HeadId → State → Prop where
  | nil (s : State) : PresentsInTurn s [] s
  | cons (h : HeadId) (hs : List HeadId) (s t u : State) : s.Presents h t → PresentsInTurn t hs u →
      PresentsInTurn s (h :: hs) u

/-- A walk's fault delivered to heads one after another, in the list's order (R100 step 3). -/
inductive FaultsInTurn (cause : FaultCause) : State → List HeadId → State → Prop where
  | nil (s : State) : FaultsInTurn cause s [] s
  | cons (h : HeadId) (hs : List HeadId) (s u : State) : FaultsInTurn cause (takeHeadFault cause h s) hs u →
      FaultsInTurn cause s (h :: hs) u

/-- The re-presentation of the slot wait list: while a slot is FREE and the list is not empty, the head at its front leaves it and is presented
(R91). -/
inductive State.Represents : State → State → Prop where
  | done (s : State) : s.Offered → Represents s s
  | turn (s t u : State) (h : HeadId) (waiting : List HeadId) : (∃ i, s.slot i = none) → s.slotWait = h :: waiting →
      State.Presents { s with slotWait := waiting } h t → Represents t u → Represents s u

/-- A walk at its directory stage again, with the transaction it forms there: its kind, key, waiters, watch mark and start order kept, the stale mark, the
old table frame and the entry word gone, and a directory-cache entry that was hit at the front (R93, R101, R102). -/
def State.walkRestarted (s : State) (i : SlotNumber) (w : Walk) (stage : WalkStage) (op : TxnOp) (a : PhysAddr)
    (frame : Option Frame) : State :=
  { s.setSlot i
      (some { w with
        stage := stage, stale := false, op := op, address := a, awaiting := true, tableFrame := frame
        entryWord := none }) with
    dirCache := s.dirFront w.context (directoryIndex w.page) }

/-- The restart of a walk: it goes on with a directory READ, or, where the directory cache holds its directory entry, with a page READ or an UPDATE formed
at once; or it fails at that transaction, its slot FREE, each waiter faulted in waiter order and the slot wait list presented (R91 to R93, R100 to
R102). Where the restart is one of an invalidation, that the list is presented at this failure is the model's reading (log entry 11). -/
inductive State.Restarts (s : State) (i : SlotNumber) (w : Walk) : State → Prop where
  | goes (stage : WalkStage) (op : TxnOp) (a : PhysAddr) (frame : Option Frame) :
      s.FirstAccess w.kind w.context w.page stage op a frame → s.TableAdmits op a → s.memState = .running →
      Restarts s i w (s.walkRestarted i w stage op a frame)
  | fails (stage : WalkStage) (op : TxnOp) (a : PhysAddr) (frame : Option Frame) (cause : FaultCause) (u v : State) :
      s.FirstAccess w.kind w.context w.page stage op a frame → s.TableRefuses op a cause →
      FaultsInTurn cause
        { s.setSlot i none with
          startOrder := s.startOrder.filter (· ≠ i), dirCache := s.dirFront w.context (directoryIndex w.page) }
        w.waiters u →
      u.Represents v → Restarts s i w v

/-! ## An invalidation, as the statements say it -/

/-- The slots of the BUSY walks that are not abandoned and have their key in the scope, in ascending number, which is the model's order (R80 step 2;
log entry 12, DESIGN CHOICE). -/
structure State.WalksOf (s : State) (pages : ContextNumber → PageNumber → Bool) (l : List SlotNumber) : Prop where
  order : l.Pairwise (· < ·)
  all   : ∀ i, i ∈ l ↔ ∃ w, s.slot i = some w ∧ w.abandoned = false ∧ pages w.context w.page = true

/-- Walks marked stale one after another: one whose transaction is outstanding keeps it and has the mark; one whose transaction awaits a grant restarts
(R101), and a restart that fails presents the slot wait list before the next walk is met (log entry 11, DEDUCED). -/
inductive MarksInTurn : State → List SlotNumber → State → Prop where
  | nil (s : State) : MarksInTurn s [] s
  | outstanding (i : SlotNumber) (l : List SlotNumber) (s u : State) (w : Walk) : s.slot i = some w → w.awaiting = false →
      MarksInTurn (s.setSlot i (some { w with stale := true })) l u → MarksInTurn s (i :: l) u
  | awaiting (i : SlotNumber) (l : List SlotNumber) (s t u : State) (w : Walk) : s.slot i = some w → w.awaiting = true →
      s.Restarts i w t → MarksInTurn t l u → MarksInTurn s (i :: l) u

/-- The head of a queue is READY with its context and page in the scope (R80 step 3). -/
def State.ReadyIn (s : State) (pages : ContextNumber → PageNumber → Bool) (h : HeadId) : Prop :=
  ∃ e q a, s.queue h = e :: q ∧ e.state = .ready a ∧ pages (s.boundContext h) (clientPage e.request.address) = true

/-- The READY heads of the scope, in ascending port and, within a port, URGENT before NORMAL (R80 step 3). -/
structure State.ReadyOf (s : State) (pages : ContextNumber → PageNumber → Bool) (hs : List HeadId) : Prop where
  order : hs.Pairwise fun h k => h.port < k.port ∨ (h.port = k.port ∧ h.cls = .urgent ∧ k.cls = .normal)
  all   : ∀ h, h ∈ hs ↔ s.ReadyIn pages h

/-- The three steps of an invalidation, from the state after step 1, in which the caches have lost the entries of the scope: the walks of the scope marked,
its READY heads presented again, and then the slot wait list (R80, R91, R101). A restart that fails in the first of these presents the slot wait list
there already, at its own failure: log entry 11's reading (DEDUCED), where R91 can also mean the end of the whole event. -/
inductive State.Invalidates (s : State) (pages : ContextNumber → PageNumber → Bool) : State → Prop where
  | steps (l : List SlotNumber) (hs : List HeadId) (t u v : State) : s.WalksOf pages l → MarksInTurn s l t →
      t.ReadyOf pages hs → PresentsInTurn t hs u → u.Represents v → Invalidates s pages v

/-- The part after step 1 of an invalidation that met an empty queue: the command unit as `afterCommand` has it, and the caches without the entries of the
scope, the rest in their order (R79, R80 step 1). -/
def State.scopeRemoved (s : State) (operand : Option Word) (pages : ContextNumber → PageNumber → Bool)
    (dirs : ContextNumber → BitVec 10 → Bool) : State :=
  { s.afterCommand (operand.getD s.operandWord) with
    pageCache := s.pageCache.filter fun e => !pages e.context e.page
    dirCache := s.dirCache.filter fun e => !dirs e.context e.index }

/-- A walk of the scope with the stale mark; any other as it is (R80 step 2). -/
def staleIn (pages : ContextNumber → PageNumber → Bool) (w : Walk) : Walk :=
  if w.abandoned = false ∧ pages w.context w.page = true then { w with stale := true } else w

/-- A walk that failed, before its fault is delivered: its slot FREE, the directory cache as it stands then, and, for a FLAG walk that found its page
invalid, no page-cache entry of its key (R78, R100 steps 1 and 2). -/
def State.walkFailed (s : State) (i : SlotNumber) (w : Walk) (rest : List Transaction) (cause : FaultCause)
    (dirs : List DirEntry) : State :=
  { s.walkEnded i rest with
    dirCache := dirs
    pageCache :=
      if w.kind = .flag ∧ cause = .pageInvalid then
        s.pageCache.filter fun x => !(x.context == w.context && x.page == w.page)
      else s.pageCache }

/-- The record of a head fault with a sequence number, its outcome by the context's policy (R122, R124, R129). -/
def State.headRecord (s : State) (h : HeadId) (r : Request) (n : BitVec 16) (cause : FaultCause) : FaultRecord :=
  { sequence := n, port := h.port, cls := h.cls, tag := r.tag, kind := r.kind, context := s.boundContext h
    address := r.address, cause := cause
    outcome :=
      match (s.context (s.boundContext h)).policy with
      | .stall => .parked
      | .abort => .aborted }

/-- The events that put a RUNNING memory port in FAILED, by what the rule of each asks: an expiry, as the EXPIRY row, at a write of the response limit, in
either form, and at a tick of the timebase, which is the last cycle of the tick in progress at an empty queue (log entry 2); a CLEARED without the
late-CLEARED mark; and a response with nothing outstanding, or of the wrong shape (R166 to R168, R172). -/
inductive State.FailsPort (s : State) : Host.Outcome State Fault Refusal → Prop where
  | expiry : s.outstanding ≠ [] → s.responseLimit.toNat ≠ 0 → FailsPort s (exec .expiry s)
  | limitWrite (t : Transaction) (rest : List Transaction) (value : Word) : s.ready = true → s.outstanding = t :: rest →
      value.toNat % 65536 ≠ 0 → value.toNat % 65536 ≤ t.age → FailsPort s (exec (.responseLimitWrite value) s)
  | limitRegister (t : Transaction) (rest : List Transaction) (value : Word) : s.ready = true →
      s.outstanding = t :: rest → value.toNat % 65536 ≠ 0 → value.toNat % 65536 ≤ t.age →
      FailsPort s (exec (.registerWrite 0x01C#12 0xF#4 value) s)
  | tick (t : Transaction) (rest : List Transaction) : s.pending = [] → s.tickLeft ≤ 1 → s.outstanding = t :: rest →
      s.responseLimit.toNat ≠ 0 → s.responseLimit.toNat ≤ t.age + 1 → FailsPort s (step s)
  | cleared : s.lateCleared = false → FailsPort s (exec .cleared s)
  | nothingOutstanding (status : ResponseStatus) (data : List Word) : s.outstanding = [] →
      FailsPort s (exec (.response status data) s)
  | shape (status : ResponseStatus) (data : List Word) (t : Transaction) (rest : List Transaction) :
      s.outstanding = t :: rest → shapeFits t.op status data = false → FailsPort s (exec (.response status data) s)

/-- The events that can end an entry, an item or a walk, each with the state it leaves before the tests of R25 and R153 at its end: a TRANSFER; a
GRANT to a head, which moves an entry; a response to a client transaction; and a response to a walk's: it ends a walk, abandoned, completed or failed,
with the re-presentation of the slot wait list, or a walk goes on, or a stale walk restarts (R46, R57 to R59, R91, R94, R95, R98, R100, R102, R104). -/
inductive State.EndsWork (s : State) : Instr → State → Prop where
  | transfer (h : HeadId) (e : Entry) (q : List Entry) (st : LocalStatus) (u v : State) : s.queue h = e :: q →
      e.state = .finishing st → ¬ s.TransferWaits h →
      FrontInFlight ((s.port h.port).returns.get h.cls) → (s.transferred h e q st).Presents h u → u.Represents v →
      EndsWork s (.transfer h.port h.cls) v
  | grant (h : HeadId) (e : Entry) (q : List Entry) (a : PhysAddr) (u v : State) : s.memState = .running →
      s.outstanding.length < 16 → s.winner = some (.head h) → s.queue h = e :: q → e.state = .ready a →
      FrontInFlight ((s.port h.port).returns.get h.cls) → (s.granted h e q a).Presents h u → u.Represents v →
      EndsWork s .grant v
  | itemOk (t : Transaction) (rest : List Transaction) (data : List Word) (v : RequestValues) (i : Item)
      (done later : List Item) : s.Answers t rest .ok data → t.origin = .client v →
      (s.port v.port).returns.get v.cls = i :: (done ++ later) → i.isInFlight = true →
      (∀ d ∈ done, d.isInFlight = false) → FrontInFlight later →
      EndsWork s (.response .ok data)
        (s.answered v i done later .done
          (match t.op with
            | .read _ => some data
            | .write _ _ => none
            | .update _ => none)
          rest)
  | itemError (t : Transaction) (rest : List Transaction) (v : RequestValues) (i : Item) (done later : List Item) :
      s.Answers t rest .error [] → t.origin = .client v →
      (s.port v.port).returns.get v.cls = i :: (done ++ later) → i.isInFlight = true →
      (∀ d ∈ done, d.isInFlight = false) → FrontInFlight later →
      EndsWork s (.response .error []) (takeDataError v (s.answered v i done later .memoryError none rest))
  | abandonedWalk (t : Transaction) (rest : List Transaction) (status : ResponseStatus) (data : List Word)
      (i : SlotNumber) (w : Walk) (v : State) : s.Answers t rest status data → t.origin = .walk i →
      s.slot i = some w → w.abandoned = true → (s.walkEnded i rest).Represents v →
      EndsWork s (.response status data) v
  | completedWalk (t : Transaction) (rest : List Transaction) (word : Word) (i : SlotNumber) (w : Walk)
      (entry : PageEntry) (u v : State) : s.Answers t rest .ok [word] → t.origin = .walk i → s.slot i = some w →
      w.abandoned = false → w.stale = false → s.CompletesWalk t w word entry →
      PresentsInTurn { s.walkEnded i rest with pageCache := s.filledPages entry } w.waiters u → u.Represents v →
      EndsWork s (.response .ok [word]) v
  | failedWalk (t : Transaction) (rest : List Transaction) (status : ResponseStatus) (data : List Word)
      (i : SlotNumber) (w : Walk) (cause : FaultCause) (dirs : List DirEntry) (u v : State) :
      s.Answers t rest status data → t.origin = .walk i → s.slot i = some w → w.abandoned = false → w.stale = false →
      s.FailsWalk t w status data cause dirs →
      FaultsInTurn cause (s.walkFailed i w rest cause dirs) w.waiters u → u.Represents v →
      EndsWork s (.response status data) v
  | advancedWalk (t : Transaction) (rest : List Transaction) (word : Word) (i : SlotNumber) (w w' : Walk)
      (dirs : List DirEntry) : s.Answers t rest .ok [word] → t.origin = .walk i → s.slot i = some w →
      w.abandoned = false → w.stale = false → s.AdvancesWalk t w word w' dirs →
      EndsWork s (.response .ok [word]) { (s.responseTaken rest).setSlot i (some w') with dirCache := dirs }
  | restartedWalk (t : Transaction) (rest : List Transaction) (status : ResponseStatus) (data : List Word)
      (i : SlotNumber) (w : Walk) (v : State) : s.Answers t rest status data → t.origin = .walk i →
      s.slot i = some w → w.abandoned = false → w.stale = true → (s.responseTaken rest).Restarts i w v →
      EndsWork s (.response status data) v

end Sys2Proof.Machine
end

