-- ==== Sys2Proof/Certificates/Slice0/Obligations.lean ====
section
/-! DEFINITION. The statements for the provers. Most say the whole next state of an event as `{ s with … }`: what is not named there is
unchanged, which is the event's frame. `emitted` is what the event handed to the outside (log entry 6). -/

open Sys2Proof Sys2Proof.Machine

/-! ## The machine -/

/-- A step takes the event at the front of the queue and runs it with the queue's rest. -/
def Obligations.StepRunsFront : Prop :=
  ∀ (c : Instr) (rest : List Instr) (s : State), step { s with pending := c :: rest } = exec c { s with pending := rest }

/-- With an empty queue a step is one cycle of the host clock (log entry 2, DESIGN CHOICE): nothing while RESETN is low, else a cycle of the tick in
progress; the last cycle of a tick adds one to every age and compares with the response limit (R168, R171). -/
def Obligations.EmptyQueueIsOneHostClock : Prop :=
  ∀ s : State, s.pending = [] →
    let ticked : State :=
      { s with
        tickLeft := s.timebase.toNat
        outstanding := s.outstanding.map fun t => { t with age := if t.age < 65535 then t.age + 1 else t.age }
        clearAge := if s.memState = .clearing ∧ s.clearAge < 65535 then s.clearAge + 1 else s.clearAge
        emitted := [] }
    (s.resetnLow = true → step s = .next { s with emitted := [] }) ∧
    (s.resetnLow = false → 1 < s.tickLeft → step s = .next { s with tickLeft := s.tickLeft - 1, emitted := [] }) ∧
    (s.resetnLow = false → s.tickLeft ≤ 1 →
      (s.responseLimit.toNat = 0 ∨ s.memState = .failed ∨
        (s.memState = .running ∧ ∀ t rest, s.outstanding = t :: rest → t.age + 1 < s.responseLimit.toNat) ∨
        (s.memState = .clearing ∧ s.clearAge + 1 < s.responseLimit.toNat)) →
      step s = .next ticked) ∧
    (s.resetnLow = false → s.tickLeft ≤ 1 → s.responseLimit.toNat ≠ 0 → s.memState = .clearing →
      s.responseLimit.toNat ≤ s.clearAge + 1 →
      step s = .next
        { ticked with clearAge := 0, clearRepeated := true, irqStatus := s.irqStatus ||| 0x20#8, emitted := [.clear] }) ∧
    (s.resetnLow = false → s.tickLeft ≤ 1 → s.responseLimit.toNat ≠ 0 → s.memState = .running →
      ∀ t rest, s.outstanding = t :: rest → s.responseLimit.toNat ≤ t.age + 1 →
      ∃ u, step s = .next u ∧ u.memState = .failed ∧ u.outstanding = [] ∧ u.irqStatus.getLsbD 5 = true)

/-- No event stops the part, and none touches the model's queue. That an event whose condition does not hold answers next, with no effect, is log
entry 1's reading, and that UNKNOWN_CODE does so with any code is log entry 21's choice. -/
def Obligations.EveryEventAnswersNext : Prop :=
  ∀ (c : Instr) (s : State), ∃ t, exec c s = .next t ∧ t.pending = s.pending

/-! ## Resets -/

/-- The part right after reset: every piece of state at its power-on value, RESETN just released, CLEAR sent (R18, R63, R69, R83, R87, R110, R123, R133,
R155, R164, R167, R174, R179, R183; the end of the low time is log entry 5's choice). It has every invariant of this file, and nothing waits for the
end of an event. -/
def Obligations.ResetState : Prop :=
  let s := State.reset
  (s.resetnLow = false ∧ s.device = .resetting ∧ s.irqStatus = 0#8 ∧ s.irqEnable = 0#8) ∧
  (∀ p, s.port p =
    { state := .closed, binding := 0, queues := ⟨[], []⟩, returns := ⟨[], []⟩, completions := [] }) ∧
  (∀ c, s.context c =
    { state := .off, directoryFrame := 0#24, limit := 0#11, policy := .abort, writesPermitted := false
      recordFlags := false }) ∧
  (s.pageCache = [] ∧ s.dirCache = [] ∧ (∀ i, s.slot i = none) ∧ s.startOrder = [] ∧ s.slotWait = []) ∧
  (∀ i, s.region i = { endUnit := 0#13, kind := .absent }) ∧
  (s.faultLog = [] ∧ s.nextSeq = 0#16 ∧ ∀ h, s.parkedPlace h = none) ∧
  (s.commands = [] ∧ s.operandWord = 0#32 ∧ s.takenCount = 0#16 ∧ s.completedCount = 0#16 ∧
    s.lastError = { code := .none_, number := 0#16 } ∧ s.syncMarker = 0#16 ∧
    s.probe = { hit := false, frame := 0#24, readPermit := false, writePermit := false, modifiedKnown := false }) ∧
  (s.memState = .clearing ∧ s.outstanding = [] ∧ s.responseLimit.toNat = 2000 ∧ s.timebase.toNat = 33 ∧
    s.tickLeft = 33 ∧ s.lastUrgent = 3 ∧ s.lastNormal = 3 ∧ s.runCount = 0 ∧ s.clearAge = 0 ∧
    s.clearRepeated = false ∧ s.lateCleared = false) ∧
  (s.emitted = [.clear] ∧ s.pending = []) ∧
  (s.Bounded ∧ s.LogNumbered ∧ s.CommandsInOrder ∧ s.DrainsHeld ∧ s.CachesSound ∧ s.ResetsQuiet ∧ s.WalkerSettled ∧
    s.TransactionsLinked ∧ s.ItemsPaired ∧ s.HeadsLinked ∧ s.NoEnds)

/-- POWER_ON_RESET puts every piece of state at its power-on value and hands nothing outside; RESETN_RELEASE, while RESETN is low, starts
RESETTING and CLEARING, sends CLEAR and starts the first tick (R179, R174; log entries 5 and 17). That it has no effect while RESETN is high is log
entry 1's reading. -/
def Obligations.ResetPin : Prop :=
  ∀ s : State,
    exec .powerOnReset s = .next { State.reset with resetnLow := true, emitted := [], pending := s.pending } ∧
    (s.resetnLow = true →
      exec .resetnRelease s = .next
        { s with
          resetnLow := false, device := .resetting, memState := .clearing, clearAge := 0, clearRepeated := false
          tickLeft := s.timebase.toNat, emitted := [.clear] }) ∧
    (s.resetnLow = false → exec .resetnRelease s = .next { s with emitted := [] })

/-- DEVICE_RESET while the device is READY discards all working state, keeps the configuration (context fields, bindings, region map, response
limit, timebase, interrupt enables), enters RESETTING and CLEARING and sends CLEAR; while the device is not READY it has no effect. A
device-control write does the same by its reset bit, and sets PROGRAM_ERROR when that bit is 0 (R180). That the CLEAR of a reset that finds
the port CLEARING counts as a second one is log entry 9's reading. -/
def Obligations.DeviceReset : Prop :=
  ∀ (s : State) (value : Word),
    (s.ready = true →
      exec .deviceReset s = .next
        { s with
          device := .resetting
          irqStatus := 0#8
          ports := s.ports.map fun p =>
            { state := .closed, binding := p.binding, queues := ⟨[], []⟩, returns := ⟨[], []⟩, completions := [] }
          contexts := s.contexts.map fun c => { c with state := .off }
          pageCache := [], dirCache := [], slots := Vector.replicate 4 none, startOrder := [], slotWait := []
          faultLog := [], nextSeq := 0#16, parked := Vector.replicate 4 ⟨none, none⟩
          commands := [], operandWord := 0#32, takenCount := 0#16, completedCount := 0#16
          lastError := { code := .none_, number := 0#16 }
          syncMarker := 0#16
          probe := { hit := false, frame := 0#24, readPermit := false, writePermit := false, modifiedKnown := false }
          memState := .clearing, outstanding := [], lastUrgent := 3, lastNormal := 3, runCount := 0
          clearAge := 0, clearRepeated := decide (s.memState = .clearing), lateCleared := false
          emitted := [.clear] }) ∧
    (s.ready = false → exec .deviceReset s = .next { s with emitted := [] }) ∧
    (value.getLsbD 0 = true → exec (.registerWrite 0x004#12 0xF#4 value) s = exec .deviceReset s) ∧
    (value.getLsbD 0 = false → s.ready = true →
      exec (.registerWrite 0x004#12 0xF#4 value) s = .next
        { s with irqStatus := s.irqStatus ||| 0x40#8, emitted := [] }) ∧
    (value.getLsbD 0 = false → s.ready = false →
      exec (.registerWrite 0x004#12 0xF#4 value) s = .next { s with emitted := [] })

/-! ## Client ports -/

/-- A port-control write: OPEN is taken in CLOSED and CLOSE in OPEN, everything else is ignored with PROGRAM_ERROR, and while the device is not READY
the write is ignored and sets no cause (R40; what a taken OPEN or CLOSE does is R37 and R38). -/
def Obligations.PortControlWrite : Prop :=
  ∀ (p : PortNumber) (value : Word) (s : State),
    let write := Instr.registerWrite (BitVec.ofNat 12 (0x040 + 4 * p.val)) 0xF#4 value
    let open_ := value.getLsbD 0
    let close := value.getLsbD 1
    (s.ready = false → exec write s = .next { s with emitted := [] }) ∧
    (s.ready = true → open_ = true → close = false → (s.port p).state = .closed →
      exec write s = .next { s.setPort p { s.port p with state := .open_ } with emitted := [] }) ∧
    (s.ready = true → open_ = false → close = true → (s.port p).state = .open_ →
      exec write s = .next
        { s.setPort p { s.port p with state := if (s.port p).isEmpty then .closed else .closing } with emitted := [] }) ∧
    (s.ready = true →
      (open_ = close ∨ (open_ = true ∧ (s.port p).state ≠ .closed) ∨ (close = true ∧ (s.port p).state ≠ .open_)) →
      exec write s = .next { s with irqStatus := s.irqStatus ||| 0x40#8, emitted := [] })

/-- The rows OPEN and CLOSE: the port's state changes, and nothing else; a CLOSE of an empty port goes on to CLOSED; a row that the port's state does
not take sets PROGRAM_ERROR; while the device is not READY neither has an effect (R37 to R40). -/
def Obligations.OpenAndClose : Prop :=
  ∀ (p : PortNumber) (s : State),
    (s.ready = true → (s.port p).state = .closed →
      exec (.openPort p) s = .next { s.setPort p { s.port p with state := .open_ } with emitted := [] }) ∧
    (s.ready = true → (s.port p).state = .open_ → (s.port p).isEmpty = true →
      exec (.closePort p) s = .next { s.setPort p { s.port p with state := .closed } with emitted := [] }) ∧
    (s.ready = true → (s.port p).state = .open_ → (s.port p).isEmpty = false →
      exec (.closePort p) s = .next { s.setPort p { s.port p with state := .closing } with emitted := [] }) ∧
    (s.ready = true → (s.port p).state ≠ .closed →
      exec (.openPort p) s = .next { s with irqStatus := s.irqStatus ||| 0x40#8, emitted := [] }) ∧
    (s.ready = true → (s.port p).state ≠ .open_ →
      exec (.closePort p) s = .next { s with irqStatus := s.irqStatus ||| 0x40#8, emitted := [] }) ∧
    (s.ready = false →
      exec (.openPort p) s = .next { s with emitted := [] } ∧ exec (.closePort p) s = .next { s with emitted := [] })

/-- A binding is written in CLOSED only; its reset values; what it reads as (R30). -/
def Obligations.PortBinding : Prop :=
  ∀ (p : PortNumber) (value : Word) (s : State),
    (s.ready = true → (s.port p).state = .closed →
      exec (.portBindingWrite p value) s = .next
        { s.setPort p { s.port p with binding := Fin.ofNat 16 (value.toNat % 16) } with emitted := [] }) ∧
    (s.ready = true → (s.port p).state ≠ .closed →
      exec (.portBindingWrite p value) s = .next { s with irqStatus := s.irqStatus ||| 0x40#8, emitted := [] }) ∧
    (s.ready = false → exec (.portBindingWrite p value) s = .next { s with emitted := [] }) ∧
    (∀ t, exec .powerOnReset s = .next t → (t.port p).binding = 0) ∧
    (∀ t, exec .deviceReset s = .next t → (t.port p).binding = (s.port p).binding) ∧
    (s.ready = true →
      (readValue (BitVec.ofNat 12 (0x060 + 4 * p.val)) 0xF#4 s).toNat = (s.port p).binding.val)

/-- The division of a client address, the addresses of data and of table entries (R1, R3, R5, R7), the five format rules (R43), and the
shapes of responses (R159). -/
def Obligations.AddressesAndFormats : Prop :=
  (∀ a : Word,
    (clientPage a).toNat = a.toNat / 4096 ∧ (clientOffset a).toNat = a.toNat % 4096 ∧
    (directoryIndex (clientPage a)).toNat = a.toNat / 4194304 ∧
    (pageIndex (clientPage a)).toNat = a.toNat / 4096 % 1024) ∧
  (∀ (f : Frame) (o : BitVec 12), (dataAddress f o).toNat = f.toNat * 4096 + o.toNat) ∧
  (∀ (f : Frame) (i : BitVec 10), (entryAddress f i).toNat = f.toNat * 4096 + i.toNat * 4) ∧
  (∀ r : Request, wellFormedRequest r = true ↔
    (4 ≤ r.length ∧ r.length ≤ 256 ∧ r.length % 4 = 0 ∧ r.address.toNat % 4 = 0 ∧
      r.address.toNat % 4096 + r.length ≤ 4096 ∧
      (r.kind = .write → r.data.length = r.length / 4) ∧ (r.kind = .read → r.data = []))) ∧
  (∀ (op : TxnOp) (data : List Word), shapeFits op .error data = true ↔ data = []) ∧
  (∀ (n : Nat) (data : List Word), shapeFits (.read n) .ok data = true ↔ data.length = n / 4) ∧
  (∀ (n : Nat) (words data : List Word), shapeFits (.write n words) .ok data = true ↔ data = []) ∧
  (∀ (m : Bool) (data : List Word), shapeFits (.update m) .ok data = true ↔ data.length = 1)

/-- The answer to a request: DECLINE unless the device is READY and the port OPEN, HOLD when the class queue holds 8, else ACCEPT; an accepted
request joins the back of its class queue, and behind other entries nothing else happens (R41 to R45). -/
def Obligations.RequestAnswered : Prop :=
  ∀ (p : PortNumber) (r : Request) (s : State),
    let h : HeadId := ⟨p, r.cls⟩
    (¬ (s.ready = true ∧ (s.port p).state = .open_) →
      exec (.request p r) s = .next { s with emitted := [.answer p .decline] }) ∧
    (s.ready = true → (s.port p).state = .open_ → 8 ≤ (s.queue h).length →
      exec (.request p r) s = .next { s with emitted := [.answer p .hold] }) ∧
    (s.ready = true → (s.port p).state = .open_ → 0 < (s.queue h).length → (s.queue h).length < 8 →
      wellFormedRequest r = true →
      exec (.request p r) s = .next
        { s.setQueue h (s.queue h ++ [{ request := r, malformed := false, abortMark := false, state := .queued }]) with
          emitted := [.answer p .accept] }) ∧
    (s.ready = true → (s.port p).state = .open_ → 0 < (s.queue h).length → (s.queue h).length < 8 →
      wellFormedRequest r = false →
      exec (.request p r) s = .next
        { s.setQueue h
            (s.queue h ++
              [{ request := { r with data := [] }, malformed := true, abortMark := false, state := .queued }]) with
          emitted := [.answer p .accept] })

/-- A request accepted into an empty queue is presented at once: a malformed one is FINISHING with REJECTED_FORMAT, and one of a context that is not
ACTIVE is FINISHING with NO_CONTEXT; no cache, walk or record is touched (R43, R45, R48, R33). -/
def Obligations.RequestFinishedAtOnce : Prop :=
  ∀ (p : PortNumber) (r : Request) (s : State),
    let h : HeadId := ⟨p, r.cls⟩
    s.Offered → s.ready = true → (s.port p).state = .open_ → s.queue h = [] →
    (wellFormedRequest r = false →
      exec (.request p r) s = .next
        { s.setQueue h
            [{ request := { r with data := [] }, malformed := true, abortMark := false
               state := .finishing .rejectedFormat }] with
          emitted := [.answer p .accept] }) ∧
    (wellFormedRequest r = true → (s.context (s.port p).binding).state ≠ .active →
      exec (.request p r) s = .next
        { s.setQueue h
            [{ request := r, malformed := false, abortMark := false, state := .finishing .noContext }] with
          emitted := [.answer p .accept] })

/-- A request that hits and passes its checks is READY at frame × 4096 + offset in the event of its acceptance, and the entry moves to the front
(R7, R49, R70 to R72). -/
def Obligations.RequestHits : Prop :=
  ∀ (p : PortNumber) (r : Request) (s : State) (e : PageEntry) (a : PhysAddr),
    let h : HeadId := ⟨p, r.cls⟩
    let c := (s.port p).binding
    s.Offered → s.ready = true → (s.port p).state = .open_ → s.queue h = [] → wellFormedRequest r = true →
    s.Translated h r → s.pageLookup c (clientPage r.address) = some e → s.HitReady c r e a →
    exec (.request p r) s = .next
      { s.setQueue h [{ request := r, malformed := false, abortMark := false, state := .ready a }] with
        pageCache := s.pageFront e
        emitted := [.answer p .accept] }

/-- A request over the limit faults LIMIT with nothing consulted; one that a hit refuses faults with the cause of R71, permission before region, and
the entry stays, at the front. The fault unit takes each in the event (R3, R8, R9, R48, R71, R74). -/
def Obligations.RequestFaults : Prop :=
  ∀ (p : PortNumber) (r : Request) (s : State),
    let h : HeadId := ⟨p, r.cls⟩
    let c := (s.port p).binding
    let accepted : State :=
      { s.setQueue h [{ request := r, malformed := false, abortMark := false, state := .queued }] with
        emitted := [.answer p .accept] }
    s.Offered → s.ready = true → (s.port p).state = .open_ → s.queue h = [] → wellFormedRequest r = true →
    (s.context c).state = .active →
    ((s.context c).limit.toNat ≤ r.address.toNat / 4194304 →
      exec (.request p r) s = .next (takeHeadFault .limit h accepted)) ∧
    (∀ e cause, s.Translated h r → s.pageLookup c (clientPage r.address) = some e → s.HitFault c r e cause →
      exec (.request p r) s = .next (takeHeadFault cause h { accepted with pageCache := s.pageFront e }))

/-- A request that needs a walk, a miss or a WRITE that hits with modified-known no, with no walk to join and a slot FREE, starts one in the
lowest-numbered FREE slot: a directory READ on a directory-cache miss, on a hit a page READ for a FILL walk and an UPDATE for a FLAG walk. Where the
region map refuses the transaction the walk fails at once with TABLE_REGION, and where the memory port is not RUNNING with TABLE_ERROR, the region
first (R72, R73, R88, R92, R93, R100, R106, R115). -/
def Obligations.RequestStartsWalk : Prop :=
  ∀ (p : PortNumber) (r : Request) (s : State) (i : SlotNumber) (k : WalkKind) (pages : List PageEntry)
    (stage : WalkStage) (op : TxnOp) (a : PhysAddr) (frame : Option Frame),
    let h : HeadId := ⟨p, r.cls⟩
    let c := (s.port p).binding
    let page := clientPage r.address
    let entry (st : EntryState) : Entry := { request := r, malformed := false, abortMark := false, state := st }
    let refused (cause : FaultCause) : State :=
      takeHeadFault cause h
        { s.setQueue h [entry .queued] with
          pageCache := pages, dirCache := s.dirFront c (directoryIndex page), emitted := [.answer p .accept] }
    s.Offered → s.ready = true → (s.port p).state = .open_ → s.queue h = [] → wellFormedRequest r = true →
    s.Translated h r → s.NeedsWalk c r k pages → s.NoWalk c page → s.LowestFree i →
    s.FirstAccess k c page stage op a frame →
    (s.TableAdmits op a → s.memState = .running →
      exec (.request p r) s = .next
        { (s.setSlot i (some (startedWalk k c page h stage op a frame))).setQueue h [entry .walking] with
          startOrder := s.startOrder ++ [i]
          pageCache := pages, dirCache := s.dirFront c (directoryIndex page), emitted := [.answer p .accept] }) ∧
    (s.TableAdmits op a → s.memState ≠ .running → exec (.request p r) s = .next (refused .tableError)) ∧
    (¬ s.TableAdmits op a → exec (.request p r) s = .next (refused .tableRegion))

/-- A request that needs a walk, a miss or a WRITE that hits with modified-known no, joins the back of the waiter list of its key's walk, whatever the
walk's kind, stage and stale mark; with no such walk and no slot FREE it joins the back of the slot wait list (R72, R73, R89, R90). -/
def Obligations.RequestJoinsOrWaits : Prop :=
  ∀ (p : PortNumber) (r : Request) (s : State) (k : WalkKind) (pages : List PageEntry),
    let h : HeadId := ⟨p, r.cls⟩
    let c := (s.port p).binding
    let page := clientPage r.address
    let entry (st : EntryState) : Entry := { request := r, malformed := false, abortMark := false, state := st }
    s.Offered → s.ready = true → (s.port p).state = .open_ → s.queue h = [] → wellFormedRequest r = true →
    s.Translated h r → s.NeedsWalk c r k pages →
    (∀ i w, s.slot i = some w → w.abandoned = false → w.context = c → w.page = page →
      (∀ j v, s.slot j = some v → v.abandoned = false → v.context = c → v.page = page → j = i) →
      exec (.request p r) s = .next
        { (s.setSlot i (some { w with waiters := w.waiters ++ [h] })).setQueue h [entry .walking] with
          pageCache := pages, emitted := [.answer p .accept] }) ∧
    (s.NoWalk c page → (∀ i, s.slot i ≠ none) →
      exec (.request p r) s = .next
        { s.setQueue h [entry .waitSlot] with
          pageCache := pages, slotWait := s.slotWait ++ [h], emitted := [.answer p .accept] })

/-- What the fault unit does with a head fault and with a DATA_ERROR: the five rows of R129's table, the record of R122 and R124, the place of R133,
the overflow of R125. -/
def Obligations.FaultUnit : Prop :=
  (∀ (h : HeadId) (e : Entry) (q : List Entry) (cause : FaultCause) (s : State), s.queue h = e :: q →
    let record (outcome : RecordOutcome) : FaultRecord :=
      { sequence := s.nextSeq, port := h.port, cls := h.cls, tag := e.request.tag, kind := e.request.kind
        context := (s.port h.port).binding, address := e.request.address, cause := cause, outcome := outcome }
    let policy := (s.context (s.port h.port).binding).policy
    (s.faultLog.length < 16 → policy = .stall →
      takeHeadFault cause h s =
        { (s.setQueue h ({ e with state := .parked } :: q)).setParked h
            (some { sequence := s.nextSeq, cause := cause }) with
          faultLog := s.faultLog ++ [record .parked], nextSeq := s.nextSeq + 1#16
          irqStatus := s.irqStatus ||| 0x01#8 }) ∧
    (s.faultLog.length < 16 → policy = .abort →
      takeHeadFault cause h s =
        { s.setQueue h ({ e with state := .finishing .faulted } :: q) with
          faultLog := s.faultLog ++ [record .aborted], nextSeq := s.nextSeq + 1#16
          irqStatus := s.irqStatus ||| 0x01#8 }) ∧
    (16 ≤ s.faultLog.length →
      takeHeadFault cause h s =
        { s.setQueue h ({ e with state := .finishing .faulted } :: q) with
          irqStatus := s.irqStatus ||| 0x02#8 })) ∧
  (∀ (v : RequestValues) (s : State),
    (s.faultLog.length < 16 →
      takeDataError v s =
        { s with
          faultLog := s.faultLog ++
            [{ sequence := s.nextSeq, port := v.port, cls := v.cls, tag := v.tag, kind := v.kind
               context := v.context, address := v.address, cause := .dataError, outcome := .aborted }]
          nextSeq := s.nextSeq + 1#16
          irqStatus := s.irqStatus ||| 0x01#8 }) ∧
    (16 ≤ s.faultLog.length → takeDataError v s = { s with irqStatus := s.irqStatus ||| 0x02#8 }))

/-- DELIVERY hands out the front record, in order, while the device is READY; on a CLOSING port that it leaves empty the port becomes CLOSED (R39,
R61). -/
def Obligations.DeliveryOfRecord : Prop :=
  ∀ (p : PortNumber) (s : State),
    (∀ record rest, s.ready = true → (s.port p).completions = record :: rest →
      ((s.port p).state = .closing → { s.port p with completions := rest }.isEmpty = true →
        exec (.delivery p) s = .next
          { s.setPort p { s.port p with completions := rest, state := .closed } with
            emitted := [.completion p record] }) ∧
      ((s.port p).state ≠ .closing ∨ { s.port p with completions := rest }.isEmpty = false →
        exec (.delivery p) s = .next
          { s.setPort p { s.port p with completions := rest } with emitted := [.completion p record] })) ∧
    (s.ready = false ∨ (s.port p).completions = [] → exec (.delivery p) s = .next { s with emitted := [] })

/-- TRANSFER: with a credit free a FINISHING head leaves its queue as a DONE item with its local status and no data; into an empty return list the
record goes straight on to the completion queue; the next entry becomes head and is presented, which `Presents` says: a malformed one is FINISHING
with REJECTED_FORMAT, marked or not, and a well-formed one that bears the abort mark is FINISHING with ABORTED, whatever its context's state, DRAINING
included, and nothing else changes. It waits while the credit is used up, and a NORMAL head leaves the last credit to a FINISHING URGENT head (R32,
R46, R48, R56, R58, R60; log entry 18). -/
def Obligations.TransferOfFinished : Prop :=
  ∀ (h : HeadId) (e : Entry) (q : List Entry) (st : LocalStatus) (s : State), s.queue h = e :: q →
    let port := s.port h.port
    let waits := 8 ≤ port.creditInUse ∨
      (h.cls = .normal ∧ port.creditInUse = 7 ∧
        ∃ e' q' st', s.queue ⟨h.port, .urgent⟩ = e' :: q' ∧ e'.state = .finishing st')
    let moved : State :=
      { s.setPort h.port
          { port with
            queues := port.queues.set h.cls q
            returns :=
              if port.returns.get h.cls = [] then port.returns
              else
                port.returns.set h.cls
                  (port.returns.get h.cls ++
                    [{ tag := e.request.tag, cls := h.cls, kind := e.request.kind, state := .done st.status none }])
            completions :=
              if port.returns.get h.cls = [] then
                port.completions ++
                  [{ tag := e.request.tag, cls := h.cls, kind := e.request.kind, status := st.status, data := none }]
              else port.completions } with
        emitted := [] }
    (e.state = .finishing st → ¬ waits → FrontInFlight (port.returns.get h.cls) → s.NoEnds →
      exec (.transfer h.port h.cls) s = .next (presentHead h moved) ∧
      (q = [] → s.Offered → exec (.transfer h.port h.cls) s = .next moved)) ∧
    (e.state = .finishing st → ¬ waits → FrontInFlight (port.returns.get h.cls) → s.Offered →
      s.NoEnds ∨ (q ≠ [] ∧ s.DrainsOnly (s.boundContext h)) →
      (∀ u, moved.Presents h u → exec (.transfer h.port h.cls) s = .next u) ∧
      ∀ next behind, q = next :: behind →
        (next.malformed = true →
          exec (.transfer h.port h.cls) s = .next
            (moved.setQueue h ({ next with state := .finishing .rejectedFormat } :: behind))) ∧
        (next.malformed = false → next.abortMark = true →
          exec (.transfer h.port h.cls) s = .next
            (moved.setQueue h ({ next with state := .finishing .aborted } :: behind)))) ∧
    (e.state = .finishing st → waits → exec (.transfer h.port h.cls) s = .next { s with emitted := [] }) ∧
    ((∀ st', e.state ≠ .finishing st') → exec (.transfer h.port h.cls) s = .next { s with emitted := [] })

/-! ## The arbiter -/

/-- Which candidate a grant chooses, and what the arbiter remembers of it (R162, R163). -/
def Obligations.ArbiterChoice : Prop :=
  ∀ s : State,
    let urgent (p : PortNumber) : Prop := s.headCandidate ⟨p, .urgent⟩ = true
    let normal (p : PortNumber) : Prop := s.headCandidate ⟨p, .normal⟩ = true
    (∀ h, s.headCandidate h = true ↔
      (s.port h.port).creditInUse < 8 ∧ ∃ e q a, s.queue h = e :: q ∧ e.state = .ready a) ∧
    (∀ i before after, s.startOrder = before ++ i :: after → walkAwaits (s.slot i) = true →
      (∀ j ∈ before, walkAwaits (s.slot j) = false) → s.winner = some (.walk i)) ∧
    ((∀ i ∈ s.startOrder, walkAwaits (s.slot i) = false) →
      (∀ p, s.runCount = 4 → FirstAfter s.lastNormal p normal → s.winner = some (.head ⟨p, .normal⟩)) ∧
      (∀ p, (s.runCount ≠ 4 ∨ ∀ q, ¬ normal q) → FirstAfter s.lastUrgent p urgent →
        s.winner = some (.head ⟨p, .urgent⟩)) ∧
      (∀ p, (∀ q, ¬ urgent q) → FirstAfter s.lastNormal p normal → s.winner = some (.head ⟨p, .normal⟩)) ∧
      ((∀ q, ¬ urgent q) → (∀ q, ¬ normal q) → s.winner = none)) ∧
    (∀ t, s.memState = .running → s.outstanding.length < 16 → exec .grant s = .next t →
      (∀ i, s.winner = some (.walk i) →
        t.lastUrgent = s.lastUrgent ∧ t.lastNormal = s.lastNormal ∧ t.runCount = s.runCount) ∧
      (∀ p, s.winner = some (.head ⟨p, .urgent⟩) →
        t.lastUrgent = p ∧ t.lastNormal = s.lastNormal ∧
        ((∃ q, normal q) → t.runCount = s.runCount + 1) ∧ ((∀ q, ¬ normal q) → t.runCount = 0)) ∧
      (∀ p, s.winner = some (.head ⟨p, .normal⟩) →
        t.lastUrgent = s.lastUrgent ∧ t.lastNormal = p ∧ t.runCount = 0) ∧
      (s.runCount ≤ 4 → t.runCount ≤ 4))

/-- GRANT to a walk: its transaction becomes outstanding with age 0 and is sent, and the walk keeps its stage. With no candidate, with 16 outstanding or
with the port not RUNNING there is no grant (R161, R164). -/
def Obligations.GrantToWalk : Prop :=
  ∀ s : State,
    (∀ i w, s.memState = .running → s.outstanding.length < 16 → s.winner = some (.walk i) → s.slot i = some w →
      exec .grant s = .next
        { s.setSlot i (some { w with awaiting := false }) with
          outstanding := s.outstanding ++ [{ op := w.op, address := w.address, origin := .walk i, age := 0 }]
          emitted := [.transaction w.op w.address] }) ∧
    (s.memState ≠ .running ∨ 16 ≤ s.outstanding.length ∨ s.winner = none →
      exec .grant s = .next { s with emitted := [] })

/-- GRANT to a READY head: it leaves its queue, its item enters the return list IN_FLIGHT, its READ or WRITE at its physical address becomes
outstanding with its request values and age 0 and is sent, and the next entry becomes head and is presented, which `Presents` says (R46, R48, R57,
R158, R164). -/
def Obligations.GrantToHead : Prop :=
  ∀ (h : HeadId) (e : Entry) (q : List Entry) (a : PhysAddr) (s : State),
    let port := s.port h.port
    let op : TxnOp :=
      match e.request.kind with
      | .read => .read e.request.length
      | .write => .write e.request.length e.request.data
    let granted : State :=
      { s.setPort h.port
          { port with
            queues := port.queues.set h.cls q
            returns := port.returns.set h.cls
              (port.returns.get h.cls ++
                [{ tag := e.request.tag, cls := h.cls, kind := e.request.kind, state := .inFlight false }]) } with
        outstanding := s.outstanding ++
          [{ op := op, address := a
             origin := .client
               { port := h.port, cls := h.cls, tag := e.request.tag, kind := e.request.kind, context := port.binding
                 address := e.request.address }
             age := 0 }]
        lastUrgent := if h.cls = .urgent then h.port else s.lastUrgent
        lastNormal := if h.cls = .normal then h.port else s.lastNormal
        runCount :=
          if h.cls = .urgent ∧ (allPorts.any fun p => s.headCandidate ⟨p, .normal⟩) = true then s.runCount + 1 else 0
        emitted := [.transaction op a] }
    s.memState = .running → s.outstanding.length < 16 → s.winner = some (.head h) → s.queue h = e :: q →
    e.state = .ready a → FrontInFlight (port.returns.get h.cls) → s.NoEnds →
    exec .grant s = .next (presentHead h granted) ∧
    (q = [] → s.Offered → exec .grant s = .next granted) ∧
    (s.Offered → ∀ u, granted.Presents h u → exec .grant s = .next u)

/-! ## Responses -/

/-- An OK response to the oldest transaction, a client's: its item is DONE with the data of a READ, and it and the DONE items behind it move on to the
completion queue in acceptance order (R59, R60, R165). -/
def Obligations.ResponseOkEndsItem : Prop :=
  ∀ (s : State) (t : Transaction) (rest : List Transaction) (v : RequestValues) (n : Nat) (words data : List Word)
    (i : Item) (done later : List Item),
    let port := s.port v.port
    let taken (readData : Option (List Word)) : State :=
      { s.setPort v.port
          { port with
            returns := port.returns.set v.cls later
            completions := port.completions ++
              { tag := i.tag, cls := i.cls, kind := i.kind, status := .done, data := readData } ::
                done.filterMap Item.completion? } with
        outstanding := rest, lateCleared := false, emitted := [] }
    s.resetnLow = false → s.memState = .running → s.outstanding = t :: rest → t.origin = .client v →
    port.returns.get v.cls = i :: (done ++ later) → i.isInFlight = true → (∀ d ∈ done, d.isInFlight = false) →
    FrontInFlight later → s.NoEnds →
    (t.op = .read n → data.length = n / 4 → exec (.response .ok data) s = .next (taken (some data))) ∧
    (t.op = .write n words → exec (.response .ok []) s = .next (taken none))

/-- An ERROR response to the oldest transaction, a client's: its item is DONE with MEMORY_ERROR and no data, it and the DONE items behind it move on, and
a DATA_ERROR is recorded with outcome ABORTED, or LOG_OVERFLOW is set when the log is full (R59, R60, R132). -/
def Obligations.ResponseErrorEndsItem : Prop :=
  ∀ (s : State) (t : Transaction) (rest : List Transaction) (v : RequestValues) (i : Item) (done later : List Item),
    let port := s.port v.port
    let ended : State :=
      { s.setPort v.port
          { port with
            returns := port.returns.set v.cls later
            completions := port.completions ++
              { tag := i.tag, cls := i.cls, kind := i.kind, status := .memoryError, data := none } ::
                done.filterMap Item.completion? } with
        outstanding := rest, lateCleared := false, emitted := [] }
    s.resetnLow = false → s.memState = .running → s.outstanding = t :: rest → t.origin = .client v →
    port.returns.get v.cls = i :: (done ++ later) → i.isInFlight = true → (∀ d ∈ done, d.isInFlight = false) →
    FrontInFlight later → s.NoEnds →
    (s.faultLog.length < 16 →
      exec (.response .error []) s = .next
        { ended with
          faultLog := s.faultLog ++
            [{ sequence := s.nextSeq, port := v.port, cls := v.cls, tag := v.tag, kind := v.kind
               context := v.context, address := v.address, cause := .dataError, outcome := .aborted }]
          nextSeq := s.nextSeq + 1#16
          irqStatus := s.irqStatus ||| 0x01#8 }) ∧
    (16 ≤ s.faultLog.length →
      exec (.response .error []) s = .next { ended with irqStatus := s.irqStatus ||| 0x02#8 })

/-- An OK response that lets a walk go on: a valid directory entry fills the directory cache, as a refresh, an insertion or a replacement, and a FILL
walk forms its page READ, a FLAG walk its UPDATE; a valid page entry without referenced, in a context that records flags, makes a FILL walk form an
UPDATE at the same address. No walk and no item ends, so a SYNC whose watch set has a member and a DRAINING context of which something is left wait on
(R25, R152). Where the region map refuses that transaction the walk fails with TABLE_REGION, and the directory-cache entry is kept (R77, R92, R94, R95,
R96, R100, R115). -/
def Obligations.ResponseAdvancesWalk : Prop :=
  ∀ (s : State) (t : Transaction) (rest : List Transaction) (i : SlotNumber) (w : Walk) (word : Word),
    let frame : Frame := word.extractLsb' 8 24
    let page := entryAddress frame (pageIndex w.page)
    let filled := s.filledDirs { context := w.context, index := directoryIndex w.page, tableFrame := frame }
    let taken : State := { s with outstanding := rest, lateCleared := false, emitted := [] }
    let onward (stage : WalkStage) (op : TxnOp) : State :=
      { taken.setSlot i
          (some { w with stage := stage, op := op, address := page, awaiting := true, tableFrame := some frame }) with
        dirCache := filled }
    s.resetnLow = false → s.memState = .running → s.outstanding = t :: rest → t.origin = .walk i → t.op = .read 4 →
    s.slot i = some w → w.abandoned = false → w.stale = false → word.getLsbD 0 = true →
    (w.stage = .directory →
      (w.kind = .fill → s.StillWaits → s.TableAdmits (.read 4) page →
        exec (.response .ok [word]) s = .next (onward .page (.read 4))) ∧
      (w.kind = .flag → s.StillWaits → s.TableAdmits (.update true) page →
        exec (.response .ok [word]) s = .next (onward .update (.update true))) ∧
      (∀ h, (w.kind = .fill ∧ ¬ s.TableAdmits (.read 4) page ∨ w.kind = .flag ∧ ¬ s.TableAdmits (.update true) page) →
        s.NoEnds → w.waiters = [h] → s.slotWait = [] →
        exec (.response .ok [word]) s = .next
          (takeHeadFault .tableRegion h { s.walkEnded i rest with dirCache := filled }))) ∧
    (w.stage = .page → (s.context w.context).recordFlags = true → word.getLsbD 3 = false →
      (s.StillWaits → s.TableAdmits (.update false) w.address →
        exec (.response .ok [word]) s = .next
          (taken.setSlot i
            (some { w with stage := .update, op := .update false, awaiting := true, entryWord := some word }))) ∧
      (∀ h, ¬ s.TableAdmits (.update false) w.address → s.NoEnds → w.waiters = [h] → s.slotWait = [] →
        exec (.response .ok [word]) s = .next (takeHeadFault .tableRegion h (s.walkEnded i rest))))

/-- An OK response that completes a walk: the page cache is filled, as a refresh, an insertion or a replacement of the entry at its back, with
modified-known as R75 gives it, the slot is FREE, the waiters are presented in waiter order, and then the slot wait list, oldest first, while a slot
is FREE. So a waiter that the new entry admits is READY; two waiters that it refuses have their records in waiter order; and the front head of the slot
wait list, when it needs a walk, takes the freed slot (R75, R76, R91, R95, R97, R98, R99). -/
def Obligations.ResponseCompletesWalk : Prop :=
  ∀ (s : State) (t : Transaction) (rest : List Transaction) (i : SlotNumber) (w : Walk) (word : Word) (entry : PageEntry),
    let filled : State :=
      { s.setSlot i none with
        startOrder := s.startOrder.filter (· ≠ i)
        pageCache := s.filledPages entry
        outstanding := rest, lateCleared := false, emitted := [] }
    let waits (h : HeadId) (e : Entry) (q : List Entry) : Prop :=
      s.queue h = e :: q ∧ e.Unmarked ∧ s.boundContext h = w.context ∧ clientPage e.request.address = w.page ∧
        s.Translated h e.request
    s.resetnLow = false → s.memState = .running → s.outstanding = t :: rest → t.origin = .walk i →
    s.slot i = some w → w.abandoned = false → w.stale = false → s.NoEnds → s.CompletesWalk t w word entry →
    (∀ u v, PresentsInTurn filled w.waiters u → u.Represents v → exec (.response .ok [word]) s = .next v) ∧
    (∀ h e q a, w.waiters = [h] → waits h e q → s.HitReady w.context e.request entry a →
      let ready (waiting : List HeadId) : State :=
        { filled.setQueue h ({ e with state := .ready a } :: q) with slotWait := waiting }
      (s.slotWait = [] → exec (.response .ok [word]) s = .next (ready [])) ∧
      (∀ k waiting e' q' j v pages, s.slotWait = k :: waiting → (∀ j, s.slot j ≠ none) →
        (ready waiting).queue k = e' :: q' → e'.Unmarked → (ready waiting).StartsWalk k e'.request j v pages →
        exec (.response .ok [word]) s = .next ((ready waiting).walkStarted k e' q' j v pages))) ∧
    (∀ h₁ h₂ e₁ e₂ q₁ q₂ cause₁ cause₂, w.waiters = [h₁, h₂] → h₁ ≠ h₂ → s.slotWait = [] → waits h₁ e₁ q₁ → waits h₂ e₂ q₂ →
      s.HitFault w.context e₁.request entry cause₁ → s.HitFault w.context e₂.request entry cause₂ →
      ∃ u, exec (.response .ok [word]) s = .next u ∧
        u = takeHeadFault cause₂ h₂ (takeHeadFault cause₁ h₁ filled) ∧
        (s.faultLog.length ≤ 14 → u.faultLog = s.faultLog ++
          [s.headRecord h₁ e₁.request s.nextSeq cause₁, s.headRecord h₂ e₂.request (s.nextSeq + 1#16) cause₂]))

/-- A response that fails a walk: DIRECTORY_INVALID, PAGE_INVALID, TABLE_ERROR or TABLE_REGION as R100 gives it; the slot is FREE, a FLAG walk that fails
with PAGE_INVALID drops the entry of its key, the fault unit takes the fault of each waiter in waiter order, and the slot wait list is presented, oldest
first, while a slot is FREE. So two waiters have their records in waiter order, the second none where the first filled the log; and the front head of the
slot wait list, when it needs a walk, takes the freed slot (R78, R91, R94, R95, R97, R100). -/
def Obligations.ResponseFailsWalk : Prop :=
  ∀ (s : State) (t : Transaction) (rest : List Transaction) (i : SlotNumber) (w : Walk) (status : ResponseStatus)
    (data : List Word) (cause : FaultCause) (dirs : List DirEntry),
    let failed : State :=
      { s.setSlot i none with
        startOrder := s.startOrder.filter (· ≠ i)
        dirCache := dirs
        pageCache :=
          if w.kind = .flag ∧ cause = .pageInvalid then
            s.pageCache.filter fun x => !(x.context == w.context && x.page == w.page)
          else s.pageCache
        outstanding := rest, lateCleared := false, emitted := [] }
    s.resetnLow = false → s.memState = .running → s.outstanding = t :: rest → t.origin = .walk i →
    s.slot i = some w → w.abandoned = false → w.stale = false → s.NoEnds → s.FailsWalk t w status data cause dirs →
    (∀ u v, FaultsInTurn cause failed w.waiters u → u.Represents v → exec (.response status data) s = .next v) ∧
    (∀ h, w.waiters = [h] →
      let faulted (waiting : List HeadId) : State := { takeHeadFault cause h failed with slotWait := waiting }
      (s.slotWait = [] → exec (.response status data) s = .next (takeHeadFault cause h failed)) ∧
      (∀ k waiting e q j v pages, s.slotWait = k :: waiting → (∀ j, s.slot j ≠ none) →
        (faulted waiting).queue k = e :: q → e.Unmarked → (faulted waiting).StartsWalk k e.request j v pages →
        exec (.response status data) s = .next ((faulted waiting).walkStarted k e q j v pages))) ∧
    (∀ h₁ h₂ e₁ e₂ q₁ q₂, w.waiters = [h₁, h₂] → h₁ ≠ h₂ → s.slotWait = [] → s.queue h₁ = e₁ :: q₁ → s.queue h₂ = e₂ :: q₂ →
      ∃ u, exec (.response status data) s = .next u ∧ u = takeHeadFault cause h₂ (takeHeadFault cause h₁ failed) ∧
        (s.faultLog.length ≤ 14 → u.faultLog = s.faultLog ++
          [s.headRecord h₁ e₁.request s.nextSeq cause, s.headRecord h₂ e₂.request (s.nextSeq + 1#16) cause]) ∧
        (s.faultLog.length = 15 → u.faultLog = s.faultLog ++ [s.headRecord h₁ e₁.request s.nextSeq cause] ∧
          u.queue h₂ = { e₂ with state := .finishing .faulted } :: q₂ ∧ u.irqStatus.getLsbD 1 = true))

/-- A response to a stale walk is discarded and the walk restarts at its directory stage, keeping kind, key, waiters and start order: with a directory READ on
a directory-cache miss; on a hit, the entry at the front, with a page READ for a FILL walk and an UPDATE for a FLAG walk, formed at once, as after an
INVALIDATE_PAGE. No walk ends then, so what waits goes on waiting (R25, R152). Where that transaction is refused the restart fails, its waiters faulted in
waiter order and the slot wait list presented (R81, R91 to R93, R100, R102). A response to an abandoned walk is discarded: its slot is FREE, with no fill
and no record, and its context, which is DRAINING with its DISABLE_CONTEXT waiting, stays so while something of it is left and is otherwise OFF with the
command completed (R25, R103, R104, R149). -/
def Obligations.ResponseDiscardedByWalk : Prop :=
  ∀ (s : State) (t : Transaction) (rest : List Transaction) (i : SlotNumber) (w : Walk) (status : ResponseStatus)
    (data : List Word),
    let taken : State := { s with outstanding := rest, lateCleared := false, emitted := [] }
    let restarted (stage : WalkStage) (op : TxnOp) (a : PhysAddr) (frame : Option Frame) : State :=
      taken.setSlot i
        (some { w with
          stage := stage, stale := false, op := op, address := a, awaiting := true, tableFrame := frame
          entryWord := none })
    let directory := entryAddress (s.context w.context).directoryFrame (directoryIndex w.page)
    let ended := s.walkEnded i rest
    s.Answers t rest status data → t.origin = .walk i → s.slot i = some w →
    (∀ waiting, w.abandoned = true → s.DrainWait w.context waiting → s.slotWait = [] →
      (¬ ended.NothingLeft w.context → exec (.response status data) s = .next ended) ∧
      (ended.NothingLeft w.context →
        exec (.response status data) s = .next
          { ended.setContext w.context { s.context w.context with state := .off } with
            commands := waiting, completedCount := s.completedCount + 1#16 })) ∧
    (w.abandoned = false → w.stale = true →
      (s.StillWaits →
        (s.dirLookup w.context (directoryIndex w.page) = none → s.regionOf directory ≠ .absent →
          exec (.response status data) s = .next (restarted .directory (.read 4) directory none)) ∧
        (∀ d, s.dirLookup w.context (directoryIndex w.page) = some d →
          let address := entryAddress d.tableFrame (pageIndex w.page)
          let front := d :: s.dirCache.filter fun x => !(x.context == d.context && x.index == d.index)
          (w.kind = .fill → s.TableAdmits (.read 4) address →
            exec (.response status data) s = .next
              { restarted .page (.read 4) address (some d.tableFrame) with dirCache := front }) ∧
          (w.kind = .flag → s.TableAdmits (.update true) address →
            exec (.response status data) s = .next
              { restarted .update (.update true) address (some d.tableFrame) with dirCache := front }))) ∧
      (s.NoEnds → ∃ v, taken.Restarts i w v ∧ exec (.response status data) s = .next v))

/-- CLEARED: it ends CLEARING, and makes the device READY after a reset or completes the waiting CLEAR_MEMORY_PORT; in RUNNING it is discarded while the
late-CLEARED mark is set and puts the port in FAILED otherwise; in FAILED it sets MEMORY_FAILED; while RESETN is low nothing is taken (R150, R166, R172,
R174). -/
def Obligations.ClearedArrives : Prop :=
  ∀ s : State,
    let running : State :=
      { s with
        memState := .running, lateCleared := s.clearRepeated, clearAge := 0, clearRepeated := false, emitted := [] }
    (s.resetnLow = true → exec .cleared s = .next { s with emitted := [] }) ∧
    (s.resetnLow = false → s.memState = .clearing → s.device = .resetting →
      exec .cleared s = .next { running with device := .ready }) ∧
    (∀ c rest, s.resetnLow = false → s.memState = .clearing → s.device = .ready → s.commands = c :: rest →
      c.taken = true → c.code = 0x20#8 →
      exec .cleared s = .next { running with commands := rest, completedCount := s.completedCount + 1#16 }) ∧
    (s.resetnLow = false → s.memState = .running → s.lateCleared = true →
      exec .cleared s = .next { s with lateCleared := false, emitted := [] }) ∧
    (s.resetnLow = false → s.memState = .running → s.lateCleared = false →
      ∃ t, exec .cleared s = .next t ∧ t.memState = .failed ∧ t.outstanding = [] ∧ t.irqStatus.getLsbD 5 = true) ∧
    (s.resetnLow = false → s.memState = .failed →
      exec .cleared s = .next { s with irqStatus := s.irqStatus ||| 0x20#8, emitted := [] })

/-- An expiry or a protocol violation puts a RUNNING port in FAILED and ends everything: the outstanding list and the slot wait list are empty, every walk slot
is FREE, no item is IN_FLIGHT, and no SYNC and no drained context waits (R28, R105, R166, R168, R169). `FailsPort` names the events, each by its own
condition: the expiry is the EXPIRY row, a write of the response limit that the oldest age has reached, and the tick of an empty-queue step at which that age
reaches the limit; that the EXPIRY row ends everything whatever the age stored is log entry 3's choice, and that the ticks come at empty-queue steps log
entry 2's. With the heads linked to their lists: every IN_FLIGHT item is DONE
with MEMORY_ERROR, and all items are records of the completion queue, each list in its order; the fault log gains a DATA_ERROR with outcome ABORTED for each
client transaction, in issue order, until it is full, when LOG_OVERFLOW is set; every waiter of a walk is faulted with TABLE_ERROR, PARKED or FINISHING
with FAULTED as R129 gives it; and every head that had no part in a walk or in the slot wait list stays as it was (R50, R105, R132, R169). A SYNC that waits completes in the event: its marker
is written and SYNC_DONE is set. A DISABLE_CONTEXT that waits completes, its context OFF, when nothing of the context is left then, and waits on otherwise.
No other context and, where neither completes, no part of the command unit changes (R28, R149, R152, R153). -/
def Obligations.FailureEndsEverything : Prop :=
  ∀ (s : State) (event : Host.Outcome State Fault Refusal), s.WalkerSettled → s.ItemsPaired → s.CommandsInOrder →
    s.resetnLow = false → s.memState = .running → s.FailsPort event →
    ∃ u, event = .next u ∧ u.memState = .failed ∧ u.irqStatus.getLsbD 5 = true ∧ u.lateCleared = false ∧
      u.outstanding = [] ∧ (∀ i, u.slot i = none) ∧ u.startOrder = [] ∧ u.slotWait = [] ∧
      (∀ (h : HeadId) (item : Item), item ∈ (u.port h.port).returns.get h.cls → item.isInFlight = false) ∧
      (∀ m, u.waitingOp ≠ some (.sync m)) ∧
      (∀ d, (u.context d).state = .draining → ¬ u.NothingLeft d) ∧
      (∀ p, (u.port p).creditInUse = (s.port p).creditInUse) ∧
      (∀ operand waiting, s.SyncWait operand waiting →
        u.commands = waiting ∧ u.completedCount = s.completedCount + 1#16 ∧ u.syncMarker = operand.extractLsb' 0 16 ∧
          u.irqStatus.getLsbD 2 = true) ∧
      (∀ d waiting, s.DrainWait d waiting →
        (u.NothingLeft d → u.context d = { s.context d with state := .off } ∧ u.commands = waiting ∧
          u.completedCount = s.completedCount + 1#16) ∧
        (¬ u.NothingLeft d → u.context d = s.context d ∧ u.commands = s.commands ∧
          u.completedCount = s.completedCount)) ∧
      (s.NoEnds → u.commands = s.commands ∧ u.completedCount = s.completedCount) ∧
      (s.NoEnds ∨ (∃ d waiting, s.DrainWait d waiting) →
        u.syncMarker = s.syncMarker ∧ u.irqStatus.getLsbD 2 = s.irqStatus.getLsbD 2) ∧
      (∀ d, (s.context d).state ≠ .draining → u.context d = s.context d) ∧
      (s.HeadsLinked →
        (∀ p, (u.port p).returns = ⟨[], []⟩ ∧ ∃ ended, (u.port p).completions = (s.port p).completions ++ ended ∧
          ended.Perm (((s.port p).returns.get .normal).map Item.failed ++ ((s.port p).returns.get .urgent).map Item.failed) ∧
          ∀ cls, (((s.port p).returns.get cls).map Item.failed).Sublist ended) ∧
        ∃ records, u.faultLog = s.faultLog ++ records ∧
          (let logged := records.filter fun r => decide (r.cause = .dataError)
           let lost := s.outstanding.filterMap Transaction.client?
           (∀ r ∈ logged, r.outcome = .aborted) ∧ logged.map FaultRecord.values <+: lost ∧
             (logged.map FaultRecord.values = lost ∨ 16 ≤ u.faultLog.length ∧ u.irqStatus.getLsbD 1 = true)) ∧
          (∀ i w h e q, s.slot i = some w → h ∈ w.waiters → s.queue h = e :: q →
            s.Faulted u records h e q .tableError) ∧
          ∀ h e q, s.queue h = e :: q → e.state ≠ .walking → e.state ≠ .waitSlot → u.queue h = e :: q)

/-- A SYNC that waits completes in the event that ends its last member: the item of an answered transaction, or a walk that completes, fails or, abandoned,
ends. The event's own effects come first; then the marker is written, SYNC_DONE is set and the command completes. While a member is left the event has its
own effects only (R151 to R153). -/
def Obligations.SyncEnds : Prop :=
  ∀ (s : State) (operand : Word) (waiting : List Command) (c : Instr) (u : State),
    s.SyncWait operand waiting → s.EndsWork c u →
    (u.NoMember →
      exec c s = .next
        { u with
          commands := waiting, completedCount := s.completedCount + 1#16, syncMarker := operand.extractLsb' 0 16
          irqStatus := u.irqStatus ||| 0x04#8 }) ∧
    (¬ u.NoMember → exec c s = .next u)

/-- The response limit and the timebase: their resets, their writes, the comparison that a write of the limit is (R167, R168, R171, R173), and the length a
timebase gives the ticks that follow, which start at steps with an empty queue (log entry 2, DESIGN CHOICE). CLEAR_EXPIRY sends CLEAR again, restarts its age
and sets MEMORY_FAILED (R171); it has no effect outside CLEARING or with the limit 0. EXPIRY has no effect with nothing outstanding, outside RUNNING or
with the limit 0 (R168). A response has no effect outside RUNNING (R170, R173). None has while RESETN is low (R174). That the tick of an expiry ends with
its event is log entry 3's choice. -/
def Obligations.TimingSettings : Prop :=
  ∀ (s : State) (value : Word) (status : ResponseStatus) (data : List Word),
    let limit := value.toNat % 65536
    let written : State := { s with responseLimit := BitVec.ofNat 16 value.toNat, emitted := [] }
    (∀ t, exec .powerOnReset s = .next t → t.responseLimit.toNat = 2000 ∧ t.timebase.toNat = 33) ∧
    (∀ t, exec .deviceReset s = .next t → t.responseLimit = s.responseLimit ∧ t.timebase = s.timebase) ∧
    (s.ready = true → value.toNat % 256 ≠ 0 →
      exec (.timebaseWrite value) s = .next { s with timebase := BitVec.ofNat 8 value.toNat, emitted := [] }) ∧
    (s.ready = true → value.toNat % 256 = 0 →
      exec (.timebaseWrite value) s = .next { s with irqStatus := s.irqStatus ||| 0x40#8, emitted := [] }) ∧
    (s.ready = true →
      (limit = 0 ∨ s.memState = .failed ∨
        (s.memState = .running ∧ ∀ t rest, s.outstanding = t :: rest → t.age < limit) ∨
        (s.memState = .clearing ∧ s.clearAge < limit)) →
      exec (.responseLimitWrite value) s = .next written) ∧
    (s.ready = true → limit ≠ 0 → s.memState = .clearing → limit ≤ s.clearAge →
      exec (.responseLimitWrite value) s = .next
        { written with
          clearAge := 0, clearRepeated := true, irqStatus := s.irqStatus ||| 0x20#8, emitted := [.clear] }) ∧
    (∀ t rest, s.ready = true → limit ≠ 0 → s.memState = .running → s.outstanding = t :: rest → limit ≤ t.age →
      ∃ u, exec (.responseLimitWrite value) s = .next u ∧ u.responseLimit = BitVec.ofNat 16 value.toNat ∧
        u.memState = .failed ∧ u.outstanding = [] ∧ u.irqStatus.getLsbD 5 = true) ∧
    (s.ready = false →
      exec (.timebaseWrite value) s = .next { s with emitted := [] } ∧
      exec (.responseLimitWrite value) s = .next { s with emitted := [] }) ∧
    (s.pending = [] → s.resetnLow = false → s.tickLeft ≤ 1 → ∃ t, step s = .next t ∧ t.tickLeft = s.timebase.toNat) ∧
    (s.resetnLow = false → s.memState = .clearing → s.responseLimit.toNat ≠ 0 →
      exec .clearExpiry s = .next
        { s with
          tickLeft := s.timebase.toNat, clearAge := 0, clearRepeated := true, irqStatus := s.irqStatus ||| 0x20#8
          emitted := [.clear] }) ∧
    (s.resetnLow = true ∨ s.memState ≠ .clearing ∨ s.responseLimit.toNat = 0 →
      exec .clearExpiry s = .next { s with emitted := [] }) ∧
    (s.resetnLow = true ∨ s.memState ≠ .running ∨ s.outstanding = [] ∨ s.responseLimit.toNat = 0 →
      exec .expiry s = .next { s with emitted := [] }) ∧
    (s.resetnLow = true ∨ s.memState ≠ .running → exec (.response status data) s = .next { s with emitted := [] })

/-! ## The command unit -/

/-- A submit write: admitted at the back with the next number and a copy of the operand word, refused with COMMAND_REFUSED when the queue holds 8,
ignored while the device is not READY (R141). -/
def Obligations.SubmitWrite : Prop :=
  ∀ (s : State) (value : Word),
    let write := Instr.registerWrite 0x204#12 0xF#4 value
    (s.ready = true → s.commands.length < 8 →
      exec write s = .next
        { s with
          commands := s.commands ++
            [{ number := s.takenCount, code := BitVec.ofNat 8 value.toNat, operand := s.operandWord, taken := false }]
          takenCount := s.takenCount + 1#16
          emitted := [] }) ∧
    (s.ready = true → s.commands = [] → ∀ t, exec write s = .next t → t.unitState = .executing) ∧
    (s.ready = true → 8 ≤ s.commands.length →
      exec write s = .next { s with irqStatus := s.irqStatus ||| 0x10#8, emitted := [] }) ∧
    (s.ready = false → exec write s = .next { s with emitted := [] })

/-- The rows that submit a command write the operand word and submit; into an empty queue the command is taken at once, behind others it is admitted
only, into a full queue it is refused (R139 to R142; the row's reading is log entry 4's). -/
def Obligations.SubmittedRows : Prop :=
  ∀ (i : Instr) (code : BitVec 8) (operand : Option Word) (s : State), submission i = some (code, operand) →
    let w := operand.getD s.operandWord
    let admitted : State :=
      { s with
        operandWord := w
        commands := s.commands ++ [{ number := s.takenCount, code := code, operand := w, taken := false }]
        takenCount := s.takenCount + 1#16
        emitted := [] }
    (s.ready = true → s.commands = [] → exec i s = exec .commandTake admitted) ∧
    (s.ready = true → 0 < s.commands.length → s.commands.length < 8 → exec i s = .next admitted) ∧
    (s.ready = true → 8 ≤ s.commands.length →
      exec i s = .next { s with operandWord := w, irqStatus := s.irqStatus ||| 0x10#8, emitted := [] }) ∧
    (s.ready = false → exec i s = .next { s with emitted := [] })

/-- COMMAND_TAKE: a command that fails a check completes with no effect but the last-error word and COMMAND_ERROR; one that passes changes neither; a
WAITING or IDLE unit takes nothing. UNKNOWN_CODE into an empty queue ends in its error. With commands behind the head a take of any command is its take alone,
with the rest kept in order: the head is done or waits in front of them; and the take reads the head's copy of the operand word, whatever the operand word
and the taken count are by then (R140, R142 to R146). -/
def Obligations.CommandErrors : Prop :=
  ∀ s : State,
    (∀ c rest, s.commands = c :: rest → c.taken = false →
      (∀ error, CommandFails s c.code c.operand error →
        exec .commandTake s = .next
          { s with
            commands := rest, completedCount := s.completedCount + 1#16
            lastError := { code := error, number := c.number }
            irqStatus := s.irqStatus ||| 0x08#8
            emitted := [] }) ∧
      ((∀ error, ¬ CommandFails s c.code c.operand error) →
        ∃ t, exec .commandTake s = .next t ∧ t.lastError = s.lastError ∧
          t.irqStatus.getLsbD 3 = s.irqStatus.getLsbD 3)) ∧
    (∀ c rest operand taken, s.commands = c :: rest → c.taken = false → (∀ cmd ∈ rest, cmd.taken = false) →
      ∃ t, exec .commandTake { s with commands := [c], operandWord := operand, takenCount := taken } = .next t ∧
        exec .commandTake s = .next
          { t with commands := t.commands ++ rest, operandWord := s.operandWord, takenCount := s.takenCount }) ∧
    (∀ code, s.ready = true → s.commands = [] → CommandFails s code s.operandWord .unknownCode →
      exec (.unknownCode code) s = .next
        { s.afterCommand s.operandWord with
          lastError := { code := .unknownCode, number := s.takenCount }
          irqStatus := s.irqStatus ||| 0x08#8 }) ∧
    ((s.commands = [] ∨ ∃ c rest, s.commands = c :: rest ∧ c.taken = true) →
      exec .commandTake s = .next { s with emitted := [] }) ∧
    (∀ t, (exec .powerOnReset s = .next t ∨ s.ready = true ∧ exec .deviceReset s = .next t) →
      t.lastError = { code := .none_, number := 0#16 })

/-- ENABLE_CONTEXT turns an OFF context with a limit of 1..1024 ACTIVE and does nothing else, as a row and in its turn; PROBE writes the probe result
from the page cache as it stands, and moves nothing (R21, R82, R83, R147). -/
def Obligations.EnableAndProbe : Prop :=
  ∀ (s : State) (w : Word) (c : ContextNumber), operandNames w c →
    ((s.context c).state = .off → 1 ≤ (s.context c).limit.toNat → (s.context c).limit.toNat ≤ 1024 →
      (s.ready = true → s.commands = [] →
        exec (.enableContext w) s = .next
          ((s.afterCommand w).setContext c { s.context c with state := .active })) ∧
      (∀ number rest, s.commands = { number := number, code := 0x10#8, operand := w, taken := false } :: rest →
        exec .commandTake s = .next
          { s.setContext c { s.context c with state := .active } with
            commands := rest, completedCount := s.completedCount + 1#16, emitted := [] })) ∧
    (s.ready = true → s.commands = [] →
      (∀ e, s.pageLookup c (w.extractLsb' 0 20) = some e →
        exec (.probe w) s = .next
          { s.afterCommand w with
            probe :=
              { hit := true, frame := e.frame, readPermit := e.readPermit, writePermit := e.writePermit
                modifiedKnown := e.modifiedKnown } }) ∧
      (s.pageLookup c (w.extractLsb' 0 20) = none →
        exec (.probe w) s = .next
          { s.afterCommand w with
            probe :=
              { hit := false, frame := 0#24, readPermit := false, writePermit := false, modifiedKnown := false } }))

/-- SYNC with no item IN_FLIGHT and no walk BUSY completes within its take, writes its marker and sets SYNC_DONE; otherwise it waits, with every such item and walk
marked as a member of its watch set, and nothing else changed. CLEAR_MEMORY_PORT, in FAILED, starts CLEARING, sends CLEAR and waits (R148, R150, R151,
R153, R171; the marks are log entry 7's form of the set). -/
def Obligations.WaitingCommands : Prop :=
  ∀ (s : State) (w : Word), s.ready = true → s.commands = [] →
    let quiet :=
      (∀ (h : HeadId) (item : Item), item ∈ (s.port h.port).returns.get h.cls → item.isInFlight = false) ∧ ∀ i, s.slot i = none
    let member (item : Item) : Item := if item.isInFlight then { item with state := .inFlight true } else item
    let waits : State :=
      { s with
        ports := s.ports.map fun p =>
          { p with returns := ⟨p.returns.normal.map member, p.returns.urgent.map member⟩ }
        slots := s.slots.map fun slot => slot.map fun walk => { walk with watched := true }
        operandWord := w
        commands := [{ number := s.takenCount, code := 0x08#8, operand := w, taken := true }]
        takenCount := s.takenCount + 1#16
        emitted := [] }
    (quiet →
      exec (.sync w) s = .next
        { s.afterCommand w with syncMarker := w.extractLsb' 0 16, irqStatus := s.irqStatus ||| 0x04#8 }) ∧
    (¬ quiet → exec (.sync w) s = .next waits ∧ ¬ waits.NoMember) ∧
    (s.memState = .failed →
      exec .clearMemoryPort s = .next
        { s with
          commands := [{ number := s.takenCount, code := 0x20#8, operand := s.operandWord, taken := true }]
          takenCount := s.takenCount + 1#16
          memState := .clearing, clearAge := 0, clearRepeated := false
          emitted := [.clear] })

/-- TERMINATE empties the parked place and finishes the PARKED head FAULTED. RESUME empties the place and presents the head, against the cache, the walks and
the memory port as they then stand, which `Presents` says: on a hit that passes its checks the head is READY; where it needs a walk, it starts one, joins
one, or waits for a slot; and where it faults again, the fault is a new one: with room in the log it has a record of its own and, under STALL, the head is
PARKED on it and the place refilled; with the log full the head is FINISHING with FAULTED and the place stays empty (R129, R133, R134, R136). -/
def Obligations.TerminateAndResume : Prop :=
  ∀ (s : State) (w : Word) (h : HeadId) (e : Entry) (q : List Entry), operandHead w h → s.ready = true →
    s.commands = [] → s.queue h = e :: q → e.state = .parked →
    let woken : State := (s.afterCommand w).setParked h none
    let put (st : EntryState) (t : State) : State := t.setQueue h ({ e with state := st } :: q)
    exec (.terminate w) s = .next (put (.finishing .faulted) woken) ∧
    (s.Offered → ∀ u, woken.Presents h u → exec (.resume w) s = .next u) ∧
    (s.Offered → e.Unmarked →
      (∀ entry a, s.Translated h e.request → s.pageLookup (s.boundContext h) (clientPage e.request.address) = some entry →
        s.HitReady (s.boundContext h) e.request entry a →
        exec (.resume w) s = .next { put (.ready a) woken with pageCache := s.pageFront entry }) ∧
      (∀ i v pages, s.StartsWalk h e.request i v pages →
        exec (.resume w) s = .next
          { put .walking (woken.setSlot i (some v)) with
            startOrder := s.startOrder ++ [i]
            pageCache := pages
            dirCache := s.dirFront v.context (directoryIndex v.page) }) ∧
      (∀ k pages, s.Translated h e.request → s.NeedsWalk (s.boundContext h) e.request k pages →
        (∀ i v, s.WalkOf (s.boundContext h) (clientPage e.request.address) i v →
          exec (.resume w) s = .next
            { put .walking (woken.setSlot i (some { v with waiters := v.waiters ++ [h] })) with pageCache := pages }) ∧
        (s.NoWalk (s.boundContext h) (clientPage e.request.address) → (∀ i, s.slot i ≠ none) →
          exec (.resume w) s = .next
            { put .waitSlot woken with pageCache := pages, slotWait := s.slotWait ++ [h] })) ∧
      (∀ cause pages dirs, s.RefusesHead h e.request cause pages dirs →
        let refused : State := { woken with pageCache := pages, dirCache := dirs }
        (s.faultLog.length < 16 → (s.context (s.boundContext h)).policy = .stall →
          exec (.resume w) s = .next
            { put .parked (refused.setParked h (some { sequence := s.nextSeq, cause := cause })) with
              faultLog := s.faultLog ++ [s.headRecord h e.request s.nextSeq cause], nextSeq := s.nextSeq + 1#16
              irqStatus := s.irqStatus ||| 0x01#8 }) ∧
        (s.faultLog.length < 16 → (s.context (s.boundContext h)).policy = .abort →
          exec (.resume w) s = .next
            { put (.finishing .faulted) refused with
              faultLog := s.faultLog ++ [s.headRecord h e.request s.nextSeq cause], nextSeq := s.nextSeq + 1#16
              irqStatus := s.irqStatus ||| 0x01#8 }) ∧
        (16 ≤ s.faultLog.length →
          exec (.resume w) s = .next
            { put (.finishing .faulted) refused with irqStatus := s.irqStatus ||| 0x02#8 })))

/-- A DRAINING context goes to OFF in the event after which nothing of it is left, the end of its last entry, item or walk, and its waiting DISABLE_CONTEXT
completes in that event; the event's own effects come first, and while something is left the event has those only (R25, R149). -/
def Obligations.DrainEnds : Prop :=
  ∀ (s : State) (d : ContextNumber) (waiting : List Command) (c : Instr) (u : State),
    s.DrainWait d waiting → s.EndsWork c u →
    (u.NothingLeft d →
      exec c s = .next
        { u.setContext d { s.context d with state := .off } with
          commands := waiting, completedCount := s.completedCount + 1#16 }) ∧
    (¬ u.NothingLeft d → exec c s = .next u)

/-- DISABLE_CONTEXT of any ACTIVE context: no cache entry of it is left; its walks are abandoned with no waiters; every head of it that was not FINISHING is
FINISHING with ABORTED, a FINISHING one keeps its status, the entries behind gain the abort mark; its parked places are empty; where nothing of it is left
the context is OFF and the command has completed, and otherwise the context is DRAINING and the command waits. Of a context with nothing to drain from the
start, only its state, its cache entries and the command unit change. And the whole next state, whatever the context holds: `State.disabled`, in which no other
context and no port bound to one is touched, then the slot wait list presented to the slots that became FREE, then the drain's own end where nothing of the context
is left; with no slot FREE or no head left in the slot wait list, that is `State.disabled` itself (R22, R25, R32, R91, R103, R149). -/
def Obligations.DisableContext : Prop :=
  ∀ (s : State) (w : Word) (c : ContextNumber), operandNames w c → s.ready = true → s.commands = [] →
    (s.context c).state = .active →
    (∃ t, exec (.disableContext w) s = .next t ∧
      (∀ e ∈ t.pageCache, e.context ≠ c) ∧ (∀ e ∈ t.dirCache, e.context ≠ c) ∧
      (∀ i v, t.slot i = some v → v.context = c → v.abandoned = true ∧ v.waiters = []) ∧
      (∀ h e q, s.boundContext h = c → s.queue h = e :: q →
        (∀ st, e.state = .finishing st → t.queue h = e :: q.map fun x => { x with abortMark := true }) ∧
        ((∀ st, e.state ≠ .finishing st) → e.state ≠ .queued →
          t.queue h = { e with state := .finishing .aborted } :: q.map fun x => { x with abortMark := true })) ∧
      (∀ h, s.boundContext h = c → s.ParkedHead h → t.parkedPlace h = none) ∧
      (∀ h, s.boundContext h = c → h ∉ t.slotWait) ∧
      (t.NothingLeft c →
        t.context c = { s.context c with state := .off } ∧ t.commands = [] ∧
          t.completedCount = s.completedCount + 1#16) ∧
      (¬ t.NothingLeft c →
        t.context c = { s.context c with state := .draining } ∧
          t.commands = [{ number := s.takenCount, code := 0x11#8, operand := w, taken := true }] ∧
          t.completedCount = s.completedCount)) ∧
    (s.NoEnds → s.Offered → s.NothingLeft c → (∀ h ∈ s.slotWait, s.boundContext h ≠ c) →
      exec (.disableContext w) s = .next
        { (s.afterCommand w).setContext c { s.context c with state := .off } with
          pageCache := s.pageCache.filter fun e => e.context != c
          dirCache := s.dirCache.filter fun e => e.context != c }) ∧
    (let ends := fun v : State =>
      (v.NothingLeft c →
        exec (.disableContext w) s = .next
          { v.setContext c { s.context c with state := .off } with
            commands := [], completedCount := s.completedCount + 1#16 }) ∧
      (¬ v.NothingLeft c → exec (.disableContext w) s = .next v)
    s.DrainsHeld →
      (∃ v, (s.disabled c w).Represents v ∧ ends v) ∧
      ((s.disabled c w).Offered → ends (s.disabled c w)))

/-- The four invalidations. With no READY head and no live walk in their scope: the entries of the scope leave the caches, the rest keep their order, and nothing
else changes, not the READY heads and the walks outside the scope either. With walks in the scope whose transactions are outstanding: each is stale and
keeps its kind, key, waiters, transaction, watch mark and start order. With a walk in the scope whose transaction awaits a grant, alone: it restarts at once.
With a READY head in the scope, alone: it is presented again, after the walks are marked, with the outcome `Presents` names; where a walk of its key is BUSY,
stale or not, it joins it (R73, R79, R80, R89, R101, R147). -/
def Obligations.InvalidationsQuiet : Prop :=
  ∀ (s : State) (c : Instr) (operand : Option Word) (pages : ContextNumber → PageNumber → Bool)
    (dirs : ContextNumber → BitVec 10 → Bool),
    let removed : State :=
      { s.afterCommand (operand.getD s.operandWord) with
        pageCache := s.pageCache.filter fun e => !pages e.context e.page
        dirCache := s.dirCache.filter fun e => !dirs e.context e.index }
    let marked : State := { removed with slots := s.slots.map fun slot => slot.map (staleIn pages) }
    let outstanding : Prop :=
      ∀ i v, s.slot i = some v → v.abandoned = false → pages v.context v.page = true → v.awaiting = false
    InvalidationCovers c operand pages dirs → s.ready = true → s.commands = [] → s.Offered →
    ((∀ h, ¬ s.ReadyIn pages h) →
      ((∀ i v, s.slot i = some v → v.abandoned = false → pages v.context v.page = false) → exec c s = .next removed) ∧
      (outstanding → exec c s = .next marked) ∧
      (∀ i w, s.slot i = some w → w.abandoned = false → pages w.context w.page = true → w.awaiting = true →
        (∀ j v, s.slot j = some v → v.abandoned = false → pages v.context v.page = true → j = i) →
        (∀ stage op a frame, removed.FirstAccess w.kind w.context w.page stage op a frame → s.TableAdmits op a →
          s.memState = .running →
          exec c s = .next (removed.walkRestarted i w stage op a frame)))) ∧
    (outstanding → ∀ h, s.ReadyIn pages h → (∀ k, s.ReadyIn pages k → k = h) →
      (∃ u, marked.Presents h u ∧ exec c s = .next u) ∧
        ∀ e q i w, s.queue h = e :: q → e.Unmarked → s.Translated h e.request →
          marked.WalkOf (s.boundContext h) (clientPage e.request.address) i w →
          exec c s = .next (marked.walkJoined h e q i w marked.pageCache))

/-- An invalidation in any state: its three steps, in their order, with the walks of the scope met in ascending slot number (log entry 12, DESIGN CHOICE). Each
keeps its kind, key, waiters and start order, with the stale mark, or restarts at its directory stage, where its restart may fail; then every READY head of
the scope is presented again, in ascending port, URGENT before NORMAL, and the slot wait list while a slot is FREE. A restart that fails in step 2 presents the
slot wait list at its own failure, before step 3: the model's choice, log entry 11 (DEDUCED, unsafe: R91 can mean the end of the whole event). And it leaves nothing old: no page-cache and no directory-cache entry that it covers, no READY head of the scope, and
every walk of the scope that is not abandoned is stale, or has been started afresh: its transaction awaits a grant, it holds no entry word, and it holds no
table frame and is in its directory stage, or holds that of an entry which the directory cache still holds (R79, R80, R101). -/
def Obligations.InvalidationLeavesNothing : Prop :=
  ∀ (s : State) (c : Instr) (operand : Option Word) (pages : ContextNumber → PageNumber → Bool)
    (dirs : ContextNumber → BitVec 10 → Bool),
    InvalidationCovers c operand pages dirs → s.ready = true → s.commands = [] →
    ∃ t, exec c s = .next t ∧ (s.scopeRemoved operand pages dirs).Invalidates pages t ∧
      (∀ e ∈ t.pageCache, pages e.context e.page = false) ∧
      (∀ d ∈ t.dirCache, dirs d.context d.index = false) ∧
      (∀ h, ¬ t.ReadyIn pages h) ∧
      (∀ j v, t.slot j = some v → v.abandoned = false → pages v.context v.page = true →
        v.stale = true ∨
          (v.awaiting = true ∧ v.entryWord = none ∧
            (v.tableFrame = none ∧ v.stage = .directory ∨
              ∃ d ∈ t.dirCache, d.context = v.context ∧ d.index = directoryIndex v.page ∧
                v.tableFrame = some d.tableFrame)))

/-! ## The window -/

/-- A write of a context's fields is taken in OFF and ignored with PROGRAM_ERROR otherwise, unchecked; what the two words read as (R19). -/
def Obligations.ContextFields : Prop :=
  ∀ (s : State) (c : ContextNumber) (word : ContextWord) (value : Word),
    (s.ready = true → (s.context c).state = .off →
      exec (.contextWrite c .frame value) s = .next
        { s.setContext c { s.context c with directoryFrame := value.extractLsb' 0 24 } with emitted := [] } ∧
      exec (.contextWrite c .control value) s = .next
        { s.setContext c
            { s.context c with
              limit := value.extractLsb' 0 11
              policy := if value.getLsbD 16 then .stall else .abort
              writesPermitted := value.getLsbD 17
              recordFlags := value.getLsbD 18 } with
          emitted := [] }) ∧
    (s.ready = true → (s.context c).state ≠ .off →
      exec (.contextWrite c word value) s = .next { s with irqStatus := s.irqStatus ||| 0x40#8, emitted := [] }) ∧
    (s.ready = false → exec (.contextWrite c word value) s = .next { s with emitted := [] }) ∧
    (s.ready = true →
      let frame := readValue (BitVec.ofNat 12 (0x100 + 8 * c.val)) 0xF#4 s
      let control := readValue (BitVec.ofNat 12 (0x104 + 8 * c.val)) 0xF#4 s
      frame.extractLsb' 0 24 = (s.context c).directoryFrame ∧
      control.extractLsb' 0 11 = (s.context c).limit ∧
      (control.getLsbD 16 = true ↔ (s.context c).policy = .stall) ∧
      control.getLsbD 17 = (s.context c).writesPermitted ∧
      control.getLsbD 18 = (s.context c).recordFlags ∧
      (control.extractLsb' 24 2 = 0#2 ↔ (s.context c).state = .off) ∧
      (control.extractLsb' 24 2 = 1#2 ↔ (s.context c).state = .active) ∧
      (control.extractLsb' 24 2 = 2#2 ↔ (s.context c).state = .draining))

/-- A write of a region entry is taken when every context is OFF and the end is at most 4096, else ignored with PROGRAM_ERROR; while the device is not READY it is
ignored (R114). -/
def Obligations.RegionEntryWrite : Prop :=
  ∀ (s : State) (i : Fin 8) (value : Word) (kind : RegionKind),
    (value.extractLsb' 16 2 = 0#2 ∧ kind = .absent ∨ value.extractLsb' 16 2 = 1#2 ∧ kind = .open_ ∨
      value.extractLsb' 16 2 = 2#2 ∧ kind = .readOnly ∨ value.extractLsb' 16 2 = 3#2 ∧ kind = .tables) →
    (s.ready = true → (∀ c, (s.context c).state = .off) → value.toNat % 8192 ≤ 4096 →
      exec (.regionEntryWrite i value) s = .next
        { s.setRegion i { endUnit := value.extractLsb' 0 13, kind := kind } with emitted := [] }) ∧
    (s.ready = true → ((∃ c, (s.context c).state ≠ .off) ∨ 4096 < value.toNat % 8192) →
      exec (.regionEntryWrite i value) s = .next { s with irqStatus := s.irqStatus ||| 0x40#8, emitted := [] }) ∧
    (s.ready = false → exec (.regionEntryWrite i value) s = .next { s with emitted := [] })

/-- The region lookup: the first entry in index order whose end is above the address's unit gives the kind, ABSENT when there is none (R111); and what each
kind admits (R112). -/
def Obligations.RegionLookup : Prop :=
  (∀ (s : State) (a : PhysAddr),
    (∀ i : Fin 8, a.toNat / 16777216 < (s.region i).endUnit.toNat →
      (∀ j : Fin 8, j < i → (s.region j).endUnit.toNat ≤ a.toNat / 16777216) → s.regionOf a = (s.region i).kind) ∧
    ((∀ i : Fin 8, (s.region i).endUnit.toNat ≤ a.toNat / 16777216) → s.regionOf a = .absent)) ∧
  (∀ (kind : RegionKind) (n : Nat) (m : Bool),
    (admitsClient kind .read = true ↔ kind = .open_ ∨ kind = .readOnly) ∧
    (admitsClient kind .write = true ↔ kind = .open_) ∧
    (admitsTable kind (.read n) = true ↔ kind = .open_ ∨ kind = .readOnly ∨ kind = .tables) ∧
    (admitsTable kind (.update m) = true ↔ kind = .open_ ∨ kind = .tables))

/-- The interrupt status and enables: setting a cause, the W1C write, the enable write, INTN, the resets, the read of the status (R182, R183). -/
def Obligations.InterruptWords : Prop :=
  ∀ (s : State) (value : Word),
    (∀ cause, State.raise cause s = { s with irqStatus := s.irqStatus ||| (1#8 <<< cause.bit) }) ∧
    (s.ready = true →
      exec (.interruptStatusClear value) s = .next
        { s with irqStatus := s.irqStatus &&& ~~~(BitVec.ofNat 8 value.toNat), emitted := [] } ∧
      exec (.interruptEnableWrite value) s = .next
        { s with irqEnable := BitVec.ofNat 8 value.toNat, emitted := [] } ∧
      readValue 0x010#12 0xF#4 s = s.irqStatus.setWidth 32) ∧
    (s.ready = false →
      exec (.interruptStatusClear value) s = .next { s with emitted := [] } ∧
      exec (.interruptEnableWrite value) s = .next { s with emitted := [] }) ∧
    (s.resetnLow = false →
      (s.intnAsserted = true ↔ ∃ n, s.irqStatus.getLsbD n = true ∧ s.irqEnable.getLsbD n = true)) ∧
    (∀ t, exec .powerOnReset s = .next t → t.irqStatus = 0#8 ∧ t.irqEnable = 0#8 ∧ t.intnAsserted = false) ∧
    (∀ t, s.ready = true → exec .deviceReset s = .next t → t.irqStatus = 0#8 ∧ t.irqEnable = s.irqEnable)

/-- A pop removes the oldest record and nothing else; of an empty log it sets PROGRAM_ERROR; while the device is not READY it is ignored (R127). -/
def Obligations.FaultLogPop : Prop :=
  ∀ (s : State) (value : Word),
    (∀ record rest, s.ready = true → s.faultLog = record :: rest →
      exec (.faultLogPop value) s = .next { s with faultLog := rest, emitted := [] }) ∧
    (s.ready = true → s.faultLog = [] →
      exec (.faultLogPop value) s = .next { s with irqStatus := s.irqStatus ||| 0x40#8, emitted := [] }) ∧
    (s.ready = false → exec (.faultLogPop value) s = .next { s with emitted := [] })

/-- The operand word: its write, its read, its copy at a submit write, its resets (R140). -/
def Obligations.OperandWord : Prop :=
  ∀ (s : State) (value : Word),
    let write := Instr.registerWrite 0x200#12 0xF#4 value
    (s.ready = true → exec write s = .next { s with operandWord := value, emitted := [] }) ∧
    (s.ready = false → exec write s = .next { s with emitted := [] }) ∧
    (s.ready = true → readValue 0x200#12 0xF#4 s = s.operandWord) ∧
    (∀ t, s.ready = true → s.commands.length < 8 → exec (.registerWrite 0x204#12 0xF#4 value) s = .next t →
      t.operandWord = s.operandWord ∧ ∃ c, t.commands = s.commands ++ [c] ∧ c.operand = s.operandWord) ∧
    (∀ t, exec .powerOnReset s = .next t → t.operandWord = 0#32) ∧
    (∀ t, s.ready = true → exec .deviceReset s = .next t → t.operandWord = 0#32)

/-- Malformed accesses and accesses of unassigned offsets: while the device is READY they change no word, read 0 and set ACCESS_ERROR; at any other time they set
no cause and a read returns what any read of the offset returns then (R178). -/
def Obligations.AccessErrors : Prop :=
  ∀ (s : State) (offset : BitVec 12) (enables : BitVec 4) (value : Word),
    enables ≠ 0xF#4 ∨ registerAt offset = none →
    (s.ready = true →
      exec (.registerWrite offset enables value) s = .next
        { s with irqStatus := s.irqStatus ||| 0x80#8, emitted := [] } ∧
      exec (.malformedRead offset enables) s = .next
        { s with irqStatus := s.irqStatus ||| 0x80#8, emitted := [.readData 0#32] }) ∧
    (s.ready = false →
      exec (.registerWrite offset enables value) s = .next { s with emitted := [] } ∧
      exec (.malformedRead offset enables) s = .next
        { s with emitted := [.readData (readValue offset 0xF#4 s)] })

/-- A read of an assigned word hands out its value and changes nothing; a write of a read-only word changes nothing; while the device is RESETTING only the
device-status word reads other than 0; and what the words read as while it is READY: device status, the settings and counts, memory port status, port status,
region entries, command-unit status, last error, probe result, the fault log and its oldest record, the parked places and their summary, and 0 for the words
that are written only (R65, R83, R117, R126, R133, R155, R176, R177, R181, R185, R187). That MALFORMED_READ stands for every host read is log entry 13's
choice. -/
def Obligations.WindowReads : Prop :=
  ∀ (s : State) (offset : BitVec 12) (register : Register) (value : Word),
    let read (n : Nat) : Word := readValue (BitVec.ofNat 12 n) 0xF#4 s
    let bit (n : Nat) (b : Bool) : Word := if b then 1#32 <<< n else 0#32
    let number (n : Nat) : Word := BitVec.ofNat 32 n
    let causeCode : FaultCause → Word := fun
      | .limit => 1#32
      | .directoryInvalid => 2#32
      | .pageInvalid => 3#32
      | .readDenied => 4#32
      | .writeDenied => 5#32
      | .regionDenied => 6#32
      | .tableRegion => 7#32
      | .tableError => 8#32
      | .dataError => 9#32
    (registerAt offset = some register →
      exec (.malformedRead offset 0xF#4) s = .next { s with emitted := [.readData (readValue offset 0xF#4 s)] } ∧
      (register ∈ [.deviceStatus, .memoryPortStatus, .commandUnitStatus, .commandCounts, .lastError, .syncMarker,
          .probeResult, .faultLogStatus, .faultRecord0, .faultRecord1, .faultRecord2, .parkedSummary] ∨
        (∃ p, register = .portStatus p) ∨ (∃ p cls, register = .parkedPlace p cls) →
        exec (.registerWrite offset 0xF#4 value) s = .next { s with emitted := [] })) ∧
    (s.resetnLow = false → s.device = .resetting →
      read 0x000 = (if s.irqStatus.getLsbD 5 then 0x102#32 else 0x002#32) ∧
      (offset ≠ 0x000#12 → readValue offset 0xF#4 s = 0#32)) ∧
    (s.ready = true →
      (read 0x000 = (if s.irqStatus.getLsbD 5 then 0x101#32 else 0x001#32) ∧
        read 0x014 = s.irqEnable.setWidth 32 ∧ read 0x018 = s.timebase.setWidth 32 ∧
        read 0x01C = s.responseLimit.setWidth 32 ∧ read 0x004 = 0#32 ∧ read 0x204 = 0#32 ∧ read 0x250 = 0#32 ∧
        ∀ p : PortNumber, read (0x040 + 4 * p.val) = 0#32) ∧
      (read 0x020 =
          (match s.memState with
            | .running => 0#32
            | .failed => 1#32
            | .clearing => 2#32) ||| number s.outstanding.length <<< 8 ∧
        (∀ p : PortNumber, read (0x050 + 4 * p.val) =
          (match (s.port p).state with
            | .closed => 0#32
            | .open_ => 1#32
            | .closing => 2#32) ||| number (s.port p).queues.normal.length <<< 8 |||
            number (s.port p).queues.urgent.length <<< 12 ||| number (s.port p).creditInUse <<< 16) ∧
        ∀ i : Fin 8, read (0x180 + 4 * i.val) = (s.region i).endUnit.setWidth 32 |||
          ((match (s.region i).kind with
            | .absent => 0#32
            | .open_ => 1#32
            | .readOnly => 2#32
            | .tables => 3#32) : Word) <<< 16) ∧
      (read 0x208 =
          (match s.commands with
            | [] => 0#32
            | head :: _ => if head.taken then 2#32 else 1#32) ∧
        read 0x20C = s.takenCount.setWidth 32 ||| s.completedCount.setWidth 32 <<< 16 ∧
        read 0x210 =
          (match s.lastError.code with
            | .none_ => 0#32
            | .unknownCode => 1#32
            | .badOperand => 2#32
            | .wrongState => 3#32
            | .nothingParked => 4#32) ||| s.lastError.number.setWidth 32 <<< 16 ∧
        read 0x214 = s.syncMarker.setWidth 32 ∧
        read 0x218 = bit 0 s.probe.hit ||| bit 1 s.probe.readPermit ||| bit 2 s.probe.writePermit |||
          bit 3 s.probe.modifiedKnown ||| s.probe.frame.setWidth 32 <<< 8) ∧
      (read 0x240 = number s.faultLog.length ||| s.nextSeq.setWidth 32 <<< 16 ∧
        (s.faultLog = [] → read 0x244 = 0#32 ∧ read 0x248 = 0#32 ∧ read 0x24C = 0#32) ∧
        ∀ record rest, s.faultLog = record :: rest →
          read 0x244 = record.sequence.setWidth 32 ||| number record.port.val <<< 16 |||
            bit 18 (record.cls = .urgent) ||| bit 19 (record.kind = .write) ||| record.tag.setWidth 32 <<< 24 |||
            bit 31 (record.outcome = .parked) ∧
          read 0x248 = record.address ∧
          read 0x24C = number record.context.val ||| causeCode record.cause <<< 8) ∧
      (∀ h : HeadId,
        let place := read (0x260 + 8 * h.port.val + if h.cls = .urgent then 4 else 0)
        (s.parkedPlace h = none → place = 0#32) ∧
        ∀ v, s.parkedPlace h = some v →
          place = v.sequence.setWidth 32 ||| causeCode v.cause <<< 24 ||| 1#32 <<< 31) ∧
      ∀ n, (read 0x280).getLsbD n = true ↔
        ∃ h : HeadId, n = 2 * h.port.val + (if h.cls = .urgent then 1 else 0) ∧ s.parkedPlace h ≠ none)

/-! ## What holds of every event -/

/-- While a context is not OFF, no event but a power-on reset changes the region map or its configuration fields; a binding changes only in CLOSED (R19, R20, R30, R113,
R114). -/
def Obligations.ConfigurationFixed : Prop :=
  ∀ (i : Instr) (s t : State), exec i s = .next t → i ≠ .powerOnReset →
    ((∃ c, (s.context c).state ≠ .off) → t.regions = s.regions) ∧
    (∀ c, (s.context c).state ≠ .off → { t.context c with state := .off } = { s.context c with state := .off }) ∧
    (∀ p, (s.port p).state ≠ .closed → (t.port p).binding = (s.port p).binding)

/-- A transaction goes to the memory side at a GRANT only, with the port RUNNING and fewer than 16 outstanding, and it is then the youngest of the outstanding list, with
age 0 (R160, R161, R164, R170, R173, R174). -/
def Obligations.TransactionsOnlyByGrant : Prop :=
  ∀ (i : Instr) (s t : State) (op : TxnOp) (a : PhysAddr), exec i s = .next t → .transaction op a ∈ t.emitted →
    i = .grant ∧ s.memState = .running ∧ s.outstanding.length < 16 ∧
    ∃ origin, t.outstanding = s.outstanding ++ [{ op := op, address := a, origin := origin, age := 0 }]

/-- Every step keeps these bounds: 8 entries a request queue, credit 8, 64 and 8 cache entries, 16 records, 8 commands, 16 transactions, run count 4, a timebase that is not 0, region
ends and ages in range (R44, R55, R66, R67, R109, R123, R139, R158, R160, R163, R167). Those of the slot wait list and the waiter lists are kept by HeadsLinkedKept. -/
def Obligations.BoundsKept : Prop := ∀ s t : State, s.Bounded → step s = .next t → t.Bounded

/-- Every step keeps the numbering of the fault log (R124). -/
def Obligations.LogNumberingKept : Prop := ∀ s t : State, s.LogNumbered → step s = .next t → t.LogNumbered

/-- Every step keeps the order and numbering of the command queue (R141, R142, R146), and with every context that is DRAINING its DISABLE_CONTEXT, taken, at the
head of that queue (R22, R25, R149). -/
def Obligations.CommandOrderKept : Prop :=
  (∀ s t : State, s.CommandsInOrder → step s = .next t → t.CommandsInOrder) ∧
  ∀ s t : State, s.DrainsHeld → step s = .next t → t.DrainsHeld

/-- Every step keeps the caches and walks sound: no key twice, only ACTIVE contexts (R68, R86, R88, R89, R103). -/
def Obligations.CachesAndWalksKept : Prop := ∀ s t : State, s.CachesSound → step s = .next t → t.CachesSound

/-- Every step keeps the part quiet while the device is RESETTING, and CLOSED ports empty (R18, R31, R39, R63, R69, R87, R123, R133, R156, R174). -/
def Obligations.ResetsQuietKept : Prop := ∀ s t : State, s.ResetsQuiet → step s = .next t → t.ResetsQuiet

/-- Every step keeps the walker settled: a slot FREE only with the slot wait list empty, the start order the BUSY slots, no walk and no transaction outside
RUNNING (R84, R91, R106, R160). And every step keeps the walks linked to the outstanding list: an outstanding transaction of a slot is that of its BUSY walk,
which awaits no grant, with the walk's operation and address, such a walk has exactly one, and what a walk asks fits its stage and kind (R85, R93 to R96,
R160, R165). -/
def Obligations.WalkerSettledKept : Prop :=
  (∀ s t : State, s.WalkerSettled → step s = .next t → t.WalkerSettled) ∧
  ∀ s t : State, s.TransactionsLinked → step s = .next t → t.TransactionsLinked

/-- Every step keeps the IN_FLIGHT items of each port and class in step with the outstanding transactions issued for them (R59, R158, R165). So a response of the
shape of the oldest transaction always finds its origin, and one of the outcomes of `EndsWork`: for a walk's transaction the slot holds a BUSY walk that awaits no
grant, with the transaction's operation and address; for a client's the return list has an IN_FLIGHT item at its front, of the transaction's tag and kind (R85,
R160, R165). -/
def Obligations.ItemsPairedKept : Prop :=
  (∀ s t : State, s.ItemsPaired → step s = .next t → t.ItemsPaired) ∧
  ∀ (s : State) (t : Transaction) (rest : List Transaction) (status : ResponseStatus) (data : List Word),
    s.TransactionsLinked → s.ItemsPaired → (∀ h : HeadId, FrontInFlight ((s.port h.port).returns.get h.cls)) →
    s.Answers t rest status data →
    (∃ u, s.EndsWork (.response status data) u) ∧
    (∀ i, t.origin = .walk i →
      ∃ w, s.slot i = some w ∧ w.awaiting = false ∧ w.op = t.op ∧ w.address = t.address ∧
        ∀ x ∈ rest, x.origin ≠ .walk i) ∧
    ∀ v, t.origin = .client v →
      t.op.OfKind v.kind ∧
      ∃ item later, (s.port v.port).returns.get v.cls = item :: later ∧ item.isInFlight = true ∧ item.tag = v.tag ∧
        item.kind = v.kind

/-- Every step from a state whose CLOSED ports are empty keeps the heads linked to their lists: the waiters of the walks are the WALKING heads, the slot wait list holds the
WAIT_SLOT heads, a parked place is filled exactly while its head is PARKED, neither kind of list holds more than 8, a walk that is not abandoned has a
waiter, and the front of every return list is IN_FLIGHT (R46, R47, R60, R86, R90, R133). -/
def Obligations.HeadsLinkedKept : Prop :=
  ∀ s t : State, s.ClosedEmpty → s.HeadsLinked → step s = .next t → t.HeadsLinked
end

