-- ==== Sys2Proof/Laws/State.lean ====
section
/-! SUPPORT. What each record update of the state leaves alone, one lemma a field and update, and what it reads back as. -/

namespace Sys2Proof.Machine.State

variable (s : State)


/-! ## setPort -/

@[simp] theorem setPort_resetnLow (p : PortNumber) (v : Port) : (State.setPort p v s).resetnLow = s.resetnLow := rfl
@[simp] theorem setPort_device (p : PortNumber) (v : Port) : (State.setPort p v s).device = s.device := rfl
@[simp] theorem setPort_irqStatus (p : PortNumber) (v : Port) : (State.setPort p v s).irqStatus = s.irqStatus := rfl
@[simp] theorem setPort_irqEnable (p : PortNumber) (v : Port) : (State.setPort p v s).irqEnable = s.irqEnable := rfl
@[simp] theorem setPort_contexts (p : PortNumber) (v : Port) : (State.setPort p v s).contexts = s.contexts := rfl
@[simp] theorem setPort_pageCache (p : PortNumber) (v : Port) : (State.setPort p v s).pageCache = s.pageCache := rfl
@[simp] theorem setPort_dirCache (p : PortNumber) (v : Port) : (State.setPort p v s).dirCache = s.dirCache := rfl
@[simp] theorem setPort_slots (p : PortNumber) (v : Port) : (State.setPort p v s).slots = s.slots := rfl
@[simp] theorem setPort_startOrder (p : PortNumber) (v : Port) : (State.setPort p v s).startOrder = s.startOrder := rfl
@[simp] theorem setPort_slotWait (p : PortNumber) (v : Port) : (State.setPort p v s).slotWait = s.slotWait := rfl
@[simp] theorem setPort_regions (p : PortNumber) (v : Port) : (State.setPort p v s).regions = s.regions := rfl
@[simp] theorem setPort_faultLog (p : PortNumber) (v : Port) : (State.setPort p v s).faultLog = s.faultLog := rfl
@[simp] theorem setPort_nextSeq (p : PortNumber) (v : Port) : (State.setPort p v s).nextSeq = s.nextSeq := rfl
@[simp] theorem setPort_parked (p : PortNumber) (v : Port) : (State.setPort p v s).parked = s.parked := rfl
@[simp] theorem setPort_commands (p : PortNumber) (v : Port) : (State.setPort p v s).commands = s.commands := rfl
@[simp] theorem setPort_operandWord (p : PortNumber) (v : Port) : (State.setPort p v s).operandWord = s.operandWord := rfl
@[simp] theorem setPort_takenCount (p : PortNumber) (v : Port) : (State.setPort p v s).takenCount = s.takenCount := rfl
@[simp] theorem setPort_completedCount (p : PortNumber) (v : Port) : (State.setPort p v s).completedCount = s.completedCount := rfl
@[simp] theorem setPort_lastError (p : PortNumber) (v : Port) : (State.setPort p v s).lastError = s.lastError := rfl
@[simp] theorem setPort_syncMarker (p : PortNumber) (v : Port) : (State.setPort p v s).syncMarker = s.syncMarker := rfl
@[simp] theorem setPort_probe (p : PortNumber) (v : Port) : (State.setPort p v s).probe = s.probe := rfl
@[simp] theorem setPort_memState (p : PortNumber) (v : Port) : (State.setPort p v s).memState = s.memState := rfl
@[simp] theorem setPort_outstanding (p : PortNumber) (v : Port) : (State.setPort p v s).outstanding = s.outstanding := rfl
@[simp] theorem setPort_responseLimit (p : PortNumber) (v : Port) : (State.setPort p v s).responseLimit = s.responseLimit := rfl
@[simp] theorem setPort_timebase (p : PortNumber) (v : Port) : (State.setPort p v s).timebase = s.timebase := rfl
@[simp] theorem setPort_tickLeft (p : PortNumber) (v : Port) : (State.setPort p v s).tickLeft = s.tickLeft := rfl
@[simp] theorem setPort_lastUrgent (p : PortNumber) (v : Port) : (State.setPort p v s).lastUrgent = s.lastUrgent := rfl
@[simp] theorem setPort_lastNormal (p : PortNumber) (v : Port) : (State.setPort p v s).lastNormal = s.lastNormal := rfl
@[simp] theorem setPort_runCount (p : PortNumber) (v : Port) : (State.setPort p v s).runCount = s.runCount := rfl
@[simp] theorem setPort_clearAge (p : PortNumber) (v : Port) : (State.setPort p v s).clearAge = s.clearAge := rfl
@[simp] theorem setPort_clearRepeated (p : PortNumber) (v : Port) : (State.setPort p v s).clearRepeated = s.clearRepeated := rfl
@[simp] theorem setPort_lateCleared (p : PortNumber) (v : Port) : (State.setPort p v s).lateCleared = s.lateCleared := rfl
@[simp] theorem setPort_emitted (p : PortNumber) (v : Port) : (State.setPort p v s).emitted = s.emitted := rfl
@[simp] theorem setPort_pending (p : PortNumber) (v : Port) : (State.setPort p v s).pending = s.pending := rfl

/-! ## setContext -/

@[simp] theorem setContext_resetnLow (c : ContextNumber) (v : ContextRecord) : (State.setContext c v s).resetnLow = s.resetnLow := rfl
@[simp] theorem setContext_device (c : ContextNumber) (v : ContextRecord) : (State.setContext c v s).device = s.device := rfl
@[simp] theorem setContext_irqStatus (c : ContextNumber) (v : ContextRecord) : (State.setContext c v s).irqStatus = s.irqStatus := rfl
@[simp] theorem setContext_irqEnable (c : ContextNumber) (v : ContextRecord) : (State.setContext c v s).irqEnable = s.irqEnable := rfl
@[simp] theorem setContext_ports (c : ContextNumber) (v : ContextRecord) : (State.setContext c v s).ports = s.ports := rfl
@[simp] theorem setContext_pageCache (c : ContextNumber) (v : ContextRecord) : (State.setContext c v s).pageCache = s.pageCache := rfl
@[simp] theorem setContext_dirCache (c : ContextNumber) (v : ContextRecord) : (State.setContext c v s).dirCache = s.dirCache := rfl
@[simp] theorem setContext_slots (c : ContextNumber) (v : ContextRecord) : (State.setContext c v s).slots = s.slots := rfl
@[simp] theorem setContext_startOrder (c : ContextNumber) (v : ContextRecord) : (State.setContext c v s).startOrder = s.startOrder := rfl
@[simp] theorem setContext_slotWait (c : ContextNumber) (v : ContextRecord) : (State.setContext c v s).slotWait = s.slotWait := rfl
@[simp] theorem setContext_regions (c : ContextNumber) (v : ContextRecord) : (State.setContext c v s).regions = s.regions := rfl
@[simp] theorem setContext_faultLog (c : ContextNumber) (v : ContextRecord) : (State.setContext c v s).faultLog = s.faultLog := rfl
@[simp] theorem setContext_nextSeq (c : ContextNumber) (v : ContextRecord) : (State.setContext c v s).nextSeq = s.nextSeq := rfl
@[simp] theorem setContext_parked (c : ContextNumber) (v : ContextRecord) : (State.setContext c v s).parked = s.parked := rfl
@[simp] theorem setContext_commands (c : ContextNumber) (v : ContextRecord) : (State.setContext c v s).commands = s.commands := rfl
@[simp] theorem setContext_operandWord (c : ContextNumber) (v : ContextRecord) : (State.setContext c v s).operandWord = s.operandWord := rfl
@[simp] theorem setContext_takenCount (c : ContextNumber) (v : ContextRecord) : (State.setContext c v s).takenCount = s.takenCount := rfl
@[simp] theorem setContext_completedCount (c : ContextNumber) (v : ContextRecord) : (State.setContext c v s).completedCount = s.completedCount := rfl
@[simp] theorem setContext_lastError (c : ContextNumber) (v : ContextRecord) : (State.setContext c v s).lastError = s.lastError := rfl
@[simp] theorem setContext_syncMarker (c : ContextNumber) (v : ContextRecord) : (State.setContext c v s).syncMarker = s.syncMarker := rfl
@[simp] theorem setContext_probe (c : ContextNumber) (v : ContextRecord) : (State.setContext c v s).probe = s.probe := rfl
@[simp] theorem setContext_memState (c : ContextNumber) (v : ContextRecord) : (State.setContext c v s).memState = s.memState := rfl
@[simp] theorem setContext_outstanding (c : ContextNumber) (v : ContextRecord) : (State.setContext c v s).outstanding = s.outstanding := rfl
@[simp] theorem setContext_responseLimit (c : ContextNumber) (v : ContextRecord) : (State.setContext c v s).responseLimit = s.responseLimit := rfl
@[simp] theorem setContext_timebase (c : ContextNumber) (v : ContextRecord) : (State.setContext c v s).timebase = s.timebase := rfl
@[simp] theorem setContext_tickLeft (c : ContextNumber) (v : ContextRecord) : (State.setContext c v s).tickLeft = s.tickLeft := rfl
@[simp] theorem setContext_lastUrgent (c : ContextNumber) (v : ContextRecord) : (State.setContext c v s).lastUrgent = s.lastUrgent := rfl
@[simp] theorem setContext_lastNormal (c : ContextNumber) (v : ContextRecord) : (State.setContext c v s).lastNormal = s.lastNormal := rfl
@[simp] theorem setContext_runCount (c : ContextNumber) (v : ContextRecord) : (State.setContext c v s).runCount = s.runCount := rfl
@[simp] theorem setContext_clearAge (c : ContextNumber) (v : ContextRecord) : (State.setContext c v s).clearAge = s.clearAge := rfl
@[simp] theorem setContext_clearRepeated (c : ContextNumber) (v : ContextRecord) : (State.setContext c v s).clearRepeated = s.clearRepeated := rfl
@[simp] theorem setContext_lateCleared (c : ContextNumber) (v : ContextRecord) : (State.setContext c v s).lateCleared = s.lateCleared := rfl
@[simp] theorem setContext_emitted (c : ContextNumber) (v : ContextRecord) : (State.setContext c v s).emitted = s.emitted := rfl
@[simp] theorem setContext_pending (c : ContextNumber) (v : ContextRecord) : (State.setContext c v s).pending = s.pending := rfl

/-! ## setSlot -/

@[simp] theorem setSlot_resetnLow (i : SlotNumber) (v : Option Walk) : (State.setSlot i v s).resetnLow = s.resetnLow := rfl
@[simp] theorem setSlot_device (i : SlotNumber) (v : Option Walk) : (State.setSlot i v s).device = s.device := rfl
@[simp] theorem setSlot_irqStatus (i : SlotNumber) (v : Option Walk) : (State.setSlot i v s).irqStatus = s.irqStatus := rfl
@[simp] theorem setSlot_irqEnable (i : SlotNumber) (v : Option Walk) : (State.setSlot i v s).irqEnable = s.irqEnable := rfl
@[simp] theorem setSlot_ports (i : SlotNumber) (v : Option Walk) : (State.setSlot i v s).ports = s.ports := rfl
@[simp] theorem setSlot_contexts (i : SlotNumber) (v : Option Walk) : (State.setSlot i v s).contexts = s.contexts := rfl
@[simp] theorem setSlot_pageCache (i : SlotNumber) (v : Option Walk) : (State.setSlot i v s).pageCache = s.pageCache := rfl
@[simp] theorem setSlot_dirCache (i : SlotNumber) (v : Option Walk) : (State.setSlot i v s).dirCache = s.dirCache := rfl
@[simp] theorem setSlot_startOrder (i : SlotNumber) (v : Option Walk) : (State.setSlot i v s).startOrder = s.startOrder := rfl
@[simp] theorem setSlot_slotWait (i : SlotNumber) (v : Option Walk) : (State.setSlot i v s).slotWait = s.slotWait := rfl
@[simp] theorem setSlot_regions (i : SlotNumber) (v : Option Walk) : (State.setSlot i v s).regions = s.regions := rfl
@[simp] theorem setSlot_faultLog (i : SlotNumber) (v : Option Walk) : (State.setSlot i v s).faultLog = s.faultLog := rfl
@[simp] theorem setSlot_nextSeq (i : SlotNumber) (v : Option Walk) : (State.setSlot i v s).nextSeq = s.nextSeq := rfl
@[simp] theorem setSlot_parked (i : SlotNumber) (v : Option Walk) : (State.setSlot i v s).parked = s.parked := rfl
@[simp] theorem setSlot_commands (i : SlotNumber) (v : Option Walk) : (State.setSlot i v s).commands = s.commands := rfl
@[simp] theorem setSlot_operandWord (i : SlotNumber) (v : Option Walk) : (State.setSlot i v s).operandWord = s.operandWord := rfl
@[simp] theorem setSlot_takenCount (i : SlotNumber) (v : Option Walk) : (State.setSlot i v s).takenCount = s.takenCount := rfl
@[simp] theorem setSlot_completedCount (i : SlotNumber) (v : Option Walk) : (State.setSlot i v s).completedCount = s.completedCount := rfl
@[simp] theorem setSlot_lastError (i : SlotNumber) (v : Option Walk) : (State.setSlot i v s).lastError = s.lastError := rfl
@[simp] theorem setSlot_syncMarker (i : SlotNumber) (v : Option Walk) : (State.setSlot i v s).syncMarker = s.syncMarker := rfl
@[simp] theorem setSlot_probe (i : SlotNumber) (v : Option Walk) : (State.setSlot i v s).probe = s.probe := rfl
@[simp] theorem setSlot_memState (i : SlotNumber) (v : Option Walk) : (State.setSlot i v s).memState = s.memState := rfl
@[simp] theorem setSlot_outstanding (i : SlotNumber) (v : Option Walk) : (State.setSlot i v s).outstanding = s.outstanding := rfl
@[simp] theorem setSlot_responseLimit (i : SlotNumber) (v : Option Walk) : (State.setSlot i v s).responseLimit = s.responseLimit := rfl
@[simp] theorem setSlot_timebase (i : SlotNumber) (v : Option Walk) : (State.setSlot i v s).timebase = s.timebase := rfl
@[simp] theorem setSlot_tickLeft (i : SlotNumber) (v : Option Walk) : (State.setSlot i v s).tickLeft = s.tickLeft := rfl
@[simp] theorem setSlot_lastUrgent (i : SlotNumber) (v : Option Walk) : (State.setSlot i v s).lastUrgent = s.lastUrgent := rfl
@[simp] theorem setSlot_lastNormal (i : SlotNumber) (v : Option Walk) : (State.setSlot i v s).lastNormal = s.lastNormal := rfl
@[simp] theorem setSlot_runCount (i : SlotNumber) (v : Option Walk) : (State.setSlot i v s).runCount = s.runCount := rfl
@[simp] theorem setSlot_clearAge (i : SlotNumber) (v : Option Walk) : (State.setSlot i v s).clearAge = s.clearAge := rfl
@[simp] theorem setSlot_clearRepeated (i : SlotNumber) (v : Option Walk) : (State.setSlot i v s).clearRepeated = s.clearRepeated := rfl
@[simp] theorem setSlot_lateCleared (i : SlotNumber) (v : Option Walk) : (State.setSlot i v s).lateCleared = s.lateCleared := rfl
@[simp] theorem setSlot_emitted (i : SlotNumber) (v : Option Walk) : (State.setSlot i v s).emitted = s.emitted := rfl
@[simp] theorem setSlot_pending (i : SlotNumber) (v : Option Walk) : (State.setSlot i v s).pending = s.pending := rfl

/-! ## setRegion -/

@[simp] theorem setRegion_resetnLow (i : Fin 8) (v : RegionEntry) : (State.setRegion i v s).resetnLow = s.resetnLow := rfl
@[simp] theorem setRegion_device (i : Fin 8) (v : RegionEntry) : (State.setRegion i v s).device = s.device := rfl
@[simp] theorem setRegion_irqStatus (i : Fin 8) (v : RegionEntry) : (State.setRegion i v s).irqStatus = s.irqStatus := rfl
@[simp] theorem setRegion_irqEnable (i : Fin 8) (v : RegionEntry) : (State.setRegion i v s).irqEnable = s.irqEnable := rfl
@[simp] theorem setRegion_ports (i : Fin 8) (v : RegionEntry) : (State.setRegion i v s).ports = s.ports := rfl
@[simp] theorem setRegion_contexts (i : Fin 8) (v : RegionEntry) : (State.setRegion i v s).contexts = s.contexts := rfl
@[simp] theorem setRegion_pageCache (i : Fin 8) (v : RegionEntry) : (State.setRegion i v s).pageCache = s.pageCache := rfl
@[simp] theorem setRegion_dirCache (i : Fin 8) (v : RegionEntry) : (State.setRegion i v s).dirCache = s.dirCache := rfl
@[simp] theorem setRegion_slots (i : Fin 8) (v : RegionEntry) : (State.setRegion i v s).slots = s.slots := rfl
@[simp] theorem setRegion_startOrder (i : Fin 8) (v : RegionEntry) : (State.setRegion i v s).startOrder = s.startOrder := rfl
@[simp] theorem setRegion_slotWait (i : Fin 8) (v : RegionEntry) : (State.setRegion i v s).slotWait = s.slotWait := rfl
@[simp] theorem setRegion_faultLog (i : Fin 8) (v : RegionEntry) : (State.setRegion i v s).faultLog = s.faultLog := rfl
@[simp] theorem setRegion_nextSeq (i : Fin 8) (v : RegionEntry) : (State.setRegion i v s).nextSeq = s.nextSeq := rfl
@[simp] theorem setRegion_parked (i : Fin 8) (v : RegionEntry) : (State.setRegion i v s).parked = s.parked := rfl
@[simp] theorem setRegion_commands (i : Fin 8) (v : RegionEntry) : (State.setRegion i v s).commands = s.commands := rfl
@[simp] theorem setRegion_operandWord (i : Fin 8) (v : RegionEntry) : (State.setRegion i v s).operandWord = s.operandWord := rfl
@[simp] theorem setRegion_takenCount (i : Fin 8) (v : RegionEntry) : (State.setRegion i v s).takenCount = s.takenCount := rfl
@[simp] theorem setRegion_completedCount (i : Fin 8) (v : RegionEntry) : (State.setRegion i v s).completedCount = s.completedCount := rfl
@[simp] theorem setRegion_lastError (i : Fin 8) (v : RegionEntry) : (State.setRegion i v s).lastError = s.lastError := rfl
@[simp] theorem setRegion_syncMarker (i : Fin 8) (v : RegionEntry) : (State.setRegion i v s).syncMarker = s.syncMarker := rfl
@[simp] theorem setRegion_probe (i : Fin 8) (v : RegionEntry) : (State.setRegion i v s).probe = s.probe := rfl
@[simp] theorem setRegion_memState (i : Fin 8) (v : RegionEntry) : (State.setRegion i v s).memState = s.memState := rfl
@[simp] theorem setRegion_outstanding (i : Fin 8) (v : RegionEntry) : (State.setRegion i v s).outstanding = s.outstanding := rfl
@[simp] theorem setRegion_responseLimit (i : Fin 8) (v : RegionEntry) : (State.setRegion i v s).responseLimit = s.responseLimit := rfl
@[simp] theorem setRegion_timebase (i : Fin 8) (v : RegionEntry) : (State.setRegion i v s).timebase = s.timebase := rfl
@[simp] theorem setRegion_tickLeft (i : Fin 8) (v : RegionEntry) : (State.setRegion i v s).tickLeft = s.tickLeft := rfl
@[simp] theorem setRegion_lastUrgent (i : Fin 8) (v : RegionEntry) : (State.setRegion i v s).lastUrgent = s.lastUrgent := rfl
@[simp] theorem setRegion_lastNormal (i : Fin 8) (v : RegionEntry) : (State.setRegion i v s).lastNormal = s.lastNormal := rfl
@[simp] theorem setRegion_runCount (i : Fin 8) (v : RegionEntry) : (State.setRegion i v s).runCount = s.runCount := rfl
@[simp] theorem setRegion_clearAge (i : Fin 8) (v : RegionEntry) : (State.setRegion i v s).clearAge = s.clearAge := rfl
@[simp] theorem setRegion_clearRepeated (i : Fin 8) (v : RegionEntry) : (State.setRegion i v s).clearRepeated = s.clearRepeated := rfl
@[simp] theorem setRegion_lateCleared (i : Fin 8) (v : RegionEntry) : (State.setRegion i v s).lateCleared = s.lateCleared := rfl
@[simp] theorem setRegion_emitted (i : Fin 8) (v : RegionEntry) : (State.setRegion i v s).emitted = s.emitted := rfl
@[simp] theorem setRegion_pending (i : Fin 8) (v : RegionEntry) : (State.setRegion i v s).pending = s.pending := rfl

/-! ## setParked -/

@[simp] theorem setParked_resetnLow (h : HeadId) (v : Option ParkedPlace) : (State.setParked h v s).resetnLow = s.resetnLow := rfl
@[simp] theorem setParked_device (h : HeadId) (v : Option ParkedPlace) : (State.setParked h v s).device = s.device := rfl
@[simp] theorem setParked_irqStatus (h : HeadId) (v : Option ParkedPlace) : (State.setParked h v s).irqStatus = s.irqStatus := rfl
@[simp] theorem setParked_irqEnable (h : HeadId) (v : Option ParkedPlace) : (State.setParked h v s).irqEnable = s.irqEnable := rfl
@[simp] theorem setParked_ports (h : HeadId) (v : Option ParkedPlace) : (State.setParked h v s).ports = s.ports := rfl
@[simp] theorem setParked_contexts (h : HeadId) (v : Option ParkedPlace) : (State.setParked h v s).contexts = s.contexts := rfl
@[simp] theorem setParked_pageCache (h : HeadId) (v : Option ParkedPlace) : (State.setParked h v s).pageCache = s.pageCache := rfl
@[simp] theorem setParked_dirCache (h : HeadId) (v : Option ParkedPlace) : (State.setParked h v s).dirCache = s.dirCache := rfl
@[simp] theorem setParked_slots (h : HeadId) (v : Option ParkedPlace) : (State.setParked h v s).slots = s.slots := rfl
@[simp] theorem setParked_startOrder (h : HeadId) (v : Option ParkedPlace) : (State.setParked h v s).startOrder = s.startOrder := rfl
@[simp] theorem setParked_slotWait (h : HeadId) (v : Option ParkedPlace) : (State.setParked h v s).slotWait = s.slotWait := rfl
@[simp] theorem setParked_regions (h : HeadId) (v : Option ParkedPlace) : (State.setParked h v s).regions = s.regions := rfl
@[simp] theorem setParked_faultLog (h : HeadId) (v : Option ParkedPlace) : (State.setParked h v s).faultLog = s.faultLog := rfl
@[simp] theorem setParked_nextSeq (h : HeadId) (v : Option ParkedPlace) : (State.setParked h v s).nextSeq = s.nextSeq := rfl
@[simp] theorem setParked_commands (h : HeadId) (v : Option ParkedPlace) : (State.setParked h v s).commands = s.commands := rfl
@[simp] theorem setParked_operandWord (h : HeadId) (v : Option ParkedPlace) : (State.setParked h v s).operandWord = s.operandWord := rfl
@[simp] theorem setParked_takenCount (h : HeadId) (v : Option ParkedPlace) : (State.setParked h v s).takenCount = s.takenCount := rfl
@[simp] theorem setParked_completedCount (h : HeadId) (v : Option ParkedPlace) : (State.setParked h v s).completedCount = s.completedCount := rfl
@[simp] theorem setParked_lastError (h : HeadId) (v : Option ParkedPlace) : (State.setParked h v s).lastError = s.lastError := rfl
@[simp] theorem setParked_syncMarker (h : HeadId) (v : Option ParkedPlace) : (State.setParked h v s).syncMarker = s.syncMarker := rfl
@[simp] theorem setParked_probe (h : HeadId) (v : Option ParkedPlace) : (State.setParked h v s).probe = s.probe := rfl
@[simp] theorem setParked_memState (h : HeadId) (v : Option ParkedPlace) : (State.setParked h v s).memState = s.memState := rfl
@[simp] theorem setParked_outstanding (h : HeadId) (v : Option ParkedPlace) : (State.setParked h v s).outstanding = s.outstanding := rfl
@[simp] theorem setParked_responseLimit (h : HeadId) (v : Option ParkedPlace) : (State.setParked h v s).responseLimit = s.responseLimit := rfl
@[simp] theorem setParked_timebase (h : HeadId) (v : Option ParkedPlace) : (State.setParked h v s).timebase = s.timebase := rfl
@[simp] theorem setParked_tickLeft (h : HeadId) (v : Option ParkedPlace) : (State.setParked h v s).tickLeft = s.tickLeft := rfl
@[simp] theorem setParked_lastUrgent (h : HeadId) (v : Option ParkedPlace) : (State.setParked h v s).lastUrgent = s.lastUrgent := rfl
@[simp] theorem setParked_lastNormal (h : HeadId) (v : Option ParkedPlace) : (State.setParked h v s).lastNormal = s.lastNormal := rfl
@[simp] theorem setParked_runCount (h : HeadId) (v : Option ParkedPlace) : (State.setParked h v s).runCount = s.runCount := rfl
@[simp] theorem setParked_clearAge (h : HeadId) (v : Option ParkedPlace) : (State.setParked h v s).clearAge = s.clearAge := rfl
@[simp] theorem setParked_clearRepeated (h : HeadId) (v : Option ParkedPlace) : (State.setParked h v s).clearRepeated = s.clearRepeated := rfl
@[simp] theorem setParked_lateCleared (h : HeadId) (v : Option ParkedPlace) : (State.setParked h v s).lateCleared = s.lateCleared := rfl
@[simp] theorem setParked_emitted (h : HeadId) (v : Option ParkedPlace) : (State.setParked h v s).emitted = s.emitted := rfl
@[simp] theorem setParked_pending (h : HeadId) (v : Option ParkedPlace) : (State.setParked h v s).pending = s.pending := rfl

/-! ## raise -/

@[simp] theorem raise_resetnLow (c : IrqCause) : (State.raise c s).resetnLow = s.resetnLow := rfl
@[simp] theorem raise_device (c : IrqCause) : (State.raise c s).device = s.device := rfl
@[simp] theorem raise_irqEnable (c : IrqCause) : (State.raise c s).irqEnable = s.irqEnable := rfl
@[simp] theorem raise_ports (c : IrqCause) : (State.raise c s).ports = s.ports := rfl
@[simp] theorem raise_contexts (c : IrqCause) : (State.raise c s).contexts = s.contexts := rfl
@[simp] theorem raise_pageCache (c : IrqCause) : (State.raise c s).pageCache = s.pageCache := rfl
@[simp] theorem raise_dirCache (c : IrqCause) : (State.raise c s).dirCache = s.dirCache := rfl
@[simp] theorem raise_slots (c : IrqCause) : (State.raise c s).slots = s.slots := rfl
@[simp] theorem raise_startOrder (c : IrqCause) : (State.raise c s).startOrder = s.startOrder := rfl
@[simp] theorem raise_slotWait (c : IrqCause) : (State.raise c s).slotWait = s.slotWait := rfl
@[simp] theorem raise_regions (c : IrqCause) : (State.raise c s).regions = s.regions := rfl
@[simp] theorem raise_faultLog (c : IrqCause) : (State.raise c s).faultLog = s.faultLog := rfl
@[simp] theorem raise_nextSeq (c : IrqCause) : (State.raise c s).nextSeq = s.nextSeq := rfl
@[simp] theorem raise_parked (c : IrqCause) : (State.raise c s).parked = s.parked := rfl
@[simp] theorem raise_commands (c : IrqCause) : (State.raise c s).commands = s.commands := rfl
@[simp] theorem raise_operandWord (c : IrqCause) : (State.raise c s).operandWord = s.operandWord := rfl
@[simp] theorem raise_takenCount (c : IrqCause) : (State.raise c s).takenCount = s.takenCount := rfl
@[simp] theorem raise_completedCount (c : IrqCause) : (State.raise c s).completedCount = s.completedCount := rfl
@[simp] theorem raise_lastError (c : IrqCause) : (State.raise c s).lastError = s.lastError := rfl
@[simp] theorem raise_syncMarker (c : IrqCause) : (State.raise c s).syncMarker = s.syncMarker := rfl
@[simp] theorem raise_probe (c : IrqCause) : (State.raise c s).probe = s.probe := rfl
@[simp] theorem raise_memState (c : IrqCause) : (State.raise c s).memState = s.memState := rfl
@[simp] theorem raise_outstanding (c : IrqCause) : (State.raise c s).outstanding = s.outstanding := rfl
@[simp] theorem raise_responseLimit (c : IrqCause) : (State.raise c s).responseLimit = s.responseLimit := rfl
@[simp] theorem raise_timebase (c : IrqCause) : (State.raise c s).timebase = s.timebase := rfl
@[simp] theorem raise_tickLeft (c : IrqCause) : (State.raise c s).tickLeft = s.tickLeft := rfl
@[simp] theorem raise_lastUrgent (c : IrqCause) : (State.raise c s).lastUrgent = s.lastUrgent := rfl
@[simp] theorem raise_lastNormal (c : IrqCause) : (State.raise c s).lastNormal = s.lastNormal := rfl
@[simp] theorem raise_runCount (c : IrqCause) : (State.raise c s).runCount = s.runCount := rfl
@[simp] theorem raise_clearAge (c : IrqCause) : (State.raise c s).clearAge = s.clearAge := rfl
@[simp] theorem raise_clearRepeated (c : IrqCause) : (State.raise c s).clearRepeated = s.clearRepeated := rfl
@[simp] theorem raise_lateCleared (c : IrqCause) : (State.raise c s).lateCleared = s.lateCleared := rfl
@[simp] theorem raise_emitted (c : IrqCause) : (State.raise c s).emitted = s.emitted := rfl
@[simp] theorem raise_pending (c : IrqCause) : (State.raise c s).pending = s.pending := rfl

/-! ## emit -/

@[simp] theorem emit_resetnLow (o : Output) : (State.emit o s).resetnLow = s.resetnLow := rfl
@[simp] theorem emit_device (o : Output) : (State.emit o s).device = s.device := rfl
@[simp] theorem emit_irqStatus (o : Output) : (State.emit o s).irqStatus = s.irqStatus := rfl
@[simp] theorem emit_irqEnable (o : Output) : (State.emit o s).irqEnable = s.irqEnable := rfl
@[simp] theorem emit_ports (o : Output) : (State.emit o s).ports = s.ports := rfl
@[simp] theorem emit_contexts (o : Output) : (State.emit o s).contexts = s.contexts := rfl
@[simp] theorem emit_pageCache (o : Output) : (State.emit o s).pageCache = s.pageCache := rfl
@[simp] theorem emit_dirCache (o : Output) : (State.emit o s).dirCache = s.dirCache := rfl
@[simp] theorem emit_slots (o : Output) : (State.emit o s).slots = s.slots := rfl
@[simp] theorem emit_startOrder (o : Output) : (State.emit o s).startOrder = s.startOrder := rfl
@[simp] theorem emit_slotWait (o : Output) : (State.emit o s).slotWait = s.slotWait := rfl
@[simp] theorem emit_regions (o : Output) : (State.emit o s).regions = s.regions := rfl
@[simp] theorem emit_faultLog (o : Output) : (State.emit o s).faultLog = s.faultLog := rfl
@[simp] theorem emit_nextSeq (o : Output) : (State.emit o s).nextSeq = s.nextSeq := rfl
@[simp] theorem emit_parked (o : Output) : (State.emit o s).parked = s.parked := rfl
@[simp] theorem emit_commands (o : Output) : (State.emit o s).commands = s.commands := rfl
@[simp] theorem emit_operandWord (o : Output) : (State.emit o s).operandWord = s.operandWord := rfl
@[simp] theorem emit_takenCount (o : Output) : (State.emit o s).takenCount = s.takenCount := rfl
@[simp] theorem emit_completedCount (o : Output) : (State.emit o s).completedCount = s.completedCount := rfl
@[simp] theorem emit_lastError (o : Output) : (State.emit o s).lastError = s.lastError := rfl
@[simp] theorem emit_syncMarker (o : Output) : (State.emit o s).syncMarker = s.syncMarker := rfl
@[simp] theorem emit_probe (o : Output) : (State.emit o s).probe = s.probe := rfl
@[simp] theorem emit_memState (o : Output) : (State.emit o s).memState = s.memState := rfl
@[simp] theorem emit_outstanding (o : Output) : (State.emit o s).outstanding = s.outstanding := rfl
@[simp] theorem emit_responseLimit (o : Output) : (State.emit o s).responseLimit = s.responseLimit := rfl
@[simp] theorem emit_timebase (o : Output) : (State.emit o s).timebase = s.timebase := rfl
@[simp] theorem emit_tickLeft (o : Output) : (State.emit o s).tickLeft = s.tickLeft := rfl
@[simp] theorem emit_lastUrgent (o : Output) : (State.emit o s).lastUrgent = s.lastUrgent := rfl
@[simp] theorem emit_lastNormal (o : Output) : (State.emit o s).lastNormal = s.lastNormal := rfl
@[simp] theorem emit_runCount (o : Output) : (State.emit o s).runCount = s.runCount := rfl
@[simp] theorem emit_clearAge (o : Output) : (State.emit o s).clearAge = s.clearAge := rfl
@[simp] theorem emit_clearRepeated (o : Output) : (State.emit o s).clearRepeated = s.clearRepeated := rfl
@[simp] theorem emit_lateCleared (o : Output) : (State.emit o s).lateCleared = s.lateCleared := rfl
@[simp] theorem emit_pending (o : Output) : (State.emit o s).pending = s.pending := rfl

/-! ## beginEvent -/

@[simp] theorem beginEvent_resetnLow : s.beginEvent.resetnLow = s.resetnLow := rfl
@[simp] theorem beginEvent_device : s.beginEvent.device = s.device := rfl
@[simp] theorem beginEvent_irqStatus : s.beginEvent.irqStatus = s.irqStatus := rfl
@[simp] theorem beginEvent_irqEnable : s.beginEvent.irqEnable = s.irqEnable := rfl
@[simp] theorem beginEvent_ports : s.beginEvent.ports = s.ports := rfl
@[simp] theorem beginEvent_contexts : s.beginEvent.contexts = s.contexts := rfl
@[simp] theorem beginEvent_pageCache : s.beginEvent.pageCache = s.pageCache := rfl
@[simp] theorem beginEvent_dirCache : s.beginEvent.dirCache = s.dirCache := rfl
@[simp] theorem beginEvent_slots : s.beginEvent.slots = s.slots := rfl
@[simp] theorem beginEvent_startOrder : s.beginEvent.startOrder = s.startOrder := rfl
@[simp] theorem beginEvent_slotWait : s.beginEvent.slotWait = s.slotWait := rfl
@[simp] theorem beginEvent_regions : s.beginEvent.regions = s.regions := rfl
@[simp] theorem beginEvent_faultLog : s.beginEvent.faultLog = s.faultLog := rfl
@[simp] theorem beginEvent_nextSeq : s.beginEvent.nextSeq = s.nextSeq := rfl
@[simp] theorem beginEvent_parked : s.beginEvent.parked = s.parked := rfl
@[simp] theorem beginEvent_commands : s.beginEvent.commands = s.commands := rfl
@[simp] theorem beginEvent_operandWord : s.beginEvent.operandWord = s.operandWord := rfl
@[simp] theorem beginEvent_takenCount : s.beginEvent.takenCount = s.takenCount := rfl
@[simp] theorem beginEvent_completedCount : s.beginEvent.completedCount = s.completedCount := rfl
@[simp] theorem beginEvent_lastError : s.beginEvent.lastError = s.lastError := rfl
@[simp] theorem beginEvent_syncMarker : s.beginEvent.syncMarker = s.syncMarker := rfl
@[simp] theorem beginEvent_probe : s.beginEvent.probe = s.probe := rfl
@[simp] theorem beginEvent_memState : s.beginEvent.memState = s.memState := rfl
@[simp] theorem beginEvent_outstanding : s.beginEvent.outstanding = s.outstanding := rfl
@[simp] theorem beginEvent_responseLimit : s.beginEvent.responseLimit = s.responseLimit := rfl
@[simp] theorem beginEvent_timebase : s.beginEvent.timebase = s.timebase := rfl
@[simp] theorem beginEvent_tickLeft : s.beginEvent.tickLeft = s.tickLeft := rfl
@[simp] theorem beginEvent_lastUrgent : s.beginEvent.lastUrgent = s.lastUrgent := rfl
@[simp] theorem beginEvent_lastNormal : s.beginEvent.lastNormal = s.lastNormal := rfl
@[simp] theorem beginEvent_runCount : s.beginEvent.runCount = s.runCount := rfl
@[simp] theorem beginEvent_clearAge : s.beginEvent.clearAge = s.clearAge := rfl
@[simp] theorem beginEvent_clearRepeated : s.beginEvent.clearRepeated = s.clearRepeated := rfl
@[simp] theorem beginEvent_lateCleared : s.beginEvent.lateCleared = s.lateCleared := rfl
@[simp] theorem beginEvent_pending : s.beginEvent.pending = s.pending := rfl

/-! ## setHeadState -/

@[simp] theorem setHeadState_resetnLow (h : HeadId) (st : EntryState) : (State.setHeadState h st s).resetnLow = s.resetnLow := rfl
@[simp] theorem setHeadState_device (h : HeadId) (st : EntryState) : (State.setHeadState h st s).device = s.device := rfl
@[simp] theorem setHeadState_irqStatus (h : HeadId) (st : EntryState) : (State.setHeadState h st s).irqStatus = s.irqStatus := rfl
@[simp] theorem setHeadState_irqEnable (h : HeadId) (st : EntryState) : (State.setHeadState h st s).irqEnable = s.irqEnable := rfl
@[simp] theorem setHeadState_contexts (h : HeadId) (st : EntryState) : (State.setHeadState h st s).contexts = s.contexts := rfl
@[simp] theorem setHeadState_pageCache (h : HeadId) (st : EntryState) : (State.setHeadState h st s).pageCache = s.pageCache := rfl
@[simp] theorem setHeadState_dirCache (h : HeadId) (st : EntryState) : (State.setHeadState h st s).dirCache = s.dirCache := rfl
@[simp] theorem setHeadState_slots (h : HeadId) (st : EntryState) : (State.setHeadState h st s).slots = s.slots := rfl
@[simp] theorem setHeadState_startOrder (h : HeadId) (st : EntryState) : (State.setHeadState h st s).startOrder = s.startOrder := rfl
@[simp] theorem setHeadState_slotWait (h : HeadId) (st : EntryState) : (State.setHeadState h st s).slotWait = s.slotWait := rfl
@[simp] theorem setHeadState_regions (h : HeadId) (st : EntryState) : (State.setHeadState h st s).regions = s.regions := rfl
@[simp] theorem setHeadState_faultLog (h : HeadId) (st : EntryState) : (State.setHeadState h st s).faultLog = s.faultLog := rfl
@[simp] theorem setHeadState_nextSeq (h : HeadId) (st : EntryState) : (State.setHeadState h st s).nextSeq = s.nextSeq := rfl
@[simp] theorem setHeadState_parked (h : HeadId) (st : EntryState) : (State.setHeadState h st s).parked = s.parked := rfl
@[simp] theorem setHeadState_commands (h : HeadId) (st : EntryState) : (State.setHeadState h st s).commands = s.commands := rfl
@[simp] theorem setHeadState_operandWord (h : HeadId) (st : EntryState) : (State.setHeadState h st s).operandWord = s.operandWord := rfl
@[simp] theorem setHeadState_takenCount (h : HeadId) (st : EntryState) : (State.setHeadState h st s).takenCount = s.takenCount := rfl
@[simp] theorem setHeadState_completedCount (h : HeadId) (st : EntryState) : (State.setHeadState h st s).completedCount = s.completedCount := rfl
@[simp] theorem setHeadState_lastError (h : HeadId) (st : EntryState) : (State.setHeadState h st s).lastError = s.lastError := rfl
@[simp] theorem setHeadState_syncMarker (h : HeadId) (st : EntryState) : (State.setHeadState h st s).syncMarker = s.syncMarker := rfl
@[simp] theorem setHeadState_probe (h : HeadId) (st : EntryState) : (State.setHeadState h st s).probe = s.probe := rfl
@[simp] theorem setHeadState_memState (h : HeadId) (st : EntryState) : (State.setHeadState h st s).memState = s.memState := rfl
@[simp] theorem setHeadState_outstanding (h : HeadId) (st : EntryState) : (State.setHeadState h st s).outstanding = s.outstanding := rfl
@[simp] theorem setHeadState_responseLimit (h : HeadId) (st : EntryState) : (State.setHeadState h st s).responseLimit = s.responseLimit := rfl
@[simp] theorem setHeadState_timebase (h : HeadId) (st : EntryState) : (State.setHeadState h st s).timebase = s.timebase := rfl
@[simp] theorem setHeadState_tickLeft (h : HeadId) (st : EntryState) : (State.setHeadState h st s).tickLeft = s.tickLeft := rfl
@[simp] theorem setHeadState_lastUrgent (h : HeadId) (st : EntryState) : (State.setHeadState h st s).lastUrgent = s.lastUrgent := rfl
@[simp] theorem setHeadState_lastNormal (h : HeadId) (st : EntryState) : (State.setHeadState h st s).lastNormal = s.lastNormal := rfl
@[simp] theorem setHeadState_runCount (h : HeadId) (st : EntryState) : (State.setHeadState h st s).runCount = s.runCount := rfl
@[simp] theorem setHeadState_clearAge (h : HeadId) (st : EntryState) : (State.setHeadState h st s).clearAge = s.clearAge := rfl
@[simp] theorem setHeadState_clearRepeated (h : HeadId) (st : EntryState) : (State.setHeadState h st s).clearRepeated = s.clearRepeated := rfl
@[simp] theorem setHeadState_lateCleared (h : HeadId) (st : EntryState) : (State.setHeadState h st s).lateCleared = s.lateCleared := rfl
@[simp] theorem setHeadState_emitted (h : HeadId) (st : EntryState) : (State.setHeadState h st s).emitted = s.emitted := rfl
@[simp] theorem setHeadState_pending (h : HeadId) (st : EntryState) : (State.setHeadState h st s).pending = s.pending := rfl

/-! ## touchPage -/

@[simp] theorem touchPage_resetnLow (e : PageEntry) : (State.touchPage e s).resetnLow = s.resetnLow := rfl
@[simp] theorem touchPage_device (e : PageEntry) : (State.touchPage e s).device = s.device := rfl
@[simp] theorem touchPage_irqStatus (e : PageEntry) : (State.touchPage e s).irqStatus = s.irqStatus := rfl
@[simp] theorem touchPage_irqEnable (e : PageEntry) : (State.touchPage e s).irqEnable = s.irqEnable := rfl
@[simp] theorem touchPage_ports (e : PageEntry) : (State.touchPage e s).ports = s.ports := rfl
@[simp] theorem touchPage_contexts (e : PageEntry) : (State.touchPage e s).contexts = s.contexts := rfl
@[simp] theorem touchPage_dirCache (e : PageEntry) : (State.touchPage e s).dirCache = s.dirCache := rfl
@[simp] theorem touchPage_slots (e : PageEntry) : (State.touchPage e s).slots = s.slots := rfl
@[simp] theorem touchPage_startOrder (e : PageEntry) : (State.touchPage e s).startOrder = s.startOrder := rfl
@[simp] theorem touchPage_slotWait (e : PageEntry) : (State.touchPage e s).slotWait = s.slotWait := rfl
@[simp] theorem touchPage_regions (e : PageEntry) : (State.touchPage e s).regions = s.regions := rfl
@[simp] theorem touchPage_faultLog (e : PageEntry) : (State.touchPage e s).faultLog = s.faultLog := rfl
@[simp] theorem touchPage_nextSeq (e : PageEntry) : (State.touchPage e s).nextSeq = s.nextSeq := rfl
@[simp] theorem touchPage_parked (e : PageEntry) : (State.touchPage e s).parked = s.parked := rfl
@[simp] theorem touchPage_commands (e : PageEntry) : (State.touchPage e s).commands = s.commands := rfl
@[simp] theorem touchPage_operandWord (e : PageEntry) : (State.touchPage e s).operandWord = s.operandWord := rfl
@[simp] theorem touchPage_takenCount (e : PageEntry) : (State.touchPage e s).takenCount = s.takenCount := rfl
@[simp] theorem touchPage_completedCount (e : PageEntry) : (State.touchPage e s).completedCount = s.completedCount := rfl
@[simp] theorem touchPage_lastError (e : PageEntry) : (State.touchPage e s).lastError = s.lastError := rfl
@[simp] theorem touchPage_syncMarker (e : PageEntry) : (State.touchPage e s).syncMarker = s.syncMarker := rfl
@[simp] theorem touchPage_probe (e : PageEntry) : (State.touchPage e s).probe = s.probe := rfl
@[simp] theorem touchPage_memState (e : PageEntry) : (State.touchPage e s).memState = s.memState := rfl
@[simp] theorem touchPage_outstanding (e : PageEntry) : (State.touchPage e s).outstanding = s.outstanding := rfl
@[simp] theorem touchPage_responseLimit (e : PageEntry) : (State.touchPage e s).responseLimit = s.responseLimit := rfl
@[simp] theorem touchPage_timebase (e : PageEntry) : (State.touchPage e s).timebase = s.timebase := rfl
@[simp] theorem touchPage_tickLeft (e : PageEntry) : (State.touchPage e s).tickLeft = s.tickLeft := rfl
@[simp] theorem touchPage_lastUrgent (e : PageEntry) : (State.touchPage e s).lastUrgent = s.lastUrgent := rfl
@[simp] theorem touchPage_lastNormal (e : PageEntry) : (State.touchPage e s).lastNormal = s.lastNormal := rfl
@[simp] theorem touchPage_runCount (e : PageEntry) : (State.touchPage e s).runCount = s.runCount := rfl
@[simp] theorem touchPage_clearAge (e : PageEntry) : (State.touchPage e s).clearAge = s.clearAge := rfl
@[simp] theorem touchPage_clearRepeated (e : PageEntry) : (State.touchPage e s).clearRepeated = s.clearRepeated := rfl
@[simp] theorem touchPage_lateCleared (e : PageEntry) : (State.touchPage e s).lateCleared = s.lateCleared := rfl
@[simp] theorem touchPage_emitted (e : PageEntry) : (State.touchPage e s).emitted = s.emitted := rfl
@[simp] theorem touchPage_pending (e : PageEntry) : (State.touchPage e s).pending = s.pending := rfl

/-! ## touchDir -/

@[simp] theorem touchDir_resetnLow (e : DirEntry) : (State.touchDir e s).resetnLow = s.resetnLow := rfl
@[simp] theorem touchDir_device (e : DirEntry) : (State.touchDir e s).device = s.device := rfl
@[simp] theorem touchDir_irqStatus (e : DirEntry) : (State.touchDir e s).irqStatus = s.irqStatus := rfl
@[simp] theorem touchDir_irqEnable (e : DirEntry) : (State.touchDir e s).irqEnable = s.irqEnable := rfl
@[simp] theorem touchDir_ports (e : DirEntry) : (State.touchDir e s).ports = s.ports := rfl
@[simp] theorem touchDir_contexts (e : DirEntry) : (State.touchDir e s).contexts = s.contexts := rfl
@[simp] theorem touchDir_pageCache (e : DirEntry) : (State.touchDir e s).pageCache = s.pageCache := rfl
@[simp] theorem touchDir_slots (e : DirEntry) : (State.touchDir e s).slots = s.slots := rfl
@[simp] theorem touchDir_startOrder (e : DirEntry) : (State.touchDir e s).startOrder = s.startOrder := rfl
@[simp] theorem touchDir_slotWait (e : DirEntry) : (State.touchDir e s).slotWait = s.slotWait := rfl
@[simp] theorem touchDir_regions (e : DirEntry) : (State.touchDir e s).regions = s.regions := rfl
@[simp] theorem touchDir_faultLog (e : DirEntry) : (State.touchDir e s).faultLog = s.faultLog := rfl
@[simp] theorem touchDir_nextSeq (e : DirEntry) : (State.touchDir e s).nextSeq = s.nextSeq := rfl
@[simp] theorem touchDir_parked (e : DirEntry) : (State.touchDir e s).parked = s.parked := rfl
@[simp] theorem touchDir_commands (e : DirEntry) : (State.touchDir e s).commands = s.commands := rfl
@[simp] theorem touchDir_operandWord (e : DirEntry) : (State.touchDir e s).operandWord = s.operandWord := rfl
@[simp] theorem touchDir_takenCount (e : DirEntry) : (State.touchDir e s).takenCount = s.takenCount := rfl
@[simp] theorem touchDir_completedCount (e : DirEntry) : (State.touchDir e s).completedCount = s.completedCount := rfl
@[simp] theorem touchDir_lastError (e : DirEntry) : (State.touchDir e s).lastError = s.lastError := rfl
@[simp] theorem touchDir_syncMarker (e : DirEntry) : (State.touchDir e s).syncMarker = s.syncMarker := rfl
@[simp] theorem touchDir_probe (e : DirEntry) : (State.touchDir e s).probe = s.probe := rfl
@[simp] theorem touchDir_memState (e : DirEntry) : (State.touchDir e s).memState = s.memState := rfl
@[simp] theorem touchDir_outstanding (e : DirEntry) : (State.touchDir e s).outstanding = s.outstanding := rfl
@[simp] theorem touchDir_responseLimit (e : DirEntry) : (State.touchDir e s).responseLimit = s.responseLimit := rfl
@[simp] theorem touchDir_timebase (e : DirEntry) : (State.touchDir e s).timebase = s.timebase := rfl
@[simp] theorem touchDir_tickLeft (e : DirEntry) : (State.touchDir e s).tickLeft = s.tickLeft := rfl
@[simp] theorem touchDir_lastUrgent (e : DirEntry) : (State.touchDir e s).lastUrgent = s.lastUrgent := rfl
@[simp] theorem touchDir_lastNormal (e : DirEntry) : (State.touchDir e s).lastNormal = s.lastNormal := rfl
@[simp] theorem touchDir_runCount (e : DirEntry) : (State.touchDir e s).runCount = s.runCount := rfl
@[simp] theorem touchDir_clearAge (e : DirEntry) : (State.touchDir e s).clearAge = s.clearAge := rfl
@[simp] theorem touchDir_clearRepeated (e : DirEntry) : (State.touchDir e s).clearRepeated = s.clearRepeated := rfl
@[simp] theorem touchDir_lateCleared (e : DirEntry) : (State.touchDir e s).lateCleared = s.lateCleared := rfl
@[simp] theorem touchDir_emitted (e : DirEntry) : (State.touchDir e s).emitted = s.emitted := rfl
@[simp] theorem touchDir_pending (e : DirEntry) : (State.touchDir e s).pending = s.pending := rfl

/-! ## releaseSlot -/

@[simp] theorem releaseSlot_resetnLow (i : SlotNumber) : (State.releaseSlot i s).resetnLow = s.resetnLow := rfl
@[simp] theorem releaseSlot_device (i : SlotNumber) : (State.releaseSlot i s).device = s.device := rfl
@[simp] theorem releaseSlot_irqStatus (i : SlotNumber) : (State.releaseSlot i s).irqStatus = s.irqStatus := rfl
@[simp] theorem releaseSlot_irqEnable (i : SlotNumber) : (State.releaseSlot i s).irqEnable = s.irqEnable := rfl
@[simp] theorem releaseSlot_ports (i : SlotNumber) : (State.releaseSlot i s).ports = s.ports := rfl
@[simp] theorem releaseSlot_contexts (i : SlotNumber) : (State.releaseSlot i s).contexts = s.contexts := rfl
@[simp] theorem releaseSlot_pageCache (i : SlotNumber) : (State.releaseSlot i s).pageCache = s.pageCache := rfl
@[simp] theorem releaseSlot_dirCache (i : SlotNumber) : (State.releaseSlot i s).dirCache = s.dirCache := rfl
@[simp] theorem releaseSlot_slotWait (i : SlotNumber) : (State.releaseSlot i s).slotWait = s.slotWait := rfl
@[simp] theorem releaseSlot_regions (i : SlotNumber) : (State.releaseSlot i s).regions = s.regions := rfl
@[simp] theorem releaseSlot_faultLog (i : SlotNumber) : (State.releaseSlot i s).faultLog = s.faultLog := rfl
@[simp] theorem releaseSlot_nextSeq (i : SlotNumber) : (State.releaseSlot i s).nextSeq = s.nextSeq := rfl
@[simp] theorem releaseSlot_parked (i : SlotNumber) : (State.releaseSlot i s).parked = s.parked := rfl
@[simp] theorem releaseSlot_commands (i : SlotNumber) : (State.releaseSlot i s).commands = s.commands := rfl
@[simp] theorem releaseSlot_operandWord (i : SlotNumber) : (State.releaseSlot i s).operandWord = s.operandWord := rfl
@[simp] theorem releaseSlot_takenCount (i : SlotNumber) : (State.releaseSlot i s).takenCount = s.takenCount := rfl
@[simp] theorem releaseSlot_completedCount (i : SlotNumber) : (State.releaseSlot i s).completedCount = s.completedCount := rfl
@[simp] theorem releaseSlot_lastError (i : SlotNumber) : (State.releaseSlot i s).lastError = s.lastError := rfl
@[simp] theorem releaseSlot_syncMarker (i : SlotNumber) : (State.releaseSlot i s).syncMarker = s.syncMarker := rfl
@[simp] theorem releaseSlot_probe (i : SlotNumber) : (State.releaseSlot i s).probe = s.probe := rfl
@[simp] theorem releaseSlot_memState (i : SlotNumber) : (State.releaseSlot i s).memState = s.memState := rfl
@[simp] theorem releaseSlot_outstanding (i : SlotNumber) : (State.releaseSlot i s).outstanding = s.outstanding := rfl
@[simp] theorem releaseSlot_responseLimit (i : SlotNumber) : (State.releaseSlot i s).responseLimit = s.responseLimit := rfl
@[simp] theorem releaseSlot_timebase (i : SlotNumber) : (State.releaseSlot i s).timebase = s.timebase := rfl
@[simp] theorem releaseSlot_tickLeft (i : SlotNumber) : (State.releaseSlot i s).tickLeft = s.tickLeft := rfl
@[simp] theorem releaseSlot_lastUrgent (i : SlotNumber) : (State.releaseSlot i s).lastUrgent = s.lastUrgent := rfl
@[simp] theorem releaseSlot_lastNormal (i : SlotNumber) : (State.releaseSlot i s).lastNormal = s.lastNormal := rfl
@[simp] theorem releaseSlot_runCount (i : SlotNumber) : (State.releaseSlot i s).runCount = s.runCount := rfl
@[simp] theorem releaseSlot_clearAge (i : SlotNumber) : (State.releaseSlot i s).clearAge = s.clearAge := rfl
@[simp] theorem releaseSlot_clearRepeated (i : SlotNumber) : (State.releaseSlot i s).clearRepeated = s.clearRepeated := rfl
@[simp] theorem releaseSlot_lateCleared (i : SlotNumber) : (State.releaseSlot i s).lateCleared = s.lateCleared := rfl
@[simp] theorem releaseSlot_emitted (i : SlotNumber) : (State.releaseSlot i s).emitted = s.emitted := rfl
@[simp] theorem releaseSlot_pending (i : SlotNumber) : (State.releaseSlot i s).pending = s.pending := rfl

/-! ## completeCommand -/

@[simp] theorem completeCommand_resetnLow : s.completeCommand.resetnLow = s.resetnLow := rfl
@[simp] theorem completeCommand_device : s.completeCommand.device = s.device := rfl
@[simp] theorem completeCommand_irqStatus : s.completeCommand.irqStatus = s.irqStatus := rfl
@[simp] theorem completeCommand_irqEnable : s.completeCommand.irqEnable = s.irqEnable := rfl
@[simp] theorem completeCommand_ports : s.completeCommand.ports = s.ports := rfl
@[simp] theorem completeCommand_contexts : s.completeCommand.contexts = s.contexts := rfl
@[simp] theorem completeCommand_pageCache : s.completeCommand.pageCache = s.pageCache := rfl
@[simp] theorem completeCommand_dirCache : s.completeCommand.dirCache = s.dirCache := rfl
@[simp] theorem completeCommand_slots : s.completeCommand.slots = s.slots := rfl
@[simp] theorem completeCommand_startOrder : s.completeCommand.startOrder = s.startOrder := rfl
@[simp] theorem completeCommand_slotWait : s.completeCommand.slotWait = s.slotWait := rfl
@[simp] theorem completeCommand_regions : s.completeCommand.regions = s.regions := rfl
@[simp] theorem completeCommand_faultLog : s.completeCommand.faultLog = s.faultLog := rfl
@[simp] theorem completeCommand_nextSeq : s.completeCommand.nextSeq = s.nextSeq := rfl
@[simp] theorem completeCommand_parked : s.completeCommand.parked = s.parked := rfl
@[simp] theorem completeCommand_operandWord : s.completeCommand.operandWord = s.operandWord := rfl
@[simp] theorem completeCommand_takenCount : s.completeCommand.takenCount = s.takenCount := rfl
@[simp] theorem completeCommand_lastError : s.completeCommand.lastError = s.lastError := rfl
@[simp] theorem completeCommand_syncMarker : s.completeCommand.syncMarker = s.syncMarker := rfl
@[simp] theorem completeCommand_probe : s.completeCommand.probe = s.probe := rfl
@[simp] theorem completeCommand_memState : s.completeCommand.memState = s.memState := rfl
@[simp] theorem completeCommand_outstanding : s.completeCommand.outstanding = s.outstanding := rfl
@[simp] theorem completeCommand_responseLimit : s.completeCommand.responseLimit = s.responseLimit := rfl
@[simp] theorem completeCommand_timebase : s.completeCommand.timebase = s.timebase := rfl
@[simp] theorem completeCommand_tickLeft : s.completeCommand.tickLeft = s.tickLeft := rfl
@[simp] theorem completeCommand_lastUrgent : s.completeCommand.lastUrgent = s.lastUrgent := rfl
@[simp] theorem completeCommand_lastNormal : s.completeCommand.lastNormal = s.lastNormal := rfl
@[simp] theorem completeCommand_runCount : s.completeCommand.runCount = s.runCount := rfl
@[simp] theorem completeCommand_clearAge : s.completeCommand.clearAge = s.clearAge := rfl
@[simp] theorem completeCommand_clearRepeated : s.completeCommand.clearRepeated = s.clearRepeated := rfl
@[simp] theorem completeCommand_lateCleared : s.completeCommand.lateCleared = s.lateCleared := rfl
@[simp] theorem completeCommand_emitted : s.completeCommand.emitted = s.emitted := rfl
@[simp] theorem completeCommand_pending : s.completeCommand.pending = s.pending := rfl

end Sys2Proof.Machine.State
end

