-- ==== Sys2Proof/Laws/Ops.lean ====
section
/-! SUPPORT. What the shared accessors read back after each update, and what the list operations of the ports and caches do. -/

namespace Sys2Proof.Machine

/-! ## Per class, port, context, slot and place -/

@[simp] theorem PerClass.get_set_self {α : Type} (x : PerClass α) (c : ReqClass) (v : α) : (x.set c v).get c = v := by
  cases c <;> rfl

theorem PerClass.get_set {α : Type} (x : PerClass α) (c d : ReqClass) (v : α) :
    (x.set c v).get d = if c = d then v else x.get d := by
  cases c <;> cases d <;> rfl

@[simp] theorem PerClass.set_get {α : Type} (x : PerClass α) (c : ReqClass) : x.set c (x.get c) = x := by
  cases c <;> rfl

@[simp] theorem PerClass.set_set {α : Type} (x : PerClass α) (c : ReqClass) (v w : α) :
    (x.set c v).set c w = x.set c w := by
  cases c <;> rfl

theorem State.port_setPort (p q : PortNumber) (v : Port) (s : State) :
    (State.setPort p v s).port q = if p = q then v else s.port q := by
  simp [State.port, State.setPort, Vector.getElem_set, Fin.ext_iff]

@[simp] theorem State.port_setPort_self (p : PortNumber) (v : Port) (s : State) : (State.setPort p v s).port p = v := by
  simp [State.port_setPort]

theorem State.context_setContext (c d : ContextNumber) (v : ContextRecord) (s : State) :
    (State.setContext c v s).context d = if c = d then v else s.context d := by
  simp [State.context, State.setContext, Vector.getElem_set, Fin.ext_iff]

@[simp] theorem State.context_setContext_self (c : ContextNumber) (v : ContextRecord) (s : State) :
    (State.setContext c v s).context c = v := by
  simp [State.context_setContext]

theorem State.slot_setSlot (i j : SlotNumber) (v : Option Walk) (s : State) :
    (State.setSlot i v s).slot j = if i = j then v else s.slot j := by
  simp [State.slot, State.setSlot, Vector.getElem_set, Fin.ext_iff]

@[simp] theorem State.slot_setSlot_self (i : SlotNumber) (v : Option Walk) (s : State) :
    (State.setSlot i v s).slot i = v := by
  simp [State.slot_setSlot]

theorem State.slot_releaseSlot (i j : SlotNumber) (s : State) :
    (State.releaseSlot i s).slot j = if i = j then none else s.slot j :=
  State.slot_setSlot i j none s

theorem State.region_setRegion (i j : Fin 8) (v : RegionEntry) (s : State) :
    (State.setRegion i v s).region j = if i = j then v else s.region j := by
  simp [State.region, State.setRegion, Vector.getElem_set, Fin.ext_iff]

theorem HeadId.ext_iff' (h k : HeadId) : h = k ↔ h.port = k.port ∧ h.cls = k.cls := by
  cases h; cases k; simp

theorem State.parkedPlace_setParked (h k : HeadId) (v : Option ParkedPlace) (s : State) :
    (State.setParked h v s).parkedPlace k = if h = k then v else s.parkedPlace k := by
  simp only [State.parkedPlace, State.setParked, Vector.getElem_set, HeadId.ext_iff', Fin.ext_iff]
  by_cases hp : h.port.val = k.port.val
  · have : h.port = k.port := Fin.ext hp
    simp [hp, PerClass.get_set, this]
  · simp [hp]

/-! ## Accessors that an update does not touch -/

section
variable (s : State)
@[simp] theorem State.port_raise (c : IrqCause) (p : PortNumber) : (State.raise c s).port p = s.port p := rfl
@[simp] theorem State.port_emit (o : Output) (p : PortNumber) : (State.emit o s).port p = s.port p := rfl
@[simp] theorem State.port_beginEvent (p : PortNumber) : s.beginEvent.port p = s.port p := rfl
@[simp] theorem State.port_setContext (c v) (p : PortNumber) : (State.setContext c v s).port p = s.port p := rfl
@[simp] theorem State.port_setSlot (i v) (p : PortNumber) : (State.setSlot i v s).port p = s.port p := rfl
@[simp] theorem State.port_releaseSlot (i) (p : PortNumber) : (State.releaseSlot i s).port p = s.port p := rfl
@[simp] theorem State.port_setParked (h v) (p : PortNumber) : (State.setParked h v s).port p = s.port p := rfl
@[simp] theorem State.port_touchPage (e) (p : PortNumber) : (State.touchPage e s).port p = s.port p := rfl
@[simp] theorem State.port_touchDir (e) (p : PortNumber) : (State.touchDir e s).port p = s.port p := rfl
@[simp] theorem State.port_completeCommand (p : PortNumber) : s.completeCommand.port p = s.port p := rfl
@[simp] theorem State.context_raise (c : IrqCause) (d : ContextNumber) : (State.raise c s).context d = s.context d := rfl
@[simp] theorem State.context_emit (o : Output) (d : ContextNumber) : (State.emit o s).context d = s.context d := rfl
@[simp] theorem State.context_beginEvent (d : ContextNumber) : s.beginEvent.context d = s.context d := rfl
@[simp] theorem State.context_setPort (p v) (d : ContextNumber) : (State.setPort p v s).context d = s.context d := rfl
@[simp] theorem State.context_setSlot (i v) (d : ContextNumber) : (State.setSlot i v s).context d = s.context d := rfl
@[simp] theorem State.context_releaseSlot (i) (d : ContextNumber) : (State.releaseSlot i s).context d = s.context d := rfl
@[simp] theorem State.context_setParked (h v) (d : ContextNumber) : (State.setParked h v s).context d = s.context d := rfl
@[simp] theorem State.context_setHeadState (h st) (d : ContextNumber) : (State.setHeadState h st s).context d = s.context d := rfl
@[simp] theorem State.context_touchPage (e) (d : ContextNumber) : (State.touchPage e s).context d = s.context d := rfl
@[simp] theorem State.context_touchDir (e) (d : ContextNumber) : (State.touchDir e s).context d = s.context d := rfl
@[simp] theorem State.context_completeCommand (d : ContextNumber) : s.completeCommand.context d = s.context d := rfl
@[simp] theorem State.slot_raise (c : IrqCause) (i : SlotNumber) : (State.raise c s).slot i = s.slot i := rfl
@[simp] theorem State.slot_emit (o : Output) (i : SlotNumber) : (State.emit o s).slot i = s.slot i := rfl
@[simp] theorem State.slot_beginEvent (i : SlotNumber) : s.beginEvent.slot i = s.slot i := rfl
@[simp] theorem State.slot_setPort (p v) (i : SlotNumber) : (State.setPort p v s).slot i = s.slot i := rfl
@[simp] theorem State.slot_setContext (c v) (i : SlotNumber) : (State.setContext c v s).slot i = s.slot i := rfl
@[simp] theorem State.slot_setParked (h v) (i : SlotNumber) : (State.setParked h v s).slot i = s.slot i := rfl
@[simp] theorem State.slot_setHeadState (h st) (i : SlotNumber) : (State.setHeadState h st s).slot i = s.slot i := rfl
@[simp] theorem State.slot_touchPage (e) (i : SlotNumber) : (State.touchPage e s).slot i = s.slot i := rfl
@[simp] theorem State.slot_touchDir (e) (i : SlotNumber) : (State.touchDir e s).slot i = s.slot i := rfl
@[simp] theorem State.slot_completeCommand (i : SlotNumber) : s.completeCommand.slot i = s.slot i := rfl
end

/-! ## Request queues -/

theorem State.queue_setQueue (h k : HeadId) (q : List Entry) (s : State) :
    (State.setQueue h q s).queue k = if h = k then q else s.queue k := by
  simp only [State.queue, State.setQueue, State.port_setPort, HeadId.ext_iff']
  by_cases hp : h.port = k.port
  · simp [hp, PerClass.get_set]
  · simp [hp]

theorem State.queue_setHeadState (h k : HeadId) (st : EntryState) (s : State) :
    (State.setHeadState h st s).queue k = if h = k then withHeadState st (s.queue h) else s.queue k :=
  State.queue_setQueue h k _ s

@[simp] theorem withHeadState_length (st : EntryState) (q : List Entry) : (withHeadState st q).length = q.length := by
  cases q <;> rfl

@[simp] theorem withHeadState_isEmpty (st : EntryState) (q : List Entry) : (withHeadState st q).isEmpty = q.isEmpty := by
  cases q <;> rfl

/-- What putting a head in a state does to its port: the queue of that class, and nothing else. -/
theorem State.port_setHeadState (h : HeadId) (st : EntryState) (p : PortNumber) (s : State) :
    (State.setHeadState h st s).port p =
      if h.port = p then
        { s.port p with queues := (s.port p).queues.set h.cls (withHeadState st ((s.port p).queues.get h.cls)) }
      else s.port p := by
  unfold State.setHeadState State.setQueue
  rw [State.port_setPort]
  by_cases hp : h.port = p
  · subst hp; simp [State.queue]
  · simp [hp]

/-! ## Return lists and credit (R55, R60) -/

/-- Splitting a return list moves items, and loses none. -/
theorem splitDone_length (l : List Item) : (splitDone l).1.length + (splitDone l).2.length = l.length := by
  induction l with
  | nil => rfl
  | cons i rest ih =>
    unfold splitDone
    split
    · simp
    · simp; omega

/-- The move into the completion queue leaves the credit in use unchanged (R55). -/
theorem Port.flushReturns_creditInUse (c : ReqClass) (p : Port) : (p.flushReturns c).creditInUse = p.creditInUse := by
  have h := splitDone_length (p.returns.get c)
  cases c <;> simp [Port.flushReturns, Port.creditInUse, PerClass.set, PerClass.get] at h ⊢ <;> omega

@[simp] theorem Port.flushReturns_queues (c : ReqClass) (p : Port) : (p.flushReturns c).queues = p.queues := rfl
@[simp] theorem Port.flushReturns_state (c : ReqClass) (p : Port) : (p.flushReturns c).state = p.state := rfl
@[simp] theorem Port.flushReturns_binding (c : ReqClass) (p : Port) : (p.flushReturns c).binding = p.binding := rfl
@[simp] theorem Port.pushReturn_queues (i : Item) (p : Port) : (p.pushReturn i).queues = p.queues := rfl
@[simp] theorem Port.pushReturn_state (i : Item) (p : Port) : (p.pushReturn i).state = p.state := rfl
@[simp] theorem Port.pushReturn_binding (i : Item) (p : Port) : (p.pushReturn i).binding = p.binding := rfl

/-- An item that enters a return list takes one credit (R55). -/
theorem Port.pushReturn_creditInUse (i : Item) (p : Port) : (p.pushReturn i).creditInUse = p.creditInUse + 1 := by
  unfold Port.pushReturn
  rw [Port.flushReturns_creditInUse]
  cases i.cls <;> simp [Port.creditInUse, PerClass.set, PerClass.get] <;> omega

@[simp] theorem endFirstInFlight_length (st : Status) (d : Option (List Word)) (l : List Item) :
    (endFirstInFlight st d l).length = l.length := by
  induction l with
  | nil => rfl
  | cons i rest ih => unfold endFirstInFlight; split <;> simp [*]

/-- The end of an item changes neither its port's queues nor its credit in use (R55, R59). -/
theorem State.endItem_port (h : HeadId) (st : Status) (d : Option (List Word)) (p : PortNumber) (s : State) :
    ((State.endItem h st d s).port p).creditInUse = (s.port p).creditInUse ∧
      ((State.endItem h st d s).port p).queues = (s.port p).queues ∧
      ((State.endItem h st d s).port p).state = (s.port p).state ∧
      ((State.endItem h st d s).port p).binding = (s.port p).binding := by
  unfold State.endItem
  simp only [State.port_setPort]
  by_cases hp : h.port = p
  · subst hp
    simp only [↓reduceIte, Port.flushReturns_creditInUse, Port.flushReturns_queues, Port.flushReturns_state,
      Port.flushReturns_binding, and_self, and_true]
    cases h.cls <;> simp [Port.creditInUse, PerClass.set, PerClass.get]
  · simp [hp]

/-! ## Caches -/

@[simp] theorem pushFront_length_le {α : Type} (n : Nat) (x : α) (l : List α) (hn : 0 < n) :
    (pushFront n x l).length ≤ n := by
  unfold pushFront
  split
  · simp; omega
  · simp; omega

theorem pushFront_mem {α : Type} (n : Nat) (x y : α) (l : List α) (h : y ∈ pushFront n x l) : y = x ∨ y ∈ l := by
  unfold pushFront at h
  split at h
  · simpa using h
  · rcases List.mem_cons.1 h with h | h
    · exact .inl h
    · exact .inr (List.mem_of_mem_take h)

theorem State.pageLookup_mem {s : State} {c : ContextNumber} {p : PageNumber} {e : PageEntry}
    (h : s.pageLookup c p = some e) : e ∈ s.pageCache ∧ e.context = c ∧ e.page = p := by
  refine ⟨List.mem_of_find?_eq_some h, ?_⟩
  have := List.find?_some h
  simpa [PageEntry.hasKey] using this

theorem State.dirLookup_mem {s : State} {c : ContextNumber} {d : BitVec 10} {e : DirEntry}
    (h : s.dirLookup c d = some e) : e ∈ s.dirCache ∧ e.context = c ∧ e.index = d := by
  refine ⟨List.mem_of_find?_eq_some h, ?_⟩
  have := List.find?_some h
  simpa [DirEntry.hasKey] using this

/-- A hit moves its entry to the front and neither adds nor loses a different one (R70). -/
theorem State.mem_touchPage {s : State} {e x : PageEntry} (he : e ∈ s.pageCache) (hx : x ∈ (s.touchPage e).pageCache) :
    x ∈ s.pageCache := by
  rcases List.mem_cons.1 hx with rfl | hx
  · exact he
  · exact List.mem_of_mem_filter hx

theorem State.mem_touchDir {s : State} {e x : DirEntry} (he : e ∈ s.dirCache) (hx : x ∈ (s.touchDir e).dirCache) :
    x ∈ s.dirCache := by
  rcases List.mem_cons.1 hx with rfl | hx
  · exact he
  · exact List.mem_of_mem_filter hx

/-- A filter that refuses a member is shorter. -/
theorem filter_length_lt {α : Type} (f : α → Bool) (l : List α) (x : α) (hx : x ∈ l) (hf : f x = false) :
    (l.filter f).length < l.length := by
  induction l with
  | nil => simp at hx
  | cons y rest ih =>
    rcases List.mem_cons.1 hx with rfl | hx
    · simp [hf, Nat.lt_succ_of_le (List.length_filter_le f rest)]
    · have := ih hx
      rw [List.filter_cons]
      split
      · simp only [List.length_cons]; omega
      · simp only [List.length_cons]; omega

/-- A hit does not lengthen the page cache (R70). -/
theorem State.touchPage_length_le {s : State} {e x : PageEntry} (he : x ∈ s.pageCache)
    (hc : x.context = e.context) (hp : x.page = e.page) : (s.touchPage e).pageCache.length ≤ s.pageCache.length := by
  have := filter_length_lt (fun y : PageEntry => !y.hasKey e.context e.page) s.pageCache x he
    (by simp [PageEntry.hasKey, hc, hp])
  show (_ :: _ : List PageEntry).length ≤ _
  simp only [List.length_cons]
  omega

/-- A hit does not lengthen the directory cache (R67). -/
theorem State.touchDir_length_le {s : State} {e x : DirEntry} (he : x ∈ s.dirCache)
    (hc : x.context = e.context) (hp : x.index = e.index) : (s.touchDir e).dirCache.length ≤ s.dirCache.length := by
  have := filter_length_lt (fun y : DirEntry => !y.hasKey e.context e.index) s.dirCache x he
    (by simp [DirEntry.hasKey, hc, hp])
  show (_ :: _ : List DirEntry).length ≤ _
  simp only [List.length_cons]
  omega

end Sys2Proof.Machine
end

