-- ==== Sys2Proof/Laws/Closure.lean ====
section
/-! SUPPORT. What translation work can do, said once: a property of the state that the primitive updates of the walker, the cache and the
fault unit keep is kept by presentation, by the slot wait list, by walk completion and failure, and by invalidation. -/

namespace Sys2Proof.Machine

/-- The property is kept by every primitive update that translation work without a fill is made of, under what the walker knows when it
makes it. -/
structure KeptBase (P : State → Prop) : Prop where
  head : ∀ {s : State} (h : HeadId) (st : EntryState), P s → P (s.setHeadState h st)
  fault : ∀ {s : State} (cause : FaultCause) (h : HeadId), P s → P (takeHeadFault cause h s)
  touchPage : ∀ {s : State} {e : PageEntry}, e ∈ s.pageCache → P s → P (s.touchPage e)
  touchDir : ∀ {s : State} {e : DirEntry}, e ∈ s.dirCache → P s → P (s.touchDir e)
  wait : ∀ {s : State} (h : HeadId), s.freeSlot? = none → P s →
    P { s.setHeadState h .waitSlot with slotWait := s.slotWait ++ [h] }
  start : ∀ {s : State} (i : SlotNumber) (w : Walk) (h : HeadId), s.slot i = none →
    s.findWalk w.context w.page = none → (s.context w.context).state = .active → s.memState = .running →
    w.abandoned = false → w.awaiting = true → w.waiters = [h] → P s →
    P { (s.setSlot i (some w)).setHeadState h .walking with startOrder := s.startOrder ++ [i] }
  join : ∀ {s : State} (i : SlotNumber) (w : Walk) (h : HeadId), s.slot i = some w → w.abandoned = false → P s →
    P ((s.setSlot i (some { w with waiters := w.waiters ++ [h] })).setHeadState h .walking)
  popWait : ∀ {s : State} {h : HeadId} {rest : List HeadId}, s.slotWait = h :: rest → P s →
    P { s with slotWait := rest }
  release : ∀ {s : State} (i : SlotNumber), P s → P (s.releaseSlot i)
  removePage : ∀ {s : State} (c : ContextNumber) (p : PageNumber), P s → P (s.removePage c p)
  removeScope : ∀ {s : State} (sc : Scope), P s → P (s.removeScope sc)
  rewalk : ∀ {s : State} {i : SlotNumber} {w : Walk} (w' : Walk), s.slot i = some w → w.abandoned = false →
    w'.context = w.context → w'.page = w.page → w'.kind = w.kind → w'.waiters = w.waiters →
    w'.abandoned = false → P s → P (s.setSlot i (some w'))

/-- The property is kept by the fills of the caches too, which only the response to a walk makes. -/
structure Kept (P : State → Prop) : Prop extends KeptBase P where
  fillPage : ∀ {s : State} {i : SlotNumber} {w : Walk} (f : Bool) (word : Word), s.slot i = some w →
    w.abandoned = false → P s → P (s.fillPage (pageEntryOf w.context w.page f word))
  fillDir : ∀ {s : State} {i : SlotNumber} {w : Walk} (frame : Frame), s.slot i = some w → w.abandoned = false → P s →
    P (s.fillDir { context := w.context, index := directoryIndex w.page, tableFrame := frame })

/-! ## Reading the slots -/

theorem State.freeSlot?_slot {s : State} {i : SlotNumber} (h : s.freeSlot? = some i) : s.slot i = none := by
  simpa using List.find?_some h

theorem mem_allSlots (i : SlotNumber) : i ∈ allSlots := by
  revert i; decide

theorem mem_allPorts (p : PortNumber) : p ∈ allPorts := by
  revert p; decide

theorem mem_allContexts (c : ContextNumber) : c ∈ allContexts := by
  revert c; decide

theorem mem_allHeads (h : HeadId) : h ∈ allHeads := by
  obtain ⟨p, c⟩ := h
  revert p; cases c <;> decide

/-- No slot is FREE exactly when every slot holds a walk. -/
theorem State.freeSlot?_none {s : State} : s.freeSlot? = none ↔ ∀ i, s.slot i ≠ none := by
  unfold State.freeSlot?
  rw [List.find?_eq_none]
  constructor
  · intro h i hi
    exact h i (mem_allSlots i) (by simp [hi])
  · intro h i _ hi
    exact h i (by simpa using hi)

theorem walkOfKey_some {c : ContextNumber} {p : PageNumber} {o : Option Walk} (h : walkOfKey c p o = true) :
    ∃ w, o = some w ∧ w.abandoned = false ∧ w.context = c ∧ w.page = p := by
  cases o with
  | none => simp [walkOfKey] at h
  | some w => exact ⟨w, rfl, by simpa [walkOfKey, and_assoc] using h⟩

/-- What the walk found for a key is (R89). -/
theorem State.findWalk_slot {s : State} {c : ContextNumber} {p : PageNumber} {i : SlotNumber}
    (h : s.findWalk c p = some i) : ∃ w, s.slot i = some w ∧ w.abandoned = false ∧ w.context = c ∧ w.page = p :=
  walkOfKey_some (List.find?_some (p := fun i => walkOfKey c p (s.slot i)) h)

/-- No walk is found for a key exactly when none that is not abandoned has it (R89). -/
theorem State.findWalk_none {s : State} {c : ContextNumber} {p : PageNumber} :
    s.findWalk c p = none ↔ ∀ i w, s.slot i = some w → w.abandoned = false → w.context = c → w.page ≠ p := by
  unfold State.findWalk
  rw [List.find?_eq_none]
  constructor
  · intro h i w hw ha hc hp
    exact h i (mem_allSlots i) (by simp [walkOfKey, hw, ha, hc, hp])
  · intro h i _ hi
    obtain ⟨w, hw, ha, hc, hp⟩ := walkOfKey_some hi
    exact h i w hw ha hc hp

@[simp] theorem State.findWalk_touchPage (s : State) (e : PageEntry) (c : ContextNumber) (p : PageNumber) :
    (s.touchPage e).findWalk c p = s.findWalk c p := rfl
@[simp] theorem State.findWalk_touchDir (s : State) (e : DirEntry) (c : ContextNumber) (p : PageNumber) :
    (s.touchDir e).findWalk c p = s.findWalk c p := rfl

@[simp] theorem State.slot_fillDir (s : State) (e : DirEntry) (i : SlotNumber) : (s.fillDir e).slot i = s.slot i := by
  unfold State.fillDir; split <;> rfl

/-! ## Forming transactions (R92, R93) -/

/-- A formed transaction awaits a grant of a RUNNING port, and changes nothing of the walk but its stage and transaction. -/
theorem formTransaction_ok {s : State} {w w' : Walk} {stage : WalkStage} {op : TxnOp} {a : PhysAddr}
    (h : formTransaction s w stage op a = .ok w') :
    s.memState = .running ∧ admitsTable (s.regionOf a) op = true ∧
      w' = { w with stage := stage, op := op, address := a, awaiting := true } := by
  unfold formTransaction at h
  split at h
  · split at h
    · rename_i h1 h2
      exact ⟨h2, h1, by injection h with h; exact h.symm⟩
    · simp at h
  · simp at h

/-- What forming a transaction keeps of a walk. -/
structure Walk.SameWork (w w' : Walk) : Prop where
  kind : w'.kind = w.kind
  context : w'.context = w.context
  page : w'.page = w.page
  waiters : w'.waiters = w.waiters
  abandoned : w'.abandoned = w.abandoned
  watched : w'.watched = w.watched
  stale : w'.stale = w.stale

theorem formTransaction_same {s : State} {w w' : Walk} {stage : WalkStage} {op : TxnOp} {a : PhysAddr}
    (h : formTransaction s w stage op a = .ok w') :
    s.memState = .running ∧ w'.awaiting = true ∧ w.SameWork w' := by
  obtain ⟨h1, -, rfl⟩ := formTransaction_ok h
  exact ⟨h1, rfl, ⟨rfl, rfl, rfl, rfl, rfl, rfl, rfl⟩⟩

theorem formTableAccess_same {s : State} {w w' : Walk} {f : Frame} (h : formTableAccess s w f = .ok w') :
    s.memState = .running ∧ w'.awaiting = true ∧ w.SameWork w' := by
  unfold formTableAccess at h
  split at h <;>
    (obtain ⟨h1, h2, h3⟩ := formTransaction_same h
     exact ⟨h1, h2, ⟨h3.kind, h3.context, h3.page, h3.waiters, h3.abandoned, h3.watched, h3.stale⟩⟩)

/-- Entering the directory stage touches at most the directory cache's order, and a walk that comes out of it awaits a grant (R93). -/
theorem enterDirectory_spec (w : Walk) (s : State) :
    ((enterDirectory w s).1 = s ∨ ∃ e ∈ s.dirCache, (enterDirectory w s).1 = s.touchDir e) ∧
      ∀ w', (enterDirectory w s).2 = .ok w' → s.memState = .running ∧ w'.awaiting = true ∧ w.SameWork w' := by
  unfold enterDirectory
  split
  · rename_i e he
    exact ⟨.inr ⟨e, (State.dirLookup_mem he).1, rfl⟩, fun w' h => formTableAccess_same h⟩
  · exact ⟨.inl rfl, fun w' h => formTransaction_same h⟩

/-! ## Presentation -/

namespace KeptBase
variable {P : State → Prop} (K : KeptBase P)
include K

theorem enterDirectory {w : Walk} {s : State} (hs : P s) : P (Machine.enterDirectory w s).1 := by
  rcases (enterDirectory_spec w s).1 with h | ⟨e, he, h⟩
  · rw [h]; exact hs
  · rw [h]; exact K.touchDir he hs

theorem startWalk {s : State} (i : SlotNumber) (kind : WalkKind) (c : ContextNumber) (p : PageNumber) (h : HeadId)
    (hi : s.slot i = none) (hf : s.findWalk c p = none) (hc : (s.context c).state = .active) (hs : P s) :
    P (Machine.startWalk i kind c p h s) := by
  have hd := K.enterDirectory (w := newWalk kind c p h) hs
  obtain ⟨h1, h2⟩ := enterDirectory_spec (newWalk kind c p h) s
  unfold Machine.startWalk
  split
  · rename_i s' w heq
    rw [heq] at hd h1 h2
    obtain ⟨hr, ha, hw⟩ := h2 w rfl
    have hcw : w.context = c := hw.context
    have hpw : w.page = p := hw.page
    rcases h1 with h1 | ⟨e, -, h1⟩ <;> (simp only at h1; subst h1)
    · exact K.start i w h hi (by rw [hcw, hpw]; exact hf) (by rw [hcw]; exact hc) hr hw.abandoned ha hw.waiters hd
    · exact K.start i w h hi (by rw [hcw, hpw]; exact hf) (by rw [hcw]; exact hc) hr hw.abandoned ha hw.waiters hd
  · rename_i s' cause heq
    rw [heq] at hd
    exact K.fault cause h hd

theorem joinWalk {s : State} {i : SlotNumber} {w : Walk} (h : HeadId) (hi : s.slot i = some w)
    (ha : w.abandoned = false) (hs : P s) : P (Machine.joinWalk i h s) := by
  unfold Machine.joinWalk
  rw [hi]
  exact K.join i w h hi ha hs

theorem needWalk {s : State} (kind : WalkKind) (c : ContextNumber) (p : PageNumber) (h : HeadId)
    (hc : (s.context c).state = .active) (hs : P s) : P (Machine.needWalk kind c p h s) := by
  unfold Machine.needWalk
  split
  · rename_i i hf
    obtain ⟨w, hw, ha, -, -⟩ := State.findWalk_slot hf
    exact K.joinWalk h hw ha hs
  · rename_i hf
    split
    · rename_i i hi
      exact K.startWalk i kind c p h (State.freeSlot?_slot hi) hf hc hs
    · rename_i hi
      exact K.wait h hi hs

theorem admitHit {s : State} (c : ContextNumber) (r : Request) (e : PageEntry) (h : HeadId)
    (hc : (s.context c).state = .active) (hs : P s) : P (Machine.admitHit c r e h s) := by
  unfold Machine.admitHit
  split
  · exact K.needWalk _ _ _ _ hc hs
  · exact K.head _ _ hs

theorem lookupHead {s : State} (c : ContextNumber) (r : Request) (h : HeadId)
    (hc : (s.context c).state = .active) (hs : P s) : P (Machine.lookupHead c r h s) := by
  unfold Machine.lookupHead
  split
  · exact K.needWalk _ _ _ _ hc hs
  · rename_i e he
    have ht := K.touchPage (State.pageLookup_mem he).1 hs
    split
    · exact K.fault _ _ ht
    · exact K.admitHit _ _ _ _ hc ht

/-- Presentation keeps the property (R48). -/
theorem present {s : State} (h : HeadId) (hs : P s) : P (Machine.present h s) := by
  unfold Machine.present
  split
  · exact hs
  · split
    · exact K.head _ _ hs
    · split
      · exact K.head _ _ hs
      · split
        · exact K.head _ _ hs
        · rename_i hc
          split
          · exact K.fault _ _ hs
          · exact K.lookupHead _ _ _ (by simpa using hc) hs

theorem presentAll (hs : List HeadId) {s : State} (h : P s) : P (Machine.presentAll hs s) := by
  unfold Machine.presentAll
  induction hs generalizing s with
  | nil => exact h
  | cons a rest ih => exact ih (K.present a h)

theorem drainWait (n : Nat) {s : State} (h : P s) : P (Machine.drainWait n s) := by
  induction n generalizing s with
  | zero => exact h
  | succ n ih =>
    unfold Machine.drainWait
    split
    · rename_i hw
      exact ih (K.present _ (K.popWait hw h))
    · exact h

theorem representWaiting {s : State} (h : P s) : P (Machine.representWaiting s) := K.drainWait _ h

theorem presentHead {s : State} (h : HeadId) (hs : P s) : P (Machine.presentHead h s) :=
  K.representWaiting (K.present h hs)

/-! ## Completion and failure -/

theorem deliverFault (cause : FaultCause) (hs : List HeadId) {s : State} (h : P s) :
    P (Machine.deliverFault cause hs s) := by
  unfold Machine.deliverFault
  induction hs generalizing s with
  | nil => exact h
  | cons a rest ih => exact ih (K.fault cause a h)

theorem dropFlagged (w : Walk) (cause : FaultCause) {s : State} (h : P s) : P (Machine.dropFlagged w cause s) := by
  unfold Machine.dropFlagged
  split
  · exact K.removePage _ _ h
  · exact h

/-- Walk failure keeps the property (R100). -/
theorem failWalk (i : SlotNumber) (cause : FaultCause) {s : State} (h : P s) : P (Machine.failWalk i cause s) := by
  unfold Machine.failWalk
  split
  · exact h
  · exact K.representWaiting (K.deliverFault _ _ (K.release _ (K.dropFlagged _ _ h)))

theorem endAbandoned (i : SlotNumber) {s : State} (h : P s) : P (Machine.endAbandoned i s) :=
  K.representWaiting (K.release _ h)

theorem continueWalk {i : SlotNumber} {w : Walk} {r : Except FaultCause Walk} {s : State} (hi : s.slot i = some w)
    (ha : w.abandoned = false)
    (hr : ∀ w', r = .ok w' → w'.context = w.context ∧ w'.page = w.page ∧ w'.kind = w.kind ∧
      w'.waiters = w.waiters ∧ w'.abandoned = false) (h : P s) : P (Machine.continueWalk i r s) := by
  unfold Machine.continueWalk
  split
  · rename_i w'
    obtain ⟨h1, h2, h3, h4, h5⟩ := hr w' rfl
    exact K.rewalk w' hi ha h1 h2 h3 h4 h5 h
  · exact K.failWalk _ _ h

theorem restartWalk {i : SlotNumber} {w : Walk} {s : State} (hi : s.slot i = some w) (ha : w.abandoned = false)
    (h : P s) : P (Machine.restartWalk i w s) := by
  have hd := K.enterDirectory (w := { w with stage := .directory, stale := false, tableFrame := none, entryWord := none }) h
  obtain ⟨h1, h2⟩ :=
    enterDirectory_spec { w with stage := .directory, stale := false, tableFrame := none, entryWord := none } s
  unfold Machine.restartWalk
  split
  rename_i s' r heq
  rw [heq] at hd h1 h2
  refine K.continueWalk (w := w) ?_ ha ?_ hd
  · rcases h1 with h1 | ⟨e, -, h1⟩ <;> (simp only at h1; subst h1; exact hi)
  · intro w' hw'
    obtain ⟨-, -, hw⟩ := h2 w' hw'
    exact ⟨hw.context, hw.page, hw.kind, hw.waiters, hw.abandoned.trans ha⟩

/-- The ending of a walk's transaction by the memory port keeps the property (R105). -/
theorem endWalkTransaction (i : SlotNumber) {s : State} (h : P s) : P (Machine.endWalkTransaction i s) := by
  unfold Machine.endWalkTransaction
  split
  · exact h
  · split
    · exact K.endAbandoned _ h
    · exact K.failWalk _ _ h

theorem failAwaiting {s : State} (h : P s) : P (Machine.failAwaiting s) := by
  unfold Machine.failAwaiting
  generalize s.startOrder = l
  induction l generalizing s with
  | nil => exact h
  | cons a rest ih => exact ih (K.endWalkTransaction a h)

/-! ## Invalidation (R80) -/

/-- Marking a slot whose walk is not abandoned. -/
theorem markStale (i : SlotNumber) {s : State} (hn : ∀ w, s.slot i = some w → w.abandoned = false) (h : P s) :
    P (Machine.markStale i s) := by
  unfold Machine.markStale
  split
  · exact h
  · rename_i w hi
    split
    · exact K.restartWalk hi (hn w hi) h
    · exact K.rewalk _ hi (hn w hi) rfl rfl rfl rfl (hn w hi) h

/-- Two kept properties are kept together. -/
theorem and {Q : State → Prop} (L : KeptBase Q) : KeptBase fun s => P s ∧ Q s where
  head h st hs := ⟨K.head h st hs.1, L.head h st hs.2⟩
  fault c h hs := ⟨K.fault c h hs.1, L.fault c h hs.2⟩
  touchPage he hs := ⟨K.touchPage he hs.1, L.touchPage he hs.2⟩
  touchDir he hs := ⟨K.touchDir he hs.1, L.touchDir he hs.2⟩
  wait h hf hs := ⟨K.wait h hf hs.1, L.wait h hf hs.2⟩
  start i w h h1 h2 h3 h4 h5 h6 h7 hs := ⟨K.start i w h h1 h2 h3 h4 h5 h6 h7 hs.1, L.start i w h h1 h2 h3 h4 h5 h6 h7 hs.2⟩
  join i w h h1 h2 hs := ⟨K.join i w h h1 h2 hs.1, L.join i w h h1 h2 hs.2⟩
  popWait hw hs := ⟨K.popWait hw hs.1, L.popWait hw hs.2⟩
  release i hs := ⟨K.release i hs.1, L.release i hs.2⟩
  removePage c p hs := ⟨K.removePage c p hs.1, L.removePage c p hs.2⟩
  removeScope sc hs := ⟨K.removeScope sc hs.1, L.removeScope sc hs.2⟩
  rewalk w' h1 h2 h3 h4 h5 h6 h7 hs := ⟨K.rewalk w' h1 h2 h3 h4 h5 h6 h7 hs.1, L.rewalk w' h1 h2 h3 h4 h5 h6 h7 hs.2⟩

end KeptBase

/-! ## Responses -/

namespace Kept
variable {P : State → Prop} (K : Kept P)
include K

/-- Walk completion keeps the property (R98). -/
theorem completeWalk {i : SlotNumber} {w : Walk} (word : Word) {s : State} (hi : s.slot i = some w)
    (ha : w.abandoned = false) (h : P s) : P (Machine.completeWalk i w word s) :=
  K.toKeptBase.representWaiting (K.toKeptBase.presentAll _ (K.release _ (K.fillPage _ _ hi ha h)))

theorem takeDirectoryWord {i : SlotNumber} {w : Walk} (word : Word) {s : State} (hi : s.slot i = some w)
    (ha : w.abandoned = false) (h : P s) : P (Machine.takeDirectoryWord i w word s) := by
  unfold Machine.takeDirectoryWord
  split
  · refine K.continueWalk (w := w) ?_ ha ?_ (K.fillDir _ hi ha h)
    · rw [State.slot_fillDir]; exact hi
    · intro w' hw'
      obtain ⟨-, -, hw⟩ := formTableAccess_same hw'
      exact ⟨hw.context, hw.page, hw.kind, hw.waiters, hw.abandoned.trans ha⟩
  · exact K.failWalk _ _ h

theorem takePageWord {i : SlotNumber} {w : Walk} (word : Word) {s : State} (hi : s.slot i = some w)
    (ha : w.abandoned = false) (h : P s) : P (Machine.takePageWord i w word s) := by
  unfold Machine.takePageWord
  split
  · exact K.failWalk _ _ h
  · split
    · refine K.continueWalk (w := w) hi ha ?_ h
      intro w' hw'
      obtain ⟨-, -, hw⟩ := formTransaction_same hw'
      exact ⟨hw.context, hw.page, hw.kind, hw.waiters, hw.abandoned.trans ha⟩
    · exact K.completeWalk _ hi ha h

theorem takeUpdateWord {i : SlotNumber} {w : Walk} (word : Word) {s : State} (hi : s.slot i = some w)
    (ha : w.abandoned = false) (h : P s) : P (Machine.takeUpdateWord i w word s) := by
  unfold Machine.takeUpdateWord
  split
  · exact K.completeWalk _ hi ha h
  · exact K.failWalk _ _ h

/-- Taking the response to a walk keeps the property (R165). -/
theorem takeWalkResponse (i : SlotNumber) (status : ResponseStatus) (data : List Word) {s : State} (h : P s) :
    P (Machine.takeWalkResponse i status data s) := by
  unfold Machine.takeWalkResponse
  split
  · exact h
  · rename_i w hi
    split
    · exact K.endAbandoned _ h
    · rename_i ha
      replace ha : w.abandoned = false := by simpa using ha
      split
      · exact K.restartWalk hi ha h
      · split
        · exact K.failWalk _ _ h
        · exact h
        · split
          · exact K.takeDirectoryWord _ hi ha h
          · exact K.takePageWord _ hi ha h
          · exact K.takeUpdateWord _ hi ha h

end Kept

/-! ## What taking a head fault does to the rest of the state (R129) -/

/-- A head fault reaches its head's queue, its parked place, the log and two causes, and nothing else. -/
theorem takeHeadFault_frame (cause : FaultCause) (h : HeadId) (s : State) :
    ∃ (st : EntryState) (parked : Vector (PerClass (Option ParkedPlace)) 4) (log : List FaultRecord) (n : BitVec 16)
      (irq : BitVec 8),
      takeHeadFault cause h s = s ∨ takeHeadFault cause h s =
        { s.setHeadState h st with parked := parked, faultLog := log, nextSeq := n, irqStatus := irq } := by
  unfold takeHeadFault
  split
  · exact ⟨.parked, s.parked, s.faultLog, s.nextSeq, s.irqStatus, .inl rfl⟩
  · split
    · split
      · exact ⟨_, _, _, _, _, .inr rfl⟩
      · exact ⟨_, _, _, _, _, .inr rfl⟩
    · exact ⟨_, _, _, _, _, .inr rfl⟩

@[simp] theorem State.slot_takeHeadFault (cause : FaultCause) (h : HeadId) (s : State) (i : SlotNumber) :
    (takeHeadFault cause h s).slot i = s.slot i := by
  obtain ⟨st, p, l, n, q, h1 | h1⟩ := takeHeadFault_frame cause h s
  · rw [h1]
  · rw [h1]; rfl

/-- No walk of the listed slots is abandoned: translation work abandons none. -/
theorem kept_notAbandoned (l : List SlotNumber) :
    KeptBase fun s => ∀ i ∈ l, ∀ w, s.slot i = some w → w.abandoned = false where
  head h st hs := hs
  fault c h hs := by simpa using hs
  touchPage _ hs := hs
  touchDir _ hs := hs
  wait h _ hs := hs
  start i w h _ _ _ _ ha _ _ hs := by
    intro j hj v hv
    change (State.setSlot i (some w) _).slot j = _ at hv
    rw [State.slot_setSlot] at hv
    split at hv
    · injection hv with hv; rw [← hv]; exact ha
    · exact hs j hj v hv
  join i w h _ ha hs := by
    intro j hj v hv
    rw [State.slot_setHeadState, State.slot_setSlot] at hv
    split at hv
    · injection hv with hv; rw [← hv]; exact ha
    · exact hs j hj v hv
  popWait _ hs := hs
  release i hs := by
    intro j hj v hv
    rw [State.slot_releaseSlot] at hv
    split at hv
    · simp at hv
    · exact hs j hj v hv
  removePage _ _ hs := hs
  removeScope _ hs := hs
  rewalk w' _ _ _ _ _ _ ha hs := by
    intro j hj v hv
    rw [State.slot_setSlot] at hv
    split at hv
    · injection hv with hv; rw [← hv]; exact ha
    · exact hs j hj v hv

namespace KeptBase
variable {P : State → Prop} (K : KeptBase P)
include K

/-- Step 2 of an invalidation keeps the property (R80, R101). -/
theorem markScope (sc : Scope) {s : State} (h : P s) : P (Machine.markScope sc s) := by
  unfold Machine.markScope
  have key : ∀ (l m : List SlotNumber) (t : State), (∀ i ∈ l, i ∈ m) →
      (P t ∧ ∀ i ∈ m, ∀ w, t.slot i = some w → w.abandoned = false) →
      P (l.foldl (fun t i => Machine.markStale i t) t) := by
    intro l
    induction l with
    | nil => intro m t _ ht; exact ht.1
    | cons a rest ih =>
      intro m t hm ht
      refine ih m _ (fun i hi => hm i (List.mem_cons_of_mem _ hi)) ?_
      exact (K.and (kept_notAbandoned m)).markStale a (ht.2 a (hm a List.mem_cons_self)) ht
  refine key _ _ s (fun _ hi => hi) ⟨h, ?_⟩
  intro i hi w hw
  have hsc := (List.mem_filter.1 hi).2
  rw [hw] at hsc
  simpa using (Bool.and_eq_true _ _ ▸ hsc : (!w.abandoned) = true ∧ _).1

theorem representReady (sc : Scope) {s : State} (h : P s) : P (Machine.representReady sc s) := by
  unfold Machine.representReady
  refine K.representWaiting ?_
  generalize allHeads = l
  induction l generalizing s with
  | nil => exact h
  | cons a rest ih =>
    refine ih ?_
    dsimp only
    split
    · exact K.present a h
    · exact h

/-- An invalidation keeps the property (R80). -/
theorem invalidate (sc : Scope) {s : State} (h : P s) : P (Machine.invalidate sc s) :=
  K.representReady sc (K.markScope sc (K.removeScope sc h))

end KeptBase

end Sys2Proof.Machine
end

