-- ==== Sys2Proof/Laws/Frame.lean ====
section
/-! SUPPORT. What translation work leaves alone, as one equality of `State.outside`, and its instances field by field. -/

namespace Sys2Proof.Machine

theorem withHeadState_outside (st : EntryState) (q : List Entry) :
    (withHeadState st q).map Entry.outside = q.map Entry.outside := by
  cases q <;> rfl

theorem State.ports_setHeadState_outside (h : HeadId) (st : EntryState) (s : State) :
    (s.setHeadState h st).ports.map Port.outside = s.ports.map Port.outside := by
  apply Vector.ext
  intro i hi
  have := State.port_setHeadState h st ⟨i, hi⟩ s
  simp only [State.port] at this
  rw [Vector.getElem_map, Vector.getElem_map, this]
  split
  · obtain ⟨hp, hc⟩ := h
    cases hc <;> simp [Port.outside, PerClass.set, PerClass.get, withHeadState_outside]
  · rfl

@[simp] theorem State.outside_setHeadState (h : HeadId) (st : EntryState) (s : State) :
    (s.setHeadState h st).outside = s.outside := by
  have := State.ports_setHeadState_outside h st s
  unfold State.outside
  rw [this]
  rfl

theorem raise_faultLogged_outside (s : State) : (State.raise .faultLogged s).outside = s.outside := by
  have : (s.irqStatus ||| IrqCause.mask .faultLogged) &&& 0xFC#8 = s.irqStatus &&& 0xFC#8 := by
    simp only [IrqCause.mask, IrqCause.bit]; generalize s.irqStatus = x; revert x; decide
  unfold State.outside State.raise
  rw [this]

theorem raise_logOverflow_outside (s : State) : (State.raise .logOverflow s).outside = s.outside := by
  have : (s.irqStatus ||| IrqCause.mask .logOverflow) &&& 0xFC#8 = s.irqStatus &&& 0xFC#8 := by
    simp only [IrqCause.mask, IrqCause.bit]; generalize s.irqStatus = x; revert x; decide
  unfold State.outside State.raise
  rw [this]

/-- Writing a fault record stays inside (R124). -/
@[simp] theorem State.outside_appendRecord (v : RequestValues) (cause : FaultCause) (o : RecordOutcome) (s : State) :
    (s.appendRecord v cause o).outside = s.outside := by
  unfold State.appendRecord
  rw [raise_faultLogged_outside]
  rfl

/-- Taking a head fault stays inside (R129). -/
@[simp] theorem outside_takeHeadFault (cause : FaultCause) (h : HeadId) (s : State) :
    (takeHeadFault cause h s).outside = s.outside := by
  unfold takeHeadFault
  split
  · rfl
  · split
    · split
      · rw [State.outside_appendRecord]
        exact State.outside_setHeadState h .parked s
      · rw [State.outside_appendRecord]
        exact State.outside_setHeadState h _ s
    · rw [raise_logOverflow_outside]
      exact State.outside_setHeadState h _ s

/-- Taking a DATA_ERROR stays inside (R132). -/
@[simp] theorem outside_takeDataError (v : RequestValues) (s : State) : (takeDataError v s).outside = s.outside := by
  unfold takeDataError
  split
  · exact State.outside_appendRecord v _ _ s
  · exact raise_logOverflow_outside s

/-- Translation work stays inside. -/
theorem kept_outside (t : State) : Kept fun s => s.outside = t.outside where
  head h st hs := by simpa using hs
  fault c h hs := by simpa using hs
  touchPage _ hs := hs
  touchDir _ hs := hs
  wait {s} h _ hs := by
    rw [← hs]; exact State.outside_setHeadState h .waitSlot s
  start {s} i w h _ _ _ _ _ _ _ hs := by
    rw [← hs]; exact State.outside_setHeadState h .walking (s.setSlot i (some w))
  join i w h _ _ hs := by
    rw [← hs]; exact State.outside_setHeadState h .walking _
  popWait _ hs := hs
  release _ hs := hs
  removePage _ _ hs := hs
  removeScope _ hs := hs
  fillPage f word _ _ hs := by
    rw [← hs]; unfold State.fillPage; split <;> rfl
  fillDir frame _ _ hs := by
    rw [← hs]; unfold State.fillDir; split <;> rfl
  rewalk w' _ _ _ _ _ _ _ hs := hs

/-- A property that reads nothing translation work may change is kept by it. -/
theorem kept_of_outside {P : State → Prop} (hP : ∀ {s t : State}, t.outside = s.outside → P s → P t) : Kept P where
  head {s} h st hs := hP ((kept_outside s).head h st rfl) hs
  fault {s} c h hs := hP ((kept_outside s).fault c h rfl) hs
  touchPage {s _} he hs := hP ((kept_outside s).touchPage he rfl) hs
  touchDir {s _} he hs := hP ((kept_outside s).touchDir he rfl) hs
  wait {s} h hf hs := hP ((kept_outside s).wait h hf rfl) hs
  start {s} i w h h1 h2 h3 h4 h5 h6 h7 hs := hP ((kept_outside s).start i w h h1 h2 h3 h4 h5 h6 h7 rfl) hs
  join {s} i w h h1 h2 hs := hP ((kept_outside s).join i w h h1 h2 rfl) hs
  popWait {s _ _} hw hs := hP ((kept_outside s).popWait hw rfl) hs
  release {s} i hs := hP ((kept_outside s).release i rfl) hs
  removePage {s} c p hs := hP ((kept_outside s).removePage c p rfl) hs
  removeScope {s} sc hs := hP ((kept_outside s).removeScope sc rfl) hs
  fillPage {s _ _} f word h1 h2 hs := hP ((kept_outside s).fillPage f word h1 h2 rfl) hs
  fillDir {s _ _} f h1 h2 hs := hP ((kept_outside s).fillDir f h1 h2 rfl) hs
  rewalk {s _ _} w' h1 h2 h3 h4 h5 h6 h7 hs := hP ((kept_outside s).rewalk w' h1 h2 h3 h4 h5 h6 h7 rfl) hs

/-- Presentation leaves everything outside the translation path alone (R49). -/
theorem present_outside (h : HeadId) (s : State) : (present h s).outside = s.outside := (kept_outside s).present h rfl

theorem representWaiting_outside (s : State) : (representWaiting s).outside = s.outside :=
  (kept_outside s).representWaiting rfl

theorem presentHead_outside (h : HeadId) (s : State) : (presentHead h s).outside = s.outside :=
  (kept_outside s).presentHead h rfl

theorem failWalk_outside (i : SlotNumber) (c : FaultCause) (s : State) : (failWalk i c s).outside = s.outside :=
  (kept_outside s).failWalk i c rfl

theorem takeWalkResponse_outside (i : SlotNumber) (st : ResponseStatus) (d : List Word) (s : State) :
    (takeWalkResponse i st d s).outside = s.outside :=
  (kept_outside s).takeWalkResponse i st d rfl

theorem endWalkTransaction_outside (i : SlotNumber) (s : State) : (endWalkTransaction i s).outside = s.outside :=
  (kept_outside s).endWalkTransaction i rfl

theorem failAwaiting_outside (s : State) : (failAwaiting s).outside = s.outside := (kept_outside s).failAwaiting rfl

/-- An invalidation leaves everything outside the translation path alone (R80). -/
theorem invalidate_outside (sc : Scope) (s : State) : (invalidate sc s).outside = s.outside :=
  (kept_outside s).invalidate sc rfl

/-! ## What an equality of `outside` says, field by field -/

section
variable {s t : State} (h : t.outside = s.outside)
include h
theorem State.outside_resetnLow : t.resetnLow = s.resetnLow := by
  have h1 := congrArg State.resetnLow h
  exact h1
theorem State.outside_device : t.device = s.device := by
  have h1 := congrArg State.device h
  exact h1
theorem State.outside_irqEnable : t.irqEnable = s.irqEnable := by
  have h1 := congrArg State.irqEnable h
  exact h1
theorem State.outside_contexts : t.contexts = s.contexts := by
  have h1 := congrArg State.contexts h
  exact h1
theorem State.outside_regions : t.regions = s.regions := by
  have h1 := congrArg State.regions h
  exact h1
theorem State.outside_commands : t.commands = s.commands := by
  have h1 := congrArg State.commands h
  exact h1
theorem State.outside_operandWord : t.operandWord = s.operandWord := by
  have h1 := congrArg State.operandWord h
  exact h1
theorem State.outside_takenCount : t.takenCount = s.takenCount := by
  have h1 := congrArg State.takenCount h
  exact h1
theorem State.outside_completedCount : t.completedCount = s.completedCount := by
  have h1 := congrArg State.completedCount h
  exact h1
theorem State.outside_lastError : t.lastError = s.lastError := by
  have h1 := congrArg State.lastError h
  exact h1
theorem State.outside_syncMarker : t.syncMarker = s.syncMarker := by
  have h1 := congrArg State.syncMarker h
  exact h1
theorem State.outside_probe : t.probe = s.probe := by
  have h1 := congrArg State.probe h
  exact h1
theorem State.outside_memState : t.memState = s.memState := by
  have h1 := congrArg State.memState h
  exact h1
theorem State.outside_outstanding : t.outstanding = s.outstanding := by
  have h1 := congrArg State.outstanding h
  exact h1
theorem State.outside_responseLimit : t.responseLimit = s.responseLimit := by
  have h1 := congrArg State.responseLimit h
  exact h1
theorem State.outside_timebase : t.timebase = s.timebase := by
  have h1 := congrArg State.timebase h
  exact h1
theorem State.outside_tickLeft : t.tickLeft = s.tickLeft := by
  have h1 := congrArg State.tickLeft h
  exact h1
theorem State.outside_lastUrgent : t.lastUrgent = s.lastUrgent := by
  have h1 := congrArg State.lastUrgent h
  exact h1
theorem State.outside_lastNormal : t.lastNormal = s.lastNormal := by
  have h1 := congrArg State.lastNormal h
  exact h1
theorem State.outside_runCount : t.runCount = s.runCount := by
  have h1 := congrArg State.runCount h
  exact h1
theorem State.outside_clearAge : t.clearAge = s.clearAge := by
  have h1 := congrArg State.clearAge h
  exact h1
theorem State.outside_clearRepeated : t.clearRepeated = s.clearRepeated := by
  have h1 := congrArg State.clearRepeated h
  exact h1
theorem State.outside_lateCleared : t.lateCleared = s.lateCleared := by
  have h1 := congrArg State.lateCleared h
  exact h1
theorem State.outside_emitted : t.emitted = s.emitted := by
  have h1 := congrArg State.emitted h
  exact h1
theorem State.outside_pending : t.pending = s.pending := by
  have h1 := congrArg State.pending h
  exact h1
theorem State.outside_context (c : ContextNumber) : t.context c = s.context c := by
  simp only [State.context, State.outside_contexts h]
theorem State.outside_port (p : PortNumber) : (t.port p).outside = (s.port p).outside := by
  have h1 : (State.outside t).port p = (State.outside s).port p := by rw [h]
  simpa [State.outside, State.port] using h1
theorem State.outside_portState (p : PortNumber) : (t.port p).state = (s.port p).state := by
  have h1 := congrArg Port.state (State.outside_port h p)
  exact h1
theorem State.outside_binding (p : PortNumber) : (t.port p).binding = (s.port p).binding := by
  have h1 := congrArg Port.binding (State.outside_port h p)
  exact h1
theorem State.outside_returns (p : PortNumber) : (t.port p).returns = (s.port p).returns := by
  have h1 := congrArg Port.returns (State.outside_port h p)
  exact h1
theorem State.outside_completions (p : PortNumber) : (t.port p).completions = (s.port p).completions := by
  have h1 := congrArg Port.completions (State.outside_port h p)
  exact h1
theorem State.outside_queue (k : HeadId) : (t.queue k).map Entry.outside = (s.queue k).map Entry.outside := by
  have h1 := State.outside_port h k.port
  obtain ⟨p, c⟩ := k
  cases c
  · exact congrArg (fun x : Port => x.queues.normal) h1
  · exact congrArg (fun x : Port => x.queues.urgent) h1
theorem State.outside_queue_length (k : HeadId) : (t.queue k).length = (s.queue k).length := by
  simpa using congrArg List.length (State.outside_queue h k)
theorem State.outside_creditInUse (p : PortNumber) : (t.port p).creditInUse = (s.port p).creditInUse := by
  simp only [Port.creditInUse, State.outside_returns h, State.outside_completions h]
end

end Sys2Proof.Machine
end

