-- ==== Sys2Proof/Laws/Events.lean ====
section
/-! SUPPORT. What a step can do, said once: a property that translation work keeps (`Kept`) and that the primitive updates of the ports, the
command unit, the memory port, the window and the resets keep is kept by every step. -/

namespace Sys2Proof.Machine

/-- The property is kept by every primitive update that an event is made of, under what the part knows when it makes it. -/
structure KeptByEvents (P : State → Prop) : Prop extends Kept P where
  beginEvent : ∀ {s : State}, P s → P s.beginEvent
  dequeue : ∀ {s : State} (rest : List Instr), P s → P { s with pending := rest }
  emit : ∀ {s : State} (o : Output), P s → P (s.emit o)
  raise : ∀ {s : State} (c : IrqCause), P s → P (s.raise c)
  -- resets
  powerOn : ∀ {s : State}, P s → P (powerOnReset s)
  releasePin : ∀ {s : State}, P s → P (releaseResetn s)
  reset : ∀ {s : State}, s.ready = true → P s → P (startDeviceReset s)
  -- client ports
  enqueue : ∀ {s : State} (h : HeadId) (r : Request), s.ready = true → (s.port h.port).state = .open_ →
    (s.queue h).length < Config.requestQueueDepth → P s → P (s.setQueue h (s.queue h ++ [newEntry r]))
  deliver : ∀ {s : State} (p : PortNumber) (r : Completion) (rest : List Completion),
    (s.port p).completions = r :: rest → s.ready = true → P s →
    P (s.setPort p (Port.closeIfEmpty { s.port p with completions := rest }))
  transfer : ∀ {s : State} (h : HeadId) (e : Entry) (st : LocalStatus), s.head? h = some e → e.state = .finishing st →
    s.transferAllowed h = true → P s → P (moveHead h (.done st.status none) e s)
  openPort : ∀ {s : State} (p : PortNumber), s.ready = true → (s.port p).state = .closed → P s →
    P (s.setPort p { s.port p with state := .open_ })
  closePort : ∀ {s : State} (p : PortNumber), s.ready = true → (s.port p).state = .open_ → P s →
    P (s.setPort p (Port.closeIfEmpty { s.port p with state := .closing }))
  bindPort : ∀ {s : State} (p : PortNumber) (c : ContextNumber), s.ready = true → (s.port p).state = .closed → P s →
    P (s.setPort p { s.port p with binding := c })
  -- window
  writeContext : ∀ {s : State} (c : ContextNumber) (v : ContextRecord), s.ready = true → (s.context c).state = .off →
    v.state = .off → P s → P (s.setContext c v)
  writeRegion : ∀ {s : State} (i : Fin 8) (v : RegionEntry), s.ready = true → s.allOff = true →
    v.endUnit.toNat ≤ Config.regionEndMax → P s → P (s.setRegion i v)
  clearCauses : ∀ {s : State} (b : BitVec 8), P s → P (s.clearCauses b)
  irqEnable : ∀ {s : State} (b : BitVec 8), P s → P { s with irqEnable := b }
  timebase : ∀ {s : State} (b : BitVec 8), b ≠ 0#8 → P s → P { s with timebase := b }
  responseLimit : ∀ {s : State} (b : BitVec 16), P s → P { s with responseLimit := b }
  operandWord : ∀ {s : State} (w : Word), s.ready = true → P s → P { s with operandWord := w }
  pop : ∀ {s : State} (r : FaultRecord) (rest : List FaultRecord), s.faultLog = r :: rest → P s →
    P { s with faultLog := rest }
  -- command unit
  submit : ∀ {s : State} (code : BitVec 8), s.ready = true → s.commands.length < Config.commandQueueDepth → P s →
    P { s with
      commands := s.commands ++ [{ number := s.takenCount, code := code, operand := s.operandWord, taken := false }]
      takenCount := s.takenCount + 1#16 }
  take : ∀ {s : State} (c : Command) (rest : List Command), s.commands = c :: rest → c.taken = false → P s →
    P { s with commands := { c with taken := true } :: rest }
  complete : ∀ {s : State} (c : Command) (rest : List Command), s.commands = c :: rest → c.taken = true → P s →
    P s.completeCommand
  recordError : ∀ {s : State} (e : LastError), P s → P { s with lastError := e }
  probe : ∀ {s : State} (r : ProbeResult), P s → P { s with probe := r }
  syncMarker : ∀ {s : State} (m : BitVec 16), P s → P { s with syncMarker := m }
  watch : ∀ {s : State}, P s → P (formWatchSet s)
  enable : ∀ {s : State} (c : ContextNumber), s.commands ≠ [] → (s.context c).state = .off →
    limitLegal (s.context c).limit = true → P s → P (enableContext c s)
  disable : ∀ {s : State} (c : ContextNumber), (s.context c).state = .active → P s →
    P (disableQueues c (abandonWalks c
      ((s.setContext c { s.context c with state := .draining }).removeScope (.context c))))
  drained : ∀ {s : State} (c : ContextNumber), (s.context c).state = .draining → s.drained c = true → P s →
    P (s.setContext c { s.context c with state := .off })
  unpark : ∀ {s : State} (h : HeadId), s.headParked h = true → P s → P (s.setParked h none)
  -- memory port
  grantWalk : ∀ {s : State} (i : SlotNumber) (w : Walk), s.memState = .running →
    s.outstanding.length < Config.outstandingDepth → s.slot i = some w → w.awaiting = true → P s →
    P ((s.setSlot i (some { w with awaiting := false })).issue w.op w.address (.walk i))
  grantHead : ∀ {s : State} (h : HeadId) (e : Entry) (a : PhysAddr), s.memState = .running →
    s.outstanding.length < Config.outstandingDepth → s.winner = some (.head h) → s.head? h = some e →
    e.state = .ready a → P s →
    P ((moveHead h (.inFlight false) e (rememberGrant h s)).issue (clientOp e.request) a
      (.client (s.requestValues h e.request)))
  answeredItem : ∀ {s : State} (t : Transaction) (rest : List Transaction) (v : RequestValues) (st : Status)
    (d : Option (List Word)), s.outstanding = t :: rest → t.origin = .client v → s.memState = .running → P s →
    P (State.endItem ⟨v.port, v.cls⟩ st d { s with outstanding := rest, lateCleared := false })
  answeredWalk : ∀ {s : State} (t : Transaction) (rest : List Transaction) (i : SlotNumber),
    s.outstanding = t :: rest → t.origin = .walk i → s.memState = .running → P s →
    P { s with outstanding := rest, lateCleared := false }
  endedItem : ∀ {s : State} (t : Transaction) (rest : List Transaction) (v : RequestValues),
    s.outstanding = t :: rest → t.origin = .client v → P s →
    P (State.endItem ⟨v.port, v.cls⟩ .memoryError none { s with outstanding := rest })
  endedWalk : ∀ {s : State} (t : Transaction) (rest : List Transaction) (i : SlotNumber), s.outstanding = t :: rest →
    t.origin = .walk i → P s → P { s with outstanding := rest }
  dataError : ∀ {s : State} (v : RequestValues), s.memState ≠ .clearing → P s → P (takeDataError v s)
  fail : ∀ {s : State}, s.memState = .running → P s → P { s with memState := .failed, lateCleared := false }
  forgetLate : ∀ {s : State}, P s → P { s with lateCleared := false }
  resendClear : ∀ {s : State}, s.memState = .clearing → P s → P { s with clearAge := 0, clearRepeated := true }
  startClear : ∀ {s : State}, s.memState = .failed → P s →
    P { s with memState := .clearing, clearAge := 0, clearRepeated := false }
  run : ∀ {s : State}, s.memState = .clearing → s.device = .ready → P s → P (enterRunning s)
  runReset : ∀ {s : State}, s.resetnLow = false → s.memState = .clearing → s.device = .resetting → P s →
    P { enterRunning s with device := .ready }
  ages : ∀ {s : State}, P s → P (advanceAges s)
  tickLeft : ∀ {s : State} (n : Nat), P s → P { s with tickLeft := n }

/-- A waiting command is a taken head. -/
theorem State.waitingOp_some {s : State} {op : CommandOp} (h : s.waitingOp = some op) :
    ∃ c rest, s.commands = c :: rest ∧ c.taken = true ∧ decodeCommand c.code c.operand = .ok op := by
  unfold State.waitingOp at h
  split at h
  · rename_i c rest hc
    split at h
    · rename_i ht
      split at h
      · rename_i o ho
        exact ⟨c, rest, hc, ht, by rw [ho]; injection h with h; rw [h]⟩
      · simp at h
    · simp at h
  · simp at h

/-- The end of a transaction leaves the outstanding list, the port's state and the commands alone. -/
theorem endTransaction_frame (t : Transaction) (s : State) :
    (endTransaction t s).outstanding = s.outstanding ∧ (endTransaction t s).memState = s.memState ∧
      (endTransaction t s).commands = s.commands := by
  unfold endTransaction
  split
  · have h := outside_takeDataError
    refine ⟨?_, ?_, ?_⟩
    · rw [State.outside_outstanding (h _ _)]; rfl
    · rw [State.outside_memState (h _ _)]; rfl
    · rw [State.outside_commands (h _ _)]; rfl
  · have h := endWalkTransaction_outside
    exact ⟨State.outside_outstanding (h _ _), State.outside_memState (h _ _), State.outside_commands (h _ _)⟩

namespace KeptByEvents
variable {P : State → Prop} (K : KeptByEvents P)
include K

/-! ## Command unit -/

theorem submitWrite (code : BitVec 8) {s : State} (h : P s) : P (Machine.submit code s) := by
  unfold Machine.submit
  split
  · rename_i hr
    split
    · rename_i hl
      exact K.submit code hr hl h
    · exact K.raise _ h
  · exact h

theorem writeOperand (w : Word) {s : State} (h : P s) : P (Machine.writeOperand w s) := by
  unfold Machine.writeOperand
  split
  · rename_i hr
    exact K.operandWord w hr h
  · exact h

theorem commandError (code : ErrorCode) (n : BitVec 16) {c : Command} {rest : List Command} {s : State}
    (hc : s.commands = c :: rest) (ht : c.taken = true) (h : P s) : P (s.recordError code n).completeCommand :=
  K.complete c rest hc ht (K.raise _ (K.recordError _ h))

theorem settleSync {s : State} (h : P s) : P (Machine.settleSync s) := by
  unfold Machine.settleSync
  split
  · rename_i m hw
    obtain ⟨c, rest, hc, ht, -⟩ := State.waitingOp_some hw
    split
    · exact K.complete c rest hc ht (K.raise _ (K.syncMarker m h))
    · exact h
  · exact h

theorem settleContext (c : ContextNumber) {s : State} (h : P s) : P (Machine.settleContext c s) := by
  unfold Machine.settleContext
  split
  · rename_i hd
    have hoff := K.drained c hd.1 hd.2 h
    dsimp only
    split
    · rename_i hw
      obtain ⟨k, rest, hc, ht, -⟩ := State.waitingOp_some hw
      exact K.complete k rest hc ht hoff
    · exact hoff
  · exact h

theorem settle {s : State} (h : P s) : P (Machine.settle s) := by
  unfold Machine.settle
  refine K.settleSync ?_
  generalize allContexts = l
  induction l generalizing s with
  | nil => exact h
  | cons a rest ih => exact ih (K.settleContext a h)

/-! ## Memory port -/

theorem grant {s : State} (h : P s) : P (Machine.grant s) := by
  unfold Machine.grant
  split
  · rename_i hc
    split
    · rename_i i hw
      unfold Machine.grantWalk
      split
      · exact h
      · rename_i w hi
        refine K.grantWalk i w hc.1 hc.2 hi ?_ h
        unfold State.winner at hw
        split at hw
        · rename_i j hj
          have := List.find?_some hj
          simp only [Option.some.injEq, Winner.walk.injEq] at hw
          subst hw
          rw [hi] at this
          simpa [walkAwaits] using this
        · repeat' split at hw
          all_goals simp at hw
    · rename_i k hw
      refine K.settle ?_
      unfold Machine.grantHead
      split
      · rename_i e he
        split
        · rename_i a ha
          exact K.toKept.presentHead _ (K.grantHead k e a hc.1 hc.2 hw he ha h)
        · exact h
      · exact h
    · exact h
  · exact h

/-- The oldest transaction of the list leaves it and is ended. -/
theorem endTransaction (t : Transaction) (rest : List Transaction) {s : State} (hl : s.outstanding = t :: rest)
    (hm : s.memState ≠ .clearing) (h : P s) : P (Machine.endTransaction t { s with outstanding := rest }) := by
  unfold Machine.endTransaction
  split
  · rename_i v hv
    exact K.dataError v hm (K.endedItem t rest v hl hv h)
  · rename_i i hi
    exact K.toKept.endWalkTransaction i (K.endedWalk t rest i hl hi h)

theorem endOutstanding (l : List Transaction) {s : State} (hl : s.outstanding = l) (hm : s.memState ≠ .clearing)
    (h : P s) : P (Machine.endOutstanding l s) := by
  induction l generalizing s with
  | nil => exact h
  | cons t rest ih =>
    unfold Machine.endOutstanding
    refine ih ?_ ?_ (K.endTransaction t rest hl hm h)
    · rw [(endTransaction_frame _ _).1]
    · rw [(endTransaction_frame _ _).2.1]; exact hm

theorem enterFailed {s : State} (hr : s.memState = .running) (h : P s) : P (Machine.enterFailed s) := by
  unfold Machine.enterFailed
  exact K.toKept.failAwaiting (K.endOutstanding _ rfl (by simp [State.raise]) (K.raise _ (K.fail hr h)))

theorem response (status : ResponseStatus) (data : List Word) {s : State} (h : P s) :
    P (Machine.response status data s) := by
  unfold Machine.response
  split
  · rename_i hr
    refine K.settle ?_
    unfold Machine.responseRunning
    split
    · exact K.enterFailed hr.2 h
    · rename_i t rest ho
      split
      · unfold Machine.takeResponse
        split
        · rename_i v hv
          split
          · exact K.answeredItem t rest v _ _ ho hv hr.2 h
          · exact K.dataError v (by show s.memState ≠ _; rw [hr.2]; decide) (K.answeredItem t rest v _ _ ho hv hr.2 h)
        · rename_i i hi
          exact K.toKept.takeWalkResponse _ _ _ (K.answeredWalk t rest i ho hi hr.2 h)
      · exact K.enterFailed hr.2 h
  · exact h

theorem resendClearWrite {s : State} (hm : s.memState = .clearing) (h : P s) : P (Machine.resendClear s) :=
  K.emit _ (K.raise _ (K.resendClear hm h))

theorem compareLimit {s : State} (h : P s) : P (Machine.compareLimit s) := by
  unfold Machine.compareLimit
  split
  · rename_i hm
    split
    · exact h
    · split
      · exact K.settle (K.enterFailed hm h)
      · exact h
  · rename_i hm
    split
    · exact K.resendClearWrite hm h
    · exact h
  · exact h

theorem hostClock {s : State} (h : P s) : P (Machine.hostClock s) := by
  unfold Machine.hostClock
  split
  · exact h
  · split
    · exact K.compareLimit (K.ages (K.tickLeft _ h))
    · exact K.tickLeft _ h

theorem expire {s : State} (h : P s) : P (Machine.expire s) := by
  unfold Machine.expire
  split
  · rename_i hm
    exact K.settle (K.enterFailed hm.2.1 (K.tickLeft _ h))
  · exact h

theorem expireClear {s : State} (h : P s) : P (Machine.expireClear s) := by
  unfold Machine.expireClear
  split
  · rename_i hm
    exact K.resendClearWrite hm.2.1 (K.tickLeft _ h)
  · exact h

theorem writeTimebase (v : Word) {s : State} (h : P s) : P (Machine.writeTimebase v s) := by
  unfold Machine.writeTimebase
  split
  · split
    · exact K.raise _ h
    · rename_i hv
      exact K.timebase _ hv h
  · exact h

theorem writeResponseLimit (v : Word) {s : State} (h : P s) : P (Machine.writeResponseLimit v s) := by
  unfold Machine.writeResponseLimit
  split
  · exact K.compareLimit (K.responseLimit _ h)
  · exact h

theorem cleared {s : State} (h : P s) : P (Machine.cleared s) := by
  unfold Machine.cleared
  split
  · exact h
  · rename_i hp
    split
    · rename_i hm
      unfold Machine.clearedClearing
      split
      · rename_i hd
        exact K.runReset (by simpa using hp) hm hd h
      · rename_i hd
        have hr := K.run hm hd h
        split
        · rename_i hw
          obtain ⟨c, rest, hc, ht, -⟩ := State.waitingOp_some hw
          exact K.complete c rest hc ht hr
        · exact hr
    · rename_i hm
      split
      · exact K.forgetLate h
      · exact K.settle (K.enterFailed hm h)
    · exact K.raise _ h

/-! ## Commands -/

theorem applyCommand (op : CommandOp) {c : Command} {rest : List Command} {s : State}
    (hc : s.commands = c :: rest) (ht : c.taken = true) (hs : stateError s op = none) (h : P s) :
    P (Machine.applyCommand op s) := by
  cases op with
  | invalidate sc =>
    refine K.complete c rest ?_ ht (K.toKept.invalidate sc h)
    rw [State.outside_commands (invalidate_outside sc s)]; exact hc
  | sync m => exact K.settleSync (K.watch h)
  | enable d =>
    refine K.complete c rest hc ht (K.enable d (by simp [hc]) ?_ ?_ h)
    · by_contra hn; simp [stateError, hn] at hs
    · by_contra hn
      simp only [Bool.not_eq_true] at hn
      simp only [stateError] at hs
      split at hs <;> simp [hn] at hs
  | disable d =>
    refine K.settle (K.toKept.representWaiting (K.disable d ?_ h))
    by_contra hn; simp [stateError, hn] at hs
  | resume k =>
    have hk : s.headParked k = true := by
      by_contra hn; simp [stateError, hn] at hs
    refine K.complete c rest ?_ ht (K.toKept.presentHead k (K.unpark k hk h))
    exact (State.outside_commands (presentHead_outside k (s.setParked k none))).trans hc
  | terminate k =>
    have hk : s.headParked k = true := by
      by_contra hn; simp [stateError, hn] at hs
    exact K.complete c rest hc ht (K.head k _ (K.unpark k hk h))
  | clearMemory =>
    refine K.emit _ (K.startClear ?_ h)
    by_contra hn; simp [stateError, hn] at hs
  | probe d p => exact K.complete c rest hc ht (K.probe _ h)

/-- The take of a command keeps the property (R142 to R148). -/
theorem takeCommand {s : State} (h : P s) : P (Machine.takeCommand s) := by
  unfold Machine.takeCommand
  split
  · exact h
  · rename_i c rest hc
    split
    · exact h
    · rename_i ht
      have hk := K.take c rest hc (by simpa using ht) h
      dsimp only
      split
      · exact K.commandError _ _ rfl rfl hk
      · split
        · exact K.commandError _ _ rfl rfl hk
        · rename_i hs
          exact K.applyCommand _ rfl rfl hs hk

theorem submitAndTake (code : BitVec 8) {s : State} (h : P s) : P (Machine.submitAndTake code s) := by
  unfold Machine.submitAndTake
  split
  · exact K.takeCommand (K.submitWrite _ h)
  · exact K.submitWrite _ h

theorem submitWith (code : CommandCode) (w : Word) {s : State} (h : P s) : P (Machine.submitWith code w s) :=
  K.submitAndTake _ (K.writeOperand w h)

/-! ## Client ports -/

theorem presentRequest (p : PortNumber) (r : Request) {s : State} (h : P s) : P (Machine.presentRequest p r s) := by
  unfold Machine.presentRequest
  have he := K.emit (.answer p (s.answerFor p r)) h
  dsimp only
  split
  · rename_i ha
    unfold State.answerFor at ha
    split at ha
    · rename_i hp
      split at ha
      · rename_i hl
        unfold Machine.acceptRequest
        have hq := K.enqueue (s := s.emit (.answer p (s.answerFor p r))) ⟨p, r.cls⟩ r hp.1 hp.2 hl he
        dsimp only
        split
        · exact K.toKept.presentHead _ hq
        · exact hq
      · simp at ha
    · simp at ha
  · exact he

theorem deliverRecord (p : PortNumber) {s : State} (h : P s) : P (Machine.deliver p s) := by
  unfold Machine.deliver
  split
  · exact h
  · rename_i r rest hc
    split
    · rename_i hr
      exact K.emit _ (K.deliver p r rest hc hr h)
    · exact h

theorem transferHead (k : HeadId) {s : State} (h : P s) : P (Machine.transfer k s) := by
  unfold Machine.transfer
  split
  · rename_i e he
    split
    · rename_i st hst
      split
      · rename_i ha
        refine K.settle (K.toKept.presentHead k (K.transfer k e st he ?_ ha h))
        unfold Entry.finishing? at hst
        split at hst
        · rename_i hq
          injection hst with hst
          rw [hq, hst]
        · simp at hst
      · exact h
    · exact h
  · exact h

theorem openWrite (p : PortNumber) {s : State} (h : P s) : P (Machine.openPort p s) := by
  unfold Machine.openPort
  split
  · rename_i hr
    split
    · rename_i hp
      exact K.openPort p hr hp h
    · exact K.raise _ h
  · exact h

theorem closeWrite (p : PortNumber) {s : State} (h : P s) : P (Machine.closePort p s) := by
  unfold Machine.closePort
  split
  · rename_i hr
    split
    · rename_i hp
      exact K.closePort p hr hp h
    · exact K.raise _ h
  · exact h

theorem writeBinding (p : PortNumber) (v : Word) {s : State} (h : P s) : P (Machine.writeBinding p v s) := by
  unfold Machine.writeBinding
  split
  · rename_i hr
    split
    · rename_i hp
      exact K.bindPort p _ hr hp h
    · exact K.raise _ h
  · exact h

theorem writePortControl (p : PortNumber) (v : Word) {s : State} (h : P s) : P (Machine.writePortControl p v s) := by
  unfold Machine.writePortControl
  split
  · exact K.openWrite p h
  · exact K.closeWrite p h
  · split
    · exact K.raise _ h
    · exact h

/-! ## Window -/

theorem deviceReset {s : State} (h : P s) : P (Machine.deviceReset s) := by
  unfold Machine.deviceReset
  split
  · rename_i hr
    exact K.reset hr h
  · exact h

theorem writeDeviceControl (v : Word) {s : State} (h : P s) : P (Machine.writeDeviceControl v s) := by
  unfold Machine.writeDeviceControl
  split
  · exact K.deviceReset h
  · split
    · exact K.raise _ h
    · exact h

theorem writeContextFrame (c : ContextNumber) (v : Word) {s : State} (h : P s) :
    P (Machine.writeContextFrame c v s) := by
  unfold Machine.writeContextFrame
  split
  · rename_i hr
    split
    · rename_i hc
      exact K.writeContext c _ hr hc hc h
    · exact K.raise _ h
  · exact h

theorem writeContextControl (c : ContextNumber) (v : Word) {s : State} (h : P s) :
    P (Machine.writeContextControl c v s) := by
  unfold Machine.writeContextControl
  split
  · rename_i hr
    split
    · rename_i hc
      exact K.writeContext c _ hr hc hc h
    · exact K.raise _ h
  · exact h

theorem writeContextWord (c : ContextNumber) (w : ContextWord) (v : Word) {s : State} (h : P s) :
    P (Machine.writeContext c w v s) := by
  cases w
  · exact K.writeContextFrame c v h
  · exact K.writeContextControl c v h

theorem writeRegionEntry (i : Fin 8) (v : Word) {s : State} (h : P s) : P (Machine.writeRegion i v s) := by
  unfold Machine.writeRegion
  split
  · rename_i hr
    split
    · rename_i ha
      exact K.writeRegion i _ hr ha.1 ha.2 h
    · exact K.raise _ h
  · exact h

theorem writeInterruptStatus (v : Word) {s : State} (h : P s) : P (Machine.writeInterruptStatus v s) := by
  unfold Machine.writeInterruptStatus
  split
  · exact K.clearCauses _ h
  · exact h

theorem writeInterruptEnable (v : Word) {s : State} (h : P s) : P (Machine.writeInterruptEnable v s) := by
  unfold Machine.writeInterruptEnable
  split
  · exact K.irqEnable _ h
  · exact h

theorem popFaultLog {s : State} (h : P s) : P (Machine.popFaultLog s) := by
  unfold Machine.popFaultLog
  split
  · split
    · exact K.raise _ h
    · rename_i r rest hl
      exact K.pop r rest hl h
  · exact h

theorem writeRegister (r : Register) (v : Word) {s : State} (h : P s) : P (Machine.writeRegister r v s) := by
  cases r with
  | deviceControl => exact K.writeDeviceControl v h
  | interruptStatus => exact K.writeInterruptStatus v h
  | interruptEnable => exact K.writeInterruptEnable v h
  | timebase => exact K.writeTimebase v h
  | responseLimit => exact K.writeResponseLimit v h
  | portControl p => exact K.writePortControl p v h
  | portBinding p => exact K.writeBinding p v h
  | contextFrame c => exact K.writeContextFrame c v h
  | contextControl c => exact K.writeContextControl c v h
  | regionEntry i => exact K.writeRegionEntry i v h
  | operandWord => exact K.writeOperand v h
  | submitWord => exact K.submitWrite _ h
  | faultLogPop => exact K.popFaultLog h
  | _ => exact h

theorem hostWrite (o : BitVec 12) (en : BitVec 4) (v : Word) {s : State} (h : P s) :
    P (Machine.hostWrite o en v s) := by
  unfold Machine.hostWrite
  split
  · split
    · exact K.raise _ h
    · exact h
  · split
    · split
      · exact K.raise _ h
      · exact h
    · exact K.writeRegister _ v h

theorem hostRead (o : BitVec 12) (en : BitVec 4) {s : State} (h : P s) : P (Machine.hostRead o en s) := by
  unfold Machine.hostRead
  have he := K.emit (.readData (readValue o en s)) h
  dsimp only
  split
  · exact K.raise _ he
  · exact he

/-! ## Every event and every step -/

/-- An event keeps the property. -/
theorem exec (c : Instr) {s t : State} (h : P s) (he : Machine.exec c s = .next t) : P t := by
  have hb := K.beginEvent h
  cases c <;> (change Host.Outcome.next _ = Host.Outcome.next _ at he; injection he with he; subst he)
  case powerOnReset => exact K.powerOn hb
  case resetnRelease => exact K.releasePin hb
  case deviceReset => exact K.deviceReset hb
  case request p r => exact K.presentRequest p r hb
  case delivery p => exact K.deliverRecord p hb
  case response st d => exact K.response st d hb
  case cleared => exact K.cleared hb
  case expiry => exact K.expire hb
  case clearExpiry => exact K.expireClear hb
  case grant => exact K.grant hb
  case transfer p k => exact K.transferHead _ hb
  case invalidatePage w => exact K.submitWith _ w hb
  case invalidateDirectory w => exact K.submitWith _ w hb
  case invalidateContext w => exact K.submitWith _ w hb
  case invalidateAll => exact K.submitAndTake _ hb
  case sync w => exact K.submitWith _ w hb
  case enableContext w => exact K.submitWith _ w hb
  case disableContext w => exact K.submitWith _ w hb
  case resume w => exact K.submitWith _ w hb
  case terminate w => exact K.submitWith _ w hb
  case clearMemoryPort => exact K.submitAndTake _ hb
  case probe w => exact K.submitWith _ w hb
  case unknownCode k => exact K.submitAndTake _ hb
  case openPort p => exact K.openWrite p hb
  case closePort p => exact K.closeWrite p hb
  case portBindingWrite p v => exact K.writeBinding p v hb
  case contextWrite k w v => exact K.writeContextWord k w v hb
  case regionEntryWrite i v => exact K.writeRegionEntry i v hb
  case timebaseWrite v => exact K.writeTimebase v hb
  case responseLimitWrite v => exact K.writeResponseLimit v hb
  case interruptStatusClear v => exact K.writeInterruptStatus v hb
  case interruptEnableWrite v => exact K.writeInterruptEnable v hb
  case faultLogPop v => exact K.popFaultLog hb
  case registerWrite o en v => exact K.hostWrite o en v hb
  case commandTake => exact K.takeCommand hb
  case malformedRead o en => exact K.hostRead o en hb

/-- A step keeps the property. -/
theorem step {s t : State} (h : P s) (he : Machine.step s = .next t) : P t := by
  unfold Machine.step at he
  split at he
  · injection he with he
    subst he
    exact K.hostClock (K.beginEvent h)
  · exact K.exec _ (K.dequeue _ h) he

end KeptByEvents

end Sys2Proof.Machine
end

