-- ==== Sys2Proof/Laws/Disable.lean ====
section
/-! SUPPORT. What a disable does to the walks, the queues and the parked places, said once (R22, R103). -/

namespace Sys2Proof.Machine

/-- Abandoning one slot reaches that slot, and takes it out of the start order when it becomes FREE. -/
theorem abandonSlot_spec (c : ContextNumber) (s : State) (i : SlotNumber) :
    (∀ j, (abandonSlot c s i).slot j = if j = i then abandonedWalk c (s.slot i) else s.slot j) ∧
      ((abandonSlot c s i).startOrder = s.startOrder ∨
        ((abandonSlot c s i).slot i = none ∧ s.slot i ≠ none ∧
          (abandonSlot c s i).startOrder = s.startOrder.filter (· != i))) ∧
      ∃ slots order, abandonSlot c s i = { s with slots := slots, startOrder := order } := by
  unfold abandonSlot
  cases hi : s.slot i with
  | none =>
    refine ⟨fun j => ?_, .inl rfl, s.slots, s.startOrder, rfl⟩
    by_cases hj : j = i
    · subst hj; simp [hi, abandonedWalk]
    · simp [hj]
  | some w =>
    dsimp only
    split
    · rename_i hc
      split
      · rename_i ha
        refine ⟨fun j => ?_, .inr ⟨?_, by simp, rfl⟩, _, _, rfl⟩
        · rw [State.slot_releaseSlot]
          by_cases hj : j = i
          · subst hj; simp [abandonedWalk, hc, ha]
          · simp [hj, Ne.symm hj]
        · rw [State.slot_releaseSlot]; simp
      · rename_i ha
        refine ⟨fun j => ?_, .inl rfl, _, s.startOrder, rfl⟩
        rw [State.slot_setSlot]
        by_cases hj : j = i
        · subst hj; simp [abandonedWalk, hc, ha]
        · simp [hj, Ne.symm hj]
    · rename_i hc
      refine ⟨fun j => ?_, .inl rfl, s.slots, s.startOrder, rfl⟩
      by_cases hj : j = i
      · subst hj; simp [hi, abandonedWalk, hc]
      · simp [hj]

/-- Abandoning the walks of a context reaches the slots and the start order only. -/
theorem abandonWalks_frame (c : ContextNumber) (s : State) :
    ∃ slots order, abandonWalks c s = { s with slots := slots, startOrder := order } := by
  unfold abandonWalks
  generalize allSlots = l
  induction l generalizing s with
  | nil => exact ⟨s.slots, s.startOrder, rfl⟩
  | cons a rest ih =>
    obtain ⟨-, -, sl, od, h1⟩ := abandonSlot_spec c s a
    obtain ⟨sl', od', h2⟩ := ih (abandonSlot c s a)
    refine ⟨sl', od', ?_⟩
    rw [List.foldl_cons, h2, h1]

/-- Every slot after the abandonment (R103). -/
theorem slot_abandonWalks (c : ContextNumber) (s : State) (i : SlotNumber) :
    (abandonWalks c s).slot i = abandonedWalk c (s.slot i) := by
  have key : ∀ (l : List SlotNumber) (t : State), l.Nodup →
      (l.foldl (abandonSlot c) t).slot i = if i ∈ l then abandonedWalk c (t.slot i) else t.slot i := by
    intro l
    induction l with
    | nil => intro t _; simp
    | cons a rest ih =>
      intro t hn
      obtain ⟨ha, hr⟩ := List.nodup_cons.1 hn
      rw [List.foldl_cons, ih _ hr, (abandonSlot_spec c t a).1 i]
      by_cases hi : i = a
      · subst hi; simp [ha]
      · simp [hi]
  unfold abandonWalks
  rw [key allSlots s (by decide), if_pos (mem_allSlots i)]

/-- The slots of the start order after the abandonment: those still BUSY, in their former order. -/
theorem mem_startOrder_abandonWalks (c : ContextNumber) (s : State) (i : SlotNumber) (h : ∀ j, j ∈ s.startOrder → s.slot j ≠ none) :
    i ∈ (abandonWalks c s).startOrder ↔ i ∈ s.startOrder ∧ abandonedWalk c (s.slot i) ≠ none := by
  have key : ∀ (l : List SlotNumber) (t : State), l.Nodup → (∀ j, j ∈ t.startOrder → t.slot j ≠ none) →
      (i ∈ (l.foldl (abandonSlot c) t).startOrder ↔
        i ∈ t.startOrder ∧ (i ∈ l → abandonedWalk c (t.slot i) ≠ none)) := by
    intro l
    induction l with
    | nil => intro t _ _; simp
    | cons a rest ih =>
      intro t hn ht
      obtain ⟨ha, hr⟩ := List.nodup_cons.1 hn
      obtain ⟨hs, ho, -⟩ := abandonSlot_spec c t a
      have ht' : ∀ j, j ∈ (abandonSlot c t a).startOrder → (abandonSlot c t a).slot j ≠ none := by
        intro j hj
        rcases ho with ho | ⟨-, -, ho⟩
        · rw [ho] at hj
          rw [hs j]
          by_cases hja : j = a
          · subst hja
            intro hx
            simp only [↓reduceIte] at hx
            have hne := ht j hj
            have h1 : (abandonSlot c t j).slot j = none := by rw [hs j]; simpa using hx
            obtain ⟨w, hw⟩ := Option.ne_none_iff_exists'.1 hne
            rw [hw] at hx
            unfold abandonedWalk at hx
            dsimp only at hx
            split at hx
            · split at hx
              · rename_i hc haw
                unfold abandonSlot at ho
                rw [hw] at ho
                simp only [hc, haw, ↓reduceIte] at ho
                have : j ∈ t.startOrder.filter (· != j) := by
                  have h2 : (State.releaseSlot j t).startOrder = t.startOrder.filter (· != j) := rfl
                  rw [← h2, ho]; exact hj
                simp at this
              · simp at hx
            · simp at hx
          · simp only [hja, ↓reduceIte]; exact ht j hj
        · rw [ho] at hj
          simp only [List.mem_filter, bne_iff_ne, ne_eq] at hj
          rw [hs j]
          simp only [hj.2, ↓reduceIte]
          exact ht j hj.1
      rw [List.foldl_cons, ih _ hr ht', hs i]
      by_cases hi : i = a
      · subst hi
        simp only [ha, false_implies, and_true, List.mem_cons, true_or, forall_const]
        constructor
        · intro hm
          refine ⟨?_, ?_⟩
          · rcases ho with ho | ⟨-, -, ho⟩
            · rwa [ho] at hm
            · rw [ho] at hm; exact (List.mem_filter.1 hm).1
          · have := ht' i hm
            rw [hs i] at this; simpa using this
        · intro ⟨hm, hne⟩
          rcases ho with ho | ⟨hx, -, -⟩
          · rwa [ho]
          · rw [hs i] at hx; simp at hx; exact absurd hx hne
      · simp only [hi, ↓reduceIte, List.mem_cons, false_or]
        refine and_congr ?_ Iff.rfl
        rcases ho with ho | ⟨-, -, ho⟩
        · rw [ho]
        · rw [ho]; simp [hi]
  unfold abandonWalks
  rw [key allSlots s (by decide) h]
  simp [mem_allSlots]

/-- The abandonment only takes slots out of the start order. -/
theorem startOrder_abandonWalks_sublist (c : ContextNumber) (s : State) :
    (abandonWalks c s).startOrder.Sublist s.startOrder := by
  unfold abandonWalks
  generalize allSlots = l
  induction l generalizing s with
  | nil => exact List.Sublist.refl _
  | cons a rest ih =>
    rw [List.foldl_cons]
    refine (ih _).trans ?_
    rcases (abandonSlot_spec c s a).2.1 with h | ⟨-, -, h⟩
    · rw [h]
    · rw [h]; exact List.filter_sublist

/-- Emptying the parked places of a context reaches the parked table only. -/
theorem unparkContext_frame (c : ContextNumber) (s : State) :
    ∃ parked, unparkContext c s = { s with parked := parked } := by
  unfold unparkContext
  generalize allHeads = l
  induction l generalizing s with
  | nil => exact ⟨s.parked, rfl⟩
  | cons a rest ih =>
    rw [List.foldl_cons]
    split
    · obtain ⟨pk, h⟩ := ih (s.setParked a none)
      exact ⟨pk, h⟩
    · exact ih s

/-- Step 3 of a disable reaches the ports, the slot wait list and the parked table (R22). -/
theorem disableQueues_frame (c : ContextNumber) (s : State) :
    ∃ parked, disableQueues c s =
      { s with
        parked := parked
        ports := s.ports.map (disablePort c)
        slotWait := s.slotWait.filter fun h => s.boundContext h != c } := by
  obtain ⟨pk, h⟩ := unparkContext_frame c s
  refine ⟨pk, ?_⟩
  unfold disableQueues
  simp only [h]
  rfl

@[simp] theorem disableQueue_length (q : List Entry) : (disableQueue q).length = q.length := by
  cases q <;> simp [disableQueue]

theorem disablePort_spec (c : ContextNumber) (p : Port) :
    (disablePort c p).queues.normal.length = p.queues.normal.length ∧
      (disablePort c p).queues.urgent.length = p.queues.urgent.length ∧ (disablePort c p).returns = p.returns ∧
      (disablePort c p).completions = p.completions ∧ (disablePort c p).state = p.state ∧
      (disablePort c p).binding = p.binding := by
  unfold disablePort
  split <;> simp

/-- The whole take effect of a disable but the re-presentation: what it leaves alone, and what it makes of the rest (R22). -/
theorem disable_frame (c : ContextNumber) (s : State) :
    ∃ slots order parked,
      disableQueues c (abandonWalks c ((s.setContext c { s.context c with state := .draining }).removeScope (.context c))) =
        { (s.setContext c { s.context c with state := .draining }).removeScope (.context c) with
          slots := slots
          startOrder := order
          parked := parked
          ports := s.ports.map (disablePort c)
          slotWait := s.slotWait.filter fun h => s.boundContext h != c } := by
  obtain ⟨sl, od, h1⟩ :=
    abandonWalks_frame c ((s.setContext c { s.context c with state := .draining }).removeScope (.context c))
  obtain ⟨pk, h2⟩ := disableQueues_frame c
    (abandonWalks c ((s.setContext c { s.context c with state := .draining }).removeScope (.context c)))
  refine ⟨sl, od, pk, ?_⟩
  rw [h2, h1]
  rfl

end Sys2Proof.Machine
end

