-- ==== Sys2Proof/Laws/Walker.lean ====
section
/-! SUPPORT. The slot wait list after an event (R91), the walker without a RUNNING memory port (R106), and what a memory-port failure (R105, R169)
and the tests at the end of an event (R25, R153) leave. -/

namespace Sys2Proof.Machine

/-! ## The slot wait list (R91) -/

theorem freeSlot?_of_slot {s t : State} (h : ∀ i, t.slot i = s.slot i) : t.freeSlot? = s.freeSlot? := by
  unfold State.freeSlot?
  congr 1
  funext i
  rw [h]

@[simp] theorem takeHeadFault_slotWait (cause : FaultCause) (h : HeadId) (s : State) :
    (takeHeadFault cause h s).slotWait = s.slotWait := by
  obtain ⟨st, p, l, n, q, h1 | h1⟩ := takeHeadFault_frame cause h s
  · rw [h1]
  · rw [h1]; rfl

theorem startWalk_slotWait (i : SlotNumber) (k : WalkKind) (c : ContextNumber) (p : PageNumber) (h : HeadId) (s : State) :
    (startWalk i k c p h s).slotWait = s.slotWait := by
  have h1 := (enterDirectory_spec (newWalk k c p h) s).1
  unfold startWalk
  split
  · rename_i s' w heq
    rw [heq] at h1
    rcases h1 with h1 | ⟨e, -, h1⟩ <;> (simp only at h1; subst h1; rfl)
  · rename_i s' cause heq
    rw [heq] at h1
    rw [takeHeadFault_slotWait]
    rcases h1 with h1 | ⟨e, -, h1⟩ <;> (simp only at h1; subst h1; rfl)

theorem needWalk_slotWait (k : WalkKind) (c : ContextNumber) (p : PageNumber) (h : HeadId) (s : State)
    (hf : s.freeSlot? ≠ none) : (needWalk k c p h s).slotWait = s.slotWait := by
  unfold needWalk
  split
  · unfold joinWalk; split <;> rfl
  · split
    · exact startWalk_slotWait _ _ _ _ _ _
    · rename_i hn; exact absurd hn hf

/-- A presentation made while a slot is FREE returns no head to the slot wait list (R91). -/
theorem present_slotWait (h : HeadId) (s : State) (hf : s.freeSlot? ≠ none) : (present h s).slotWait = s.slotWait := by
  unfold present
  split
  · rfl
  · split
    · rfl
    · split
      · rfl
      · split
        · rfl
        · split
          · exact takeHeadFault_slotWait _ _ _
          · unfold lookupHead
            split
            · exact needWalk_slotWait _ _ _ _ _ hf
            · rename_i e _
              have hf' : (s.touchPage e).freeSlot? ≠ none := hf
              split
              · exact takeHeadFault_slotWait _ _ _
              · unfold admitHit
                split
                · exact needWalk_slotWait _ _ _ _ _ hf'
                · rfl

theorem drainWait_offered (n : Nat) (s : State) (hn : s.slotWait.length ≤ n) : (drainWait n s).Offered := by
  induction n generalizing s with
  | zero =>
    intro _
    exact List.length_eq_zero_iff.1 (Nat.le_zero.1 hn)
  | succ n ih =>
    unfold drainWait
    split
    · rename_i i h rest hf hw
      refine ih _ ?_
      have hf' : State.freeSlot? { s with slotWait := rest } ≠ none := by
        show s.freeSlot? ≠ none
        rw [hf]; simp
      rw [present_slotWait h _ hf']
      rw [hw] at hn
      simpa using hn
    · rename_i hx
      intro hf
      obtain ⟨i, hi⟩ := Option.ne_none_iff_exists'.1 hf
      cases hw : s.slotWait with
      | nil => rfl
      | cons h rest => exact absurd hw (hx i h rest hi)

/-- After the re-presentation of the slot wait list it is empty or no slot is FREE (R91). -/
theorem representWaiting_offered (s : State) : (representWaiting s).Offered := drainWait_offered _ s (Nat.le_refl _)

theorem presentHead_offered (h : HeadId) (s : State) : (presentHead h s).Offered := representWaiting_offered _

theorem invalidate_offered (sc : Scope) (s : State) : (invalidate sc s).Offered := representWaiting_offered _

theorem failWalk_offered (i : SlotNumber) (c : FaultCause) {s : State} (h : s.Offered) : (failWalk i c s).Offered := by
  unfold failWalk
  split
  · exact h
  · exact representWaiting_offered _

theorem continueWalk_offered (i : SlotNumber) (r : Except FaultCause Walk) {s : State} (h : s.Offered)
    (_hi : s.slot i ≠ none) : (continueWalk i r s).Offered := by
  unfold continueWalk
  split
  · intro hf
    refine h ?_
    intro hn
    refine hf ?_
    rw [State.freeSlot?_none] at hn ⊢
    intro j
    rw [State.slot_setSlot]
    split
    · simp
    · exact hn j
  · exact failWalk_offered i _ h

theorem offered_of_slot {s t : State} (h1 : ∀ i, t.slot i = s.slot i) (h2 : t.slotWait = s.slotWait) (h : s.Offered) :
    t.Offered := by
  intro hf
  rw [freeSlot?_of_slot h1] at hf
  rw [h2]; exact h hf

theorem restartWalk_offered (i : SlotNumber) (w : Walk) {s : State} (h : s.Offered) (hi : s.slot i ≠ none) :
    (restartWalk i w s).Offered := by
  have h1 :=
    (enterDirectory_spec { w with stage := .directory, stale := false, tableFrame := none, entryWord := none } s).1
  unfold restartWalk
  split
  rename_i s' r heq
  rw [heq] at h1
  rcases h1 with h1 | ⟨e, -, h1⟩ <;> (simp only at h1; subst h1; exact continueWalk_offered i r h hi)

/-- The taking of a response to a walk leaves the slot wait list offered (R91, R165). -/
theorem takeWalkResponse_offered (i : SlotNumber) (st : ResponseStatus) (d : List Word) {s : State} (h : s.Offered) :
    (takeWalkResponse i st d s).Offered := by
  unfold takeWalkResponse
  split
  · exact h
  · rename_i w hi
    have hn : s.slot i ≠ none := by rw [hi]; simp
    split
    · exact representWaiting_offered _
    · split
      · exact restartWalk_offered i w h hn
      · split
        · exact failWalk_offered i _ h
        · exact h
        · split
          · unfold takeDirectoryWord
            split
            · refine continueWalk_offered i _ ?_ (by rw [State.slot_fillDir]; exact hn)
              exact offered_of_slot (State.slot_fillDir s _) (by unfold State.fillDir; split <;> rfl) h
            · exact failWalk_offered i _ h
          · unfold takePageWord
            split
            · exact failWalk_offered i _ h
            · split
              · exact continueWalk_offered i _ h hn
              · exact representWaiting_offered _
          · unfold takeUpdateWord
            split
            · exact representWaiting_offered _
            · exact failWalk_offered i _ h

theorem endWalkTransaction_offered (i : SlotNumber) {s : State} (h : s.Offered) : (endWalkTransaction i s).Offered := by
  unfold endWalkTransaction
  split
  · exact h
  · split
    · exact representWaiting_offered _
    · exact failWalk_offered i _ h

theorem takeDataError_walker (v : RequestValues) (s : State) :
    (takeDataError v s).slots = s.slots ∧ (takeDataError v s).slotWait = s.slotWait ∧
      (takeDataError v s).startOrder = s.startOrder := by
  unfold takeDataError
  split <;> exact ⟨rfl, rfl, rfl⟩

theorem endTransaction_offered (t : Transaction) {s : State} (h : s.Offered) : (endTransaction t s).Offered := by
  unfold endTransaction
  split
  · rename_i v _
    obtain ⟨h1, h2, -⟩ := takeDataError_walker v (s.endItem ⟨v.port, v.cls⟩ .memoryError none)
    exact offered_of_slot (fun i => by simp only [State.slot, h1]) h2 h
  · exact endWalkTransaction_offered _ h

/-! ## The start order (R84, R85) -/

theorem ordered_of {s t : State} (h1 : ∀ i, t.slot i = s.slot i) (h2 : t.startOrder = s.startOrder) (h : s.Ordered) :
    t.Ordered := by
  refine ⟨fun i => ?_, h2 ▸ h.2⟩
  rw [h1, h2]; exact h.1 i

theorem ordered_release {s : State} (i : SlotNumber) (h : s.Ordered) : (s.releaseSlot i).Ordered := by
  refine ⟨fun j => ?_, h.2.filter _⟩
  rw [State.slot_releaseSlot]
  show j ∈ s.startOrder.filter (· != i) ↔ _
  rw [List.mem_filter, h.1 j]
  by_cases hj : i = j
  · subst hj; simp
  · simp [hj, Ne.symm hj]

theorem ordered_setSlot {s : State} (i : SlotNumber) (w : Walk) (hi : s.slot i ≠ none) (h : s.Ordered) :
    (s.setSlot i (some w)).Ordered := by
  refine ⟨fun j => ?_, h.2⟩
  rw [State.slot_setSlot]
  show j ∈ s.startOrder ↔ _
  rw [h.1 j]
  by_cases hj : i = j
  · subst hj; simp [hi]
  · simp [hj]

/-- Translation work keeps the start order (R85, R88, R98, R100). -/
theorem kept_ordered : Kept State.Ordered where
  head h st hs := ordered_of (fun _ => rfl) rfl hs
  fault {s} c h hs := by
    refine ordered_of (fun i => State.slot_takeHeadFault c h s i) ?_ hs
    obtain ⟨st, p, l, n, q, h1 | h1⟩ := takeHeadFault_frame c h s
    · rw [h1]
    · rw [h1]; rfl
  touchPage _ hs := ordered_of (fun _ => rfl) rfl hs
  touchDir _ hs := ordered_of (fun _ => rfl) rfl hs
  wait h _ hs := ordered_of (fun _ => rfl) rfl hs
  start {s} i w h hi _ _ _ _ _ _ hs := by
    refine ⟨fun j => ?_, ?_⟩
    · show j ∈ s.startOrder ++ [i] ↔ (State.setSlot i (some w) s).slot j ≠ none
      rw [State.slot_setSlot, List.mem_append, hs.1 j]
      by_cases hj : i = j
      · subst hj; simp
      · simp [hj, Ne.symm hj]
    · show (s.startOrder ++ [i]).Nodup
      refine List.nodup_append.2 ⟨hs.2, by simp, ?_⟩
      intro a ha b hb
      have : b = i := by simpa using hb
      subst this
      intro hab
      subst hab
      exact (hs.1 a).1 ha hi
  join {s} i w h hi _ hs := ordered_setSlot i _ (by rw [hi]; simp) hs
  popWait _ hs := ordered_of (fun _ => rfl) rfl hs
  release i hs := ordered_release i hs
  removePage _ _ hs := ordered_of (fun _ => rfl) rfl hs
  removeScope _ hs := ordered_of (fun _ => rfl) rfl hs
  fillPage f word _ _ hs := by
    unfold State.fillPage
    split <;> exact ordered_of (fun _ => rfl) rfl hs
  fillDir f _ _ hs := by
    unfold State.fillDir
    split <;> exact ordered_of (fun _ => rfl) rfl hs
  rewalk w' hi _ _ _ _ _ _ hs := ordered_setSlot _ _ (by rw [hi]; simp) hs

/-! ## Without a RUNNING memory port (R106) -/

/-- While the port is not RUNNING no walk stays BUSY, so a FREE slot stays FREE. -/
theorem kept_free (i : SlotNumber) : Kept fun s => s.memState ≠ .running ∧ s.slot i = none where
  head h st hs := hs
  fault {s} c h hs := by
    refine ⟨?_, by rw [State.slot_takeHeadFault]; exact hs.2⟩
    rw [State.outside_memState (outside_takeHeadFault c h s)]; exact hs.1
  touchPage _ hs := hs
  touchDir _ hs := hs
  wait h _ hs := hs
  start j w h _ _ _ hr _ _ _ hs := absurd hr hs.1
  join {s} j w h hj _ hs := by
    refine ⟨hs.1, ?_⟩
    rw [State.slot_setHeadState, State.slot_setSlot]
    split
    · rename_i hji; subst hji; rw [hs.2] at hj; simp at hj
    · exact hs.2
  popWait _ hs := hs
  release j hs := by
    refine ⟨hs.1, ?_⟩
    rw [State.slot_releaseSlot]
    split
    · rfl
    · exact hs.2
  removePage _ _ hs := hs
  removeScope _ hs := hs
  fillPage f word _ _ hs := by
    unfold State.fillPage
    split <;> exact hs
  fillDir f _ _ hs := by
    unfold State.fillDir
    split <;> exact hs
  rewalk {s j w} w' hj _ _ _ _ _ _ hs := by
    refine ⟨hs.1, ?_⟩
    rw [State.slot_setSlot]
    split
    · rename_i hji; subst hji; rw [hs.2] at hj; simp at hj
    · exact hs.2

/-- The ending of a walk's transaction while the port is not RUNNING frees its slot (R105). -/
theorem endWalkTransaction_free (i : SlotNumber) (s : State) (hm : s.memState ≠ .running) :
    (endWalkTransaction i s).slot i = none := by
  have hrel : ∀ t : State, t.memState ≠ .running → (t.releaseSlot i).memState ≠ .running ∧ (t.releaseSlot i).slot i = none :=
    fun t ht => ⟨ht, by rw [State.slot_releaseSlot]; simp⟩
  unfold endWalkTransaction
  split
  · assumption
  · split
    · exact ((kept_free i).representWaiting (hrel s hm)).2
    · unfold failWalk
      split
      · assumption
      · rename_i w _
        refine ((kept_free i).representWaiting ((kept_free i).deliverFault _ _ (hrel _ ?_))).2
        unfold dropFlagged
        split <;> exact hm

/-- The failure of the walks still BUSY frees every slot of the start order, and every slot that was FREE stays so (R105). -/
theorem failAwaiting_free (s : State) (hm : s.memState ≠ .running) (i : SlotNumber)
    (hi : i ∈ s.startOrder ∨ s.slot i = none) : (failAwaiting s).slot i = none := by
  unfold failAwaiting
  have key : ∀ (l : List SlotNumber) (t : State), t.memState ≠ .running → (i ∈ l ∨ t.slot i = none) →
      (l.foldl (fun t j => endWalkTransaction j t) t).slot i = none := by
    intro l
    induction l with
    | nil => intro t _ h; simpa using h
    | cons a rest ih =>
      intro t ht h
      have hm' : (endWalkTransaction a t).memState ≠ .running := by
        rw [State.outside_memState (endWalkTransaction_outside a t)]; exact ht
      rw [List.foldl_cons]
      refine ih _ hm' ?_
      rcases h with h | h
      · rcases List.mem_cons.1 h with h | h
        · subst h; exact .inr (endWalkTransaction_free i t ht)
        · exact .inl h
      · exact .inr ((kept_free i).endWalkTransaction a ⟨ht, h⟩).2
  exact key s.startOrder s hm hi

theorem endTransaction_ordered (t : Transaction) {s : State} (h : s.Ordered) : (endTransaction t s).Ordered := by
  unfold endTransaction
  split
  · rename_i v _
    obtain ⟨h1, -, h3⟩ := takeDataError_walker v (s.endItem ⟨v.port, v.cls⟩ .memoryError none)
    exact ordered_of (fun i => by simp only [State.slot, h1]) h3 h
  · exact kept_ordered.endWalkTransaction _ h

/-- Ending the whole list leaves it empty and the port's state as it is, and keeps the walker's order. -/
theorem endOutstanding_spec (l : List Transaction) (s : State) (hl : s.outstanding = l) :
    (endOutstanding l s).outstanding = [] ∧ (endOutstanding l s).memState = s.memState ∧
      (endOutstanding l s).commands = s.commands ∧ (s.Ordered → (endOutstanding l s).Ordered) ∧
      (s.Offered → (endOutstanding l s).Offered) := by
  induction l generalizing s with
  | nil => exact ⟨hl, rfl, rfl, id, id⟩
  | cons t rest ih =>
    unfold endOutstanding
    obtain ⟨h1, h2, h3⟩ := endTransaction_frame t { s with outstanding := rest }
    obtain ⟨i1, i2, i3, i4, i5⟩ := ih (endTransaction t { s with outstanding := rest }) h1
    exact ⟨i1, i2.trans h2, i3.trans h3,
      fun ho => i4 (endTransaction_ordered t (ordered_of (s := s) (fun _ => rfl) rfl ho)),
      fun ho => i5 (endTransaction_offered t (offered_of_slot (s := s) (fun _ => rfl) rfl ho))⟩

theorem failAwaiting_offered {s : State} (h : s.Offered) : (failAwaiting s).Offered := by
  unfold failAwaiting
  generalize s.startOrder = l
  induction l generalizing s with
  | nil => exact h
  | cons a rest ih => exact ih (endWalkTransaction_offered a h)

/-- What the entry to FAILED leaves (R169): nothing outstanding, every slot FREE, no head waiting for a slot. -/
theorem enterFailed_spec (s : State) (ho : s.Ordered) (hw : s.Offered) :
    (enterFailed s).memState = .failed ∧ (enterFailed s).outstanding = [] ∧ (∀ i, (enterFailed s).slot i = none) ∧
      (enterFailed s).slotWait = [] ∧ (enterFailed s).commands = s.commands := by
  unfold enterFailed
  obtain ⟨h1, h2, h3, h4, h5⟩ := endOutstanding_spec s.outstanding
    (State.raise .memoryFailed { s with memState := .failed, lateCleared := false }) rfl
  generalize endOutstanding s.outstanding
    (State.raise .memoryFailed { s with memState := .failed, lateCleared := false }) = u at *
  have ho' : u.Ordered := h4 (ordered_of (s := s) (fun _ => rfl) rfl ho)
  have hw' : u.Offered := h5 (offered_of_slot (s := s) (fun _ => rfl) rfl hw)
  have hm : u.memState = .failed := h2
  have hfree : ∀ i, (failAwaiting u).slot i = none := by
    intro i
    refine failAwaiting_free u (by rw [hm]; decide) i ?_
    by_cases hi : u.slot i = none
    · exact .inr hi
    · exact .inl ((ho'.1 i).2 hi)
  have hout := failAwaiting_outside u
  refine ⟨(State.outside_memState hout).trans hm, (State.outside_outstanding hout).trans h1, hfree, ?_,
    (State.outside_commands hout).trans h3⟩
  refine failAwaiting_offered hw' ?_
  intro hn
  rw [State.freeSlot?_none] at hn
  exact hn 0 (hfree 0)

/-! ## The tests at the end of an event (R25, R153) -/

/-- The tests reach the context states, the command queue and its completed count, the sync marker and the causes, and nothing else. -/
theorem settle_frame (s : State) :
    ∃ (contexts : Vector ContextRecord 16) (commands : List Command) (n : BitVec 16) (m : BitVec 16) (irq : BitVec 8),
      settle s =
        { s with contexts := contexts, commands := commands, completedCount := n, syncMarker := m, irqStatus := irq } := by
  have hc : ∀ (c : ContextNumber) (t : State), ∃ contexts commands n,
      settleContext c t = { t with contexts := contexts, commands := commands, completedCount := n } := by
    intro c t
    unfold settleContext
    split
    · dsimp only
      split
      · exact ⟨_, _, _, rfl⟩
      · exact ⟨_, t.commands, t.completedCount, rfl⟩
    · exact ⟨t.contexts, t.commands, t.completedCount, rfl⟩
  have hl : ∀ (l : List ContextNumber) (t : State), ∃ contexts commands n,
      l.foldl (fun t c => settleContext c t) t =
        { t with contexts := contexts, commands := commands, completedCount := n } := by
    intro l
    induction l with
    | nil => intro t; exact ⟨t.contexts, t.commands, t.completedCount, rfl⟩
    | cons a rest ih =>
      intro t
      obtain ⟨a1, a2, a3, h1⟩ := hc a t
      obtain ⟨b1, b2, b3, h2⟩ := ih (settleContext a t)
      exact ⟨b1, b2, b3, by rw [List.foldl_cons, h2, h1]⟩
  obtain ⟨a1, a2, a3, h1⟩ := hl allContexts s
  unfold settle
  rw [h1]
  unfold settleSync
  split
  · split
    · exact ⟨_, _, _, _, _, rfl⟩
    · exact ⟨_, _, _, s.syncMarker, s.irqStatus, rfl⟩
  · exact ⟨_, _, _, s.syncMarker, s.irqStatus, rfl⟩

@[simp] theorem settle_slot (s : State) (i : SlotNumber) : (settle s).slot i = s.slot i := by
  obtain ⟨a, b, c, d, e, h⟩ := settle_frame s; rw [h]; rfl
@[simp] theorem settle_port (s : State) (p : PortNumber) : (settle s).port p = s.port p := by
  obtain ⟨a, b, c, d, e, h⟩ := settle_frame s; rw [h]; rfl
@[simp] theorem settle_slotWait (s : State) : (settle s).slotWait = s.slotWait := by
  obtain ⟨a, b, c, d, e, h⟩ := settle_frame s; rw [h]
@[simp] theorem settle_startOrder (s : State) : (settle s).startOrder = s.startOrder := by
  obtain ⟨a, b, c, d, e, h⟩ := settle_frame s; rw [h]
@[simp] theorem settle_memState (s : State) : (settle s).memState = s.memState := by
  obtain ⟨a, b, c, d, e, h⟩ := settle_frame s; rw [h]
@[simp] theorem settle_outstanding (s : State) : (settle s).outstanding = s.outstanding := by
  obtain ⟨a, b, c, d, e, h⟩ := settle_frame s; rw [h]

end Sys2Proof.Machine
end

