-- ==== Sys2Proof/Laws/Quiet.lean ====
section
/-! SUPPORT. When the ends of an event do nothing, and how the updates of one queue collapse: what the statements about whole next states are
proved with. -/

namespace Sys2Proof.Machine

/-- With the slot wait list empty whenever a slot is FREE, its re-presentation does nothing (R91). -/
theorem representWaiting_of_offered {s : State} (h : s.Offered) : representWaiting s = s := by
  unfold representWaiting
  cases hw : s.slotWait with
  | nil => rfl
  | cons k rest =>
    have hf : s.freeSlot? = none := by
      by_contra hne
      rw [h hne] at hw
      exact absurd hw (by simp)
    simp [drainWait, hf]

/-- A presentation that leaves the slot wait list settled is the whole of `presentHead`. -/
theorem presentHead_of_offered {s : State} (h : HeadId) (ho : (present h s).Offered) : presentHead h s = present h s :=
  representWaiting_of_offered ho

theorem offered_of_empty {s : State} (h : s.slotWait = []) : s.Offered := fun _ => h

/-- With no drain and no SYNC waiting, the tests at the end of an event change nothing (R25, R153). -/
theorem settle_of_noEnds {s : State} (h : s.NoEnds) : settle s = s := by
  have h1 : ∀ c t, t = s → settleContext c t = t := by
    intro c t ht
    subst ht
    unfold settleContext
    rw [if_neg fun hh => h.1 c hh.1]
  have h2 : ∀ l : List ContextNumber, l.foldl (fun t c => settleContext c t) s = s := by
    intro l
    induction l with
    | nil => rfl
    | cons c l ih => rw [List.foldl_cons, h1 c s rfl]; exact ih
  unfold settle
  rw [h2]
  unfold settleSync
  split
  · rename_i m hm
    exact absurd hm (h.2 m)
  · rfl

/-- Whether something waits for an event's end depends on the contexts and the command queue only. -/
theorem noEnds_of {s t : State} (h1 : t.contexts = s.contexts) (h2 : t.commands = s.commands) (h : s.NoEnds) : t.NoEnds := by
  obtain ⟨a, b⟩ := h
  refine ⟨fun c => ?_, fun m => ?_⟩
  · have : t.context c = s.context c := by simp only [State.context, h1]
    rw [this]; exact a c
  · have : t.waitingOp = s.waitingOp := by simp only [State.waitingOp, h2]
    rw [this]; exact b m

theorem State.setPort_setPort (p : PortNumber) (v w : Port) (s : State) :
    State.setPort p v (State.setPort p w s) = State.setPort p v s := by
  simp [State.setPort]

@[simp] theorem State.queue_setQueue_self (h : HeadId) (q : List Entry) (s : State) : (State.setQueue h q s).queue h = q := by
  rw [State.queue_setQueue]; simp

@[simp] theorem State.setQueue_setQueue (h : HeadId) (q r : List Entry) (s : State) :
    State.setQueue h q (State.setQueue h r s) = State.setQueue h q s := by
  unfold State.setQueue
  rw [State.setPort_setPort]
  simp

/-- Putting the head of a queue in a state replaces the queue. -/
theorem State.setHeadState_of_queue {h : HeadId} {e : Entry} {q : List Entry} {s : State} (st : EntryState)
    (hq : s.queue h = e :: q) : State.setHeadState h st s = State.setQueue h ({ e with state := st } :: q) s := by
  unfold State.setHeadState
  rw [hq]
  rfl

theorem State.head?_of_queue {h : HeadId} {e : Entry} {q : List Entry} {s : State} (hq : s.queue h = e :: q) :
    s.head? h = some e := by
  unfold State.head?
  rw [hq]
  rfl

/-- A slot named by its position in ascending number is the one `freeSlot?` finds (R88). -/
theorem freeSlot?_of_lowest {s : State} {i : SlotNumber} (h : s.LowestFree i) : s.freeSlot? = some i := by
  obtain ⟨h1, h2⟩ := h
  unfold State.freeSlot? allSlots
  have key : ∀ j : SlotNumber, (s.slot j).isNone = false ∨ (s.slot j).isNone = true := fun j => by cases (s.slot j).isNone <;> simp
  have hb : ∀ j, j < i → (s.slot j).isNone = false := fun j hj => by
    cases hs : s.slot j with
    | none => exact absurd hs (h2 j hj)
    | some w => rfl
  have hi : (s.slot i).isNone = true := by rw [h1]; rfl
  fin_cases i
  · simp [List.find?, show (s.slot 0).isNone = true from hi]
  · simp [List.find?, show (s.slot 1).isNone = true from hi, hb 0 (by decide)]
  · simp [List.find?, show (s.slot 2).isNone = true from hi, hb 0 (by decide), hb 1 (by decide)]
  · simp [List.find?, show (s.slot 3).isNone = true from hi, hb 0 (by decide), hb 1 (by decide), hb 2 (by decide)]

/-- No walk of a key: none is found (R89). -/
theorem findWalk_of_noWalk {s : State} {c : ContextNumber} {p : PageNumber} (h : s.NoWalk c p) : s.findWalk c p = none := by
  unfold State.findWalk
  rw [List.find?_eq_none]
  intro i _
  cases hs : s.slot i with
  | none => simp [walkOfKey]
  | some w =>
    simp only [walkOfKey, Bool.and_eq_true, Bool.not_eq_true', beq_iff_eq]
    rintro ⟨⟨ha, hc⟩, hp⟩
    exact h i w hs ha hc hp

/-- The one walk of a key is found (R89). -/
theorem findWalk_of_unique {s : State} {c : ContextNumber} {p : PageNumber} {i : SlotNumber} {w : Walk} (hs : s.slot i = some w)
    (ha : w.abandoned = false) (hc : w.context = c) (hp : w.page = p)
    (hu : ∀ j v, s.slot j = some v → v.abandoned = false → v.context = c → v.page = p → j = i) :
    s.findWalk c p = some i := by
  have hi : walkOfKey c p (s.slot i) = true := by simp [hs, walkOfKey, ha, hc, hp]
  cases hf : s.findWalk c p with
  | none =>
    unfold State.findWalk at hf
    rw [List.find?_eq_none] at hf
    exact absurd hi (hf i (by fin_cases i <;> simp [allSlots]))
  | some j =>
    unfold State.findWalk at hf
    have hj := List.find?_some hf
    cases hsj : s.slot j with
    | none => simp [hsj, walkOfKey] at hj
    | some v =>
      simp only [hsj, walkOfKey, Bool.and_eq_true, Bool.not_eq_true', beq_iff_eq] at hj
      rw [hu j v hsj hj.1.1 hj.1.2 hj.2]

/-! ## Lookups -/

/-- The region check of client data (R9, R112). -/
theorem admitsClient_iff (s : State) (k : ReqKind) (a : PhysAddr) :
    admitsClient (s.regionOf a) k = true ↔ s.RegionAdmits k a := by
  cases k <;> cases h : s.regionOf a <;> simp [State.RegionAdmits, admitsClient, h]

/-- The permission check of a hit (R8, R71). -/
theorem accessFault_of_denied {s : State} {c : ContextNumber} {r : Request} {e : PageEntry} {cause : FaultCause}
    (h : s.HitFault c r e cause) : accessFault s c r e = some cause := by
  unfold accessFault
  have hr := admitsClient_iff s r.kind (dataAddress e.frame (clientOffset r.address))
  rcases h with ⟨h1, h2, h3⟩ | ⟨h1, h2, h3⟩ | ⟨h1, h2, h3⟩
  · rw [h2] at h1 ⊢
    simp only [State.Permits] at h1
    simp [h1, h3]
  · rw [h2] at h1 ⊢
    simp only [State.Permits, not_and] at h1
    cases hw : e.writePermit
    · simp [h3]
    · simp [h1 hw, h3]
  · cases hk : r.kind <;> rw [hk] at h1 h2 hr <;> simp only [State.Permits] at h1 <;> simp [← hr] at h2 <;>
      simp [h1, h2, h3]

/-- A hit that passes both checks (R71). -/
theorem accessFault_of_ready {s : State} {c : ContextNumber} {r : Request} {e : PageEntry} (hp : s.Permits c r.kind e)
    (hr : s.RegionAdmits r.kind (dataAddress e.frame (clientOffset r.address))) : accessFault s c r e = none := by
  rw [← admitsClient_iff] at hr
  unfold accessFault
  cases hk : r.kind <;> rw [hk] at hp hr <;> simp only [State.Permits] at hp <;> simp [hp, hr]

/-- The limit check in terms of the client address (R3). -/
theorem directoryIndex_clientPage (a : Word) : (directoryIndex (clientPage a)).toNat = a.toNat / 4194304 := by
  simp only [clientPage, directoryIndex, BitVec.extractLsb'_toNat, Nat.shiftRight_eq_div_pow]
  omega

/-- The key of an entry that a lookup finds (R70). -/
theorem pageLookup_key {s : State} {c : ContextNumber} {p : PageNumber} {e : PageEntry} (h : s.pageLookup c p = some e) :
    e.context = c ∧ e.page = p := by
  unfold State.pageLookup at h
  have := List.find?_some h
  simpa [PageEntry.hasKey] using this

/-- A head that passes checks 1 to 4 of presentation is looked up (R48). -/
theorem present_of_translated {s : State} {h : HeadId} {e : Entry} {q : List Entry} (hq : s.queue h = e :: q)
    (hm : e.malformed = false) (ha : e.abortMark = false) (ht : s.Translated h e.request) :
    present h s = lookupHead (s.boundContext h) e.request h s := by
  unfold present
  have hl : ¬ (s.context (s.boundContext h)).limit.toNat ≤ (directoryIndex (clientPage e.request.address)).toNat := by
    rw [directoryIndex_clientPage]
    exact not_le.2 ht.limit
  simp [State.head?_of_queue hq, hm, ha, ht.active, hl]

/-- A head whose lookup hits and is admitted is READY (R71, R72). -/
theorem lookupHead_ready {s : State} {h : HeadId} {e : Entry} {q : List Entry} {entry : PageEntry} {a : PhysAddr}
    {c : ContextNumber} (hq : s.queue h = e :: q) (hp : s.pageLookup c (clientPage e.request.address) = some entry)
    (hr : s.HitReady c e.request entry a) :
    lookupHead c e.request h s =
      { s.setQueue h ({ e with state := .ready a } :: q) with pageCache := s.pageFront entry } := by
  unfold lookupHead
  simp only [hp]
  have h1 := accessFault_of_ready hr.permits (hr.address ▸ hr.region)
  simp only [h1]
  unfold admitHit
  have hk : ¬ (e.request.kind = .write ∧ entry.modifiedKnown = false) := by
    rintro ⟨k1, k2⟩
    rw [hr.known k1] at k2
    exact absurd k2 (by simp)
  rw [if_neg hk]
  have hq' : (s.touchPage entry).queue h = e :: q := hq
  rw [State.setHeadState_of_queue _ hq', ← hr.address]
  rfl

/-! ## Operand words -/

/-- The context an operand word names is a legal operand (R144). -/
theorem legalContext_of_names {w : Word} {c : ContextNumber} (h : operandNames w c) : legalContext w = some c := by
  have hv : (operandContext w).toNat = c.val := by
    rw [← h]
    simp only [operandContext, BitVec.extractLsb'_toNat, Nat.shiftRight_eq_div_pow]
    have := w.isLt
    omega
  unfold legalContext
  rw [dif_pos (by rw [hv]; exact c.isLt)]
  exact congrArg some (Fin.ext hv)

end Sys2Proof.Machine
end

