-- ==== Sys2Proof/Laws/Presents.lean ====
section
/-! SUPPORT. The relations of Safety.lean that say what presentation, the delivery of a walk's fault and the re-presentation of the slot wait list do
(R48, R91, R98, R100) hold of exactly the state that `present`, `presentAll`, `deliverFault` and `representWaiting` compute. -/

namespace Sys2Proof.Machine

/-! ## Slots in ascending number -/

theorem find?_allSlots_some {f : SlotNumber → Bool} {i : SlotNumber} (h1 : f i = true) (h2 : ∀ j, j < i → f j = false) :
    allSlots.find? f = some i := by
  unfold allSlots
  fin_cases i
  · simp [List.find?, show f 0 = true from h1]
  · simp [List.find?, show f 1 = true from h1, h2 0 (by decide)]
  · simp [List.find?, show f 2 = true from h1, h2 0 (by decide), h2 1 (by decide)]
  · simp [List.find?, show f 3 = true from h1, h2 0 (by decide), h2 1 (by decide), h2 2 (by decide)]

/-- Among the slots with a property there is a lowest-numbered one, or no slot has it. -/
theorem lowest_slot (P : SlotNumber → Prop) : (∃ i, P i ∧ ∀ j, j < i → ¬ P j) ∨ ∀ i, ¬ P i := by
  by_cases h0 : P 0
  · exact .inl ⟨0, h0, fun j hj => absurd hj (by simp)⟩
  by_cases h1 : P 1
  · exact .inl ⟨1, h1, fun j hj => by fin_cases j <;> first | exact h0 | exact absurd hj (by decide)⟩
  by_cases h2 : P 2
  · exact .inl ⟨2, h2, fun j hj => by fin_cases j <;> first | exact h0 | exact h1 | exact absurd hj (by decide)⟩
  by_cases h3 : P 3
  · exact .inl ⟨3, h3, fun j hj => by fin_cases j <;> first | exact h0 | exact h1 | exact h2 | exact absurd hj (by decide)⟩
  · exact .inr fun i => by fin_cases i <;> assumption

/-- The walk that a head joins is the one found (R89). -/
theorem findWalk_of_walkOf {s : State} {c : ContextNumber} {p : PageNumber} {i : SlotNumber} {w : Walk} (h : s.WalkOf c p i w) :
    s.findWalk c p = some i := by
  refine find?_allSlots_some (by simp [h.busy, walkOfKey, h.live, h.context, h.page]) fun j hj => ?_
  cases hs : s.slot j with
  | none => rfl
  | some v =>
    by_cases ha : v.abandoned = false
    · by_cases hc : v.context = c
      · simp [walkOfKey, h.lowest j v hj hs ha hc]
      · simp [walkOfKey, hc]
    · simp [walkOfKey, ha]

theorem walkOf_or_noWalk (s : State) (c : ContextNumber) (p : PageNumber) : (∃ i w, s.WalkOf c p i w) ∨ s.NoWalk c p := by
  rcases lowest_slot fun i => ∃ w, s.slot i = some w ∧ w.abandoned = false ∧ w.context = c ∧ w.page = p with
    ⟨i, ⟨w, h1, h2, h3, h4⟩, hl⟩ | hn
  · exact .inl ⟨i, w, h1, h2, h3, h4, fun j v hj a1 a2 a3 a4 => hl j hj ⟨v, a1, a2, a3, a4⟩⟩
  · exact .inr fun i w a1 a2 a3 a4 => hn i ⟨w, a1, a2, a3, a4⟩

/-! ## The need of a walk -/

/-- The region check of a table access (R112, R115). -/
theorem admitsTable_iff (s : State) (op : TxnOp) (a : PhysAddr) (hop : ∀ n d, op ≠ .write n d) :
    admitsTable (s.regionOf a) op = true ↔ s.TableAdmits op a := by
  cases op with
  | read n => cases h : s.regionOf a <;> simp [State.TableAdmits, admitsTable, h]
  | write n d => exact absurd rfl (hop n d)
  | update m => cases h : s.regionOf a <;> simp [State.TableAdmits, admitsTable, h]

/-- The outcome of the check on the first transaction of a walk (R92). -/
theorem formTransaction_eq (s : State) (w : Walk) (stage : WalkStage) (op : TxnOp) (a : PhysAddr) (hop : ∀ n d, op ≠ .write n d) :
    (s.TableAdmits op a → s.memState = .running →
      formTransaction s w stage op a = .ok { w with stage := stage, op := op, address := a, awaiting := true }) ∧
    (s.TableAdmits op a → s.memState ≠ .running → formTransaction s w stage op a = .error .tableError) ∧
    (¬ s.TableAdmits op a → formTransaction s w stage op a = .error .tableRegion) := by
  have h := admitsTable_iff s op a hop
  unfold formTransaction
  exact ⟨fun h1 h2 => by rw [if_pos (h.2 h1), if_pos h2], fun h1 h2 => by rw [if_pos (h.2 h1), if_neg h2],
    fun h1 => by rw [if_neg fun hh => h1 (h.1 hh)]⟩

/-- A walk without a table frame enters its directory stage: the directory cache it leaves, and the walk or the cause that the first transaction gives
(R92, R93). -/
theorem enterDirectory_eq {s : State} {w : Walk} {stage : WalkStage} {op : TxnOp} {a : PhysAddr} {frame : Option Frame}
    (hw : w.tableFrame = none) (hf : s.FirstAccess w.kind w.context w.page stage op a frame) :
    (s.TableAdmits op a → s.memState = .running →
      enterDirectory w s =
        ({ s with dirCache := s.dirFront w.context (directoryIndex w.page) },
          .ok { w with stage := stage, op := op, address := a, awaiting := true, tableFrame := frame })) ∧
    (∀ cause, s.TableRefuses op a cause →
      enterDirectory w s = ({ s with dirCache := s.dirFront w.context (directoryIndex w.page) }, .error cause)) := by
  have done : ∀ (v : Walk) (st : WalkStage) (o : TxnOp) (b : PhysAddr), (∀ n d, o ≠ .write n d) → ∀ x : State,
      enterDirectory w s = (x, formTransaction s v st o b) →
      (s.TableAdmits o b → s.memState = .running →
        enterDirectory w s = (x, .ok { v with stage := st, op := o, address := b, awaiting := true })) ∧
      (∀ cause, s.TableRefuses o b cause → enterDirectory w s = (x, .error cause)) := by
    intro v st o b ho x he
    obtain ⟨h1, h2, h3⟩ := formTransaction_eq s v st o b ho
    refine ⟨fun a1 a2 => by rw [he, h1 a1 a2], fun cause hc => ?_⟩
    rcases hc with ⟨a1, rfl⟩ | ⟨a1, a2, rfl⟩
    · rw [he, h3 a1]
    · rw [he, h2 a1 a2]
  have hit : ∀ d, s.dirLookup w.context (directoryIndex w.page) = some d →
      enterDirectory w s = ({ s with dirCache := s.dirFront w.context (directoryIndex w.page) }, formTableAccess s w d.tableFrame) := by
    intro d hd
    unfold enterDirectory State.dirFront
    rw [hd]
    rfl
  cases hf with
  | miss hm =>
    obtain ⟨k, c, p, st, sl, ab, wt, o, ad, aw, tf, ew, wa⟩ := w
    dsimp only at hw
    subst hw
    refine done _ _ _ _ (by simp) _ ?_
    unfold enterDirectory State.dirFront
    rw [hm]
  | fill d hd hk =>
    refine done { w with tableFrame := some d.tableFrame } _ _ _ (by simp) _ ?_
    rw [hit d hd]
    unfold formTableAccess
    rw [hk]
  | flag d hd hk =>
    refine done { w with tableFrame := some d.tableFrame } _ _ _ (by simp) _ ?_
    rw [hit d hd]
    unfold formTableAccess
    rw [hk]

/-- What a walk first asks depends on the directory cache and on the context's directory frame only. -/
theorem firstAccess_of {s t : State} {k : WalkKind} {c : ContextNumber} {p : PageNumber} {stage : WalkStage} {op : TxnOp} {a : PhysAddr}
    {frame : Option Frame} (h1 : t.dirCache = s.dirCache) (h2 : t.contexts = s.contexts) (h : s.FirstAccess k c p stage op a frame) :
    t.FirstAccess k c p stage op a frame := by
  have hl : t.dirLookup c (directoryIndex p) = s.dirLookup c (directoryIndex p) := by unfold State.dirLookup; rw [h1]
  have hc : t.context c = s.context c := by unfold State.context; rw [h2]
  cases h with
  | miss hm => rw [← hc]; exact .miss (hl.trans hm)
  | fill d hd hk => exact .fill d (hl.trans hd) hk
  | flag d hd hk => exact .flag d (hl.trans hd) hk

/-- What a walk first asks is one thing. -/
theorem firstAccess_total (s : State) (k : WalkKind) (c : ContextNumber) (p : PageNumber) :
    ∃ stage op a frame, s.FirstAccess k c p stage op a frame := by
  cases hd : s.dirLookup c (directoryIndex p) with
  | none => exact ⟨_, _, _, _, .miss hd⟩
  | some d =>
    cases k with
    | fill => exact ⟨_, _, _, _, .fill d hd rfl⟩
    | flag => exact ⟨_, _, _, _, .flag d hd rfl⟩

/-- A table transaction is formed or refused (R92). -/
theorem tableRefuses_total (s : State) (op : TxnOp) (a : PhysAddr) :
    (s.TableAdmits op a ∧ s.memState = .running) ∨ ∃ cause, s.TableRefuses op a cause := by
  by_cases h : s.TableAdmits op a
  · by_cases hr : s.memState = .running
    · exact .inl ⟨h, hr⟩
    · exact .inr ⟨_, .inr ⟨h, hr, rfl⟩⟩
  · exact .inr ⟨_, .inl ⟨h, rfl⟩⟩

/-- A walk as it starts enters its directory stage, after a lookup that left the page cache as given (R88, R92, R93). -/
theorem enterDirectory_newWalk {s : State} {k : WalkKind} {c : ContextNumber} {p : PageNumber} {stage : WalkStage} {op : TxnOp} {a : PhysAddr}
    {frame : Option Frame} (h : HeadId) (hf : s.FirstAccess k c p stage op a frame) (pages : List PageEntry) :
    (s.TableAdmits op a → s.memState = .running →
      enterDirectory (newWalk k c p h) { s with pageCache := pages } =
        ({ s with pageCache := pages, dirCache := s.dirFront c (directoryIndex p) }, .ok (startedWalk k c p h stage op a frame))) ∧
    (∀ cause, s.TableRefuses op a cause →
      enterDirectory (newWalk k c p h) { s with pageCache := pages } =
        ({ s with pageCache := pages, dirCache := s.dirFront c (directoryIndex p) }, .error cause)) :=
  enterDirectory_eq (s := { s with pageCache := pages }) (w := newWalk k c p h) rfl (firstAccess_of (s := s) rfl rfl hf)

/-- A head that passes its checks and needs a walk is handed to the walker with the page cache as the lookup left it (R72, R73). -/
theorem present_of_needsWalk {s : State} {h : HeadId} {e : Entry} {q : List Entry} {k : WalkKind} {pages : List PageEntry}
    (hq : s.queue h = e :: q) (hu : e.Unmarked) (ht : s.Translated h e.request) (hn : s.NeedsWalk (s.boundContext h) e.request k pages) :
    present h s = needWalk k (s.boundContext h) (clientPage e.request.address) h { s with pageCache := pages } := by
  rw [present_of_translated hq hu.1 hu.2 ht]
  unfold lookupHead
  cases hn with
  | miss hm => rw [hm]
  | flag x hx hk hm hp hr =>
    rw [hx]
    dsimp only
    rw [accessFault_of_ready (by rw [hk]; exact hp) (by rw [hk]; exact hr)]
    dsimp only
    unfold admitHit
    rw [if_pos ⟨hk, hm⟩]
    rfl

/-- With no walk of the key, a FREE slot starts one, and with no slot FREE the head waits (R88, R90). -/
theorem needWalk_start {s : State} (k : WalkKind) {c : ContextNumber} {p : PageNumber} (h : HeadId) {i : SlotNumber} (hw : s.NoWalk c p)
    (hf : s.freeSlot? = some i) : needWalk k c p h s = startWalk i k c p h s := by
  simp only [needWalk, findWalk_of_noWalk hw, hf]

theorem needWalk_wait {s : State} (k : WalkKind) {c : ContextNumber} {p : PageNumber} (h : HeadId) (hw : s.NoWalk c p)
    (hf : s.freeSlot? = none) : needWalk k c p h s = { s.setHeadState h .waitSlot with slotWait := s.slotWait ++ [h] } := by
  simp only [needWalk, findWalk_of_noWalk hw, hf]

/-! ## One presentation -/

/-- The relation names the state that `present` computes. -/
theorem present_of_presents {s u : State} {h : HeadId} (hp : s.Presents h u) : present h s = u := by
  have hfree : ∀ pages i, s.LowestFree i → State.freeSlot? { s with pageCache := pages } = some i :=
    fun pages i hi => freeSlot?_of_lowest (s := { s with pageCache := pages }) hi
  have hno : ∀ pages c p, s.NoWalk c p → State.NoWalk { s with pageCache := pages } c p := fun _ _ _ hn => hn
  cases hp with
  | empty hq =>
    have : s.head? h = none := by unfold State.head?; rw [hq]; rfl
    unfold present
    rw [this]
  | malformed e q hq hm =>
    unfold present
    rw [State.head?_of_queue hq]
    dsimp only
    rw [if_pos hm]
    exact State.setHeadState_of_queue _ hq
  | marked e q hq hm ha =>
    unfold present
    rw [State.head?_of_queue hq]
    dsimp only
    rw [if_neg (by simp [hm]), if_pos ha]
    exact State.setHeadState_of_queue _ hq
  | noContext e q hq hu hc =>
    unfold present
    rw [State.head?_of_queue hq]
    dsimp only
    rw [if_neg (by simp [hu.1]), if_neg (by simp [hu.2]), if_pos hc]
    exact State.setHeadState_of_queue _ hq
  | refused e q cause pages dirs hq hu hr =>
    cases hr with
    | limit hc hl =>
      unfold present
      rw [State.head?_of_queue hq]
      simp only [hu.1, hu.2, Bool.false_eq_true, ↓reduceIte, ne_eq, hc, not_true_eq_false, directoryIndex_clientPage, hl]
    | hit x cause ht hx hf =>
      rw [present_of_translated hq hu.1 hu.2 ht]
      unfold lookupHead
      rw [hx]
      dsimp only
      rw [accessFault_of_denied hf]
      rfl
    | table k pages i stage op a frame cause ht hn hw hi hf hc =>
      rw [present_of_needsWalk hq hu ht hn, needWalk_start k h (hno pages _ _ hw) (hfree pages i hi)]
      unfold startWalk
      rw [(enterDirectory_newWalk h hf pages).2 cause hc]
  | ready e q x a hq hu ht hx hr =>
    rw [present_of_translated hq hu.1 hu.2 ht, lookupHead_ready hq hx hr]
  | joins e q k pages i w hq hu ht hn hw =>
    rw [present_of_needsWalk hq hu ht hn]
    have hfind : State.findWalk { s with pageCache := pages } (s.boundContext h) (clientPage e.request.address) = some i :=
      findWalk_of_walkOf (s := s) hw
    have hs : State.slot { s with pageCache := pages } i = some w := hw.busy
    have hset := State.setHeadState_of_queue (s := State.setSlot i (some { w with waiters := w.waiters ++ [h] }) { s with pageCache := pages })
      .walking hq
    unfold needWalk
    rw [hfind]
    dsimp only
    unfold joinWalk
    rw [hs]
    dsimp only
    rw [hset]
    rfl
  | starts e q i w pages hq hu hs =>
    cases hs with
    | start k pages stage op a frame ht hn hw hi hf hadm hr =>
      rw [present_of_needsWalk hq hu ht hn, needWalk_start k h (hno pages _ _ hw) (hfree pages i hi)]
      unfold startWalk
      rw [(enterDirectory_newWalk h hf pages).1 hadm hr]
      dsimp only
      have hset := State.setHeadState_of_queue
        (s := State.setSlot i (some (startedWalk k (s.boundContext h) (clientPage e.request.address) h stage op a frame))
          { s with pageCache := pages, dirCache := s.dirFront (s.boundContext h) (directoryIndex (clientPage e.request.address)) })
        .walking hq
      rw [hset]
      rfl
  | waits e q k pages hq hu ht hn hw hi =>
    have hnone : State.freeSlot? { s with pageCache := pages } = none := State.freeSlot?_none.2 hi
    rw [present_of_needsWalk hq hu ht hn, needWalk_wait k h (hno pages _ _ hw) hnone]
    have hset := State.setHeadState_of_queue (s := { s with pageCache := pages }) .waitSlot hq
    rw [hset]
    rfl

/-- Every presentation has an outcome. -/
theorem presents_total (s : State) (h : HeadId) : ∃ u, s.Presents h u := by
  cases hq : s.queue h with
  | nil => exact ⟨_, .empty hq⟩
  | cons e q =>
    by_cases hm : e.malformed = true
    · exact ⟨_, .malformed e q hq hm⟩
    have hm : e.malformed = false := by simpa using hm
    by_cases ha : e.abortMark = true
    · exact ⟨_, .marked e q hq hm ha⟩
    have hu : e.Unmarked := ⟨hm, by simpa using ha⟩
    by_cases hc : (s.context (s.boundContext h)).state = .active
    swap
    · exact ⟨_, .noContext e q hq hu hc⟩
    by_cases hl : (s.context (s.boundContext h)).limit.toNat ≤ e.request.address.toNat / 4194304
    · exact ⟨_, .refused e q _ _ _ hq hu (.limit hc hl)⟩
    have ht : s.Translated h e.request := ⟨hc, not_le.1 hl⟩
    have need : ∀ k pages, s.NeedsWalk (s.boundContext h) e.request k pages → ∃ u, s.Presents h u := by
      intro k pages hn
      rcases walkOf_or_noWalk s (s.boundContext h) (clientPage e.request.address) with ⟨i, w, hw⟩ | hw
      · exact ⟨_, .joins e q k pages i w hq hu ht hn hw⟩
      rcases lowest_slot fun i => s.slot i = none with ⟨i, hi⟩ | hi
      swap
      · exact ⟨_, .waits e q k pages hq hu ht hn hw hi⟩
      obtain ⟨stage, op, a, frame, hf⟩ := firstAccess_total s k (s.boundContext h) (clientPage e.request.address)
      rcases tableRefuses_total s op a with ⟨hadm, hr⟩ | ⟨cause, hc⟩
      · exact ⟨_, .starts e q i _ pages hq hu (.start k pages stage op a frame ht hn hw hi hf hadm hr)⟩
      · exact ⟨_, .refused e q _ _ _ hq hu (.table k pages i stage op a frame cause ht hn hw hi hf hc)⟩
    cases hx : s.pageLookup (s.boundContext h) (clientPage e.request.address) with
    | none => exact need _ _ (.miss hx)
    | some x =>
      by_cases hp : s.Permits (s.boundContext h) e.request.kind x
      swap
      · cases hk : e.request.kind with
        | read => exact ⟨_, .refused e q _ _ _ hq hu (.hit x _ ht hx (.inl ⟨hp, hk, rfl⟩))⟩
        | write => exact ⟨_, .refused e q _ _ _ hq hu (.hit x _ ht hx (.inr (.inl ⟨hp, hk, rfl⟩)))⟩
      by_cases hr : s.RegionAdmits e.request.kind (dataAddress x.frame (clientOffset e.request.address))
      swap
      · exact ⟨_, .refused e q _ _ _ hq hu (.hit x _ ht hx (.inr (.inr ⟨hp, hr, rfl⟩)))⟩
      by_cases hk : e.request.kind = .write ∧ x.modifiedKnown = false
      · exact need _ _ (.flag x hx hk.1 hk.2 (hk.1 ▸ hp) (hk.1 ▸ hr))
      · refine ⟨_, .ready e q x _ hq hu ht hx ⟨rfl, hp, hr, fun hw => ?_⟩⟩
        by_contra hne
        exact hk ⟨hw, by simpa using hne⟩

theorem presents_present (h : HeadId) (s : State) : s.Presents h (present h s) := by
  obtain ⟨u, hu⟩ := presents_total s h
  rwa [present_of_presents hu]

/-- What one presentation does, said once (R48). -/
theorem presents_iff {s u : State} {h : HeadId} : s.Presents h u ↔ u = present h s :=
  ⟨fun hp => (present_of_presents hp).symm, fun hu => hu ▸ presents_present h s⟩

/-! ## Presentations and faults in turn -/

theorem presentsInTurn_iff {s u : State} {hs : List HeadId} : PresentsInTurn s hs u ↔ u = presentAll hs s := by
  induction hs generalizing s with
  | nil =>
    refine ⟨fun h => by cases h; rfl, fun h => ?_⟩
    subst h; exact .nil _
  | cons a l ih =>
    constructor
    · intro h
      cases h with
      | cons _ _ _ t _ h1 h2 =>
        rw [presents_iff] at h1
        subst h1
        exact ih.1 h2
    · intro h
      exact .cons _ _ _ _ _ (presents_present a s) (ih.2 h)

theorem faultsInTurn_iff {cause : FaultCause} {s u : State} {hs : List HeadId} :
    FaultsInTurn cause s hs u ↔ u = deliverFault cause hs s := by
  induction hs generalizing s with
  | nil =>
    refine ⟨fun h => by cases h; rfl, fun h => ?_⟩
    subst h; exact .nil _
  | cons a l ih =>
    constructor
    · intro h
      cases h with
      | cons _ _ _ _ h1 => exact ih.1 h1
    · intro h
      exact .cons _ _ _ _ (ih.2 h)

/-! ## The slot wait list -/

/-- A presentation leaves the slot wait list settled when it was (R91). -/
theorem present_offered {s : State} (h : HeadId) (ho : s.Offered) : (present h s).Offered := by
  by_cases hf : s.freeSlot? = none
  · intro hn
    refine absurd ?_ hn
    rw [State.freeSlot?_none] at hf ⊢
    intro i
    have hp := presents_present h s
    have hset : ∀ (t : State) (j : SlotNumber) (w : Walk), (∀ i, t.slot i = (s.setSlot j (some w)).slot i) → t.slot i ≠ none := by
      intro t j w ht
      rw [ht, State.slot_setSlot]
      split
      · simp
      · exact hf i
    generalize present h s = u at hp
    cases hp with
    | empty => exact hf i
    | malformed => exact hf i
    | marked => exact hf i
    | noContext => exact hf i
    | refused => rw [State.slot_takeHeadFault]; exact hf i
    | ready => exact hf i
    | joins e q k pages j w => exact hset _ j _ fun _ => rfl
    | starts e q j w => exact hset _ j w fun _ => rfl
    | waits => exact hf i
  · intro _
    rw [present_slotWait h s hf]
    exact ho hf

/-- With the slot wait list settled, presenting a head is the whole of `presentHead`. -/
theorem presentHead_eq_present {s : State} (h : HeadId) (ho : s.Offered) : presentHead h s = present h s :=
  presentHead_of_offered h (present_offered h ho)

/-- Turns enough for every head of the list do what the relation says (R91). -/
theorem represents_drainWait (n : Nat) {s : State} (hn : s.slotWait.length ≤ n) : s.Represents (drainWait n s) := by
  induction n generalizing s with
  | zero => exact .done s fun _ => List.length_eq_zero_iff.1 (Nat.le_zero.1 hn)
  | succ n ih =>
    unfold drainWait
    split
    · rename_i i h rest hf hw
      have hf' : State.freeSlot? { s with slotWait := rest } ≠ none := by
        show s.freeSlot? ≠ none
        rw [hf]; simp
      refine .turn s _ _ h rest ?_ hw (presents_present h _) (ih ?_)
      · by_contra hne
        exact absurd (State.freeSlot?_none.2 fun i hi => hne ⟨i, hi⟩) (by rw [hf]; simp)
      · rw [present_slotWait h _ hf']
        rw [hw] at hn
        simpa using hn
    · rename_i hx
      refine .done s fun hf => ?_
      obtain ⟨i, hi⟩ := Option.ne_none_iff_exists'.1 hf
      cases hw : s.slotWait with
      | nil => rfl
      | cons h rest => exact absurd hw (hx i h rest hi)

theorem represents_representWaiting (s : State) : s.Represents (representWaiting s) := represents_drainWait _ (Nat.le_refl _)

theorem Represents.unique {s u v : State} (hu : s.Represents u) (hv : s.Represents v) : u = v := by
  have clash : ∀ {s : State} {h : HeadId} {w : List HeadId}, s.Offered → (∃ i, s.slot i = none) → s.slotWait = h :: w → False := by
    intro s h w ho hf hw
    obtain ⟨i, hi⟩ := hf
    have := ho fun hn => State.freeSlot?_none.1 hn i hi
    rw [hw] at this
    exact absurd this (by simp)
  induction hu with
  | done s ho =>
    cases hv with
    | done => rfl
    | turn _ t _ h w hf hw => exact (clash ho hf hw).elim
  | turn s t u h w hf hw hp _ ih =>
    cases hv with
    | done _ ho => exact (clash ho hf hw).elim
    | turn _ t' _ h' w' _ hw' hp' hr =>
      rw [hw] at hw'
      injection hw' with a1 a2
      subst a1 a2
      rw [presents_iff] at hp hp'
      subst hp hp'
      exact ih hr

theorem represents_iff {s u : State} : s.Represents u ↔ u = representWaiting s :=
  ⟨fun h => Represents.unique h (represents_representWaiting s), fun h => h ▸ represents_representWaiting s⟩

/-- A presentation, and the re-presentation after it, are `presentHead`. -/
theorem presentHead_of_presents {s u v : State} {h : HeadId} (h1 : s.Presents h u) (h2 : u.Represents v) : presentHead h s = v := by
  rw [presents_iff] at h1
  rw [represents_iff] at h2
  rw [h2, h1]
  rfl

/-- One turn is all when the front head takes the only FREE slot (R91). -/
theorem represents_start {x : State} {k : HeadId} {waiting : List HeadId} {e : Entry}
    {q : List Entry} {j : SlotNumber} {v : Walk} {pages : List PageEntry} (hs : x.slotWait = k :: waiting) (hf : ∃ i, x.slot i = none)
    (honly : ∀ i, x.slot i = none → i = j)
    (hq : State.queue { x with slotWait := waiting } k = e :: q) (hu : e.Unmarked)
    (hst : State.StartsWalk { x with slotWait := waiting } k e.request j v pages) :
    x.Represents (State.walkStarted { x with slotWait := waiting } k e q j v pages) := by
  refine .turn _ _ _ k waiting hf hs (.starts e q j v pages hq hu hst) (.done _ fun hn => absurd ?_ hn)
  rw [State.freeSlot?_none]
  intro i
  show (State.setSlot j (some v) x).slot i ≠ none
  rw [State.slot_setSlot]
  split
  · simp
  · intro h; exact absurd (honly i h).symm ‹_›

/-! ## Fills and faults -/

/-- After a fill the new entry stands at the front and is the one a lookup of its key finds (R76). -/
theorem pageFront_filledPages {s x : State} {entry : PageEntry} (hx : x.pageCache = s.filledPages entry) :
    x.pageFront entry = s.filledPages entry ∧ x.pageLookup entry.context entry.page = some entry := by
  have hcons : ∃ l, s.filledPages entry = entry :: l ∧ ∀ y ∈ l, ¬ (y.context = entry.context ∧ y.page = entry.page) := by
    unfold State.filledPages
    have hnone : s.pageLookup entry.context entry.page = none → ∀ y ∈ s.pageCache, ¬ (y.context = entry.context ∧ y.page = entry.page) := by
      intro h y hy
      unfold State.pageLookup at h
      rw [List.find?_eq_none] at h
      have := h y hy
      simpa [PageEntry.hasKey] using this
    split
    · refine ⟨_, rfl, fun y hy => ?_⟩
      have := (List.mem_filter.1 hy).2
      simp at this
      tauto
    · rename_i h
      simp only [ne_eq, not_not] at h
      split
      · exact ⟨_, rfl, hnone h⟩
      · exact ⟨_, rfl, fun y hy => hnone h y (List.mem_of_mem_take hy)⟩
  obtain ⟨l, h1, h2⟩ := hcons
  constructor
  · unfold State.pageFront
    rw [hx, h1]
    congr 1
    simp
    intro y hy
    have := h2 y hy
    tauto
  · unfold State.pageLookup
    rw [hx, h1]
    simp [PageEntry.hasKey]

/-- What a head fault does to the fault log (R124, R125, R129). -/
theorem takeHeadFault_log (cause : FaultCause) {h : HeadId} {e : Entry} {q : List Entry} {x : State} (hq : x.queue h = e :: q) :
    (x.faultLog.length < 16 →
      (takeHeadFault cause h x).faultLog = x.faultLog ++ [x.headRecord h e.request x.nextSeq cause] ∧
        (takeHeadFault cause h x).nextSeq = x.nextSeq + 1#16) ∧
    (16 ≤ x.faultLog.length →
      takeHeadFault cause h x =
        { x.setQueue h ({ e with state := .finishing .faulted } :: q) with irqStatus := x.irqStatus ||| 0x02#8 }) := by
  constructor
  · intro hl
    unfold takeHeadFault
    rw [State.head?_of_queue hq]
    have : x.logHasRoom = true := by simp [State.logHasRoom, Config.faultLogSize, hl]
    simp only [this, ↓reduceIte]
    unfold State.headRecord
    cases hp : (x.context (x.boundContext h)).policy <;> exact ⟨rfl, rfl⟩
  · intro hl
    unfold takeHeadFault
    rw [State.head?_of_queue hq]
    have : x.logHasRoom = false := by simp [State.logHasRoom, Config.faultLogSize, hl]
    simp only [this]
    rw [← State.setHeadState_of_queue _ hq]
    rfl

/-- A head fault leaves the other queues alone (R129). -/
theorem takeHeadFault_queue (cause : FaultCause) {h k : HeadId} (x : State) (hk : h ≠ k) :
    (takeHeadFault cause h x).queue k = x.queue k := by
  unfold takeHeadFault
  have : ∀ st, (x.setHeadState h st).queue k = x.queue k := fun st => by rw [State.queue_setHeadState, if_neg hk]
  split
  · rfl
  · split
    · split <;> exact this _
    · exact this _

/-- Two head faults, one after the other: both records in order, or the first alone where it fills the log (R100 step 3). -/
theorem takeHeadFault_two {x : State} (c1 c2 : FaultCause) {h1 h2 : HeadId} {e1 e2 : Entry} {q1 q2 : List Entry} (hne : h1 ≠ h2)
    (a1 : x.queue h1 = e1 :: q1) (a2 : x.queue h2 = e2 :: q2) :
    (x.faultLog.length ≤ 14 →
      (takeHeadFault c2 h2 (takeHeadFault c1 h1 x)).faultLog =
        x.faultLog ++ [x.headRecord h1 e1.request x.nextSeq c1, x.headRecord h2 e2.request (x.nextSeq + 1#16) c2]) ∧
    (x.faultLog.length = 15 →
      (takeHeadFault c2 h2 (takeHeadFault c1 h1 x)).faultLog = x.faultLog ++ [x.headRecord h1 e1.request x.nextSeq c1] ∧
        (takeHeadFault c2 h2 (takeHeadFault c1 h1 x)).queue h2 = { e2 with state := .finishing .faulted } :: q2 ∧
        (takeHeadFault c2 h2 (takeHeadFault c1 h1 x)).irqStatus.getLsbD 1 = true) := by
  have b2 : (takeHeadFault c1 h1 x).queue h2 = e2 :: q2 := by rw [takeHeadFault_queue _ _ hne, a2]
  have ho := outside_takeHeadFault c1 h1 x
  have hrec : ∀ n, (takeHeadFault c1 h1 x).headRecord h2 e2.request n c2 = x.headRecord h2 e2.request n c2 := by
    intro n
    unfold State.headRecord
    have : (takeHeadFault c1 h1 x).boundContext h2 = x.boundContext h2 := State.outside_binding ho _
    rw [this, State.outside_context ho]
  constructor
  · intro hl
    obtain ⟨r1, r2⟩ := (takeHeadFault_log c1 a1).1 (by omega)
    rw [((takeHeadFault_log c2 b2).1 (by rw [r1]; simp; omega)).1, r1, r2, hrec]
    simp
  · intro hl
    obtain ⟨r1, r2⟩ := (takeHeadFault_log c1 a1).1 (by omega)
    rw [(takeHeadFault_log c2 b2).2 (by rw [r1]; simp; omega)]
    refine ⟨by rw [← r1]; rfl, ?_, ?_⟩
    · show (State.setQueue h2 _ _).queue h2 = _
      simp
    · show ((takeHeadFault c1 h1 x).irqStatus ||| 2#8).getLsbD 1 = true
      simp

/-! ## Presentation and the command queue -/

/-- The state with another command queue, other counts and another operand word. -/
def State.withUnit (l : List Command) (n m : BitVec 16) (w : Word) (s : State) : State :=
  { s with commands := l, takenCount := n, completedCount := m, operandWord := w }

/-- An operation reads and writes nothing of the command queue, its counts and the operand word. -/
def UnitBlind (g : State → State) : Prop :=
  ∀ (l : List Command) (n m : BitVec 16) (w : Word) (s : State), g (s.withUnit l n m w) = (g s).withUnit l n m w

theorem takeHeadFault_unitBlind (cause : FaultCause) (h : HeadId) : UnitBlind (takeHeadFault cause h) := by
  intro l n m w t
  unfold takeHeadFault
  have h1 : (t.withUnit l n m w).head? h = t.head? h := rfl
  rw [h1]
  split
  · rfl
  · have h2 : (t.withUnit l n m w).logHasRoom = t.logHasRoom := rfl
    have h3 : (t.withUnit l n m w).context ((t.withUnit l n m w).boundContext h) = t.context (t.boundContext h) := rfl
    simp only [h2, h3]
    split
    · split <;> rfl
    · rfl

/-- Presentation is blind to the command unit, so it may come before or after a command leaves the queue (R48). -/
theorem present_unitBlind (h : HeadId) : UnitBlind (present h) := by
  intro l n m w s
  have hp := presents_present h s
  generalize present h s = u at hp
  refine present_of_presents ?_
  cases hp with
  | empty hq => exact .empty hq
  | malformed e q hq hm => exact .malformed e q hq hm
  | marked e q hq hm ha => exact .marked e q hq hm ha
  | noContext e q hq hu hc => exact .noContext e q hq hu hc
  | refused e q cause pages dirs hq hu hr =>
    rw [← takeHeadFault_unitBlind cause h l n m w { s with pageCache := pages, dirCache := dirs }]
    refine State.Presents.refused (s := s.withUnit l n m w) e q cause pages dirs hq hu ?_
    cases hr with
    | limit hc hl => exact .limit hc hl
    | hit x cause ht hx hf => exact .hit x cause ⟨ht.1, ht.2⟩ hx hf
    | table k pages i stage op a frame cause ht hn hw hi hf hc =>
      refine .table k pages i stage op a frame cause ⟨ht.1, ht.2⟩ ?_ hw hi ?_ hc
      · cases hn with
        | miss hm => exact .miss hm
        | flag x h1 h2 h3 h4 h5 => exact .flag x h1 h2 h3 h4 h5
      · cases hf with
        | miss hm => exact .miss hm
        | fill d h1 h2 => exact .fill d h1 h2
        | flag d h1 h2 => exact .flag d h1 h2
  | ready e q x a hq hu ht hx hr => exact .ready e q x a hq hu ⟨ht.1, ht.2⟩ hx ⟨hr.1, hr.2, hr.3, hr.4⟩
  | joins e q k pages i v hq hu ht hn hw =>
    refine .joins e q k pages i v hq hu ⟨ht.1, ht.2⟩ ?_ ⟨hw.1, hw.2, hw.3, hw.4, hw.5⟩
    cases hn with
    | miss hm => exact .miss hm
    | flag x h1 h2 h3 h4 h5 => exact .flag x h1 h2 h3 h4 h5
  | starts e q i v pages hq hu hs =>
    refine State.Presents.starts (s := s.withUnit l n m w) e q i v pages hq hu ?_
    cases hs with
    | start k pages stage op a frame ht hn hw hi hf hadm hr =>
      refine State.StartsWalk.start (s := s.withUnit l n m w) k pages stage op a frame ⟨ht.1, ht.2⟩ ?_ hw hi ?_ hadm hr
      · cases hn with
        | miss hm => exact .miss hm
        | flag x h1 h2 h3 h4 h5 => exact .flag x h1 h2 h3 h4 h5
      · cases hf with
        | miss hm => exact .miss hm
        | fill d h1 h2 => exact .fill d h1 h2
        | flag d h1 h2 => exact .flag d h1 h2
  | waits e q k pages hq hu ht hn hw hi =>
    refine .waits e q k pages hq hu ⟨ht.1, ht.2⟩ ?_ hw hi
    cases hn with
    | miss hm => exact .miss hm
    | flag x h1 h2 h3 h4 h5 => exact .flag x h1 h2 h3 h4 h5

end Sys2Proof.Machine
end

