-- ==== Sys2Proof/Laws/Restarts.lean ====
section
/-! SUPPORT. The relations of Safety.lean that say what the restart of a walk and the three steps of an invalidation do (R80, R101, R102) hold of
exactly the state that `restartWalk` and `invalidate` compute. -/

namespace Sys2Proof.Machine

/-! ## The restart of a walk -/

theorem releaseSlot_filter (s : State) (i : SlotNumber) :
    s.releaseSlot i = { s.setSlot i none with startOrder := s.startOrder.filter (· ≠ i) } := by
  have hfilter : (s.startOrder.filter fun x => x != i) = s.startOrder.filter fun x => decide (x ≠ i) := by
    congr 1
    funext x
    by_cases hx : x = i <;> simp [hx]
  unfold State.releaseSlot
  rw [← hfilter]

/-- The relation names the state that `restartWalk` computes. -/
theorem restartWalk_of_restarts {s v : State} {i : SlotNumber} {w : Walk} (hi : s.slot i = some w) (h : s.Restarts i w v) :
    restartWalk i w s = v := by
  have henter := fun stage op a frame (hf : s.FirstAccess w.kind w.context w.page stage op a frame) =>
    enterDirectory_eq (s := s) (w := { w with stage := .directory, stale := false, tableFrame := none, entryWord := none }) rfl hf
  unfold restartWalk
  cases h with
  | goes stage op a frame hf hadm hr =>
    rw [(henter stage op a frame hf).1 hadm hr]
    rfl
  | fails stage op a frame cause u v hf hc hp hrep =>
    rw [(henter stage op a frame hf).2 cause hc]
    rw [faultsInTurn_iff] at hp
    rw [represents_iff] at hrep
    subst hp hrep
    have hdrop : dropFlagged w cause { s with dirCache := s.dirFront w.context (directoryIndex w.page) } =
        { s with dirCache := s.dirFront w.context (directoryIndex w.page) } := by
      unfold dropFlagged
      refine if_neg fun hh => ?_
      rcases hc with ⟨_, rfl⟩ | ⟨_, _, rfl⟩ <;> exact absurd hh.2 (by simp)
    have hi' : State.slot { s with dirCache := s.dirFront w.context (directoryIndex w.page) } i = some w := hi
    show failWalk i cause { s with dirCache := s.dirFront w.context (directoryIndex w.page) } = _
    unfold failWalk
    rw [hi']
    dsimp only
    rw [hdrop, releaseSlot_filter]
    rfl

/-- Every restart has an outcome. -/
theorem restarts_total (s : State) (i : SlotNumber) (w : Walk) : ∃ v, s.Restarts i w v := by
  obtain ⟨stage, op, a, frame, hf⟩ := firstAccess_total s w.kind w.context w.page
  rcases tableRefuses_total s op a with ⟨hadm, hr⟩ | ⟨cause, hc⟩
  · exact ⟨_, .goes stage op a frame hf hadm hr⟩
  · exact ⟨_, .fails stage op a frame cause _ _ hf hc (faultsInTurn_iff.2 rfl) (represents_representWaiting _)⟩

/-- What the restart of a walk does, said once (R101, R102). -/
theorem restarts_iff {s v : State} {i : SlotNumber} {w : Walk} (hi : s.slot i = some w) : s.Restarts i w v ↔ v = restartWalk i w s := by
  refine ⟨fun h => (restartWalk_of_restarts hi h).symm, ?_⟩
  rintro rfl
  obtain ⟨v, hv⟩ := restarts_total s i w
  rwa [restartWalk_of_restarts hi hv]

/-! ## Busy slots stay busy -/

/-- Presentation frees no slot (R88, R89). -/
theorem present_busy (h : HeadId) {s : State} {i : SlotNumber} (hi : s.slot i ≠ none) : (present h s).slot i ≠ none := by
  have hp := presents_present h s
  have hset : ∀ (t : State) (j : SlotNumber) (w : Walk), t.slot i = (s.setSlot j (some w)).slot i → t.slot i ≠ none := by
    intro t j w ht
    rw [ht, State.slot_setSlot]
    split
    · simp
    · exact hi
  generalize present h s = u at hp
  cases hp with
  | empty => exact hi
  | malformed => exact hi
  | marked => exact hi
  | noContext => exact hi
  | refused => rw [State.slot_takeHeadFault]; exact hi
  | ready => exact hi
  | joins e q k pages j w => exact hset _ j _ rfl
  | starts e q j w => exact hset _ j w rfl
  | waits => exact hi

theorem representWaiting_busy {s : State} {i : SlotNumber} (hi : s.slot i ≠ none) : (representWaiting s).slot i ≠ none := by
  unfold representWaiting
  generalize s.slotWait.length = n
  induction n generalizing s with
  | zero => exact hi
  | succ n ih =>
    unfold drainWait
    split
    · rename_i h rest _ _
      exact ih (present_busy h (s := { s with slotWait := rest }) hi)
    · exact hi

theorem deliverFault_slot (cause : FaultCause) (hs : List HeadId) (s : State) (i : SlotNumber) :
    (deliverFault cause hs s).slot i = s.slot i := by
  unfold deliverFault
  induction hs generalizing s with
  | nil => rfl
  | cons h l ih => rw [List.foldl_cons, ih, State.slot_takeHeadFault]

/-- A restart frees no slot but, where it fails, its own (R100). -/
theorem restartWalk_busy {s : State} {i j : SlotNumber} {w : Walk} (hi : s.slot i = some w) (hij : j ≠ i) (hj : s.slot j ≠ none) :
    (restartWalk i w s).slot j ≠ none := by
  have h := (restarts_iff hi).2 rfl
  generalize restartWalk i w s = v at h
  cases h with
  | goes =>
    show (State.setSlot i _ s).slot j ≠ none
    rw [State.slot_setSlot, if_neg (Ne.symm hij)]
    exact hj
  | fails stage op a frame cause u v _ _ hp hrep =>
    rw [faultsInTurn_iff] at hp
    rw [represents_iff] at hrep
    subst hp hrep
    refine representWaiting_busy ?_
    rw [deliverFault_slot]
    show (State.setSlot i none s).slot j ≠ none
    rw [State.slot_setSlot, if_neg (Ne.symm hij)]
    exact hj

/-! ## Step 2 of an invalidation -/

/-- Marking walks one after another in ascending slot number is what the relation says (R101). -/
theorem marksInTurn_foldl {l : List SlotNumber} (hl : l.Pairwise (· < ·)) {s : State} (hb : ∀ i ∈ l, s.slot i ≠ none) :
    MarksInTurn s l (l.foldl (fun t i => markStale i t) s) := by
  induction l generalizing s with
  | nil => exact .nil s
  | cons i l ih =>
    rw [List.pairwise_cons] at hl
    obtain ⟨w, hw⟩ := Option.ne_none_iff_exists'.1 (hb i (by simp))
    have hne : ∀ j ∈ l, j ≠ i := fun j hj => ne_of_gt (hl.1 j hj)
    rw [List.foldl_cons]
    have hm : markStale i s = if w.awaiting then restartWalk i w s else s.setSlot i (some { w with stale := true }) := by
      unfold markStale
      rw [hw]
    by_cases ha : w.awaiting = true
    · rw [hm, if_pos ha]
      refine .awaiting i l s _ _ w hw ha ((restarts_iff hw).2 rfl) (ih hl.2 fun j hj => ?_)
      exact restartWalk_busy hw (hne j hj) (hb j (by simp [hj]))
    · rw [hm, if_neg ha]
      refine .outstanding i l s _ w hw (by simpa using ha) (ih hl.2 fun j hj => ?_)
      rw [State.slot_setSlot, if_neg (Ne.symm (hne j hj))]
      exact hb j (by simp [hj])

/-- The relation names one state. -/
theorem MarksInTurn.unique {l : List SlotNumber} {s u v : State} (hu : MarksInTurn s l u) (hv : MarksInTurn s l v) : u = v := by
  induction hu with
  | nil => cases hv; rfl
  | outstanding i l s u w hw ha _ ih =>
    cases hv with
    | outstanding _ _ _ _ w' hw' ha' hr =>
      rw [hw] at hw'
      injection hw' with hw'
      subst hw'
      exact ih hr
    | awaiting _ _ _ _ _ w' hw' ha' =>
      rw [hw] at hw'
      injection hw' with hw'
      subst hw'
      rw [ha] at ha'
      exact absurd ha' (by simp)
  | awaiting i l s t u w hw ha hr _ ih =>
    cases hv with
    | outstanding _ _ _ _ w' hw' ha' =>
      rw [hw] at hw'
      injection hw' with hw'
      subst hw'
      rw [ha] at ha'
      exact absurd ha' (by simp)
    | awaiting _ _ _ t' _ w' hw' ha' hr' hm =>
      rw [hw] at hw'
      injection hw' with hw'
      subst hw'
      rw [restarts_iff hw] at hr hr'
      subst hr hr'
      exact ih hm

/-- The walks that step 2 marks are those of the scope when it begins (R80 step 2). -/
theorem walksOf_filter {sc : Scope} {pages : ContextNumber → PageNumber → Bool} (hp : ∀ c p, sc.covers c p = pages c p) (s : State) :
    s.WalksOf pages (allSlots.filter fun i => walkInScope sc (s.slot i)) := by
  refine ⟨List.Pairwise.filter _ (by decide), fun i => ?_⟩
  rw [List.mem_filter]
  refine ⟨fun h => ?_, ?_⟩
  · cases hw : s.slot i with
    | none => rw [hw] at h; exact absurd h.2 (by simp [walkInScope])
    | some w =>
      rw [hw] at h
      simp only [walkInScope, Bool.and_eq_true, Bool.not_eq_true', hp] at h
      exact ⟨w, rfl, h.2⟩
  · rintro ⟨w, hw, ha, hc⟩
    refine ⟨by unfold allSlots; fin_cases i <;> simp, ?_⟩
    rw [hw]
    simp [walkInScope, ha, hp, hc]

theorem marksInTurn_markScope {sc : Scope} (s : State) :
    MarksInTurn s (allSlots.filter fun i => walkInScope sc (s.slot i)) (markScope sc s) := by
  refine marksInTurn_foldl (List.Pairwise.filter _ (by decide)) fun i hi hn => ?_
  have := (List.mem_filter.1 hi).2
  rw [hn] at this
  exact absurd this (by simp [walkInScope])

/-- Walks whose transactions are outstanding gain the mark, and nothing else changes (R101). -/
theorem markStale_foldl_outstanding {l : List SlotNumber} (hl : l.Nodup) {s : State}
    (ho : ∀ i ∈ l, ∃ w, s.slot i = some w ∧ w.awaiting = false) :
    ∃ slots : Vector (Option Walk) 4, l.foldl (fun t i => markStale i t) s = { s with slots := slots } ∧
      ∀ j : SlotNumber, slots[j.val] = if j ∈ l then (s.slot j).map fun w => { w with stale := true } else s.slot j := by
  induction l generalizing s with
  | nil => exact ⟨s.slots, rfl, fun j => by simp; rfl⟩
  | cons i l ih =>
    rw [List.nodup_cons] at hl
    obtain ⟨w, hw, ha⟩ := ho i (by simp)
    have hm : markStale i s = s.setSlot i (some { w with stale := true }) := by
      unfold markStale
      rw [hw]
      dsimp only
      rw [if_neg (by simp [ha])]
    rw [List.foldl_cons, hm]
    have hne : ∀ j ∈ l, i ≠ j := fun j hj h => hl.1 (h ▸ hj)
    obtain ⟨slots, h1, h2⟩ := ih hl.2 (s := s.setSlot i (some { w with stale := true })) fun j hj => by
      rw [State.slot_setSlot, if_neg (hne j hj)]
      exact ho j (by simp [hj])
    refine ⟨slots, h1, fun j => ?_⟩
    rw [h2, State.slot_setSlot]
    by_cases hj : j ∈ l
    · simp [hj, hne j hj]
    · by_cases hji : i = j
      · subst hji; simp [hj, hw]
      · have hji' : ¬ j = i := fun h => hji h.symm
        simp [hj, hji, hji']

/-! ## Step 3 of an invalidation -/

/-- Presentation moves no head but its own (R48). -/
theorem present_queue {h k : HeadId} (s : State) (hk : h ≠ k) : (present h s).queue k = s.queue k := by
  have hset : ∀ (t : State) (q : List Entry), (t.setQueue h q).queue k = t.queue k := fun t q => by
    rw [State.queue_setQueue, if_neg hk]
  have hp := presents_present h s
  generalize present h s = u at hp
  cases hp with
  | empty => rfl
  | malformed => exact hset _ _
  | marked => exact hset _ _
  | noContext => exact hset _ _
  | refused e q cause pages dirs => exact takeHeadFault_queue cause { s with pageCache := pages, dirCache := dirs } hk
  | ready => exact hset _ _
  | joins e q _ _ i w => exact hset (s.setSlot i _) _
  | starts e q i w => exact hset (s.setSlot i _) _
  | waits => exact hset _ _

theorem readyInScope_iff {sc : Scope} {pages : ContextNumber → PageNumber → Bool} (hp : ∀ c p, sc.covers c p = pages c p) (s : State)
    (h : HeadId) : readyInScope sc s h = true ↔ s.ReadyIn pages h := by
  unfold readyInScope State.ReadyIn State.head?
  cases hq : s.queue h with
  | nil => simp
  | cons e q =>
    simp only [List.head?_cons]
    cases he : e.state with
    | ready a => simp [he, hp]
    | _ => simp [he]

/-- The test of each head as it stands in its turn is the test of the heads as they stood at the start. -/
theorem foldl_ready_eq (sc : Scope) {l : List HeadId} (hl : l.Nodup) (s : State) :
    l.foldl (fun t h => if readyInScope sc t h then present h t else t) s = presentAll (l.filter fun h => readyInScope sc s h) s := by
  induction l generalizing s with
  | nil => rfl
  | cons h l ih =>
    rw [List.nodup_cons] at hl
    rw [List.foldl_cons]
    by_cases hr : readyInScope sc s h = true
    · have hsame : (l.filter fun k => readyInScope sc (present h s) k) = l.filter fun k => readyInScope sc s k := by
        refine List.filter_congr fun k hk => ?_
        have hne : h ≠ k := by rintro rfl; exact hl.1 hk
        have hq := present_queue s hne
        have hb : (present h s).boundContext k = s.boundContext k := State.outside_binding (present_outside h s) _
        unfold readyInScope State.head?
        rw [hq, hb]
      rw [if_pos hr, ih hl.2, hsame, List.filter_cons_of_pos (by simpa using hr)]
      rfl
    · rw [if_neg hr, ih hl.2, List.filter_cons_of_neg (by simpa using hr)]

theorem readyOf_filter {sc : Scope} {pages : ContextNumber → PageNumber → Bool} (hp : ∀ c p, sc.covers c p = pages c p) (s : State) :
    s.ReadyOf pages (allHeads.filter fun h => readyInScope sc s h) := by
  refine ⟨List.Pairwise.filter _ (by decide), fun h => ?_⟩
  rw [List.mem_filter, readyInScope_iff hp]
  refine ⟨fun h => h.2, fun hr => ⟨?_, hr⟩⟩
  obtain ⟨p, c⟩ := h
  unfold allHeads
  cases c <;> fin_cases p <;> simp

/-! ## The whole -/

/-- What an invalidation does after its step 1, said once (R80, R101). -/
theorem invalidates_invalidate {sc : Scope} {pages : ContextNumber → PageNumber → Bool} (hp : ∀ c p, sc.covers c p = pages c p) (s : State) :
    (s.removeScope sc).Invalidates pages (invalidate sc s) := by
  refine .steps _ _ _ _ _ (walksOf_filter hp _) (marksInTurn_markScope (s.removeScope sc)) (readyOf_filter hp _)
    (presentsInTurn_iff.2 rfl) (represents_iff.2 ?_)
  unfold invalidate representReady
  rw [foldl_ready_eq sc (by decide)]

/-- Two lists in one strict order with the same members are the same. -/
theorem pairwise_unique {α : Type} {R : α → α → Prop} (hR : ∀ a b, R a b → ¬ R b a) {l m : List α} (hl : l.Pairwise R) (hm : m.Pairwise R)
    (h : ∀ a, a ∈ l ↔ a ∈ m) : l = m := by
  have irr : ∀ a, ¬ R a a := fun a ha => hR a a ha ha
  have nd : ∀ {l : List α}, l.Pairwise R → l.Nodup := fun hl => hl.imp (S := fun a b => a ≠ b) fun hab heq => irr _ (heq ▸ hab)
  exact ((List.perm_ext_iff_of_nodup (nd hl) (nd hm)).2 h).eq_of_pairwise (fun a b _ _ hab hba => absurd hba (hR a b hab)) hl hm

/-- An invalidation names one state. -/
theorem Invalidates.unique {s u v : State} {pages : ContextNumber → PageNumber → Bool} (hu : s.Invalidates pages u) (hv : s.Invalidates pages v) :
    u = v := by
  cases hu with
  | steps l hs t u' _ a1 a2 a3 a4 a5 =>
    cases hv with
    | steps l' hs' t' v' _ b1 b2 b3 b4 b5 =>
      have hl : l = l' := pairwise_unique (fun a b h h' => absurd h (not_lt.2 h'.le)) a1.order b1.order fun i => (a1.all i).trans (b1.all i).symm
      subst hl
      have ht := a2.unique b2
      subst ht
      have hh : hs = hs' := by
        refine pairwise_unique (fun h k hk hk' => ?_) a3.order b3.order fun h => (a3.all h).trans (b3.all h).symm
        rcases hk with hk | ⟨hk, c1, c2⟩ <;> rcases hk' with hk' | ⟨hk', c3, c4⟩
        · exact absurd hk (not_lt.2 hk'.le)
        · rw [hk'] at hk; exact lt_irrefl _ hk
        · rw [hk] at hk'; exact lt_irrefl _ hk'
        · rw [c1] at c4; exact absurd c4 (by simp)
      subst hh
      rw [presentsInTurn_iff] at a4 b4
      rw [represents_iff] at a5 b5
      rw [a5, b5, a4, b4]

end Sys2Proof.Machine
end

