-- ==== Sys2Proof/Laws/Ends.lean ====
section
/-! SUPPORT. What the tests at the end of an event do while a DISABLE_CONTEXT or a SYNC waits (R25, R149, R153), and what the events that can end
work and the memory port's failure leave before them. -/

namespace Sys2Proof.Machine

/-! ## The two conditions -/

theorem ports_all_iff (s : State) (f : Port → Bool) : s.ports.toList.all f = true ↔ ∀ p : PortNumber, f (s.port p) = true := by
  simp only [List.all_eq_true, Vector.mem_toList_iff]
  constructor
  · intro h p
    exact h _ (Vector.getElem_mem p.isLt)
  · intro h x hx
    obtain ⟨i, hi, rfl⟩ := Vector.getElem_of_mem hx
    exact h ⟨i, hi⟩

theorem slots_any_iff (s : State) (f : Option Walk → Bool) : s.slots.toList.any f = true ↔ ∃ i : SlotNumber, f (s.slot i) = true := by
  simp only [List.any_eq_true, Vector.mem_toList_iff]
  constructor
  · rintro ⟨x, hx, hf⟩
    obtain ⟨i, hi, rfl⟩ := Vector.getElem_of_mem hx
    exact ⟨⟨i, hi⟩, hf⟩
  · rintro ⟨i, hf⟩
    exact ⟨_, Vector.getElem_mem i.isLt, hf⟩

theorem ports_any_iff (s : State) (f : Port → Bool) : s.ports.toList.any f = true ↔ ∃ p : PortNumber, f (s.port p) = true := by
  simp only [List.any_eq_true, Vector.mem_toList_iff]
  constructor
  · rintro ⟨x, hx, hf⟩
    obtain ⟨i, hi, rfl⟩ := Vector.getElem_of_mem hx
    exact ⟨⟨i, hi⟩, hf⟩
  · rintro ⟨i, hf⟩
    exact ⟨_, Vector.getElem_mem i.isLt, hf⟩

/-- A statement about every head is one about the two classes of every port. -/
theorem forall_heads {P : HeadId → Prop} : (∀ h, P h) ↔ ∀ p, P ⟨p, .normal⟩ ∧ P ⟨p, .urgent⟩ :=
  ⟨fun h p => ⟨h _, h _⟩, fun h ⟨p, c⟩ => by cases c; exacts [(h p).1, (h p).2]⟩

/-- The drain condition is that nothing of the context is left (R25). -/
theorem drained_iff (s : State) (c : ContextNumber) : s.drained c = true ↔ s.NothingLeft c := by
  have hp : ∀ p : Port, p.isDrained = true ↔
      (p.queues.normal = [] ∧ ∀ i ∈ p.returns.normal, i.isInFlight = false) ∧
        (p.queues.urgent = [] ∧ ∀ i ∈ p.returns.urgent, i.isInFlight = false) := by
    intro p
    simp only [Port.isDrained, Bool.and_eq_true, List.isEmpty_iff, Bool.not_eq_true', List.any_eq_false, Bool.not_eq_true]
    constructor
    · rintro ⟨⟨⟨a, b⟩, c⟩, d⟩; exact ⟨⟨a, c⟩, b, d⟩
    · rintro ⟨⟨a, c⟩, b, d⟩; exact ⟨⟨⟨a, b⟩, c⟩, d⟩
  unfold State.drained State.NothingLeft
  rw [Bool.and_eq_true, ports_all_iff, Bool.not_eq_true', forall_heads]
  refine and_congr (forall_congr' fun p => ?_) ?_
  · simp only [Bool.or_eq_true, bne_iff_ne, ne_eq, State.boundContext]
    by_cases hb : (s.port p).binding = c
    · simp only [hb, not_true_eq_false, false_or, forall_const]
      exact hp _
    · simp [hb]
  · rw [← Bool.not_eq_true, slots_any_iff]
    simp only [not_exists]
    refine forall_congr' fun i => ?_
    cases s.slot i with
    | none => simp [slotOfContext]
    | some w => simp [slotOfContext]

/-- The watch set is empty exactly when nothing is marked (R153). -/
theorem watchEmpty_iff (s : State) : s.watchEmpty = true ↔ s.NoMember := by
  have hi : ∀ i : Item, i.isWatched = false ↔ i.state ≠ .inFlight true := by
    intro i
    unfold Item.isWatched
    split
    · rename_i b hb; cases b <;> simp [hb]
    · rename_i hb; simp [hb]
  unfold State.watchEmpty State.NoMember
  rw [Bool.and_eq_true, Bool.not_eq_true', Bool.not_eq_true', ← Bool.not_eq_true, ← Bool.not_eq_true, ports_any_iff, slots_any_iff,
    forall_heads]
  simp only [not_exists]
  refine and_congr (forall_congr' fun p => ?_) (forall_congr' fun i => ?_)
  · simp only [Port.holdsWatched, Bool.or_eq_true, not_or, Bool.not_eq_true, List.any_eq_false]
    simp only [hi]
    exact Iff.rfl
  · cases s.slot i with
    | none => simp [slotWatched]
    | some w => simp [slotWatched]

/-! ## The tests while a command waits -/

/-- No command is waiting once the taken head has left a queue of commands not taken (R142). -/
theorem waitingOp_behind {s : State} {rest : List Command} (h : s.commands = rest) (hb : ∀ cmd ∈ rest, cmd.taken = false) :
    s.waitingOp = none := by
  unfold State.waitingOp
  rw [h]
  cases rest with
  | nil => rfl
  | cons c r => simp [hb c (by simp)]

/-- A taken DISABLE_CONTEXT at the head of the queue waits (R142, R149). -/
theorem waitingOp_of_disable {s : State} {c : ContextNumber} {cmd : Command} {rest : List Command} (h1 : s.commands = cmd :: rest)
    (h2 : cmd.taken = true) (h3 : cmd.code = 0x11#8) (h4 : operandNames cmd.operand c) : s.waitingOp = some (.disable c) := by
  have hd : decodeCommand cmd.code cmd.operand = .ok (.disable c) := by
    unfold decodeCommand
    rw [h3]
    have : commandOfCode 0x11#8 = some .disableContext := by decide
    rw [this]
    simp only [withContext, legalContext_of_names h4]
  unfold State.waitingOp
  rw [h1]
  simp only [h2, ↓reduceIte, hd]

/-- The waiting DISABLE_CONTEXT of a draining context. -/
theorem waitingOp_drainWait {s : State} {c : ContextNumber} {rest : List Command} (h : s.DrainWait c rest) :
    s.waitingOp = some (.disable c) := by
  obtain ⟨cmd, h1, h2, h3, h4⟩ := h.head
  exact waitingOp_of_disable h1 h2 h3 h4

/-- The waiting SYNC. -/
theorem waitingOp_syncWait {s : State} {w : Word} {rest : List Command} (h : s.SyncWait w rest) :
    s.waitingOp = some (.sync (operandMarker w)) := by
  obtain ⟨cmd, h1, h2, h3, h4⟩ := h.head
  have hd : decodeCommand cmd.code cmd.operand = .ok (.sync (operandMarker w)) := by
    unfold decodeCommand
    rw [h3, h4]
    have : commandOfCode 0x08#8 = some .sync := by decide
    rw [this]
  unfold State.waitingOp
  rw [h1]
  simp only [h2, ↓reduceIte, hd]

/-- With one context draining, the tests complete its drain, or do nothing (R25, R149). -/
theorem settle_of_drainWait {s : State} {d : ContextNumber} {rest : List Command} (h : s.DrainWait d rest) :
    (s.NothingLeft d →
      settle s =
        { s.setContext d { s.context d with state := .off } with commands := rest, completedCount := s.completedCount + 1#16 }) ∧
    (¬ s.NothingLeft d → settle s = s) := by
  have hother : ∀ (t : State) (c : ContextNumber), (t.context c).state ≠ .draining → settleContext c t = t := by
    intro t c hc
    unfold settleContext
    rw [if_neg fun hh => hc hh.1]
  have hnone : ∀ (l : List ContextNumber) (t : State), (∀ c ∈ l, (t.context c).state ≠ .draining) →
      l.foldl (fun t c => settleContext c t) t = t := by
    intro l
    induction l with
    | nil => intro t _; rfl
    | cons a r ih =>
      intro t ht
      rw [List.foldl_cons, hother t a (ht a (by simp))]
      exact ih t fun c hc => ht c (by simp [hc])
  have hsplit : ∃ l r : List ContextNumber, allContexts = l ++ d :: r ∧ d ∉ l ∧ d ∉ r := by
    obtain ⟨l, r, hlr⟩ := List.append_of_mem (mem_allContexts d)
    have hn : (l ++ d :: r).Nodup := hlr ▸ (by decide)
    rw [List.nodup_append, List.nodup_cons] at hn
    exact ⟨l, r, hlr, fun hd => hn.2.2 d hd d (by simp) rfl, hn.2.1.1⟩
  obtain ⟨l, r, hlr, hl, hr⟩ := hsplit
  obtain ⟨cmd, h1, -⟩ := h.head
  have hw := waitingOp_drainWait h
  have hfold : ∀ u, settleContext d s = u → (∀ c, c ≠ d → (u.context c).state ≠ .draining) →
      allContexts.foldl (fun t c => settleContext c t) s = u := by
    intro u hu hc
    rw [hlr, List.foldl_append, hnone l s fun c hcl => h.alone c fun hcd => hl (hcd ▸ hcl), List.foldl_cons, hu]
    exact hnone r u fun c hcr => hc c fun hcd => hr (hcd ▸ hcr)
  constructor
  · intro hn
    have hu : settleContext d s =
        { s.setContext d { s.context d with state := .off } with commands := rest, completedCount := s.completedCount + 1#16 } := by
      unfold settleContext
      rw [if_pos ⟨h.draining, (drained_iff s d).2 hn⟩]
      dsimp only
      rw [if_pos hw]
      unfold State.completeCommand
      simp only [State.setContext, h1, List.tail_cons]
    unfold settle
    rw [hfold _ hu]
    · unfold settleSync
      have := waitingOp_behind
        (s := { s.setContext d { s.context d with state := .off } with commands := rest, completedCount := s.completedCount + 1#16 })
        rfl h.behind
      rw [this]
    · intro c hc
      show ((s.setContext d _).context c).state ≠ _
      rw [State.context_setContext, if_neg (Ne.symm hc)]
      exact h.alone c hc
  · intro hn
    have hu : settleContext d s = s := by
      unfold settleContext
      rw [if_neg fun hh => hn ((drained_iff s d).1 hh.2)]
    unfold settle
    rw [hfold s hu h.alone]
    unfold settleSync
    rw [hw]

/-- With a SYNC waiting and no context draining, the tests complete it, or do nothing (R153). -/
theorem settle_of_syncWait {s : State} {w : Word} {rest : List Command} (h : s.SyncWait w rest) :
    (s.NoMember →
      settle s =
        { s with
          commands := rest, completedCount := s.completedCount + 1#16, syncMarker := w.extractLsb' 0 16
          irqStatus := s.irqStatus ||| 0x04#8 }) ∧
    (¬ s.NoMember → settle s = s) := by
  have hc : allContexts.foldl (fun t c => settleContext c t) s = s := by
    generalize allContexts = l
    induction l with
    | nil => rfl
    | cons a r ih =>
      rw [List.foldl_cons]
      have : settleContext a s = s := by
        unfold settleContext
        rw [if_neg fun hh => h.draining a hh.1]
      rw [this]
      exact ih
  obtain ⟨cmd, h1, -⟩ := h.head
  unfold settle
  rw [hc]
  unfold settleSync
  rw [waitingOp_syncWait h]
  dsimp only
  constructor
  · intro hn
    rw [if_pos ((watchEmpty_iff s).2 hn)]
    unfold State.completeCommand State.raise
    simp only [h1, List.tail_cons]
    rfl
  · intro hn
    rw [if_neg fun hh => hn ((watchEmpty_iff s).1 hh)]

/-- The tests reach no context that is not DRAINING (R25). -/
theorem settle_context {s : State} {d : ContextNumber} (hd : (s.context d).state ≠ .draining) : (settle s).context d = s.context d := by
  have hsync : ∀ t : State, (settleSync t).contexts = t.contexts := by
    intro t
    unfold settleSync
    split
    · split <;> rfl
    · rfl
  have hc : ∀ (c : ContextNumber) (t : State), t.context d = s.context d → (settleContext c t).context d = s.context d := by
    intro c t ht
    unfold settleContext
    split
    · rename_i hh
      have hne : c ≠ d := by rintro rfl; exact hd (ht ▸ hh.1)
      have : (State.setContext c { t.context c with state := .off } t).context d = s.context d := by
        rw [State.context_setContext, if_neg hne, ht]
      dsimp only
      split
      · exact this
      · exact this
    · exact ht
  have hl : ∀ (l : List ContextNumber) (t : State), t.context d = s.context d →
      (l.foldl (fun t c => settleContext c t) t).context d = s.context d := by
    intro l
    induction l with
    | nil => intro t ht; exact ht
    | cons c l ih => intro t ht; exact ih _ (hc c t ht)
  unfold settle
  have := hl allContexts s rfl
  unfold State.context at this ⊢
  rw [hsync]
  exact this

/-- With no context draining but one of which something is left, and no SYNC waiting, the tests change nothing (R25, R153). -/
theorem settle_of_drainsOnly {s : State} {d : ContextNumber} (h : s.DrainsOnly d) (hn : ¬ s.NothingLeft d) : settle s = s := by
  have hc : ∀ c, settleContext c s = s := by
    intro c
    unfold settleContext
    refine if_neg fun hh => ?_
    have := h.1 c hh.1
    subst this
    exact hn ((drained_iff s c).1 hh.2)
  have hl : ∀ l : List ContextNumber, l.foldl (fun t c => settleContext c t) s = s := by
    intro l
    induction l with
    | nil => rfl
    | cons c l ih => rw [List.foldl_cons, hc c]; exact ih
  unfold settle
  rw [hl]
  unfold settleSync
  split
  · rename_i m hm
    exact absurd hm (h.2 m)
  · rfl

/-- What may drain depends on the contexts and the command queue only. -/
theorem drainsOnly_of {s t : State} {d : ContextNumber} (h1 : t.contexts = s.contexts) (h2 : t.commands = s.commands) (h : s.DrainsOnly d) :
    t.DrainsOnly d := by
  obtain ⟨a, b⟩ := h
  refine ⟨fun c hc => a c ?_, fun m => ?_⟩
  · have : t.context c = s.context c := by simp only [State.context, h1]
    rwa [this] at hc
  · have : t.waitingOp = s.waitingOp := by simp only [State.waitingOp, h2]
    rw [this]; exact b m

/-- Something is left of a context while a queue bound to it is not empty (R25). -/
theorem not_nothingLeft_of_queue {s : State} {h : HeadId} (hq : s.queue h ≠ []) : ¬ s.NothingLeft (s.boundContext h) :=
  fun hn => hq (hn.1 h rfl).1

/-! ## The events that can end work -/

/-- The items that R60 moves and those it leaves, when the items behind the first are split by what they are. -/
theorem splitDone_append (done later : List Item) (hd : ∀ d ∈ done, d.isInFlight = false) (hl : FrontInFlight later) :
    splitDone (done ++ later) = (done.filterMap Item.completion?, later) := by
  induction done with
  | nil =>
    cases later with
    | nil => rfl
    | cons i r =>
      have := hl i r rfl
      unfold Item.isInFlight at this
      split at this
      · rename_i b hb
        simp [splitDone, hb]
      · simp at this
  | cons d r ih =>
    have h1 := hd d (by simp)
    unfold Item.isInFlight at h1
    split at h1
    · simp at h1
    · rename_i st dat hst
      rw [List.cons_append, splitDone, hst, ih fun x hx => hd x (by simp [hx])]
      simp [Item.completion?, hst, Item.record]

/-- The end of the first item of a return list, with the moves of R60 (R59). -/
theorem endItem_eq {s : State} {v : RequestValues} {i : Item} {done later : List Item} (st : Status) (data : Option (List Word))
    (rest : List Transaction) (hq : (s.port v.port).returns.get v.cls = i :: (done ++ later)) (hi : i.isInFlight = true)
    (hd : ∀ d ∈ done, d.isInFlight = false) (hl : FrontInFlight later) :
    State.endItem ⟨v.port, v.cls⟩ st data { s.beginEvent with outstanding := rest, lateCleared := false } =
      s.answered v i done later st data rest := by
  have he : endFirstInFlight st data (i :: (done ++ later)) = { i with state := .done st data } :: (done ++ later) := by
    unfold Item.isInFlight at hi
    split at hi
    · rename_i b hb
      simp [endFirstInFlight, hb]
    · simp at hi
  have hp : State.port { s.beginEvent with outstanding := rest, lateCleared := false } v.port = s.port v.port := rfl
  unfold State.endItem
  simp only [hp, hq, he]
  have hs : splitDone ({ i with state := .done st data } :: (done ++ later)) =
      ({ tag := i.tag, cls := i.cls, kind := i.kind, status := st, data := data } :: done.filterMap Item.completion?, later) := by
    rw [splitDone]
    simp only [splitDone_append done later hd hl]
    rfl
  unfold Port.flushReturns State.answered
  simp only [PerClass.get_set_self, hs, PerClass.set_set]
  rfl

theorem moveHead_eq {s : State} {h : HeadId} {e : Entry} {q : List Entry} (hq : s.queue h = e :: q) (st : ItemState) :
    moveHead h st e s =
      s.setPort h.port
        (Port.flushReturns h.cls
          { s.port h.port with
            queues := (s.port h.port).queues.set h.cls q
            returns := (s.port h.port).returns.set h.cls
              ((s.port h.port).returns.get h.cls ++ [{ tag := e.request.tag, cls := h.cls, kind := e.request.kind, state := st }]) }) := by
  unfold State.queue at hq
  unfold moveHead Port.pushReturn
  simp only [hq, List.tail_cons]

/-- A FINISHING head with a credit is transferred, and the next entry is presented (R58). -/
theorem transfer_eq {s : State} {h : HeadId} {e : Entry} {q : List Entry} {st : LocalStatus} (hq : s.queue h = e :: q)
    (he : e.state = .finishing st) (hw : ¬ s.TransferWaits h) (hf : FrontInFlight ((s.port h.port).returns.get h.cls)) :
    transfer h s.beginEvent = settle (presentHead h (s.transferred h e q st)) := by
  have hq' : s.beginEvent.queue h = e :: q := hq
  have hfin : e.finishing? = some st := by simp [Entry.finishing?, he]
  have hallow : s.beginEvent.transferAllowed h = true := by
    have h1 : s.beginEvent.transferAllowed h = s.transferAllowed h := rfl
    rw [h1]
    unfold State.TransferWaits at hw
    simp only [not_or, not_and, not_le] at hw
    have hcred : (s.port h.port).hasCredit = true := by simpa [Port.hasCredit, Config.credit] using hw.1
    unfold State.transferAllowed
    rw [hcred]
    simp only [Bool.true_and, Bool.not_eq_true', Bool.and_eq_false_iff, beq_eq_false_iff_ne, ne_eq]
    by_cases hc : h.cls = .normal
    · by_cases hu : (s.port h.port).creditInUse = 7
      · right
        have := hw.2 hc hu
        unfold State.headFinishing State.head?
        cases hqu : s.queue ⟨h.port, .urgent⟩ with
        | nil => rfl
        | cons e' q' =>
          simp only [List.head?_cons]
          unfold Entry.finishing?
          split
          · rename_i st' hst'
            exact absurd ⟨e', q', st', hqu, hst'⟩ this
          · rfl
      · left; right
        simpa [Config.credit] using hu
    · left; left; exact hc
  unfold transfer
  rw [State.head?_of_queue hq']
  simp only [hfin, hallow, ↓reduceIte]
  congr 2
  rw [moveHead_eq hq']
  have hp : s.beginEvent.port h.port = s.port h.port := rfl
  rw [hp]
  unfold State.transferred Port.flushReturns
  simp only [PerClass.get_set_self, PerClass.set_set]
  cases hr : (s.port h.port).returns.get h.cls with
  | nil =>
    have hset : (s.port h.port).returns.set h.cls [] = (s.port h.port).returns := by rw [← hr]; simp
    simp [splitDone, Item.record, hset]
    rfl
  | cons i r =>
    have hi := hf i r hr
    have hs : splitDone ((i :: r) ++ [{ tag := e.request.tag, cls := h.cls, kind := e.request.kind, state := .done st.status none }]) =
        ([], (i :: r) ++ [{ tag := e.request.tag, cls := h.cls, kind := e.request.kind, state := .done st.status none }]) := by
      unfold Item.isInFlight at hi
      split at hi
      · rename_i b hb
        simp [splitDone, hb]
      · simp at hi
    simp only [hs, List.append_nil, reduceCtorEq, ↓reduceIte]
    rfl

/-- A READY head that is granted: its item and transaction, and the presentation of the next entry (R57, R164). -/
theorem grantHead_eq {s : State} {h : HeadId} {e : Entry} {q : List Entry} {a : PhysAddr} (hq : s.queue h = e :: q)
    (he : e.state = .ready a) (hf : FrontInFlight ((s.port h.port).returns.get h.cls)) :
    grantHead h s.beginEvent = presentHead h (s.granted h e q a) := by
  have hq' : s.beginEvent.queue h = e :: q := hq
  unfold grantHead
  rw [State.head?_of_queue hq']
  simp only [he]
  congr 1
  have hr : ∃ u r n, rememberGrant h s.beginEvent = { s.beginEvent with lastUrgent := u, lastNormal := r, runCount := n } ∧
      u = (if h.cls = .urgent then h.port else s.lastUrgent) ∧ r = (if h.cls = .normal then h.port else s.lastNormal) ∧
      n = (if h.cls = .urgent ∧ (allPorts.any fun p => s.headCandidate ⟨p, .normal⟩) = true then s.runCount + 1 else 0) := by
    have hany : s.beginEvent.normalWinner.isSome = allPorts.any fun p => s.headCandidate ⟨p, .normal⟩ := by
      have h1 : s.beginEvent.normalWinner = s.normalWinner := rfl
      rw [h1]
      unfold State.normalWinner
      rw [List.isSome_find?]
      have hl : ∀ (last : PortNumber) (f : PortNumber → Bool), (rotation last).any f = allPorts.any f := by
        intro last f
        fin_cases last <;> simp [rotation, allPorts] <;> cases f 0 <;> cases f 1 <;> cases f 2 <;> cases f 3 <;> rfl
      exact hl _ _
    unfold rememberGrant
    cases hc : h.cls with
    | normal => exact ⟨_, _, _, rfl, by simp, by simp, by simp⟩
    | urgent =>
      refine ⟨_, _, _, rfl, by simp, by simp, ?_⟩
      rw [hany]
      by_cases hx : (allPorts.any fun p => s.headCandidate ⟨p, .normal⟩) = true
      · rw [if_pos hx, if_pos ⟨rfl, hx⟩]; rfl
      · rw [if_neg hx, if_neg fun hh => hx hh.2]
  obtain ⟨u, r, n, hr, hu, hrr, hn⟩ := hr
  rw [hr]
  have hq2 : State.queue { s.beginEvent with lastUrgent := u, lastNormal := r, runCount := n } h = e :: q := hq
  rw [moveHead_eq hq2]
  have hp : State.port { s.beginEvent with lastUrgent := u, lastNormal := r, runCount := n } h.port = s.port h.port := rfl
  rw [hp]
  have hs : splitDone ((s.port h.port).returns.get h.cls ++
        [{ tag := e.request.tag, cls := h.cls, kind := e.request.kind, state := .inFlight false }]) =
      ([], (s.port h.port).returns.get h.cls ++
        [{ tag := e.request.tag, cls := h.cls, kind := e.request.kind, state := .inFlight false }]) := by
    cases hl : (s.port h.port).returns.get h.cls with
    | nil => simp [splitDone]
    | cons i l =>
      have hi := hf i l hl
      unfold Item.isInFlight at hi
      split at hi
      · rename_i b hb
        simp [splitDone, hb]
      · simp at hi
  unfold Port.flushReturns State.granted State.issue
  simp only [PerClass.get_set_self, PerClass.set_set, hs, List.append_nil]
  rw [← hu, ← hrr, ← hn]
  unfold clientOp State.requestValues
  cases e.request.kind <;> rfl

theorem releaseSlot_eq (s : State) (i : SlotNumber) (rest : List Transaction) :
    State.releaseSlot i { s.beginEvent with outstanding := rest, lateCleared := false } = s.walkEnded i rest := by
  rw [releaseSlot_filter]
  rfl

theorem fillPage_eq (s : State) (e : PageEntry) : s.fillPage e = { s with pageCache := s.filledPages e } := by
  unfold State.fillPage State.filledPages
  cases hl : s.pageLookup e.context e.page with
  | none => simp [pushFront, Config.pageCacheSize]
  | some x => simp only [ne_eq, reduceCtorEq, not_false_eq_true, ↓reduceIte]; rfl

theorem fillDir_eq (s : State) (e : DirEntry) : s.fillDir e = { s with dirCache := s.filledDirs e } := by
  unfold State.fillDir State.filledDirs
  cases hl : s.dirLookup e.context e.index with
  | none => simp [pushFront, Config.dirCacheSize]
  | some x => simp only [ne_eq, reduceCtorEq, not_false_eq_true, ↓reduceIte]; rfl

/-- The failure of a walk at a response: its slot FREE, the entry of a FLAG walk that found its page invalid dropped, the fault delivered, the
slot wait list offered the slot (R78, R100). -/
theorem failWalk_eq {s t : State} {i : SlotNumber} {w : Walk} {rest : List Transaction} (cause : FaultCause) (dirs : List DirEntry)
    (ht : t = { s.beginEvent with outstanding := rest, lateCleared := false, dirCache := dirs }) (hi : s.slot i = some w) :
    failWalk i cause t =
      representWaiting (deliverFault cause w.waiters (s.walkFailed i w rest cause dirs)) := by
  subst ht
  unfold failWalk
  have hi' : State.slot { s.beginEvent with outstanding := rest, lateCleared := false, dirCache := dirs } i = some w := hi
  rw [hi']
  dsimp only
  unfold State.walkFailed
  rw [← releaseSlot_eq]
  unfold dropFlagged
  by_cases hc : w.kind = .flag ∧ cause = .pageInvalid
  · rw [if_pos hc, if_pos hc]; rfl
  · rw [if_neg hc, if_neg hc]; rfl

/-- The completion of a walk at a response (R98). -/
theorem completeWalk_eq {s : State} {i : SlotNumber} {w : Walk} {rest : List Transaction} {word : Word} {entry : PageEntry}
    (he : pageEntryOf w.context w.page (s.context w.context).recordFlags word = entry) :
    completeWalk i w word { s.beginEvent with outstanding := rest, lateCleared := false } =
      representWaiting (presentAll w.waiters { s.walkEnded i rest with pageCache := s.filledPages entry }) := by
  unfold completeWalk
  have he' : pageEntryOf w.context w.page
      (State.context { s.beginEvent with outstanding := rest, lateCleared := false } w.context).recordFlags word = entry := he
  rw [he', fillPage_eq, ← releaseSlot_eq]
  rfl

/-- Every event that can end work leaves, before the tests of R25 and R153, the state named for it. -/
theorem exec_of_endsWork {s u : State} {c : Instr} (h : s.EndsWork c u) : exec c s = .next (settle u) := by
  have hresp : ∀ {t : Transaction} {rest : List Transaction} {st : ResponseStatus} {d : List Word}, s.Answers t rest st d →
      exec (.response st d) s =
        .next (settle (takeResponse t st d { s.beginEvent with outstanding := rest, lateCleared := false })) := by
    intro t rest st d ha
    show Host.Outcome.next (response st d s.beginEvent) = _
    unfold response
    rw [if_pos (show s.beginEvent.resetnLow = false ∧ s.beginEvent.memState = .running from ⟨ha.pin, ha.state⟩)]
    unfold responseRunning
    have ho : s.beginEvent.outstanding = t :: rest := ha.oldest
    rw [ho]
    dsimp only
    rw [if_pos ha.shape]
  cases h with
  | transfer h e q st u v hq he hw hf hp hr =>
    show Host.Outcome.next (transfer ⟨h.port, h.cls⟩ s.beginEvent) = _
    rw [transfer_eq hq he hw hf, presentHead_of_presents hp hr]
  | grant h e q a u v hr hlen hwin hq he hf hp hrep =>
    show Host.Outcome.next (grant s.beginEvent) = _
    unfold grant
    rw [if_pos (show s.beginEvent.memState = .running ∧ s.beginEvent.outstanding.length < Config.outstandingDepth from ⟨hr, hlen⟩)]
    have hw' : s.beginEvent.winner = some (.head h) := hwin
    rw [hw']
    dsimp only
    rw [grantHead_eq hq he hf, presentHead_of_presents hp hrep]
  | itemOk t rest data v i done later ha ht hq hi hd hl =>
    rw [hresp ha]
    unfold takeResponse
    rw [ht]
    dsimp only
    rw [endItem_eq _ _ rest hq hi hd hl]
    unfold readData
    cases t.op <;> rfl
  | itemError t rest v i done later ha ht hq hi hd hl =>
    rw [hresp ha]
    unfold takeResponse
    rw [ht]
    dsimp only
    rw [endItem_eq _ _ rest hq hi hd hl]
  | abandonedWalk t rest st d i w v ha ht hi hab hrep =>
    rw [hresp ha]
    unfold takeResponse
    rw [ht]
    dsimp only
    unfold takeWalkResponse
    have hi' : State.slot { s.beginEvent with outstanding := rest, lateCleared := false } i = some w := hi
    rw [hi']
    dsimp only
    rw [if_pos hab]
    unfold endAbandoned
    rw [releaseSlot_eq, ← represents_iff.1 hrep]
  | completedWalk t rest word i w entry u v ha ht hi hab hst hc hp hrep =>
    rw [presentsInTurn_iff] at hp
    rw [represents_iff] at hrep
    subst hp hrep
    rw [hresp ha]
    unfold takeResponse
    rw [ht]
    dsimp only
    unfold takeWalkResponse
    have hi' : State.slot { s.beginEvent with outstanding := rest, lateCleared := false } i = some w := hi
    rw [hi']
    dsimp only
    rw [if_neg (by simp [hab]), if_neg (by simp [hst])]
    have hv : entryValid word = true := hc.valid
    have hentry : ∀ word', entryFrame word' = entryFrame word → entryRead word' = entryRead word → entryWrite word' = entryWrite word →
        (!(s.context w.context).recordFlags || entryModified word') = entry.modifiedKnown →
        pageEntryOf w.context w.page (s.context w.context).recordFlags word' = entry := by
      intro word' h1 h2 h3 h4
      obtain ⟨c1, c2, c3, c4, c5, c6⟩ := entry
      have e1 := hc.context
      have e2 := hc.page
      have e3 := hc.frame
      have e4 := hc.read
      have e5 := hc.write
      dsimp only at e1 e2 e3 e4 e5 h4
      unfold pageEntryOf
      rw [h1, h2, h3, h4, e1, e2, e3, e4, e5]
      rfl
    have hsetR : ∀ x : Word, entryFrame (setReferenced x) = entryFrame x ∧ entryRead (setReferenced x) = entryRead x ∧
        entryWrite (setReferenced x) = entryWrite x ∧ entryModified (setReferenced x) = entryModified x := by
      intro x
      refine ⟨?_, ?_, ?_, ?_⟩
      · apply BitVec.eq_of_getLsbD_eq
        intro k hk
        simp only [entryFrame, setReferenced, BitVec.getLsbD_extractLsb', BitVec.getLsbD_or]
        have : (0x8#32).getLsbD (8 + k) = false := by
          interval_cases k <;> decide
        simp [this]
      all_goals simp [entryRead, entryWrite, entryModified, setReferenced]
    have hsetM : ∀ x : Word, entryFrame (setModified x) = entryFrame x ∧ entryRead (setModified x) = entryRead x ∧
        entryWrite (setModified x) = entryWrite x ∧ entryModified (setModified x) = true := by
      intro x
      refine ⟨?_, ?_, ?_, ?_⟩
      · apply BitVec.eq_of_getLsbD_eq
        intro k hk
        simp only [entryFrame, setModified, BitVec.getLsbD_extractLsb', BitVec.getLsbD_or]
        have : (0x10#32).getLsbD (8 + k) = false := by
          interval_cases k <;> decide
        simp [this]
      all_goals simp [entryRead, entryWrite, entryModified, setModified]
    rcases hc.stage with ⟨h1, h2, h3, h4⟩ | ⟨h1, h2, h3, h4⟩ | ⟨h1, h2, h3, h4⟩
    · rw [h1]
      dsimp only
      unfold takePageWord
      rw [if_neg (by simp [hv]), if_neg ?_]
      · rw [completeWalk_eq (hentry word rfl rfl rfl h4.symm)]
      · have h3' : (s.context w.context).recordFlags = false ∨ entryReferenced word = true := h3
        show ¬ ((s.context w.context).recordFlags && !entryReferenced word) = true
        rcases h3' with h3' | h3' <;> simp [h3']
    · rw [h1]
      dsimp only
      unfold takeUpdateWord
      rw [if_pos hv, h2]
      obtain ⟨r1, r2, r3, r4⟩ := hsetR word
      rw [show applyUpdate .fill word = setReferenced word from rfl,
        completeWalk_eq (hentry _ r1 r2 r3 (by rw [r4]; exact h4.symm))]
    · rw [h1]
      dsimp only
      unfold takeUpdateWord
      rw [if_pos hv, h2]
      obtain ⟨r1, r2, r3, r4⟩ := hsetR word
      obtain ⟨m1, m2, m3, m4⟩ := hsetM (setReferenced word)
      unfold applyUpdate
      dsimp only
      have hx : entryWrite word = word.getLsbD 2 := rfl
      by_cases hw : entryWrite word = true
      · rw [if_pos hw, completeWalk_eq (hentry _ (m1.trans r1) (m2.trans r2) (m3.trans r3) ?_)]
        rw [m4, h4, ← hx, hw]
        simp
      · rw [if_neg hw, completeWalk_eq (hentry _ r1 r2 r3 ?_)]
        rw [r4, h4, ← hx]
        simp only [Bool.not_eq_true] at hw
        rw [hw]
        simp
        rfl
  | failedWalk t rest st d i w cause dirs u v ha ht hi hab hst hf hp hrep =>
    rw [faultsInTurn_iff] at hp
    rw [represents_iff] at hrep
    subst hp hrep
    rw [hresp ha]
    obtain ⟨x, hx⟩ : ∃ x : State, x = { s.beginEvent with outstanding := rest, lateCleared := false } := ⟨_, rfl⟩
    have hi' : x.slot i = some w := hx ▸ hi
    have hfail : ∀ cause, failWalk i cause x = _ := fun cause => failWalk_eq cause s.dirCache hx hi
    rw [← hx]
    unfold takeResponse
    rw [ht]
    dsimp only
    unfold takeWalkResponse
    rw [hi']
    dsimp only
    rw [if_neg (by simp [hab]), if_neg (by simp [hst])]
    cases hf with
    | error => exact congrArg (fun y => Host.Outcome.next (settle y)) (hfail _)
    | directory word h1 _ h2 =>
      rw [h1]
      dsimp only
      unfold takeDirectoryWord
      rw [if_neg (by unfold entryValid; rw [h2]; decide)]
      exact congrArg (fun y => Host.Outcome.next (settle y)) (hfail _)
    | page word h1 _ h2 =>
      rw [h1]
      dsimp only
      unfold takePageWord
      rw [if_pos (by unfold entryValid; rw [h2]; decide)]
      exact congrArg (fun y => Host.Outcome.next (settle y)) (hfail _)
    | update word m h1 _ h2 =>
      rw [h1]
      dsimp only
      unfold takeUpdateWord
      rw [if_neg (by unfold entryValid; rw [h2]; decide)]
      exact congrArg (fun y => Host.Outcome.next (settle y)) (hfail _)
    | region word op h1 _ h2 hk hr =>
      rw [h1]
      dsimp only
      unfold takeDirectoryWord
      rw [if_pos (by unfold entryValid; exact h2)]
      dsimp only
      have hform : ∀ t' : State, t'.regions = s.regions → formTableAccess t' w (entryFrame word) = .error .tableRegion := by
        intro t' hreg
        have hadm : ∀ op, ¬ s.TableAdmits op (entryAddress (word.extractLsb' 8 24) (pageIndex w.page)) →
            ¬ t'.TableAdmits op (entryAddress (entryFrame word) (pageIndex w.page)) := by
          intro op hn
          unfold State.TableAdmits State.regionOf at hn ⊢
          rw [hreg]; exact hn
        unfold formTableAccess
        rcases hk with ⟨k1, rfl⟩ | ⟨k1, rfl⟩
        · rw [k1]; exact (formTransaction_eq _ _ _ _ _ (by simp)).2.2 (hadm _ hr)
        · rw [k1]; exact (formTransaction_eq _ _ _ _ _ (by simp)).2.2 (hadm _ hr)
      have hcache : x.filledDirs { context := w.context, index := directoryIndex w.page, tableFrame := entryFrame word } =
          s.filledDirs { context := w.context, index := directoryIndex w.page, tableFrame := word.extractLsb' 8 24 } := by
        rw [hx]; rfl
      rw [fillDir_eq, hform _ (by rw [hx]; rfl)]
      unfold continueWalk
      dsimp only
      rw [hcache]
      exact congrArg (fun y => Host.Outcome.next (settle y)) (failWalk_eq .tableRegion _ (by rw [hx]) hi)
    | flagRegion word h1 _ h2 h3 h4 hr =>
      rw [h1]
      dsimp only
      unfold takePageWord
      rw [if_neg (by unfold entryValid; rw [h2]; decide), if_pos ?_]
      · rw [(formTransaction_eq _ _ _ _ _ (by simp)).2.2 (by rw [hx]; exact hr)]
        unfold continueWalk
        dsimp only
        exact congrArg (fun y => Host.Outcome.next (settle y)) (hfail _)
      · show ((x.context w.context).recordFlags && !entryReferenced word) = true
        have hr' : (x.context w.context).recordFlags = true := by rw [hx]; exact h3
        unfold entryReferenced
        rw [hr', h4]; rfl
  | advancedWalk t rest word i w w' dirs ha ht hi hab hst hadv =>
    rw [hresp ha]
    obtain ⟨x, hx⟩ : ∃ x : State, x = s.responseTaken rest := ⟨_, rfl⟩
    have hi' : x.slot i = some w := hx ▸ hi
    have hadm : ∀ op a, s.TableAdmits op a → x.TableAdmits op a := by intro op a h; rw [hx]; exact h
    have hrun : x.memState = .running := by rw [hx]; exact ha.state
    have hx' : { s.beginEvent with outstanding := rest, lateCleared := false } = x := hx.symm
    rw [hx', ← hx]
    unfold takeResponse
    rw [ht]
    dsimp only
    unfold takeWalkResponse
    rw [hi']
    dsimp only
    rw [if_neg (by simp [hab]), if_neg (by simp [hst])]
    cases hadv with
    | directory stage op h1 _ h2 hk hr =>
      rw [h1]
      dsimp only
      unfold takeDirectoryWord
      rw [if_pos (by unfold entryValid; exact h2)]
      dsimp only
      have hform : ∀ t' : State, (∀ op a, s.TableAdmits op a → t'.TableAdmits op a) → t'.memState = .running →
          formTableAccess t' w (entryFrame word) =
            .ok { w with
              stage := stage, op := op, address := entryAddress (word.extractLsb' 8 24) (pageIndex w.page), awaiting := true
              tableFrame := some (word.extractLsb' 8 24) } := by
        intro t' hadm' hrun'
        unfold formTableAccess
        rcases hk with ⟨k1, rfl, rfl⟩ | ⟨k1, rfl, rfl⟩
        · rw [k1]; exact (formTransaction_eq _ _ _ _ _ (by simp)).1 (hadm' _ _ hr) hrun'
        · rw [k1]; exact (formTransaction_eq _ _ _ _ _ (by simp)).1 (hadm' _ _ hr) hrun'
      rw [fillDir_eq, hform _ (by exact hadm) (by exact hrun), hx]
      rfl
    | page h1 _ h2 h3 h4 hr =>
      rw [h1]
      dsimp only
      unfold takePageWord
      rw [if_neg (by unfold entryValid; rw [h2]; decide), if_pos ?_]
      · rw [(formTransaction_eq _ _ _ _ _ (by simp)).1 (hadm _ _ hr) hrun]
        rw [hx]
        rfl
      · show ((x.context w.context).recordFlags && !entryReferenced word) = true
        have hr' : (x.context w.context).recordFlags = true := by rw [hx]; exact h3
        unfold entryReferenced
        rw [hr', h4]; rfl
  | restartedWalk t rest st d i w v ha ht hi hab hst hrs =>
    rw [hresp ha]
    have hi' : (s.responseTaken rest).slot i = some w := hi
    rw [(restarts_iff hi').1 hrs]
    unfold takeResponse
    rw [ht]
    dsimp only
    unfold takeWalkResponse
    have hi'' : State.slot { s.beginEvent with outstanding := rest, lateCleared := false } i = some w := hi
    rw [hi'']
    dsimp only
    rw [if_neg (by simp [hab]), if_pos hst]
    rfl

/-- Before those tests the contexts, the command queue and its completed count stand as they did. -/
theorem endsWork_keeps {s u : State} {c : Instr} (h : s.EndsWork c u) :
    u.contexts = s.contexts ∧ u.commands = s.commands ∧ u.completedCount = s.completedCount := by
  have key : ∀ {a b : State}, a.outside = b.outside → b.contexts = s.contexts → b.commands = s.commands →
      b.completedCount = s.completedCount →
      a.contexts = s.contexts ∧ a.commands = s.commands ∧ a.completedCount = s.completedCount :=
    fun h h1 h2 h3 =>
      ⟨(State.outside_contexts h).trans h1, (State.outside_commands h).trans h2, (State.outside_completedCount h).trans h3⟩
  have turns : ∀ {a b : State} {hs : List HeadId}, PresentsInTurn a hs b → b.outside = a.outside := by
    intro a b hs hp
    rw [presentsInTurn_iff.1 hp]
    exact (kept_outside a).presentAll _ rfl
  have rep : ∀ {a b : State}, a.Represents b → b.outside = a.outside := by
    intro a b hr
    rw [represents_iff.1 hr]
    exact representWaiting_outside _
  have one : ∀ {a b : State} {h : HeadId}, a.Presents h b → b.outside = a.outside := by
    intro a b h hp
    rw [presents_iff.1 hp]
    exact present_outside _ _
  cases h with
  | transfer _ _ _ _ _ _ _ _ _ _ hp hr => exact key ((rep hr).trans (one hp)) rfl rfl rfl
  | grant _ _ _ _ _ _ _ _ _ _ _ _ hp hr => exact key ((rep hr).trans (one hp)) rfl rfl rfl
  | itemOk => exact ⟨rfl, rfl, rfl⟩
  | itemError => exact key (outside_takeDataError _ _) rfl rfl rfl
  | abandonedWalk _ _ _ _ _ _ _ _ _ _ _ hr => exact key (rep hr) rfl rfl rfl
  | completedWalk _ _ _ _ _ _ _ _ _ _ _ _ _ _ hp hr => exact key ((rep hr).trans (turns hp)) rfl rfl rfl
  | failedWalk _ _ _ _ _ _ _ _ _ _ _ _ _ _ _ _ hp hr =>
    rw [faultsInTurn_iff] at hp
    subst hp
    exact key ((rep hr).trans ((kept_outside _).deliverFault _ _ rfl)) rfl rfl rfl
  | advancedWalk => exact ⟨rfl, rfl, rfl⟩
  | restartedWalk t rest _ _ i w _ _ _ hi hab _ hr =>
    rw [(restarts_iff (s := s.responseTaken rest) hi).1 hr]
    exact key ((kept_outside (s.responseTaken rest)).restartWalk (s := s.responseTaken rest) hi hab rfl) rfl rfl rfl

/-- With no drain and no SYNC waiting, an event that can end work leaves what is named for it. -/
theorem exec_of_endsWork_noEnds {s u : State} {c : Instr} (h : s.EndsWork c u) (hn : s.NoEnds) : exec c s = .next u := by
  obtain ⟨k1, k2, -⟩ := endsWork_keeps h
  rw [exec_of_endsWork h, settle_of_noEnds (noEnds_of k1 k2 hn)]

/-- What waits for the end of an event goes on waiting, and the tests change nothing (R25, R153). -/
theorem settle_of_stillWaits {s : State} (h : s.StillWaits) : settle s = s := by
  have hc : ∀ c, settleContext c s = s := by
    intro c
    unfold settleContext
    exact if_neg fun hh => h.1 c hh.1 ((drained_iff s c).1 hh.2)
  have hl : ∀ l : List ContextNumber, l.foldl (fun t c => settleContext c t) s = s := by
    intro l
    induction l with
    | nil => rfl
    | cons c l ih => rw [List.foldl_cons, hc c]; exact ih
  unfold settle
  rw [hl]
  unfold settleSync
  split
  · rename_i m hm
    exact if_neg fun hh => h.2 m hm ((watchEmpty_iff s).1 hh)
  · rfl

theorem NoEnds.stillWaits {s : State} (h : s.NoEnds) : s.StillWaits := ⟨fun d hd => absurd hd (h.1 d), fun m hm => absurd hm (h.2 m)⟩

/-- A walk that goes on ends nothing: with the same queues and items, and a walk of the same context and mark in its slot, what waited waits on. -/
theorem stillWaits_of_walk {s t : State} {i : SlotNumber} {w w' : Walk} (h1 : t.ports = s.ports) (h2 : t.contexts = s.contexts)
    (h3 : t.commands = s.commands) (h4 : t.slots = (s.setSlot i (some w')).slots) (hi : s.slot i = some w) (hc : w'.context = w.context)
    (hm : w'.watched = w.watched) (h : s.StillWaits) : t.StillWaits := by
  have hport : ∀ p, t.port p = s.port p := fun p => by unfold State.port; rw [h1]
  have hslot : ∀ j, t.slot j = (s.setSlot i (some w')).slot j := fun j => by unfold State.slot; rw [h4]
  have hqueue : ∀ k : HeadId, t.queue k = s.queue k ∧ t.boundContext k = s.boundContext k := fun k => by
    unfold State.queue State.boundContext; rw [hport]; exact ⟨rfl, rfl⟩
  have hwait : t.waitingOp = s.waitingOp := by unfold State.waitingOp; rw [h3]
  have back : ∀ P : Walk → Prop, (P w' → P w) → (∀ j v, t.slot j = some v → P v) → P w → ∀ j v, s.slot j = some v → P v := by
    intro P _ hall hw j v hj
    by_cases hji : j = i
    · subst hji
      rw [hi] at hj
      injection hj with hj
      subst hj
      exact hw
    · refine hall j v ?_
      rw [hslot, State.slot_setSlot, if_neg (Ne.symm hji)]
      exact hj
  have hself : t.slot i = some w' := by rw [hslot]; simp
  refine ⟨fun d hd hn => ?_, fun m hm' hn => ?_⟩
  · refine h.1 d ?_ ⟨fun k hk => ?_, back (fun v => v.context ≠ d) (by rw [hc]; exact id) hn.2 (hc ▸ hn.2 i w' hself)⟩
    · unfold State.context at hd ⊢; rw [← h2]; exact hd
    · have := hn.1 k ((hqueue k).2.trans hk)
      rw [(hqueue k).1, hport] at this
      exact this
  · refine h.2 m (hwait ▸ hm') ⟨fun k item hitem => hn.1 k item ?_,
      back (fun v => v.watched = false) (by rw [hm]; exact id) hn.2 (hm ▸ hn.2 i w' hself)⟩
    rw [hport]; exact hitem

/-- While nothing that waits can end, a response with which a walk goes on leaves what is named for it. -/
theorem exec_of_advancesWalk {s : State} {t : Transaction} {rest : List Transaction} {word : Word} {i : SlotNumber} {w w' : Walk}
    {dirs : List DirEntry} (ha : s.Answers t rest .ok [word]) (ht : t.origin = .walk i) (hi : s.slot i = some w) (hab : w.abandoned = false)
    (hst : w.stale = false) (hadv : s.AdvancesWalk t w word w' dirs) (hs : s.StillWaits) :
    exec (.response .ok [word]) s = .next { (s.responseTaken rest).setSlot i (some w') with dirCache := dirs } := by
  rw [exec_of_endsWork (.advancedWalk t rest word i w w' dirs ha ht hi hab hst hadv), settle_of_stillWaits]
  refine stillWaits_of_walk (s := s) (i := i) (w := w) (w' := w') rfl rfl rfl rfl hi ?_ ?_ hs <;> cases hadv <;> rfl

/-- So does one at which a stale walk restarts and goes on. -/
theorem exec_of_restarted {s : State} {t : Transaction} {rest : List Transaction} {status : ResponseStatus} {data : List Word}
    {i : SlotNumber} {w : Walk} {stage : WalkStage} {op : TxnOp} {a : PhysAddr} {frame : Option Frame} (ha : s.Answers t rest status data)
    (ht : t.origin = .walk i) (hi : s.slot i = some w) (hab : w.abandoned = false) (hst : w.stale = true)
    (hf : s.FirstAccess w.kind w.context w.page stage op a frame) (hadm : s.TableAdmits op a) (hs : s.StillWaits) :
    exec (.response status data) s = .next ((s.responseTaken rest).walkRestarted i w stage op a frame) := by
  rw [exec_of_endsWork (.restartedWalk t rest status data i w _ ha ht hi hab hst
    (.goes (s := s.responseTaken rest) stage op a frame (firstAccess_of (s := s) rfl rfl hf) hadm ha.state)), settle_of_stillWaits]
  exact stillWaits_of_walk (s := s) (i := i) (w := w) rfl rfl rfl rfl hi rfl rfl hs

/-- The responses that complete a walk have the shape of its transaction (R159). -/
theorem shapeFits_of_completesWalk {s : State} {t : Transaction} {w : Walk} {word : Word} {entry : PageEntry}
    (h : s.CompletesWalk t w word entry) : shapeFits t.op .ok [word] = true := by
  rcases h.stage with ⟨_, h, _⟩ | ⟨_, _, h, _⟩ | ⟨_, _, h, _⟩ <;> rw [h] <;> rfl

/-- So have those that fail one (R159). -/
theorem shapeFits_of_failsWalk {s : State} {t : Transaction} {w : Walk} {st : ResponseStatus} {d : List Word} {cause : FaultCause}
    {dirs : List DirEntry} (h : s.FailsWalk t w st d cause dirs) : shapeFits t.op st d = true := by
  cases h <;> first | rfl | (simp only [*]; rfl)

/-! ## The memory port's failure -/

/-- What the end of all work leaves alone of the contexts and of the command unit; of the causes it sets MEMORY_FAILED and may set FAULT_LOGGED and
LOG_OVERFLOW (R169). -/
theorem enterFailed_keeps (s : State) :
    (enterFailed s).contexts = s.contexts ∧ (enterFailed s).commands = s.commands ∧ (enterFailed s).completedCount = s.completedCount ∧
      (enterFailed s).syncMarker = s.syncMarker ∧ (enterFailed s).irqStatus.getLsbD 2 = s.irqStatus.getLsbD 2 := by
  have hirq : ∀ {a b : State}, a.outside = b.outside → a.irqStatus.getLsbD 2 = b.irqStatus.getLsbD 2 := by
    intro a b h
    have := congrArg (fun x : State => x.irqStatus.getLsbD 2) h
    simpa [State.outside] using this
  have hout : ∀ {a b : State}, a.outside = b.outside → a.contexts = b.contexts ∧ a.commands = b.commands ∧ a.completedCount = b.completedCount ∧
      a.syncMarker = b.syncMarker ∧ a.irqStatus.getLsbD 2 = b.irqStatus.getLsbD 2 := fun h =>
    ⟨State.outside_contexts h, State.outside_commands h, State.outside_completedCount h, State.outside_syncMarker h, hirq h⟩
  have hall : ∀ (l : List Transaction) (t : State),
      (endOutstanding l t).contexts = t.contexts ∧ (endOutstanding l t).commands = t.commands ∧
        (endOutstanding l t).completedCount = t.completedCount ∧ (endOutstanding l t).syncMarker = t.syncMarker ∧
        (endOutstanding l t).irqStatus.getLsbD 2 = t.irqStatus.getLsbD 2 := by
    intro l
    induction l with
    | nil => intro t; exact ⟨rfl, rfl, rfl, rfl, rfl⟩
    | cons x rest ih =>
      intro t
      have h1 : ∀ y : State, (endTransaction x y).contexts = y.contexts ∧ (endTransaction x y).commands = y.commands ∧
          (endTransaction x y).completedCount = y.completedCount ∧ (endTransaction x y).syncMarker = y.syncMarker ∧
          (endTransaction x y).irqStatus.getLsbD 2 = y.irqStatus.getLsbD 2 := by
        intro y
        unfold endTransaction
        split
        · rename_i v _
          obtain ⟨c1, c2, c3, c4, c5⟩ := hout (outside_takeDataError v (y.endItem ⟨v.port, v.cls⟩ .memoryError none))
          exact ⟨c1, c2, c3, c4, c5⟩
        · exact hout (endWalkTransaction_outside _ _)
      obtain ⟨a1, a2, a3, a4, a5⟩ := ih (endTransaction x { t with outstanding := rest })
      obtain ⟨b1, b2, b3, b4, b5⟩ := h1 { t with outstanding := rest }
      exact ⟨a1.trans b1, a2.trans b2, a3.trans b3, a4.trans b4, a5.trans b5⟩
  obtain ⟨a1, a2, a3, a4, a5⟩ := hall s.outstanding (State.raise .memoryFailed { s with memState := .failed, lateCleared := false })
  obtain ⟨b1, b2, b3, b4, b5⟩ := hout (failAwaiting_outside
    (endOutstanding s.outstanding (State.raise .memoryFailed { s with memState := .failed, lateCleared := false })))
  refine ⟨b1.trans a1, b2.trans a2, b3.trans a3, b4.trans a4, (b5.trans a5).trans ?_⟩
  simp [State.raise, IrqCause.mask, IrqCause.bit]

/-- A comparison that the oldest age has reached fails a RUNNING port (R168). -/
theorem compareLimit_expires {s : State} {t : Transaction} {rest : List Transaction} (hr : s.memState = .running)
    (ho : s.outstanding = t :: rest) (h0 : s.responseLimit.toNat ≠ 0) (hl : s.responseLimit.toNat ≤ t.age) :
    compareLimit s = settle (enterFailed s) := by
  unfold compareLimit
  rw [hr]
  dsimp only
  rw [ho]
  dsimp only
  rw [if_pos (by simp [limitReached, h0, hl])]

/-- The events that fail a RUNNING port are one failure, of a state that differs from the state before it in what went with the event only: the ages, the tick
in progress, the response limit (R166 to R169). -/
theorem failsPort_spec {s : State} {event : Host.Outcome State Fault Refusal} (h : s.FailsPort event) (hp : s.resetnLow = false)
    (hr : s.memState = .running) :
    ∃ (limit : BitVec 16) (left : Nat) (age : Nat → Nat), event = .next (settle (enterFailed
      { s with
        emitted := [], responseLimit := limit, tickLeft := left
        outstanding := s.outstanding.map fun t => { t with age := age t.age } })) := by
  have hid : (s.outstanding.map fun t => { t with age := t.age }) = s.outstanding := by
    rw [show (fun t : Transaction => { t with age := t.age }) = id from rfl, List.map_id]
  have done : ∀ limit left, event = .next (settle (enterFailed { s with emitted := [], responseLimit := limit, tickLeft := left })) →
      ∃ (limit : BitVec 16) (left : Nat) (age : Nat → Nat), event = .next (settle (enterFailed
        { s with
          emitted := [], responseLimit := limit, tickLeft := left
          outstanding := s.outstanding.map fun t => { t with age := age t.age } })) := by
    intro limit left he
    refine ⟨limit, left, id, ?_⟩
    rw [he]
    simp only [id]
    rw [hid]
  have write : ∀ value : Word, s.ready = true → ∀ t rest, s.outstanding = t :: rest → value.toNat % 65536 ≠ 0 → value.toNat % 65536 ≤ t.age →
      writeResponseLimit value s.beginEvent =
        settle (enterFailed { s with emitted := [], responseLimit := responseLimitField value, tickLeft := s.tickLeft }) := by
    intro value hready t rest ho h0 hl
    have hv : (responseLimitField value).toNat = value.toNat % 65536 := by
      simp [responseLimitField, BitVec.extractLsb'_toNat]
    unfold writeResponseLimit
    rw [if_pos (show s.beginEvent.ready = true from hready)]
    exact compareLimit_expires (s := { s with emitted := [], responseLimit := responseLimitField value, tickLeft := s.tickLeft }) hr ho
      (by rw [hv]; exact h0) (by rw [hv]; exact hl)
  cases h with
  | expiry h1 h2 =>
    refine done s.responseLimit s.timebase.toNat (congrArg Host.Outcome.next ?_)
    unfold expire
    rw [if_pos (show s.beginEvent.resetnLow = false ∧ s.beginEvent.memState = .running ∧ s.beginEvent.outstanding ≠ [] ∧
      s.beginEvent.responseLimit.toNat ≠ 0 from ⟨hp, hr, h1, h2⟩)]
    rfl
  | limitWrite t rest value h1 h2 h3 h4 => exact done _ _ (congrArg Host.Outcome.next (write value h1 t rest h2 h3 h4))
  | limitRegister t rest value h1 h2 h3 h4 =>
    refine done _ _ (congrArg Host.Outcome.next (Eq.trans ?_ (write value h1 t rest h2 h3 h4)))
    show hostWrite 0x01C#12 0xF#4 value s.beginEvent = _
    unfold hostWrite
    rw [if_neg (by decide), show registerAt 0x01C#12 = some .responseLimit by decide]
    rfl
  | tick t rest h1 h2 h3 h4 h5 =>
    refine ⟨s.responseLimit, s.timebase.toNat, nextAge, ?_⟩
    have hs : step s = .next (tick (restartTick s.beginEvent)) := by
      unfold step
      rw [h1]
      dsimp only
      unfold hostClock
      rw [if_neg (by rw [show s.beginEvent.resetnLow = false from hp]; decide), if_pos (show s.beginEvent.tickLeft ≤ 1 from h2)]
    have ha : advanceAges (restartTick s.beginEvent) =
        { s with
          emitted := [], responseLimit := s.responseLimit, tickLeft := s.timebase.toNat
          outstanding := s.outstanding.map fun t => { t with age := nextAge t.age } } := by
      unfold advanceAges restartTick State.beginEvent
      dsimp only
      rw [hr]
      simp
    have hl : s.responseLimit.toNat ≤ nextAge t.age := by
      have : s.responseLimit.toNat < 65536 := s.responseLimit.isLt
      unfold nextAge Config.ageMax
      split <;> omega
    rw [hs]
    unfold tick
    rw [ha, compareLimit_expires (t := { t with age := nextAge t.age }) (rest := rest.map fun t => { t with age := nextAge t.age })]
    · exact hr
    · show s.outstanding.map _ = _
      rw [h3]; rfl
    · exact h4
    · exact hl
  | cleared h1 =>
    refine done s.responseLimit s.tickLeft (congrArg Host.Outcome.next ?_)
    unfold cleared
    rw [if_neg (by rw [show s.beginEvent.resetnLow = false from hp]; decide), show s.beginEvent.memState = .running from hr]
    dsimp only
    rw [if_neg (by rw [show s.beginEvent.lateCleared = false from h1]; decide)]
    rfl
  | nothingOutstanding status data h1 =>
    refine done s.responseLimit s.tickLeft (congrArg Host.Outcome.next ?_)
    unfold response
    rw [if_pos (show s.beginEvent.resetnLow = false ∧ s.beginEvent.memState = .running from ⟨hp, hr⟩)]
    unfold responseRunning
    rw [show s.beginEvent.outstanding = [] from h1]
    rfl
  | shape status data t rest h1 h2 =>
    refine done s.responseLimit s.tickLeft (congrArg Host.Outcome.next ?_)
    unfold response
    rw [if_pos (show s.beginEvent.resetnLow = false ∧ s.beginEvent.memState = .running from ⟨hp, hr⟩)]
    unfold responseRunning
    rw [show s.beginEvent.outstanding = t :: rest from h1]
    dsimp only
    rw [if_neg (by rw [h2]; decide)]
    rfl

end Sys2Proof.Machine
end

