-- ==== Sys2Proof/Laws/Heads.lean ====
section
/-! SUPPORT. Heads and the lists they stand in, while an event works on them: some heads are loose, in no list, until they are presented or
faulted. What translation work does to them, said once for each operation. -/

namespace Sys2Proof.Machine

/-- The heads that are not loose are linked as `State.HeadsLinked` says; a loose head is in no waiter list and not in the slot wait list, its
parked place is empty, and it may be QUEUED. -/
structure State.LinkedBut (s : State) (loose : HeadId → Prop) : Prop where
  free     : ∀ h, loose h → (∀ i w, s.slot i = some w → h ∉ w.waiters) ∧ h ∉ s.slotWait ∧ s.parkedPlace h = none
  walking  : ∀ h, ¬ loose h → (s.WalkingHead h ↔ ∃ i w, s.slot i = some w ∧ h ∈ w.waiters)
  oneWalk  : ∀ i j v w h, s.slot i = some v → s.slot j = some w → h ∈ v.waiters → h ∈ w.waiters → i = j
  waiters  : ∀ i w, s.slot i = some w → w.waiters.Nodup ∧ (w.waiters = [] ↔ w.abandoned = true)
  keys     : ∀ i w h e q, s.slot i = some w → h ∈ w.waiters → s.queue h = e :: q →
    s.boundContext h = w.context ∧ clientPage e.request.address = w.page
  waitSlot : ∀ h, ¬ loose h → (s.WaitSlotHead h ↔ h ∈ s.slotWait)
  slotWait : s.slotWait.Nodup
  parked   : ∀ h, ¬ loose h → (s.parkedPlace h ≠ none ↔ s.ParkedHead h)
  queued   : ∀ h e q, s.queue h = e :: q → (¬ loose h → e.state ≠ .queued) ∧ ∀ x ∈ q, x.state = .queued
  front    : ∀ h : HeadId, FrontInFlight ((s.port h.port).returns.get h.cls)

/-- There are eight heads, so a list without repetition holds at most eight (R86, R90). -/
theorem heads_length_le {l : List HeadId} (h : l.Nodup) : l.length ≤ 8 := by
  have hs : l.Subperm allHeads := h.subperm fun x _ => mem_allHeads x
  simpa [allHeads] using hs.length_le

theorem State.headsLinked_iff (s : State) : s.HeadsLinked ↔ s.LinkedBut fun _ => False := by
  constructor
  · intro h
    exact ⟨fun _ hl => hl.elim, fun k _ => h.walking k, h.oneWalk, fun i w hi => ⟨(h.waiters i w hi).1, (h.waiters i w hi).2.2⟩, h.keys,
      fun k _ => h.waitSlot k, h.slotWait.1, fun k _ => h.parked k,
      fun k e q hq => ⟨fun _ => (h.queued k e q hq).1, (h.queued k e q hq).2⟩, h.front⟩
  · intro h
    exact ⟨fun k => h.walking k id, h.oneWalk,
      fun i w hi => ⟨(h.waiters i w hi).1, heads_length_le (h.waiters i w hi).1, (h.waiters i w hi).2⟩, h.keys, fun k => h.waitSlot k id,
      ⟨h.slotWait, heads_length_le h.slotWait⟩, fun k => h.parked k id,
      fun k e q hq => ⟨(h.queued k e q hq).1 id, (h.queued k e q hq).2⟩, h.front⟩

/-! ## What the links read -/

/-- The fields of a walk that the links read. -/
def Walk.links (w : Walk) : List HeadId × Bool × ContextNumber × PageNumber := (w.waiters, w.abandoned, w.context, w.page)

/-- Two states alike in everything the links read but the return lists. -/
structure State.SameHeads (s t : State) : Prop where
  queue    : ∀ h, t.queue h = s.queue h
  bound    : ∀ h, t.boundContext h = s.boundContext h
  walks    : ∀ i, (t.slot i).map Walk.links = (s.slot i).map Walk.links
  slotWait : t.slotWait = s.slotWait
  parked   : ∀ h, t.parkedPlace h = s.parkedPlace h

theorem links_eq {o o' : Option Walk} (h : o'.map Walk.links = o.map Walk.links) {w : Walk} (hw : o' = some w) :
    ∃ v, o = some v ∧ v.waiters = w.waiters ∧ v.abandoned = w.abandoned ∧ v.context = w.context ∧ v.page = w.page := by
  subst hw
  cases o with
  | none => simp at h
  | some v =>
    simp only [Option.map_some, Walk.links, Option.some.injEq, Prod.mk.injEq] at h
    exact ⟨v, rfl, h.1.symm, h.2.1.symm, h.2.2.1.symm, h.2.2.2.symm⟩

theorem State.LinkedBut.of_same {s t : State} {L : HeadId → Prop} (h : s.LinkedBut L) (hs : s.SameHeads t)
    (hf : ∀ k : HeadId, FrontInFlight ((t.port k.port).returns.get k.cls)) : t.LinkedBut L := by
  have hex : ∀ k, (∃ i w, t.slot i = some w ∧ k ∈ w.waiters) ↔ ∃ i w, s.slot i = some w ∧ k ∈ w.waiters := by
    intro k
    constructor
    · rintro ⟨i, w, hi, hk⟩
      obtain ⟨v, hv, e1, -, -, -⟩ := links_eq (hs.walks i) hi
      exact ⟨i, v, hv, e1 ▸ hk⟩
    · rintro ⟨i, w, hi, hk⟩
      obtain ⟨v, hv, e1, -, -, -⟩ := links_eq (hs.walks i).symm hi
      exact ⟨i, v, hv, e1 ▸ hk⟩
  refine ⟨fun k hk => ?_, fun k hk => ?_, ?_, ?_, ?_, fun k hk => ?_, ?_, fun k hk => ?_, ?_, hf⟩
  · obtain ⟨h1, h2, h3⟩ := h.free k hk
    refine ⟨fun i w hi hm => ?_, by rw [hs.slotWait]; exact h2, by rw [hs.parked]; exact h3⟩
    obtain ⟨v, hv, e1, -⟩ := links_eq (hs.walks i) hi
    exact h1 i v hv (e1 ▸ hm)
  · rw [hex, ← h.walking k hk]
    simp only [State.WalkingHead, hs.queue]
  · intro i j v w k hv hw h1 h2
    obtain ⟨v', hv', e1, -⟩ := links_eq (hs.walks i) hv
    obtain ⟨w', hw', e2, -⟩ := links_eq (hs.walks j) hw
    exact h.oneWalk i j v' w' k hv' hw' (e1 ▸ h1) (e2 ▸ h2)
  · intro i w hi
    obtain ⟨v, hv, e1, e2, -⟩ := links_eq (hs.walks i) hi
    rw [← e1, ← e2]
    exact h.waiters i v hv
  · intro i w k e q hi hk hq
    obtain ⟨v, hv, e1, -, e3, e4⟩ := links_eq (hs.walks i) hi
    rw [hs.bound, ← e3, ← e4]
    exact h.keys i v k e q hv (e1 ▸ hk) (by rw [← hs.queue]; exact hq)
  · rw [hs.slotWait, ← h.waitSlot k hk]
    simp only [State.WaitSlotHead, hs.queue]
  · rw [hs.slotWait]; exact h.slotWait
  · rw [hs.parked, h.parked k hk]
    simp only [State.ParkedHead, hs.queue]
  · intro k e q hq
    rw [hs.queue] at hq
    exact h.queued k e q hq

/-- An update that leaves ports, slots, slot wait list and parked table alone leaves the links alone. -/
theorem State.LinkedBut.of_fields {s t : State} {L : HeadId → Prop} (h : s.LinkedBut L) (h1 : t.ports = s.ports)
    (h2 : t.slots = s.slots) (h3 : t.slotWait = s.slotWait) (h4 : t.parked = s.parked) : t.LinkedBut L := by
  have hp : ∀ p, t.port p = s.port p := fun p => by simp only [State.port, h1]
  refine h.of_same ⟨fun k => by simp only [State.queue, hp], fun k => by simp only [State.boundContext, hp],
    fun i => by simp only [State.slot, h2], h3, fun k => by simp only [State.parkedPlace, h4]⟩ fun k => ?_
  rw [hp]; exact h.front k

/-- Fewer heads count as loose when the rest are linked; the same loose heads may be described in other words. -/
theorem State.LinkedBut.congr {s : State} {L M : HeadId → Prop} (h : s.LinkedBut L) (hLM : ∀ k, M k ↔ L k) : s.LinkedBut M := by
  have : M = L := funext fun k => propext (hLM k)
  rwa [this]

/-! ## A head put in a state -/

/-- The head of a queue satisfies a condition on its state. -/
def State.HeadAt (s : State) (h : HeadId) (P : EntryState → Prop) : Prop := ∃ e q, s.queue h = e :: q ∧ P e.state

/-- A head is in one state. -/
theorem State.HeadAt.unique {s : State} {h : HeadId} {a b : EntryState} (ha : s.HeadAt h (· = a)) (hb : s.HeadAt h (· = b)) : a = b := by
  obtain ⟨e, q, hq, rfl⟩ := ha
  obtain ⟨e', q', hq', rfl⟩ := hb
  rw [hq] at hq'
  injection hq' with hq' _
  rw [hq']

theorem State.queue_of_head? {s : State} {h : HeadId} {e : Entry} (he : s.head? h = some e) : ∃ q, s.queue h = e :: q := by
  unfold State.head? at he
  cases hq : s.queue h with
  | nil => rw [hq] at he; simp at he
  | cons e' q => rw [hq] at he; simp at he; exact ⟨q, by rw [he]⟩

theorem State.headAt_setHeadState (s : State) (h k : HeadId) (st : EntryState) (P : EntryState → Prop) :
    (s.setHeadState h st).HeadAt k P ↔ if h = k then s.queue h ≠ [] ∧ P st else s.HeadAt k P := by
  unfold State.HeadAt
  rw [State.queue_setHeadState]
  by_cases hk : h = k
  · subst hk
    simp only [↓reduceIte]
    cases s.queue h with
    | nil => simp [withHeadState]
    | cons e q => simp [withHeadState]
  · simp [hk]

theorem State.boundContext_setHeadState (s : State) (h k : HeadId) (st : EntryState) :
    (s.setHeadState h st).boundContext k = s.boundContext k := by
  unfold State.boundContext
  rw [State.port_setHeadState]
  split <;> rfl

theorem State.returns_setHeadState (s : State) (h : HeadId) (st : EntryState) (p : PortNumber) :
    ((s.setHeadState h st).port p).returns = (s.port p).returns := by
  rw [State.port_setHeadState]
  split <;> rfl

/-- A request queue after its head is put in a state: the same requests, and the entries behind the head as they were. -/
theorem State.queue_setHeadState_cons {s : State} {h k : HeadId} {st : EntryState} {e : Entry} {q : List Entry}
    (hq : (s.setHeadState h st).queue k = e :: q) :
    ∃ e', s.queue k = e' :: q ∧ e'.request = e.request ∧ (h = k → e.state = st) ∧ (h ≠ k → e' = e) := by
  rw [State.queue_setHeadState] at hq
  by_cases hk : h = k
  · subst hk
    simp only [↓reduceIte] at hq
    cases hs : s.queue h with
    | nil => rw [hs] at hq; simp [withHeadState] at hq
    | cons e' q' =>
      rw [hs] at hq
      simp only [withHeadState, List.cons.injEq] at hq
      obtain ⟨h1, h2⟩ := hq
      subst h2
      exact ⟨e', rfl, by rw [← h1], fun _ => by rw [← h1], fun hne => absurd rfl hne⟩
  · simp only [hk, ↓reduceIte] at hq
    exact ⟨e, hq, rfl, fun hh => absurd hh hk, fun _ => rfl⟩

/-- The links after a loose head is put in a state and the lists are brought in step with it. -/
theorem State.LinkedBut.place {s t : State} {L : HeadId → Prop} {h : HeadId} {st : EntryState} (hs : s.LinkedBut L) (hl : L h)
    (hne : st ≠ .queued)
    (hports : t.ports = (s.setHeadState h st).ports)
    (hwalk : ∀ k, (∃ i w, t.slot i = some w ∧ k ∈ w.waiters) ↔
      (h = k ∧ s.queue h ≠ [] ∧ st = .walking) ∨ ∃ i w, s.slot i = some w ∧ k ∈ w.waiters)
    (hone : ∀ i j v w k, t.slot i = some v → t.slot j = some w → k ∈ v.waiters → k ∈ w.waiters → i = j)
    (hwaiters : ∀ i w, t.slot i = some w → w.waiters.Nodup ∧ (w.waiters = [] ↔ w.abandoned = true))
    (hkeys : ∀ i w k e q, t.slot i = some w → k ∈ w.waiters → s.queue k = e :: q →
      s.boundContext k = w.context ∧ clientPage e.request.address = w.page)
    (hwait : t.slotWait = if st = .waitSlot ∧ s.queue h ≠ [] then s.slotWait ++ [h] else s.slotWait)
    (hparked : ∀ k, t.parkedPlace k ≠ none ↔ if h = k then s.queue h ≠ [] ∧ st = .parked else s.parkedPlace k ≠ none) :
    t.LinkedBut fun k => L k ∧ k ≠ h := by
  obtain ⟨f1, f2, f3⟩ := hs.free h hl
  have hport : ∀ p, t.port p = (s.setHeadState h st).port p := fun p => by simp only [State.port, hports]
  have hqueue : ∀ k, t.queue k = (s.setHeadState h st).queue k := fun k => by simp only [State.queue, hport]
  have hbound : ∀ k, t.boundContext k = s.boundContext k := fun k => by
    have h1 : t.boundContext k = (s.setHeadState h st).boundContext k := by simp only [State.boundContext, hport]
    rw [h1, State.boundContext_setHeadState]
  have hat : ∀ k (P : EntryState → Prop), t.HeadAt k P ↔ if h = k then s.queue h ≠ [] ∧ P st else s.HeadAt k P := fun k P => by
    rw [← State.headAt_setHeadState]; unfold State.HeadAt; rw [hqueue]
  have hmemw : ∀ k, k ∈ t.slotWait ↔ (h = k ∧ s.queue h ≠ [] ∧ st = .waitSlot) ∨ k ∈ s.slotWait := by
    intro k
    rw [hwait]
    split
    · rename_i hc
      rw [List.mem_append, List.mem_singleton, or_comm]
      constructor
      · rintro (rfl | hk)
        · exact .inl ⟨rfl, hc.2, hc.1⟩
        · exact .inr hk
      · rintro (⟨hk, -⟩ | hk)
        · exact .inl hk.symm
        · exact .inr hk
    · rename_i hc
      constructor
      · exact .inr
      · rintro (⟨-, h1, h2⟩ | hk)
        · exact absurd ⟨h2, h1⟩ hc
        · exact hk
  refine ⟨fun k hk => ?_, fun k hk => ?_, hone, hwaiters, ?_, fun k hk => ?_, ?_, fun k hk => ?_, ?_, fun k => ?_⟩
  · obtain ⟨hLk, hkh⟩ := hk
    obtain ⟨g1, g2, g3⟩ := hs.free k hLk
    refine ⟨fun i w hi hm => ?_, fun hm => ?_, ?_⟩
    · rcases (hwalk k).1 ⟨i, w, hi, hm⟩ with ⟨rfl, -⟩ | ⟨j, v, hj, hv⟩
      · exact hkh rfl
      · exact g1 j v hj hv
    · rcases (hmemw k).1 hm with ⟨rfl, -⟩ | hm
      · exact hkh rfl
      · exact g2 hm
    · by_contra hp
      have := (hparked k).1 hp
      rw [if_neg (Ne.symm hkh)] at this
      exact this g3
  · show t.HeadAt k (· = .walking) ↔ _
    rw [hat, hwalk]
    by_cases hk' : h = k
    · subst hk'
      simp only [↓reduceIte, true_and]
      constructor
      · exact .inl
      · rintro (h1 | ⟨i, w, hi, hm⟩)
        · exact h1
        · exact absurd hm (f1 i w hi)
    · simp only [hk', ↓reduceIte, false_and, false_or]
      exact hs.walking k fun hx => hk ⟨hx, Ne.symm hk'⟩
  · intro i w k e q hi hk hq
    rw [hqueue] at hq
    obtain ⟨e', hq', hr, -⟩ := State.queue_setHeadState_cons hq
    rw [hbound, ← hr]
    exact hkeys i w k e' q hi hk hq'
  · show t.HeadAt k (· = .waitSlot) ↔ _
    rw [hat, hmemw]
    by_cases hk' : h = k
    · subst hk'
      simp only [↓reduceIte, true_and]
      constructor
      · exact .inl
      · rintro (h1 | hm)
        · exact h1
        · exact absurd hm f2
    · simp only [hk', ↓reduceIte, false_and, false_or]
      exact hs.waitSlot k fun hx => hk ⟨hx, Ne.symm hk'⟩
  · rw [hwait]
    split
    · refine List.nodup_append.2 ⟨hs.slotWait, by simp, ?_⟩
      intro a ha b hb hab
      have hb' : b = h := by simpa using hb
      rw [hab, hb'] at ha
      exact f2 ha
    · exact hs.slotWait
  · rw [hparked]
    show _ ↔ t.HeadAt k (· = .parked)
    rw [hat]
    by_cases hk' : h = k
    · simp [hk']
    · simp only [hk', ↓reduceIte]
      exact hs.parked k fun hx => hk ⟨hx, Ne.symm hk'⟩
  · intro k e q hq
    rw [hqueue] at hq
    obtain ⟨e', hq', -, h1, h2⟩ := State.queue_setHeadState_cons hq
    refine ⟨fun hk => ?_, (hs.queued k e' q hq').2⟩
    by_cases hk' : h = k
    · rw [h1 hk']; exact hne
    · rw [← h2 hk']
      exact (hs.queued k e' q hq').1 fun hx => hk ⟨hx, Ne.symm hk'⟩
  · rw [hport, State.returns_setHeadState]; exact hs.front k

/-- A loose head made READY or FINISHING is linked (R48, R53, R72). -/
theorem State.LinkedBut.setHead {s : State} {L : HeadId → Prop} {h : HeadId} (hs : s.LinkedBut L) (hl : L h) (st : EntryState)
    (h1 : st ≠ .queued) (h2 : st ≠ .walking) (h3 : st ≠ .waitSlot) (h4 : st ≠ .parked) :
    (s.setHeadState h st).LinkedBut fun k => L k ∧ k ≠ h := by
  refine hs.place hl h1 rfl (fun k => ?_) hs.oneWalk hs.waiters hs.keys ?_ fun k => ?_
  · simp [h2, State.slot_setHeadState]
  · simp [h3]
  · show s.parkedPlace k ≠ none ↔ _
    split
    · rename_i hk
      subst hk
      simp [h4, (hs.free h hl).2.2]
    · exact Iff.rfl

/-- A fault taken of a loose head leaves it linked: parked with its place, or FINISHING (R129). -/
theorem State.LinkedBut.takeHeadFault {s : State} {L : HeadId → Prop} {h : HeadId} (hs : s.LinkedBut L) (hl : L h) (cause : FaultCause) :
    (takeHeadFault cause h s).LinkedBut fun k => L k ∧ k ≠ h := by
  have hfin := hs.setHead hl (.finishing .faulted) (by simp) (by simp) (by simp) (by simp)
  unfold Machine.takeHeadFault
  split
  · rename_i hn
    have hq : s.queue h = [] := by simpa [State.head?] using hn
    refine hs.place (st := .parked) hl (by simp) ?_ (fun k => by simp [hq]) hs.oneWalk hs.waiters hs.keys (by simp) fun k => ?_
    · unfold State.setHeadState
      rw [hq]
      show s.ports = (State.setQueue h [] s).ports
      have : State.setQueue h [] s = s := by
        rw [← hq]
        unfold State.setQueue State.queue
        rw [PerClass.set_get]
        show { s with ports := s.ports.set h.port.val (s.port h.port) } = s
        unfold State.port
        rw [Vector.set_getElem_self]
      rw [this]
    · split
      · rename_i hk
        subst hk
        simp [hq, (hs.free h hl).2.2]
      · exact Iff.rfl
  · rename_i e he
    have hq : s.queue h ≠ [] := by
      intro hq
      simp [State.head?, hq] at he
    split
    · split
      · refine hs.place (st := .parked) hl (by simp) rfl (fun k => ?_) hs.oneWalk hs.waiters hs.keys rfl fun k => ?_
        · simp only [reduceCtorEq, and_false, false_or]; exact Iff.rfl
        · show ((s.setHeadState h .parked).setParked h _).parkedPlace k ≠ none ↔ _
          rw [State.parkedPlace_setParked]
          split
          · simp [hq]
          · exact Iff.rfl
      · exact hfin.of_fields rfl rfl rfl rfl
    · exact hfin.of_fields rfl rfl rfl rfl

/-! ## Presentation (R48, R70 to R74, R88 to R90) -/

/-- The key under which a head's request is looked up. -/
def State.KeyOf (s : State) (h : HeadId) (c : ContextNumber) (p : PageNumber) : Prop :=
  ∃ e q, s.queue h = e :: q ∧ s.boundContext h = c ∧ clientPage e.request.address = p

/-- A loose head that waits for a FREE slot is linked (R90). -/
theorem State.LinkedBut.wait {s : State} {L : HeadId → Prop} {h : HeadId} (hs : s.LinkedBut L) (hl : L h) (hq : s.queue h ≠ []) :
    ({ s.setHeadState h .waitSlot with slotWait := s.slotWait ++ [h] } : State).LinkedBut fun k => L k ∧ k ≠ h := by
  refine hs.place (st := .waitSlot) hl (by simp) rfl (fun k => ?_) hs.oneWalk hs.waiters hs.keys (by simp [hq]) fun k => ?_
  · simp only [reduceCtorEq, and_false, false_or]; exact Iff.rfl
  · show s.parkedPlace k ≠ none ↔ _
    split
    · rename_i hk
      subst hk
      simp [(hs.free h hl).2.2]
    · exact Iff.rfl

/-- A slot given a walk whose waiters are those it had and one loose head, of the walk's key, links that head (R88, R89). -/
theorem State.LinkedBut.walk {s : State} {L : HeadId → Prop} {h : HeadId} {c : ContextNumber} {p : PageNumber} (hs : s.LinkedBut L) (hl : L h)
    (hk : s.KeyOf h c p) (i : SlotNumber) (w : Walk) (old : List HeadId) (hw : w.waiters = old ++ [h]) (ha : w.abandoned = false)
    (hc : w.context = c) (hp : w.page = p)
    (hold : ∀ k, k ∈ old ↔ ∃ v, s.slot i = some v ∧ k ∈ v.waiters) (hnodup : old.Nodup)
    (hkeys : ∀ v, s.slot i = some v → v.context = c ∧ v.page = p) :
    ((s.setSlot i (some w)).setHeadState h .walking).LinkedBut fun k => L k ∧ k ≠ h := by
  obtain ⟨e0, q0, hq0, hb0, hp0⟩ := hk
  have hfree := (hs.free h hl).1
  have hslot : ∀ j, ((s.setSlot i (some w)).setHeadState h .walking).slot j = if i = j then some w else s.slot j := fun j => by
    rw [State.slot_setHeadState, State.slot_setSlot]
  have hmem : ∀ k, k ∈ w.waiters ↔ k = h ∨ ∃ v, s.slot i = some v ∧ k ∈ v.waiters := fun k => by
    rw [hw, List.mem_append, List.mem_singleton, hold, or_comm]
  have hone : ∀ j v k, s.slot j = some v → k ∈ v.waiters → k ∈ w.waiters → i = j := by
    intro j v k hj hkv hkw
    rcases (hmem k).1 hkw with rfl | ⟨v', hv', hk'⟩
    · exact absurd hkv (hfree j v hj)
    · exact hs.oneWalk i j v' v k hv' hj hk' hkv
  refine hs.place (st := .walking) hl (by simp) rfl (fun k => ?_) (fun j j' v v' k h1 h2 h3 h4 => ?_) (fun j v h1 => ?_)
    (fun j v k e q h1 h2 h3 => ?_) (by simp) fun k => ?_
  · constructor
    · rintro ⟨j, v, hj, hkv⟩
      rw [hslot] at hj
      split at hj
      · injection hj with hj
        subst hj
        rcases (hmem k).1 hkv with rfl | ⟨v', hv', hk'⟩
        · exact .inl ⟨rfl, by rw [hq0]; simp, rfl⟩
        · exact .inr ⟨i, v', hv', hk'⟩
      · exact .inr ⟨j, v, hj, hkv⟩
    · rintro (⟨rfl, -, -⟩ | ⟨j, v, hj, hkv⟩)
      · exact ⟨i, w, by rw [hslot]; simp, (hmem h).2 (.inl rfl)⟩
      · by_cases hij : i = j
        · subst hij
          exact ⟨i, w, by rw [hslot]; simp, (hmem k).2 (.inr ⟨v, hj, hkv⟩)⟩
        · exact ⟨j, v, by rw [hslot]; simp [hij, hj], hkv⟩
  · rw [hslot] at h1 h2
    split at h1
    · rename_i hij
      injection h1 with h1
      subst h1
      split at h2
      · rename_i hij'
        rw [← hij, ← hij']
      · rw [← hij]; exact hone j' v' k h2 h4 h3
    · split at h2
      · rename_i hij'
        injection h2 with h2
        subst h2
        rw [← hij']; exact (hone j v k h1 h3 h4).symm
      · exact hs.oneWalk j j' v v' k h1 h2 h3 h4
  · rw [hslot] at h1
    split at h1
    · injection h1 with h1
      subst h1
      refine ⟨?_, by rw [hw, ha]; simp⟩
      rw [hw]
      refine List.nodup_append.2 ⟨hnodup, by simp, fun a ha b hb hab => ?_⟩
      have hb' : b = h := by simpa using hb
      rw [hab, hb'] at ha
      obtain ⟨v, hv, hm⟩ := (hold h).1 ha
      exact hfree i v hv hm
    · exact hs.waiters j v h1
  · rw [hslot] at h1
    split at h1
    · rename_i hij
      injection h1 with h1
      subst h1
      rcases (hmem k).1 h2 with rfl | ⟨v', hv', hk'⟩
      · rw [hq0] at h3
        injection h3 with h3 _
        subst h3
        rw [hc, hp]; exact ⟨hb0, hp0⟩
      · have h5 := hs.keys i v' k e q hv' hk' h3
        obtain ⟨h6, h7⟩ := hkeys v' hv'
        rw [hc, hp, ← h6, ← h7]; exact h5
    · exact hs.keys j v k e q h1 h2 h3
  · show s.parkedPlace k ≠ none ↔ _
    split
    · rename_i hk
      subst hk
      simp [(hs.free h hl).2.2]
    · exact Iff.rfl

theorem State.LinkedBut.startWalk {s : State} {L : HeadId → Prop} {h : HeadId} {c : ContextNumber} {p : PageNumber} (hs : s.LinkedBut L)
    (hl : L h) (hk : s.KeyOf h c p) (i : SlotNumber) (kind : WalkKind) (hi : s.slot i = none) :
    (startWalk i kind c p h s).LinkedBut fun k => L k ∧ k ≠ h := by
  have h1 := enterDirectory_spec (newWalk kind c p h) s
  unfold Machine.startWalk
  split
  · rename_i s' w heq
    rw [heq] at h1
    obtain ⟨-, -, h4⟩ := h1.2 w rfl
    have hs' : s'.LinkedBut L ∧ s'.slot i = none ∧ s'.KeyOf h c p := by
      rcases h1.1 with h2 | ⟨e, -, h2⟩ <;> (simp only at h2; subst h2)
      · exact ⟨hs, hi, hk⟩
      · exact ⟨hs.of_fields rfl rfl rfl rfl, hi, hk⟩
    refine (hs'.1.walk hl hs'.2.2 i w [] h4.waiters h4.abandoned h4.context h4.page (by simp [hs'.2.1]) List.nodup_nil
      (by simp [hs'.2.1])).of_fields rfl rfl rfl rfl
  · rename_i s' cause heq
    rw [heq] at h1
    refine State.LinkedBut.takeHeadFault ?_ hl cause
    rcases h1.1 with h2 | ⟨e, -, h2⟩ <;> (simp only at h2; subst h2)
    · exact hs
    · exact hs.of_fields rfl rfl rfl rfl

/-- A loose head that needs a walk of its key is linked (R72, R73). -/
theorem State.LinkedBut.needWalk {s : State} {L : HeadId → Prop} {h : HeadId} {c : ContextNumber} {p : PageNumber} (hs : s.LinkedBut L)
    (hl : L h) (hk : s.KeyOf h c p) (kind : WalkKind) : (needWalk kind c p h s).LinkedBut fun k => L k ∧ k ≠ h := by
  unfold Machine.needWalk
  split
  · rename_i i hi
    obtain ⟨w, hw, ha, hc, hp⟩ := State.findWalk_slot hi
    unfold joinWalk
    rw [hw]
    refine hs.walk hl hk i _ w.waiters rfl ha hc hp (fun k => ?_) (hs.waiters i w hw).1 fun v hv => ?_
    · simp [hw]
    · rw [hw] at hv
      injection hv with hv
      subst hv
      exact ⟨hc, hp⟩
  · split
    · rename_i i hi
      exact hs.startWalk hl hk i kind (State.freeSlot?_slot hi)
    · refine hs.wait hl ?_
      obtain ⟨e, q, hq, -⟩ := hk
      rw [hq]; simp

/-- A presentation links a loose head (R48). -/
theorem State.LinkedBut.present {s : State} {L : HeadId → Prop} {h : HeadId} (hs : s.LinkedBut L) (hl : L h) :
    (present h s).LinkedBut fun k => L k ∧ k ≠ h := by
  have hfin : ∀ st : LocalStatus, (s.finishHead h st).LinkedBut fun k => L k ∧ k ≠ h := fun st =>
    hs.setHead hl _ (by simp) (by simp) (by simp) (by simp)
  unfold Machine.present
  split
  · rename_i hn
    have := hs.takeHeadFault hl .limit
    unfold Machine.takeHeadFault at this
    rw [hn] at this
    exact this
  · rename_i e he
    have hk : s.KeyOf h (s.boundContext h) (clientPage e.request.address) := by
      obtain ⟨q, hq⟩ := State.queue_of_head? he
      exact ⟨e, q, hq, rfl, rfl⟩
    split
    · exact hfin _
    · split
      · exact hfin _
      · split
        · exact hfin _
        · split
          · exact hs.takeHeadFault hl _
          · unfold lookupHead
            split
            · exact hs.needWalk hl hk _
            · rename_i pe _
              have ht : (s.touchPage pe).LinkedBut L := hs.of_fields rfl rfl rfl rfl
              split
              · exact ht.takeHeadFault hl _
              · unfold admitHit
                split
                · exact ht.needWalk hl hk _
                · exact ht.setHead hl _ (by simp) (by simp) (by simp) (by simp)

/-- Loose heads dealt with one after another, each linked in its turn. -/
theorem linked_foldl (f : State → HeadId → State)
    (hf : ∀ (s : State) (L : HeadId → Prop) (h : HeadId), s.LinkedBut L → L h → (f s h).LinkedBut fun k => L k ∧ k ≠ h)
    (hs : List HeadId) {s : State} (hn : hs.Nodup) (h : s.LinkedBut (· ∈ hs)) : (hs.foldl f s).HeadsLinked := by
  induction hs generalizing s with
  | nil => exact (State.headsLinked_iff s).2 (h.congr fun k => by simp)
  | cons a rest ih =>
    obtain ⟨ha, hr⟩ := List.nodup_cons.1 hn
    refine ih hr ((hf s _ a h (by simp)).congr fun k => ?_)
    simp only [List.mem_cons]
    constructor
    · intro hk
      exact ⟨.inr hk, fun hka => ha (hka ▸ hk)⟩
    · rintro ⟨rfl | hk, hne⟩
      · exact absurd rfl hne
      · exact hk

theorem presentAll_linked (hs : List HeadId) {s : State} (hn : hs.Nodup) (h : s.LinkedBut (· ∈ hs)) : (presentAll hs s).HeadsLinked :=
  linked_foldl (fun t h => present h t) (fun _ _ _ h1 h2 => h1.present h2) hs hn h

theorem deliverFault_linked (cause : FaultCause) (hs : List HeadId) {s : State} (hn : hs.Nodup) (h : s.LinkedBut (· ∈ hs)) :
    (deliverFault cause hs s).HeadsLinked :=
  linked_foldl (fun t h => takeHeadFault cause h t) (fun _ _ _ h1 h2 => h1.takeHeadFault h2 cause) hs hn h

/-- The one loose head is linked by its presentation. -/
theorem present_linked {s : State} {h : HeadId} (hs : s.LinkedBut (· = h)) : (present h s).HeadsLinked :=
  (State.headsLinked_iff _).2 ((hs.present rfl).congr fun k => by simp)

/-! ## Heads made loose -/

/-- A linked head in a state of no list is loose already (R47). -/
theorem State.HeadsLinked.loosen {s : State} {h : HeadId} {e : Entry} {q : List Entry} (hs : s.HeadsLinked) (hq : s.queue h = e :: q)
    (h1 : e.state ≠ .walking) (h2 : e.state ≠ .waitSlot) (h3 : e.state ≠ .parked) : s.LinkedBut (· = h) := by
  have hl := (State.headsLinked_iff s).1 hs
  have hno : ∀ st, e.state ≠ st → ¬ s.HeadAt h (· = st) := fun st hne ht =>
    hne (State.HeadAt.unique ⟨e, q, hq, rfl⟩ ht)
  refine ⟨fun k hk => ?_, fun k _ => hl.walking k id, hl.oneWalk, hl.waiters, hl.keys, fun k _ => hl.waitSlot k id, hl.slotWait,
    fun k _ => hl.parked k id, fun k e' q' hq' => ⟨fun _ => (hs.queued k e' q' hq').1, (hs.queued k e' q' hq').2⟩, hl.front⟩
  subst hk
  refine ⟨fun i w hi hm => hno _ h1 ((hs.walking k).2 ⟨i, w, hi, hm⟩), fun hm => hno _ h2 ((hs.waitSlot k).2 hm), ?_⟩
  by_contra hp
  exact hno _ h3 ((hs.parked k).1 hp)

/-- The waiters of a walk are loose once its slot is FREE (R84). -/
theorem State.HeadsLinked.releaseSlot {s : State} (hs : s.HeadsLinked) (i : SlotNumber) :
    (s.releaseSlot i).LinkedBut fun k => ∃ w, s.slot i = some w ∧ k ∈ w.waiters := by
  have hl := (State.headsLinked_iff s).1 hs
  have hslot : ∀ j w, (s.releaseSlot i).slot j = some w → i ≠ j ∧ s.slot j = some w := by
    intro j w hj
    rw [State.slot_releaseSlot] at hj
    split at hj
    · simp at hj
    · rename_i hij; exact ⟨hij, hj⟩
  have hone : ∀ k, (∃ w, s.slot i = some w ∧ k ∈ w.waiters) → s.WalkingHead k := fun k ⟨w, hw, hk⟩ => (hs.walking k).2 ⟨i, w, hw, hk⟩
  refine ⟨fun k hk => ⟨fun j w hj hm => ?_, fun hm => ?_, ?_⟩, fun k hk => ?_, fun j j' v w k h1 h2 h3 h4 => ?_, fun j w hj => ?_,
    fun j w k e q hj hk hq => ?_, fun k _ => hl.waitSlot k id, hl.slotWait, fun k _ => hl.parked k id,
    fun k e q hq => ⟨fun _ => (hs.queued k e q hq).1, (hs.queued k e q hq).2⟩, hl.front⟩
  · obtain ⟨hij, hj⟩ := hslot j w hj
    obtain ⟨v, hv, hkv⟩ := hk
    exact hij (hs.oneWalk i j v w k hv hj hkv hm)
  · exact nomatch State.HeadAt.unique (hone k hk) ((hs.waitSlot k).2 hm)
  · by_contra hp
    exact nomatch State.HeadAt.unique (hone k hk) ((hs.parked k).1 hp)
  · show s.WalkingHead k ↔ _
    rw [hs.walking k]
    constructor
    · rintro ⟨j, w, hj, hm⟩
      refine ⟨j, w, ?_, hm⟩
      rw [State.slot_releaseSlot, if_neg ?_]
      · exact hj
      · rintro rfl
        exact hk ⟨w, hj, hm⟩
    · rintro ⟨j, w, hj, hm⟩
      exact ⟨j, w, (hslot j w hj).2, hm⟩
  · exact hs.oneWalk j j' v w k (hslot j v h1).2 (hslot j' w h2).2 h3 h4
  · exact hl.waiters j w (hslot j w hj).2
  · exact hs.keys j w k e q (hslot j w hj).2 hk hq

/-- A slot given a walk with the links of the one it holds keeps the links. -/
theorem State.HeadsLinked.rewalk {s : State} {i : SlotNumber} {w w' : Walk} (hs : s.HeadsLinked) (hi : s.slot i = some w)
    (h : w'.links = w.links) : (s.setSlot i (some w')).HeadsLinked := by
  rw [State.headsLinked_iff] at hs ⊢
  refine hs.of_same ⟨fun _ => rfl, fun _ => rfl, fun j => ?_, rfl, fun _ => rfl⟩ hs.front
  rw [State.slot_setSlot]
  split
  · rename_i hij
    subst hij
    simp [hi, h]
  · rfl

/-! ## The slot wait list, completion, failure (R91, R98, R100) -/

theorem drainWait_linked (n : Nat) {s : State} (hs : s.HeadsLinked) : (drainWait n s).HeadsLinked := by
  induction n generalizing s with
  | zero => exact hs
  | succ n ih =>
    unfold drainWait
    split
    · rename_i i h rest _ hw
      refine ih (present_linked ?_)
      have hl := (State.headsLinked_iff s).1 hs
      have hn := hs.slotWait.1
      rw [hw] at hn
      obtain ⟨hnot, hrest⟩ := List.nodup_cons.1 hn
      have hat : s.HeadAt h (· = .waitSlot) := (hs.waitSlot h).2 (by rw [hw]; simp)
      refine ⟨fun k hk => ?_, fun k _ => hl.walking k id, hl.oneWalk, hl.waiters, hl.keys, fun k hk => ?_, hrest,
        fun k _ => hl.parked k id, fun k e' q' hq' => ⟨fun _ => (hs.queued k e' q' hq').1, (hs.queued k e' q' hq').2⟩, hl.front⟩
      · subst hk
        refine ⟨fun j w hj hm => (nomatch State.HeadAt.unique hat ((hs.walking k).2 ⟨j, w, hj, hm⟩)), hnot, ?_⟩
        by_contra hp
        exact (nomatch State.HeadAt.unique hat ((hs.parked k).1 hp))
      · show s.WaitSlotHead k ↔ k ∈ rest
        rw [hs.waitSlot k, hw, List.mem_cons]
        simp [hk]
    · exact hs

theorem representWaiting_linked {s : State} (hs : s.HeadsLinked) : (representWaiting s).HeadsLinked := drainWait_linked _ hs

theorem presentHead_linked {s : State} {h : HeadId} (hs : s.LinkedBut (· = h)) : (presentHead h s).HeadsLinked :=
  representWaiting_linked (present_linked hs)

/-- An update that leaves ports, slots, slot wait list and parked table alone keeps the links. -/
theorem State.HeadsLinked.of_fields {s t : State} (h : s.HeadsLinked) (h1 : t.ports = s.ports) (h2 : t.slots = s.slots)
    (h3 : t.slotWait = s.slotWait) (h4 : t.parked = s.parked) : t.HeadsLinked :=
  (State.headsLinked_iff t).2 (((State.headsLinked_iff s).1 h).of_fields h1 h2 h3 h4)

theorem fillPage_linked {s : State} (hs : s.HeadsLinked) (e : PageEntry) : (s.fillPage e).HeadsLinked := by
  unfold State.fillPage
  split <;> exact hs.of_fields rfl rfl rfl rfl

theorem fillDir_linked {s : State} (hs : s.HeadsLinked) (e : DirEntry) : (s.fillDir e).HeadsLinked := by
  unfold State.fillDir
  split <;> exact hs.of_fields rfl rfl rfl rfl

theorem loose_waiters {s : State} {i : SlotNumber} {w : Walk} (hs : s.HeadsLinked) (hi : s.slot i = some w) :
    (s.releaseSlot i).LinkedBut (· ∈ w.waiters) :=
  (hs.releaseSlot i).congr fun k => by simp [hi]

theorem failWalk_linked (i : SlotNumber) (cause : FaultCause) {s : State} (hs : s.HeadsLinked) : (failWalk i cause s).HeadsLinked := by
  unfold failWalk
  split
  · exact hs
  · rename_i w hi
    have hd : (dropFlagged w cause s).HeadsLinked ∧ (dropFlagged w cause s).slot i = some w := by
      unfold dropFlagged
      split
      · exact ⟨hs.of_fields rfl rfl rfl rfl, hi⟩
      · exact ⟨hs, hi⟩
    exact representWaiting_linked (deliverFault_linked cause _ (hs.waiters i w hi).1 (loose_waiters hd.1 hd.2))

theorem completeWalk_linked (i : SlotNumber) (w : Walk) (word : Word) {s : State} (hs : s.HeadsLinked) (hi : s.slot i = some w) :
    (completeWalk i w word s).HeadsLinked := by
  unfold completeWalk
  refine representWaiting_linked (presentAll_linked _ (hs.waiters i w hi).1 (loose_waiters (fillPage_linked hs _) ?_))
  unfold State.fillPage
  split <;> exact hi

theorem continueWalk_linked (i : SlotNumber) {w w0 : Walk} {r : Except FaultCause Walk} {s : State} (hs : s.HeadsLinked)
    (hi : s.slot i = some w) (hw : w0.links = w.links) (hr : ∀ w', r = .ok w' → w0.SameWork w') : (continueWalk i r s).HeadsLinked := by
  unfold continueWalk
  split
  · rename_i w'
    have hsame := hr w' rfl
    refine hs.rewalk hi (Eq.trans ?_ hw)
    simp only [Walk.links, hsame.waiters, hsame.abandoned, hsame.context, hsame.page]
  · exact failWalk_linked i _ hs

theorem restartWalk_linked (i : SlotNumber) {w : Walk} {s : State} (hs : s.HeadsLinked) (hi : s.slot i = some w) :
    (restartWalk i w s).HeadsLinked := by
  have h1 := enterDirectory_spec { w with stage := .directory, stale := false, tableFrame := none, entryWord := none } s
  unfold restartWalk
  split
  rename_i s' r heq
  rw [heq] at h1
  have hs' : s'.HeadsLinked ∧ s'.slot i = some w := by
    rcases h1.1 with h2 | ⟨e, -, h2⟩ <;> (simp only at h2; subst h2)
    · exact ⟨hs, hi⟩
    · exact ⟨hs.of_fields rfl rfl rfl rfl, hi⟩
  exact continueWalk_linked i (w0 := { w with stage := .directory, stale := false, tableFrame := none, entryWord := none })
    hs'.1 hs'.2 rfl fun w' hw' => (h1.2 w' hw').2.2

theorem endAbandoned_linked (i : SlotNumber) {w : Walk} {s : State} (hs : s.HeadsLinked) (hi : s.slot i = some w)
    (ha : w.abandoned = true) : (endAbandoned i s).HeadsLinked := by
  refine representWaiting_linked ((State.headsLinked_iff _).2 ((loose_waiters hs hi).congr fun k => ?_))
  simp [(hs.waiters i w hi).2.2.2 ha]

/-- The taking of a response to a walk keeps the links (R165). -/
theorem takeWalkResponse_linked (i : SlotNumber) (st : ResponseStatus) (d : List Word) {s : State} (hs : s.HeadsLinked) :
    (takeWalkResponse i st d s).HeadsLinked := by
  unfold takeWalkResponse
  split
  · exact hs
  · rename_i w hi
    split
    · rename_i ha
      exact endAbandoned_linked i hs hi ha
    · split
      · exact restartWalk_linked i hs hi
      · split
        · exact failWalk_linked i _ hs
        · exact hs
        · rename_i word _
          split
          · unfold takeDirectoryWord
            split
            · refine continueWalk_linked i (fillDir_linked hs _) (by rw [State.slot_fillDir]; exact hi) rfl fun w' hw' =>
                (formTableAccess_same hw').2.2
            · exact failWalk_linked i _ hs
          · unfold takePageWord
            split
            · exact failWalk_linked i _ hs
            · split
              · exact continueWalk_linked i (w0 := { w with entryWord := some word }) hs hi rfl fun w' hw' => (formTransaction_same hw').2.2
              · exact completeWalk_linked i w _ hs hi
          · unfold takeUpdateWord
            split
            · exact completeWalk_linked i w _ hs hi
            · exact failWalk_linked i _ hs

/-- The ending of a walk's transaction by the memory port keeps the links (R105). -/
theorem endWalkTransaction_linked (i : SlotNumber) {s : State} (hs : s.HeadsLinked) : (endWalkTransaction i s).HeadsLinked := by
  unfold endWalkTransaction
  split
  · exact hs
  · rename_i w hi
    split
    · rename_i ha
      exact endAbandoned_linked i hs hi ha
    · exact failWalk_linked i _ hs

theorem failAwaiting_linked {s : State} (hs : s.HeadsLinked) : (failAwaiting s).HeadsLinked := by
  unfold failAwaiting
  generalize s.startOrder = l
  induction l generalizing s with
  | nil => exact hs
  | cons a rest ih => exact ih (endWalkTransaction_linked a hs)

/-! ## Invalidation (R80, R101) -/

theorem markStale_linked (i : SlotNumber) {s : State} (hs : s.HeadsLinked) : (markStale i s).HeadsLinked := by
  unfold markStale
  split
  · exact hs
  · rename_i w hi
    split
    · exact restartWalk_linked i hs hi
    · exact hs.rewalk hi rfl

theorem markScope_linked (sc : Scope) {s : State} (hs : s.HeadsLinked) : (markScope sc s).HeadsLinked := by
  unfold markScope
  generalize allSlots.filter (fun i => walkInScope sc (s.slot i)) = l
  induction l generalizing s with
  | nil => exact hs
  | cons a rest ih => exact ih (markStale_linked a hs)

theorem representReady_linked (sc : Scope) {s : State} (hs : s.HeadsLinked) : (representReady sc s).HeadsLinked := by
  unfold representReady
  refine representWaiting_linked ?_
  generalize allHeads = l
  induction l generalizing s with
  | nil => exact hs
  | cons a rest ih =>
    refine ih ?_
    dsimp only
    split
    · rename_i hr
      unfold readyInScope at hr
      split at hr
      · rename_i e he
        split at hr
        · rename_i x hx
          obtain ⟨q, hq⟩ := State.queue_of_head? he
          exact present_linked (hs.loosen hq (by rw [hx]; simp) (by rw [hx]; simp) (by rw [hx]; simp))
        · simp at hr
      · simp at hr
    · exact hs

/-- An invalidation keeps the links (R80). -/
theorem invalidate_linked (sc : Scope) {s : State} (hs : s.HeadsLinked) : (invalidate sc s).HeadsLinked :=
  representReady_linked sc (markScope_linked sc (hs.of_fields rfl rfl rfl rfl))

end Sys2Proof.Machine
end

