-- ==== Sys2Proof/Laws/HeadEvents.lean ====
section
/-! SUPPORT. Heads and the lists they stand in, from event to event: what the ports, the command unit, the memory port and a disable do to
them, one lemma for each operation. -/

namespace Sys2Proof.Machine

/-! ## Ports -/

theorem State.queue_setPort (p : PortNumber) (v : Port) (s : State) (h : HeadId) :
    (s.setPort p v).queue h = if p = h.port then v.queues.get h.cls else s.queue h := by
  unfold State.queue
  rw [State.port_setPort]
  split <;> rfl

/-- After the moves of R60 the front of a return list is IN_FLIGHT. -/
theorem splitDone_front (l : List Item) : FrontInFlight (splitDone l).2 := by
  induction l with
  | nil => intro i rest h; simp [splitDone] at h
  | cons i rest ih =>
    unfold splitDone
    split
    · rename_i b hb
      intro j r h
      injection h with h _
      subst h
      simp [Item.isInFlight, hb]
    · exact ih

theorem Port.flushReturns_front {p : Port} (c : ReqClass) (h : ∀ d, d ≠ c → FrontInFlight (p.returns.get d)) (d : ReqClass) :
    FrontInFlight ((p.flushReturns c).returns.get d) := by
  unfold Port.flushReturns
  rw [PerClass.get_set]
  split
  · exact splitDone_front _
  · rename_i hcd
    exact h d (Ne.symm hcd)

/-- A port's state and completions, and its return lists while their fronts are IN_FLIGHT, are not links. -/
theorem State.HeadsLinked.setPort {s : State} (hs : s.HeadsLinked) (p : PortNumber) (v : Port) (hq : v.queues = (s.port p).queues)
    (hb : v.binding = (s.port p).binding) (hr : ∀ c, FrontInFlight (v.returns.get c)) : (s.setPort p v).HeadsLinked := by
  rw [State.headsLinked_iff]
  refine ((State.headsLinked_iff s).1 hs).of_same ⟨fun k => ?_, fun k => ?_, fun _ => rfl, rfl, fun _ => rfl⟩ fun k => ?_
  · rw [State.queue_setPort]
    split
    · rename_i hp
      subst hp
      rw [hq]; rfl
    · rfl
  · unfold State.boundContext
    rw [State.port_setPort]
    split
    · rename_i hp
      subst hp
      exact hb
    · rfl
  · rw [State.port_setPort]
    split
    · exact hr k.cls
    · exact hs.front k

theorem closeIfEmpty_fields (p : Port) :
    p.closeIfEmpty.queues = p.queues ∧ p.closeIfEmpty.binding = p.binding ∧ p.closeIfEmpty.returns = p.returns := by
  unfold Port.closeIfEmpty
  split <;> exact ⟨rfl, rfl, rfl⟩

/-- The end of an item keeps the links (R59, R60). -/
theorem endItem_linked (h : HeadId) (st : Status) (d : Option (List Word)) {s : State} (hs : s.HeadsLinked) :
    (s.endItem h st d).HeadsLinked := by
  unfold State.endItem
  refine hs.setPort _ _ rfl rfl (Port.flushReturns_front _ fun c hc => ?_)
  rw [PerClass.get_set, if_neg (Ne.symm hc)]
  exact hs.front ⟨h.port, c⟩

theorem takeDataError_linked (v : RequestValues) {s : State} (hs : s.HeadsLinked) : (takeDataError v s).HeadsLinked := by
  unfold takeDataError
  split <;> exact hs.of_fields rfl rfl rfl rfl

/-- The queue of a loose head may change, as long as the entries behind the new head are QUEUED. -/
theorem State.LinkedBut.setQueue {s : State} {h : HeadId} (hs : s.LinkedBut (· = h)) (q : List Entry)
    (hq : ∀ x ∈ q.tail, x.state = .queued) : (s.setQueue h q).LinkedBut (· = h) := by
  have hqueue : ∀ k, k ≠ h → (s.setQueue h q).queue k = s.queue k := fun k hk => by
    rw [State.queue_setQueue, if_neg (Ne.symm hk)]
  refine ⟨hs.free, fun k hk => ?_, hs.oneWalk, hs.waiters, fun i w k e r hi hk hr => ?_, fun k hk => ?_, hs.slotWait, fun k hk => ?_,
    fun k e r hr => ?_, fun k => ?_⟩
  · rw [State.WalkingHead, hqueue k hk]; exact hs.walking k hk
  · have hne : k ≠ h := fun hkh => (hs.free k hkh).1 i w hi hk
    rw [hqueue k hne] at hr
    have hb : (s.setQueue h q).boundContext k = s.boundContext k := by
      unfold State.boundContext State.setQueue
      rw [State.port_setPort]
      split
      · rename_i hp; rw [← hp]
      · rfl
    rw [hb]; exact hs.keys i w k e r hi hk hr
  · rw [State.WaitSlotHead, hqueue k hk]; exact hs.waitSlot k hk
  · show s.parkedPlace k ≠ none ↔ _
    rw [State.ParkedHead, hqueue k hk]; exact hs.parked k hk
  · by_cases hk : k = h
    · subst hk
      rw [State.queue_setQueue, if_pos rfl] at hr
      subst hr
      exact ⟨fun hn => absurd rfl hn, hq⟩
    · rw [hqueue k hk] at hr
      exact hs.queued k e r hr
  · have hret : ((s.setQueue h q).port k.port).returns = (s.port k.port).returns := by
      unfold State.setQueue
      rw [State.port_setPort]
      split
      · rename_i hp; rw [← hp]
      · rfl
    rw [hret]; exact hs.front k

/-- The head of an empty queue is loose. -/
theorem State.HeadsLinked.loosen_empty {s : State} {h : HeadId} (hs : s.HeadsLinked) (hq : s.queue h = []) : s.LinkedBut (· = h) := by
  have hl := (State.headsLinked_iff s).1 hs
  have hno : ∀ st, ¬ s.HeadAt h (· = st) := by
    rintro P ⟨e, q, hq', -⟩
    rw [hq] at hq'
    simp at hq'
  refine ⟨fun k hk => ?_, fun k _ => hl.walking k id, hl.oneWalk, hl.waiters, hl.keys, fun k _ => hl.waitSlot k id, hl.slotWait,
    fun k _ => hl.parked k id, fun k e' q' hq' => ⟨fun _ => (hs.queued k e' q' hq').1, (hs.queued k e' q' hq').2⟩, hl.front⟩
  subst hk
  refine ⟨fun i w hi hm => hno .walking ((hs.walking k).2 ⟨i, w, hi, hm⟩), fun hm => hno .waitSlot ((hs.waitSlot k).2 hm), ?_⟩
  by_contra hp
  exact hno .parked ((hs.parked k).1 hp)

/-- A head that is FINISHING or READY leaves its queue: the head behind it is loose until it is presented (R46). -/
theorem moveHead_linked {s : State} {h : HeadId} {e : Entry} {q : List Entry} (hs : s.HeadsLinked) (hq : s.queue h = e :: q)
    (h1 : e.state ≠ .walking) (h2 : e.state ≠ .waitSlot) (h3 : e.state ≠ .parked) (state : ItemState) :
    (moveHead h state e s).LinkedBut (· = h) := by
  have hl := (hs.loosen hq h1 h2 h3).setQueue q
    fun x hx => (hs.queued h e q hq).2 x (List.mem_of_mem_tail hx)
  refine hl.of_same ⟨fun k => ?_, fun k => ?_, fun _ => rfl, rfl, fun _ => rfl⟩ fun k => ?_
  · have ht : (s.port h.port).queues.get h.cls = e :: q := hq
    unfold moveHead
    rw [State.queue_setPort, State.setQueue, State.queue_setPort]
    simp only [Port.pushReturn_queues, ht, List.tail_cons]
  · unfold moveHead State.boundContext
    simp only [State.setQueue, State.port_setPort]
    split <;> rfl
  · unfold moveHead
    rw [State.port_setPort]
    split
    · rename_i hp
      unfold Port.pushReturn
      refine Port.flushReturns_front _ (fun c hc => ?_) _
      dsimp only at hc
      rw [PerClass.get_set, if_neg (Ne.symm hc)]
      exact hs.front ⟨h.port, c⟩
    · exact hs.front k

/-- A request accepted behind other entries is no head (R45). -/
theorem State.HeadsLinked.enqueue {s : State} {h : HeadId} {e : Entry} {q : List Entry} (hs : s.HeadsLinked) (hq : s.queue h = e :: q)
    (x : Entry) (hx : x.state = .queued) : (s.setQueue h (s.queue h ++ [x])).HeadsLinked := by
  have hcons : ∀ k a r, (s.setQueue h (s.queue h ++ [x])).queue k = a :: r →
      ∃ r', s.queue k = a :: r' ∧ ((∀ y ∈ r', y.state = .queued) → ∀ y ∈ r, y.state = .queued) := by
    intro k a r hr
    rw [State.queue_setQueue] at hr
    split at hr
    · rename_i hk
      subst hk
      rw [hq] at hr ⊢
      simp only [List.cons_append, List.cons.injEq] at hr
      obtain ⟨rfl, rfl⟩ := hr
      refine ⟨q, rfl, fun hy y hm => ?_⟩
      rcases List.mem_append.1 hm with hm | hm
      · exact hy y hm
      · rw [List.mem_singleton.1 hm]; exact hx
    · exact ⟨r, hr, id⟩
  have hat : ∀ k P, (s.setQueue h (s.queue h ++ [x])).HeadAt k P ↔ s.HeadAt k P := by
    intro k P
    constructor
    · rintro ⟨a, r, hr, hP⟩
      obtain ⟨r', hr', -⟩ := hcons k a r hr
      exact ⟨a, r', hr', hP⟩
    · rintro ⟨a, r, hr, hP⟩
      by_cases hk : h = k
      · subst hk
        exact ⟨a, r ++ [x], by rw [State.queue_setQueue, if_pos rfl, hr]; rfl, hP⟩
      · exact ⟨a, r, by rw [State.queue_setQueue, if_neg hk]; exact hr, hP⟩
  have hport : ∀ p, ((s.setQueue h (s.queue h ++ [x])).port p).returns = (s.port p).returns ∧
      ((s.setQueue h (s.queue h ++ [x])).port p).binding = (s.port p).binding := by
    intro p
    unfold State.setQueue
    rw [State.port_setPort]
    split
    · rename_i hp; rw [← hp]; exact ⟨rfl, rfl⟩
    · exact ⟨rfl, rfl⟩
  refine ⟨fun k => (hat k (· = .walking)).trans (hs.walking k), hs.oneWalk, hs.waiters, fun i w k a r hi hk hr => ?_, fun k => (hat k (· = .waitSlot)).trans (hs.waitSlot k),
    hs.slotWait, fun k => (hs.parked k).trans (hat k (· = .parked)).symm, fun k a r hr => ?_, fun k => ?_⟩
  · obtain ⟨r', hr', -⟩ := hcons k a r hr
    have := hs.keys i w k a r' hi hk hr'
    unfold State.boundContext at this ⊢
    rw [(hport k.port).2]; exact this
  · obtain ⟨r', hr', hy⟩ := hcons k a r hr
    exact ⟨(hs.queued k a r' hr').1, hy (hs.queued k a r' hr').2⟩
  · rw [(hport k.port).1]; exact hs.front k

/-- The acceptance of a request keeps the links (R45). -/
theorem acceptRequest_linked (p : PortNumber) (r : Request) {s : State} (hs : s.HeadsLinked) : (acceptRequest p r s).HeadsLinked := by
  have hx : (newEntry r).state = .queued := by unfold newEntry; split <;> rfl
  unfold acceptRequest
  dsimp only
  split
  · rename_i hq
    refine presentHead_linked ((hs.loosen_empty hq).setQueue _ ?_)
    rw [hq]; simp
  · rename_i hq
    obtain ⟨e, q, hq'⟩ := List.exists_cons_of_ne_nil hq
    exact hs.enqueue hq' _ hx

/-- The binding of an empty port is no link (R30). -/
theorem State.HeadsLinked.bind {s : State} (hs : s.HeadsLinked) (p : PortNumber) (c : ContextNumber) (he : (s.port p).isEmpty = true) :
    (s.setPort p { s.port p with binding := c }).HeadsLinked := by
  have hqueue : ∀ k, (s.setPort p { s.port p with binding := c }).queue k = s.queue k := fun k => by
    rw [State.queue_setPort]
    split
    · rename_i hp; subst hp; rfl
    · rfl
  have hreturns : ∀ q, ((s.setPort p { s.port p with binding := c }).port q).returns = (s.port q).returns := fun q => by
    rw [State.port_setPort]
    split
    · rename_i hp; subst hp; rfl
    · rfl
  refine ⟨fun k => ?_, hs.oneWalk, hs.waiters, fun i w k e q hi hk hq => ?_, fun k => ?_, hs.slotWait, fun k => ?_, fun k e q hq => ?_,
    fun k => ?_⟩
  · rw [State.WalkingHead, hqueue]; exact hs.walking k
  · rw [hqueue] at hq
    have hne : p ≠ k.port := by
      rintro rfl
      unfold State.queue at hq
      simp only [Port.isEmpty, Bool.and_eq_true, List.isEmpty_iff] at he
      cases hc : k.cls <;> rw [hc] at hq <;> simp [PerClass.get, he] at hq
    have hb : (s.setPort p { s.port p with binding := c }).boundContext k = s.boundContext k := by
      unfold State.boundContext
      rw [State.port_setPort, if_neg hne]
    rw [hb]; exact hs.keys i w k e q hi hk hq
  · rw [State.WaitSlotHead, hqueue]; exact hs.waitSlot k
  · show s.parkedPlace k ≠ none ↔ _
    rw [State.ParkedHead, hqueue]; exact hs.parked k
  · rw [hqueue] at hq; exact hs.queued k e q hq
  · rw [hreturns]; exact hs.front k

/-! ## Resets -/

/-- Without queue entries, walks, waiting heads and parked places there is nothing to link. -/
theorem headsLinked_of_empty {s : State} (h1 : ∀ k, s.queue k = []) (h2 : ∀ i, s.slot i = none) (h3 : s.slotWait = [])
    (h4 : ∀ k, s.parkedPlace k = none) (h5 : ∀ k : HeadId, FrontInFlight ((s.port k.port).returns.get k.cls)) : s.HeadsLinked := by
  have hat : ∀ k P, ¬ s.HeadAt k P := by
    rintro k P ⟨e, q, hq, -⟩
    rw [h1] at hq
    simp at hq
  refine ⟨fun k => ⟨fun h => absurd h (hat k (· = .walking)), ?_⟩, ?_, ?_, ?_,
    fun k => ⟨fun h => absurd h (hat k (· = .waitSlot)), ?_⟩, ?_,
    fun k => ⟨fun h => absurd (h4 k) h, fun h => absurd h (hat k (· = .parked))⟩, ?_, h5⟩
  · rintro ⟨i, w, hi, -⟩
    simp [h2] at hi
  · intro i j v w h hv
    simp [h2] at hv
  · intro i w hi
    simp [h2] at hi
  · intro i w h e q hi
    simp [h2] at hi
  · intro h
    simp [h3] at h
  · simp [h3]
  · intro k e q hq
    simp [h1] at hq

/-! ## Parked heads, the watch set, the ends of events -/

/-- A PARKED head whose place is emptied is loose (R134, R136). -/
theorem State.HeadsLinked.unpark {s : State} {h : HeadId} (hs : s.HeadsLinked) (hp : s.headParked h = true) :
    (s.setParked h none).LinkedBut (· = h) := by
  have hl := (State.headsLinked_iff s).1 hs
  have hat : s.HeadAt h (· = .parked) := by
    unfold State.headParked State.head? at hp
    cases hq : s.queue h with
    | nil => simp [hq] at hp
    | cons e q => exact ⟨e, q, hq, by simpa [hq] using hp⟩
  refine ⟨fun k hk => ?_, fun k _ => hl.walking k id, hl.oneWalk, hl.waiters, hl.keys, fun k _ => hl.waitSlot k id, hl.slotWait,
    fun k hk => ?_, fun k e' q' hq' => ⟨fun _ => (hs.queued k e' q' hq').1, (hs.queued k e' q' hq').2⟩, hl.front⟩
  · subst hk
    refine ⟨fun i w hi hm => (nomatch State.HeadAt.unique hat ((hs.walking k).2 ⟨i, w, hi, hm⟩)),
      fun hm => (nomatch State.HeadAt.unique hat ((hs.waitSlot k).2 hm)), ?_⟩
    rw [State.parkedPlace_setParked, if_pos rfl]
  · rw [State.parkedPlace_setParked, if_neg (Ne.symm hk)]
    exact hs.parked k

theorem resumeHead_linked {s : State} {h : HeadId} (hs : s.HeadsLinked) (hp : s.headParked h = true) : (resumeHead h s).HeadsLinked :=
  presentHead_linked (hs.unpark hp)

theorem terminateHead_linked {s : State} {h : HeadId} (hs : s.HeadsLinked) (hp : s.headParked h = true) :
    (terminateHead h s).HeadsLinked :=
  (State.headsLinked_iff _).2
    (((hs.unpark hp).setHead rfl (.finishing .faulted) (by simp) (by simp) (by simp) (by simp)).congr fun k => by simp)

theorem watchItem_isInFlight (i : Item) : (watchItem i).isInFlight = i.isInFlight := by
  unfold watchItem
  split
  · rename_i b hb; simp [Item.isInFlight, hb]
  · rfl

/-- Marking the watch set keeps the links (R151). -/
theorem formWatchSet_linked {s : State} (hs : s.HeadsLinked) : (formWatchSet s).HeadsLinked := by
  have hport : ∀ p, (formWatchSet s).port p = watchPort (s.port p) := fun p => by simp [formWatchSet, State.port]
  rw [State.headsLinked_iff]
  refine ((State.headsLinked_iff s).1 hs).of_same ⟨fun k => ?_, fun k => ?_, fun i => ?_, rfl, fun _ => rfl⟩ fun k => ?_
  · unfold State.queue; rw [hport]; rfl
  · unfold State.boundContext; rw [hport]; rfl
  · have : (formWatchSet s).slot i = watchWalk (s.slot i) := by simp [formWatchSet, State.slot]
    rw [this]
    cases s.slot i <;> rfl
  · have hmap : ∀ l : List Item, FrontInFlight l → FrontInFlight (l.map watchItem) := by
      intro l hl i rest h
      cases l with
      | nil => simp at h
      | cons a r =>
        simp only [List.map_cons, List.cons.injEq] at h
        rw [← h.1, watchItem_isInFlight]
        exact hl a r rfl
    rw [hport]
    have := hs.front k
    cases hc : k.cls <;> rw [hc] at this <;> exact hmap _ this

theorem settle_linked {s : State} (hs : s.HeadsLinked) : (settle s).HeadsLinked := by
  obtain ⟨a, b, c, d, e, h⟩ := settle_frame s
  rw [h]
  exact hs.of_fields rfl rfl rfl rfl

theorem settleSync_linked {s : State} (hs : s.HeadsLinked) : (settleSync s).HeadsLinked := by
  unfold settleSync
  split
  · split <;> exact hs.of_fields rfl rfl rfl rfl
  · exact hs

/-! ## The memory port -/

/-- A GRANT to a head keeps the links (R57, R164). -/
theorem grantHead_linked (h : HeadId) {s : State} (hs : s.HeadsLinked) : (grantHead h s).HeadsLinked := by
  unfold grantHead
  split
  · rename_i e he
    split
    · rename_i a ha
      refine presentHead_linked ?_
      have hr : (rememberGrant h s).HeadsLinked := by
        unfold rememberGrant
        split <;> exact hs.of_fields rfl rfl rfl rfl
      have hsame : (rememberGrant h s).head? h = s.head? h := by unfold rememberGrant; split <;> rfl
      obtain ⟨q, hq⟩ := State.queue_of_head? (hsame.trans he)
      exact (moveHead_linked hr hq (by rw [ha]; simp) (by rw [ha]; simp) (by rw [ha]; simp) _).of_fields rfl rfl rfl rfl
    · exact hs
  · exact hs

/-- A GRANT keeps the links (R161). -/
theorem grant_linked {s : State} (hs : s.HeadsLinked) : (grant s).HeadsLinked := by
  unfold grant
  split
  · split
    · unfold grantWalk
      split
      · exact hs
      · rename_i w hi
        exact (hs.rewalk hi (w' := { w with awaiting := false }) rfl).of_fields rfl rfl rfl rfl
    · exact settle_linked (grantHead_linked _ hs)
    · exact hs
  · exact hs

theorem endTransaction_linked (t : Transaction) {s : State} (hs : s.HeadsLinked) : (endTransaction t s).HeadsLinked := by
  unfold endTransaction
  split
  · exact takeDataError_linked _ (endItem_linked _ _ _ hs)
  · exact endWalkTransaction_linked _ hs

theorem endOutstanding_linked (l : List Transaction) {s : State} (hs : s.HeadsLinked) : (endOutstanding l s).HeadsLinked := by
  induction l generalizing s with
  | nil => exact hs
  | cons t rest ih => exact ih (endTransaction_linked t (hs.of_fields rfl rfl rfl rfl))

/-- The entry to FAILED keeps the links (R169). -/
theorem enterFailed_linked {s : State} (hs : s.HeadsLinked) : (enterFailed s).HeadsLinked :=
  failAwaiting_linked (endOutstanding_linked _ (hs.of_fields rfl rfl rfl rfl))

/-- A response keeps the links (R165, R166). -/
theorem response_linked (status : ResponseStatus) (data : List Word) {s : State} (hs : s.HeadsLinked) :
    (response status data s).HeadsLinked := by
  unfold response
  split
  · refine settle_linked ?_
    unfold responseRunning
    split
    · exact enterFailed_linked hs
    · split
      · unfold takeResponse
        have ho : ∀ rest : List Transaction, ({ s with outstanding := rest, lateCleared := false } : State).HeadsLinked := fun rest =>
          hs.of_fields rfl rfl rfl rfl
        split
        · split
          · exact endItem_linked _ _ _ (ho _)
          · exact takeDataError_linked _ (endItem_linked _ _ _ (ho _))
        · exact takeWalkResponse_linked _ _ _ (ho _)
      · exact enterFailed_linked hs
  · exact hs

/-- A comparison with the response limit keeps the links (R168). -/
theorem compareLimit_linked {s : State} (hs : s.HeadsLinked) : (compareLimit s).HeadsLinked := by
  unfold compareLimit
  split
  · split
    · exact hs
    · split
      · exact settle_linked (enterFailed_linked hs)
      · exact hs
  · split
    · exact hs.of_fields rfl rfl rfl rfl
    · exact hs
  · exact hs

/-- A TRANSFER keeps the links (R58). -/
theorem transfer_linked (h : HeadId) {s : State} (hs : s.HeadsLinked) : (transfer h s).HeadsLinked := by
  unfold transfer
  split
  · rename_i e he
    split
    · rename_i st hst
      split
      · refine settle_linked (presentHead_linked ?_)
        obtain ⟨q, hq⟩ := State.queue_of_head? he
        have hfin : ∃ st', e.state = .finishing st' := by
          unfold Entry.finishing? at hst
          split at hst
          · rename_i st' h'; exact ⟨st', h'⟩
          · simp at hst
        obtain ⟨st', hfin⟩ := hfin
        exact moveHead_linked hs hq (by rw [hfin]; simp) (by rw [hfin]; simp) (by rw [hfin]; simp) _
      · exact hs
    · exact hs
  · exact hs

/-! ## A disable (R22, R103) -/

/-- The places of a context's parked heads are emptied, and no other. -/
theorem parkedPlace_unparkContext (c : ContextNumber) (s : State) (k : HeadId) :
    (unparkContext c s).parkedPlace k = if s.boundContext k = c ∧ s.headParked k = true then none else s.parkedPlace k := by
  have key : ∀ (l : List HeadId) (t : State), (∀ h, t.boundContext h = s.boundContext h) → (∀ h, t.headParked h = s.headParked h) →
      (l.foldl (fun t h => if t.boundContext h = c ∧ t.headParked h = true then t.setParked h none else t) t).parkedPlace k =
        if k ∈ l ∧ s.boundContext k = c ∧ s.headParked k = true then none else t.parkedPlace k := by
    intro l
    induction l with
    | nil => intro t _ _; simp
    | cons a rest ih =>
      intro t h1 h2
      rw [List.foldl_cons]
      split
      · rename_i ha
        rw [ih (t.setParked a none) h1 h2, State.parkedPlace_setParked]
        rw [h1, h2] at ha
        by_cases hk : a = k
        · subst hk; simp [ha]
        · simp [hk, Ne.symm hk]
      · rename_i ha
        rw [ih t h1 h2]
        rw [h1, h2] at ha
        by_cases hk : a = k
        · subst hk
          rw [if_neg fun h => ha h.2, if_neg fun h => ha h.2]
        · simp [Ne.symm hk]
  unfold unparkContext
  rw [key allHeads s (fun _ => rfl) (fun _ => rfl)]
  simp [mem_allHeads]

/-- What a disable leaves of a linked queue: its head FINISHING, the entries behind it QUEUED (R22). -/
theorem disableQueue_cons {q r : List Entry} {e : Entry} (h : disableQueue q = e :: r) :
    ∃ e' r', q = e' :: r' ∧ e.request = e'.request ∧ (e'.state ≠ .queued → ∃ st, e.state = .finishing st) ∧
      ((∀ x ∈ r', x.state = .queued) → ∀ x ∈ r, x.state = .queued) := by
  cases q with
  | nil => simp [disableQueue] at h
  | cons e' r' =>
    simp only [disableQueue, List.cons.injEq] at h
    obtain ⟨rfl, rfl⟩ := h
    refine ⟨e', r', rfl, ?_, fun hne => ?_, fun hq x hx => ?_⟩
    · unfold disableHead; split <;> rfl
    · unfold disableHead
      split
      · rename_i hq; exact absurd hq hne
      · exact ⟨_, rfl⟩
      · exact ⟨_, rfl⟩
      · exact ⟨_, rfl⟩
      · exact ⟨_, rfl⟩
      · rename_i st hst; exact ⟨st, hst⟩
    · obtain ⟨y, hy, rfl⟩ := List.mem_map.1 hx
      exact hq y hy

/-- Step 3 of a disable, port by port, place by place (R22). -/
theorem disableQueues_spec (c : ContextNumber) (u : State) :
    (∀ p, (disableQueues c u).port p = disablePort c (u.port p)) ∧ (∀ i, (disableQueues c u).slot i = u.slot i) ∧
      (disableQueues c u).slotWait = (u.slotWait.filter fun h => u.boundContext h != c) ∧
      ∀ k, (disableQueues c u).parkedPlace k =
        if u.boundContext k = c ∧ u.headParked k = true then none else u.parkedPlace k := by
  obtain ⟨pk, h⟩ := unparkContext_frame c u
  refine ⟨fun p => ?_, fun i => ?_, ?_, fun k => ?_⟩
  · simp [disableQueues, h, State.port]
  · simp [disableQueues, h, State.slot]
  · simp only [disableQueues, h]; rfl
  · rw [← parkedPlace_unparkContext]
    simp only [disableQueues, State.parkedPlace]

/-- A disable takes the heads of its context out of every list and leaves the rest linked (R22). -/
theorem disable_linked (c : ContextNumber) {s : State} (hs : s.HeadsLinked) : (disableQueues c (abandonWalks c s)).HeadsLinked := by
  obtain ⟨sl, od, hab⟩ := abandonWalks_frame c s
  have hu : (∀ p, (abandonWalks c s).port p = s.port p) ∧ (abandonWalks c s).slotWait = s.slotWait ∧
      ∀ k, (abandonWalks c s).parkedPlace k = s.parkedPlace k := by
    rw [hab]; exact ⟨fun _ => rfl, rfl, fun _ => rfl⟩
  have husl := slot_abandonWalks c s
  obtain ⟨hport, hslot, hwait, hparked⟩ := disableQueues_spec c (abandonWalks c s)
  generalize abandonWalks c s = u at *
  obtain ⟨hu1, hu2, hu3⟩ := hu
  have hub : ∀ k, u.boundContext k = s.boundContext k := fun k => by simp only [State.boundContext, hu1]
  have huh : ∀ k, u.headParked k = s.headParked k := fun k => by simp only [State.headParked, State.head?, State.queue, hu1]
  simp only [hu1] at hport
  simp only [husl] at hslot
  simp only [hu2, hub] at hwait
  simp only [hub, huh, hu3] at hparked
  have hbound : ∀ k, (disableQueues c u).boundContext k = s.boundContext k := fun k => by
    unfold State.boundContext
    rw [hport, (disablePort_spec c _).2.2.2.2.2]
  have hqueue : ∀ k, (disableQueues c u).queue k = if s.boundContext k = c then disableQueue (s.queue k) else s.queue k := by
    intro k
    unfold State.queue State.boundContext
    rw [hport]
    unfold disablePort
    split
    · cases k.cls <;> rfl
    · rfl
  have hhp : ∀ k, s.headParked k = true ↔ s.ParkedHead k := by
    intro k
    unfold State.headParked State.ParkedHead State.head?
    cases s.queue k with
    | nil => simp
    | cons e q => simp
  generalize disableQueues c u = t at *
  have hwalk : ∀ i w, t.slot i = some w → (w.waiters = [] ∧ w.abandoned = true) ∨ (s.slot i = some w ∧ w.context ≠ c) := by
    intro i w hi
    rw [hslot] at hi
    cases hsi : s.slot i with
    | none => rw [hsi] at hi; simp [abandonedWalk] at hi
    | some v =>
      rw [hsi] at hi
      unfold abandonedWalk at hi
      dsimp only at hi
      split at hi
      · split at hi
        · simp at hi
        · injection hi with hi
          subst hi
          exact .inl ⟨rfl, rfl⟩
      · rename_i hc
        injection hi with hi
        subst hi
        exact .inr ⟨rfl, hc⟩
  have hkeep : ∀ i w, s.slot i = some w → w.context ≠ c → t.slot i = some w := by
    intro i w hi hc
    rw [hslot, hi]
    simp [abandonedWalk, hc]
  have hin : ∀ i w k, s.slot i = some w → k ∈ w.waiters → s.boundContext k = w.context := by
    intro i w k hi hk
    obtain ⟨e, q, hq, -⟩ := (hs.walking k).2 ⟨i, w, hi, hk⟩
    exact (hs.keys i w k e q hi hk hq).1
  have hat : ∀ k st, (∀ x, st ≠ .finishing x) → (t.HeadAt k (· = st) ↔ s.boundContext k ≠ c ∧ s.HeadAt k (· = st)) := by
    intro k st hst
    unfold State.HeadAt
    rw [hqueue]
    split
    · rename_i hb
      constructor
      · rintro ⟨e, r, hr, he⟩
        obtain ⟨e', r', hq, -, hf, -⟩ := disableQueue_cons hr
        obtain ⟨x, hx⟩ := hf (hs.queued k e' r' hq).1
        exact absurd (he.symm.trans hx) (hst x)
      · rintro ⟨hn, -⟩
        exact absurd hb hn
    · rename_i hb
      exact ⟨fun h => ⟨hb, h⟩, fun h => h.2⟩
  refine ⟨fun k => (hat k .walking (by simp)).trans ?_, fun i j v w k hv hw h1 h2 => ?_, fun i w hi => ?_, fun i w k e r hi hk hr => ?_,
    fun k => (hat k .waitSlot (by simp)).trans ?_, ?_, fun k => Iff.trans ?_ (hat k .parked (by simp)).symm, fun k e r hr => ?_, fun k => ?_⟩
  · constructor
    · rintro ⟨hb, hw⟩
      obtain ⟨i, w, hi, hk⟩ := (hs.walking k).1 hw
      exact ⟨i, w, hkeep i w hi (hin i w k hi hk ▸ hb), hk⟩
    · rintro ⟨i, w, hi, hk⟩
      rcases hwalk i w hi with ⟨hn, -⟩ | ⟨hi', hc⟩
      · rw [hn] at hk; simp at hk
      · exact ⟨by rw [hin i w k hi' hk]; exact hc, (hs.walking k).2 ⟨i, w, hi', hk⟩⟩
  · rcases hwalk i v hv with ⟨hn, -⟩ | ⟨hv', -⟩
    · rw [hn] at h1; simp at h1
    · rcases hwalk j w hw with ⟨hn, -⟩ | ⟨hw', -⟩
      · rw [hn] at h2; simp at h2
      · exact hs.oneWalk i j v w k hv' hw' h1 h2
  · rcases hwalk i w hi with ⟨hn, ha⟩ | ⟨hi', -⟩
    · simp [hn, ha]
    · exact hs.waiters i w hi'
  · rcases hwalk i w hi with ⟨hn, -⟩ | ⟨hi', hc⟩
    · rw [hn] at hk; simp at hk
    · rw [hqueue, if_neg (by rw [hin i w k hi' hk]; exact hc)] at hr
      rw [hbound]
      exact hs.keys i w k e r hi' hk hr
  · rw [hwait, List.mem_filter]
    show _ ∧ s.WaitSlotHead k ↔ _
    rw [hs.waitSlot k, and_comm]
    simp
  · rw [hwait]
    exact ⟨hs.slotWait.1.filter _, (List.length_filter_le _ _).trans hs.slotWait.2⟩
  · rw [hparked]
    show _ ↔ _ ∧ s.ParkedHead k
    have hpk := hs.parked k
    split
    · rename_i h
      simp [h.1]
    · rename_i h
      rw [hpk]
      exact ⟨fun hp => ⟨fun hb => h ⟨hb, (hhp k).2 hp⟩, hp⟩, fun h => h.2⟩
  · rw [hqueue] at hr
    split at hr
    · obtain ⟨e', r', hq, -, hf, ht⟩ := disableQueue_cons hr
      obtain ⟨x, hx⟩ := hf (hs.queued k e' r' hq).1
      exact ⟨by rw [hx]; simp, ht (hs.queued k e' r' hq).2⟩
    · exact hs.queued k e r hr
  · rw [hport, (disablePort_spec c _).2.2.1]
    exact hs.front k

theorem disableContext_linked (c : ContextNumber) {s : State} (hs : s.HeadsLinked) : (disableContext c s).HeadsLinked :=
  representWaiting_linked (disable_linked c (hs.of_fields rfl rfl rfl rfl))

theorem completeCommand_linked {s : State} (hs : s.HeadsLinked) : s.completeCommand.HeadsLinked := hs.of_fields rfl rfl rfl rfl

/-- The effect of a command that has passed its checks keeps the links (R147, R148). -/
theorem applyCommand_linked (op : CommandOp) {s : State} (hs : s.HeadsLinked) (he : stateError s op = none) :
    (applyCommand op s).HeadsLinked := by
  cases op with
  | invalidate sc => exact completeCommand_linked (invalidate_linked sc hs)
  | sync m => exact settleSync_linked (formWatchSet_linked hs)
  | enable d => exact hs.of_fields rfl rfl rfl rfl
  | disable d => exact settle_linked (disableContext_linked d hs)
  | resume k =>
    refine completeCommand_linked (resumeHead_linked hs ?_)
    by_contra hn; simp [stateError, hn] at he
  | terminate k =>
    refine completeCommand_linked (terminateHead_linked hs ?_)
    by_contra hn; simp [stateError, hn] at he
  | clearMemory => exact hs.of_fields rfl rfl rfl rfl
  | probe d p => exact hs.of_fields rfl rfl rfl rfl

/-- The take of a command keeps the links (R142). -/
theorem takeCommand_linked {s : State} (hs : s.HeadsLinked) : (takeCommand s).HeadsLinked := by
  unfold takeCommand
  split
  · exact hs
  · rename_i c rest _
    split
    · exact hs
    · dsimp only
      have ht : ({ s with commands := { c with taken := true } :: rest } : State).HeadsLinked := hs.of_fields rfl rfl rfl rfl
      split
      · exact ht.of_fields rfl rfl rfl rfl
      · split
        · exact ht.of_fields rfl rfl rfl rfl
        · rename_i hop
          exact applyCommand_linked _ ht hop

end Sys2Proof.Machine
end

