-- ==== Sys2Proof/Laws/Unit.lean ====
section
/-! SUPPORT. The effects of commands are blind to the command unit: they read and write nothing of its queue, its counts and the operand word. So a take
with commands behind its head is the take of the head alone, with the rest kept (R142, R146), and an effect may come before or after its command leaves
the queue (R147). -/

namespace Sys2Proof.Machine

/-! ## Closure -/

theorem UnitBlind.comp {f g : State → State} (hf : UnitBlind f) (hg : UnitBlind g) : UnitBlind fun s => f (g s) :=
  fun l n m w s => by show f (g (s.withUnit l n m w)) = _; rw [hg, hf]

theorem UnitBlind.foldl {α : Type} {f : α → State → State} (hf : ∀ a, UnitBlind (f a)) (as : List α) :
    UnitBlind fun s => as.foldl (fun t a => f a t) s := by
  induction as with
  | nil => exact fun _ _ _ _ _ => rfl
  | cons a as ih =>
    intro l n m w s
    show as.foldl _ (f a (s.withUnit l n m w)) = _
    rw [hf]
    exact ih l n m w (f a s)

/-- A blind operation keeps what it is blind to. -/
theorem UnitBlind.keeps {g : State → State} (hg : UnitBlind g) (s : State) :
    (g s).commands = s.commands ∧ (g s).takenCount = s.takenCount ∧ (g s).completedCount = s.completedCount ∧
      (g s).operandWord = s.operandWord := by
  have h := hg s.commands s.takenCount s.completedCount s.operandWord s
  have hs : s.withUnit s.commands s.takenCount s.completedCount s.operandWord = s := rfl
  rw [hs] at h
  exact ⟨by rw [h]; rfl, by rw [h]; rfl, by rw [h]; rfl, by rw [h]; rfl⟩

/-- A presentation may come before or after a command leaves the queue. -/
theorem present_commands (h : HeadId) (s : State) (l : List Command) (n : BitVec 16) :
    present h { s with commands := l, completedCount := n } = { present h s with commands := l, completedCount := n } := by
  have hp := present_unitBlind h l s.takenCount n s.operandWord s
  obtain ⟨-, h1, -, h2⟩ := (present_unitBlind h).keeps s
  unfold State.withUnit at hp
  rw [hp, ← h1, ← h2]

/-! ## Translation work -/

theorem presentAll_unitBlind (hs : List HeadId) : UnitBlind (presentAll hs) := UnitBlind.foldl present_unitBlind hs

theorem deliverFault_unitBlind (cause : FaultCause) (hs : List HeadId) : UnitBlind (deliverFault cause hs) :=
  UnitBlind.foldl (takeHeadFault_unitBlind cause) hs

theorem drainWait_unitBlind (k : Nat) : UnitBlind (drainWait k) := by
  induction k with
  | zero => exact fun _ _ _ _ _ => rfl
  | succ k ih =>
    intro l n m w s
    unfold drainWait
    have h1 : (s.withUnit l n m w).freeSlot? = s.freeSlot? := rfl
    have h2 : (s.withUnit l n m w).slotWait = s.slotWait := rfl
    rw [h1, h2]
    split
    · rename_i i h rest _ _
      have := present_unitBlind h l n m w { s with slotWait := rest }
      rw [← ih, ← this]
      rfl
    · rfl

theorem representWaiting_unitBlind : UnitBlind representWaiting := fun l n m w s => drainWait_unitBlind s.slotWait.length l n m w s

theorem failWalk_unitBlind (i : SlotNumber) (cause : FaultCause) : UnitBlind (failWalk i cause) := by
  intro l n m w s
  unfold failWalk
  have h1 : (s.withUnit l n m w).slot i = s.slot i := rfl
  rw [h1]
  split
  · rfl
  · rename_i v _
    have hd : State.releaseSlot i (dropFlagged v cause (s.withUnit l n m w)) =
        (State.releaseSlot i (dropFlagged v cause s)).withUnit l n m w := by
      unfold dropFlagged
      split <;> rfl
    rw [hd, deliverFault_unitBlind, representWaiting_unitBlind]

theorem restartWalk_unitBlind (i : SlotNumber) (v : Walk) : UnitBlind (restartWalk i v) := by
  intro l n m w s
  have he : ∀ x : Walk, enterDirectory x (s.withUnit l n m w) = ((enterDirectory x s).1.withUnit l n m w, (enterDirectory x s).2) := by
    intro x
    unfold enterDirectory
    have h1 : (s.withUnit l n m w).dirLookup x.context (directoryIndex x.page) = s.dirLookup x.context (directoryIndex x.page) := rfl
    rw [h1]
    split <;> rfl
  unfold restartWalk
  rw [he]
  dsimp only
  unfold continueWalk
  split
  · rfl
  · exact failWalk_unitBlind i _ l n m w _

theorem markStale_unitBlind (i : SlotNumber) : UnitBlind (markStale i) := by
  intro l n m w s
  unfold markStale
  have h1 : (s.withUnit l n m w).slot i = s.slot i := rfl
  rw [h1]
  split
  · rfl
  · split
    · exact restartWalk_unitBlind i _ l n m w s
    · rfl

theorem markScope_unitBlind (sc : Scope) : UnitBlind (markScope sc) := fun l n m w s =>
  UnitBlind.foldl (f := markStale) markStale_unitBlind (allSlots.filter fun i => walkInScope sc (s.slot i)) l n m w s

theorem representReady_unitBlind (sc : Scope) : UnitBlind (representReady sc) := by
  refine representWaiting_unitBlind.comp (UnitBlind.foldl (f := fun h t => if readyInScope sc t h then present h t else t) (fun h => ?_) allHeads)
  intro l n m w s
  dsimp only
  have h1 : readyInScope sc (s.withUnit l n m w) h = readyInScope sc s h := rfl
  rw [h1]
  split
  · exact present_unitBlind h l n m w s
  · rfl

/-- An invalidation is blind to the command unit (R80). -/
theorem invalidate_unitBlind (sc : Scope) : UnitBlind (invalidate sc) :=
  (representReady_unitBlind sc).comp ((markScope_unitBlind sc).comp fun _ _ _ _ _ => rfl)

theorem abandonWalks_unitBlind (c : ContextNumber) : UnitBlind (abandonWalks c) := by
  refine UnitBlind.foldl (f := fun i t => abandonSlot c t i) (fun i => ?_) allSlots
  intro l n m w s
  dsimp only
  unfold abandonSlot
  have h1 : (s.withUnit l n m w).slot i = s.slot i := rfl
  rw [h1]
  split
  · rfl
  · split
    · split <;> rfl
    · rfl

theorem disableQueues_unitBlind (c : ContextNumber) : UnitBlind (disableQueues c) := by
  have hu : UnitBlind (unparkContext c) := by
    refine UnitBlind.foldl (f := fun h t => if t.boundContext h = c ∧ t.headParked h = true then t.setParked h none else t) (fun h => ?_) allHeads
    intro l n m w s
    dsimp only
    have h1 : (s.withUnit l n m w).boundContext h = s.boundContext h := rfl
    have h2 : (s.withUnit l n m w).headParked h = s.headParked h := rfl
    rw [h1, h2]
    split <;> rfl
  have hq : UnitBlind fun u : State =>
      { u with ports := u.ports.map (disablePort c), slotWait := u.slotWait.filter fun h => u.boundContext h != c } :=
    fun _ _ _ _ _ => rfl
  exact hq.comp hu

/-- A disable is blind to the command unit (R22). -/
theorem disableContext_unitBlind (c : ContextNumber) : UnitBlind (disableContext c) :=
  representWaiting_unitBlind.comp ((disableQueues_unitBlind c).comp ((abandonWalks_unitBlind c).comp fun _ _ _ _ _ => rfl))

theorem resumeHead_unitBlind (h : HeadId) : UnitBlind (resumeHead h) :=
  representWaiting_unitBlind.comp ((present_unitBlind h).comp fun _ _ _ _ _ => rfl)

/-! ## Effects of a row that meets an empty queue -/

/-- A blind effect of a command that met an empty queue and completes within its take leaves what the effect gives from the state after the command
(R141, R146, R147). -/
theorem complete_unitBlind {g : State → State} (hg : UnitBlind g) {s : State} (hc : s.commands = []) (cmd : Command) (w : Word) :
    (g { s.beginEvent with operandWord := w, takenCount := s.takenCount + 1#16, commands := [cmd] }).completeCommand =
      g (s.afterCommand w) := by
  have hx : ({ s.beginEvent with operandWord := w, takenCount := s.takenCount + 1#16, commands := [cmd] } : State) =
      (s.afterCommand w).withUnit [cmd] (s.takenCount + 1#16) s.completedCount w := rfl
  have hy : (s.afterCommand w).withUnit [] (s.takenCount + 1#16) (s.completedCount + 1#16) w = s.afterCommand w := by
    rw [← hc]; rfl
  have hz : ∀ z : State, (z.withUnit [cmd] (s.takenCount + 1#16) s.completedCount w).completeCommand =
      z.withUnit [] (s.takenCount + 1#16) (s.completedCount + 1#16) w := fun _ => rfl
  rw [hx, hg, hz, ← hg, hy]

/-- The row of an invalidation that meets an empty queue is its effect, from the state after the command (R79, R80, R147). -/
theorem take_invalidation {sc : Scope} {code : BitVec 8} {w : Word} {s : State} (hd : decodeCommand code w = .ok (.invalidate sc))
    (hc : s.commands = []) (hr : s.ready = true) :
    submitAndTake code { s.beginEvent with operandWord := w } = invalidate sc (s.afterCommand w) := by
  unfold submitAndTake
  rw [if_pos (show State.commands { s.beginEvent with operandWord := w } = [] from hc)]
  have hsub : submit code { s.beginEvent with operandWord := w } =
      { s.beginEvent with operandWord := w, takenCount := s.takenCount + 1#16
                          commands := [{ number := s.takenCount, code := code, operand := w, taken := false }] } := by
    unfold submit
    rw [if_pos (show State.ready { s.beginEvent with operandWord := w } = true from hr)]
    have : State.commands { s.beginEvent with operandWord := w } = [] := hc
    rw [this, if_pos (by decide)]
    rfl
  rw [hsub, ← complete_unitBlind (invalidate_unitBlind sc) hc { number := s.takenCount, code := code, operand := w, taken := true } w]
  unfold takeCommand
  dsimp only
  rw [if_neg (by simp), hd]
  rfl

/-- What the row of an invalidation does, said once: its scope, and the effect of `invalidate` on it (R79, R80). -/
theorem exec_of_covers {s : State} {c : Instr} {operand : Option Word} {pages : ContextNumber → PageNumber → Bool}
    {dirs : ContextNumber → BitVec 10 → Bool} (h : InvalidationCovers c operand pages dirs) (hr : s.ready = true) (hc : s.commands = []) :
    ∃ sc : Scope, (∀ d p, sc.covers d p = pages d p) ∧ (∀ d i, sc.coversDir d i = dirs d i) ∧
      exec c s = .next (invalidate sc (s.afterCommand (operand.getD s.operandWord))) := by
  have hw : ∀ w, writeOperand w s.beginEvent = { s.beginEvent with operandWord := w } := fun w => if_pos hr
  have key : ∀ (w : Word) (code : CommandCode) (sc : Scope), decodeCommand code.byte w = .ok (.invalidate sc) →
      submitWith code w s.beginEvent = invalidate sc (s.afterCommand w) := by
    intro w code sc hd
    unfold submitWith
    rw [hw]
    exact take_invalidation hd hc hr
  cases h with
  | page w d hn =>
    refine ⟨.page d (operandPage w), fun _ _ => rfl, fun _ _ => rfl, congrArg Host.Outcome.next (key w .invalidatePage _ ?_)⟩
    show withContext w _ = _
    rw [withContext, legalContext_of_names hn]
  | directory w d hn hl =>
    have hl' : legalDirectory w = some (BitVec.ofNat 10 (w.toNat % 1048576)) := by
      have hp : (operandPage w).toNat = w.toNat % 1048576 := by
        simp [operandPage, BitVec.extractLsb'_toNat]
      unfold legalDirectory
      rw [if_pos (by rw [hp]; exact hl)]
      exact congrArg some (BitVec.eq_of_toNat_eq (by rw [BitVec.toNat_setWidth, hp, BitVec.toNat_ofNat]))
    refine ⟨.directory d (BitVec.ofNat 10 (w.toNat % 1048576)), fun e p => ?_, fun e i => ?_,
      congrArg Host.Outcome.next (key w .invalidateDirectory _ ?_)⟩
    · show (e == d && directoryIndex p == _) = (e == d && decide _)
      congr 1
      rw [Bool.eq_iff_iff, beq_iff_eq, decide_eq_true_iff, ← BitVec.toNat_inj, BitVec.toNat_ofNat, Nat.mod_eq_of_lt hl]
      have : (directoryIndex p).toNat = p.toNat / 1024 := by
        simp only [directoryIndex, BitVec.extractLsb'_toNat, Nat.shiftRight_eq_div_pow]
        have := p.isLt
        omega
      rw [this]
    · show (e == d && i == _) = (e == d && decide _)
      congr 1
      rw [Bool.eq_iff_iff, beq_iff_eq, decide_eq_true_iff, ← BitVec.toNat_inj, BitVec.toNat_ofNat, Nat.mod_eq_of_lt hl]
    · show (match legalDirectory w with
        | some d => withContext w fun c => CommandOp.invalidate (.directory c d)
        | none => .error .badOperand) = _
      rw [hl']
      dsimp only
      rw [withContext, legalContext_of_names hn]
  | context w d hn =>
    refine ⟨.context d, fun _ _ => rfl, fun _ _ => rfl, congrArg Host.Outcome.next (key w .invalidateContext _ ?_)⟩
    show withContext w _ = _
    rw [withContext, legalContext_of_names hn]
  | all => exact ⟨.all, fun _ _ => rfl, fun _ _ => rfl, congrArg Host.Outcome.next (take_invalidation (w := s.operandWord) rfl hc hr)⟩

/-- Step 1 of an invalidation (R79, R80). -/
theorem scopeRemoved_eq {sc : Scope} {pages : ContextNumber → PageNumber → Bool} {dirs : ContextNumber → BitVec 10 → Bool}
    (hp : ∀ d p, sc.covers d p = pages d p) (hd : ∀ d i, sc.coversDir d i = dirs d i) (s : State) (operand : Option Word) :
    (s.afterCommand (operand.getD s.operandWord)).removeScope sc = s.scopeRemoved operand pages dirs := by
  unfold State.removeScope State.scopeRemoved
  simp only [hp, hd]
  rfl

/-! ## Commands behind the head -/

/-- The state with commands behind those of its queue, and another operand word and taken count. -/
def State.before (rest : List Command) (n : BitVec 16) (w : Word) (s : State) : State :=
  s.withUnit (s.commands ++ rest) n s.completedCount w

theorem UnitBlind.before {g : State → State} (hg : UnitBlind g) (rest : List Command) (n : BitVec 16) (w : Word) (s : State) :
    g (s.before rest n w) = (g s).before rest n w := by
  unfold State.before
  rw [hg, (hg.keeps s).1, (hg.keeps s).2.2.1]

variable {rest : List Command} (hr : ∀ cmd ∈ rest, cmd.taken = false) (n : BitVec 16) (w : Word)
include hr

/-- Commands not taken make no unit WAITING (R142). -/
theorem waitingOp_before (s : State) : (s.before rest n w).waitingOp = s.waitingOp := by
  unfold State.waitingOp State.before
  show (match s.commands ++ rest with
    | c :: _ => _
    | [] => _) = _
  cases s.commands with
  | nil =>
    cases rest with
    | nil => rfl
    | cons c l => simp [hr c (by simp)]
  | cons c l => rfl

omit hr in
theorem completeCommand_before {s : State} (h : s.commands ≠ []) :
    (s.before rest n w).completeCommand = s.completeCommand.before rest n w := by
  obtain ⟨c, l, hc⟩ := List.exists_cons_of_ne_nil h
  unfold State.completeCommand State.before State.withUnit
  simp [hc]

omit hr in
theorem commands_of_waiting {s : State} {op : CommandOp} (h : s.waitingOp = some op) : s.commands ≠ [] := by
  intro hn
  simp [State.waitingOp, hn] at h

theorem settleSync_before (s : State) : settleSync (s.before rest n w) = (settleSync s).before rest n w := by
  unfold settleSync
  rw [waitingOp_before hr]
  split
  · rename_i m hm
    have h1 : (s.before rest n w).watchEmpty = s.watchEmpty := rfl
    rw [h1]
    split
    · exact completeCommand_before n w (s := State.raise .syncDone { s with syncMarker := m }) (commands_of_waiting hm)
    · rfl
  · rfl

theorem settleContext_before (c : ContextNumber) (s : State) :
    settleContext c (s.before rest n w) = (settleContext c s).before rest n w := by
  unfold settleContext
  have h1 : (s.before rest n w).context c = s.context c := rfl
  have h2 : (s.before rest n w).drained c = s.drained c := rfl
  rw [h1, h2, waitingOp_before hr]
  split
  · dsimp only
    split
    · rename_i hw
      exact completeCommand_before n w (s := s.setContext c { s.context c with state := .off }) (commands_of_waiting hw)
    · rfl
  · rfl

/-- The tests at the end of an event see the head of the queue only (R25, R149, R153). -/
theorem settle_before (s : State) : settle (s.before rest n w) = (settle s).before rest n w := by
  unfold settle
  have : ∀ (l : List ContextNumber) (t : State),
      l.foldl (fun t c => settleContext c t) (t.before rest n w) = (l.foldl (fun t c => settleContext c t) t).before rest n w := by
    intro l
    induction l with
    | nil => intro t; rfl
    | cons c l ih => intro t; rw [List.foldl_cons, settleContext_before hr, ih, List.foldl_cons]
  rw [this, settleSync_before hr]

theorem applyCommand_before (op : CommandOp) {s : State} (hs : s.commands ≠ []) :
    applyCommand op (s.before rest n w) = (applyCommand op s).before rest n w := by
  have done : ∀ {g : State → State}, UnitBlind g →
      (g (s.before rest n w)).completeCommand = (g s).completeCommand.before rest n w := by
    intro g hg
    rw [hg.before, completeCommand_before n w (by rw [(hg.keeps s).1]; exact hs)]
  cases op with
  | invalidate sc => exact done (invalidate_unitBlind sc)
  | sync m => exact settleSync_before hr n w (formWatchSet s)
  | enable c => exact done (g := enableContext c) fun _ _ _ _ _ => rfl
  | disable c =>
    show settle (disableContext c (s.before rest n w)) = (settle (disableContext c s)).before rest n w
    rw [(disableContext_unitBlind c).before, settle_before hr]
  | resume h => exact done (resumeHead_unitBlind h)
  | terminate h => exact done (g := terminateHead h) fun _ _ _ _ _ => rfl
  | clearMemory => rfl
  | probe c p => exact done (g := fun t => { t with probe := t.probeResult c p }) fun _ _ _ _ _ => rfl

/-- A take with commands behind the head is the take of the head alone, with the rest kept (R142, R146). -/
theorem takeCommand_before {s : State} {c : Command} (hs : s.commands = [c]) :
    takeCommand (s.before rest n w) = (takeCommand s).before rest n w := by
  have hb : (s.before rest n w).commands = c :: rest := by
    show s.commands ++ rest = _
    rw [hs]; rfl
  unfold takeCommand
  rw [hs, hb]
  dsimp only
  split
  · rfl
  · have ht : State.before rest n w { s with commands := [{ c with taken := true }] } =
        { s.before rest n w with commands := { c with taken := true } :: rest } := rfl
    rw [← ht]
    split
    · rfl
    · rename_i op _
      have he : stateError (State.before rest n w { s with commands := [{ c with taken := true }] }) op =
          stateError { s with commands := [{ c with taken := true }] } op := by cases op <;> rfl
      rw [he]
      split
      · rfl
      · exact applyCommand_before hr n w op (by simp)

end Sys2Proof.Machine
end

