-- ==== Sys2Proof/Laws/Draining.lean ====
section
/-! SUPPORT. The steps of a disable as one record, and the row DISABLE_CONTEXT that meets an empty queue, up to the tests at its end (R22, R25, R103); and
that the DISABLE_CONTEXT of a DRAINING context stays at the head of the queue through the tests at the end of an event and through a take (R149). -/

namespace Sys2Proof.Machine

/-! ## The steps of a disable (R22) -/

/-- The start order after the abandonment: the slots still BUSY, in their former order (R84, R103). -/
theorem startOrder_abandonWalks (c : ContextNumber) (s : State) :
    (abandonWalks c s).startOrder = s.startOrder.filter fun i => s.slot i = none ∨ abandonedWalk c (s.slot i) ≠ none := by
  have one : ∀ (t : State) (a : SlotNumber), (abandonSlot c t a).startOrder =
      t.startOrder.filter fun i => i ≠ a ∨ t.slot i = none ∨ abandonedWalk c (t.slot i) ≠ none := by
    intro t a
    unfold abandonSlot
    cases ha : t.slot a with
    | none =>
      refine (List.filter_eq_self.2 fun i _ => ?_).symm
      by_cases hi : i = a
      · subst hi; simp [ha]
      · simp [hi]
    | some w =>
      dsimp only
      have keep : abandonedWalk c (some w) ≠ none →
          (t.startOrder.filter fun i => i ≠ a ∨ t.slot i = none ∨ abandonedWalk c (t.slot i) ≠ none) = t.startOrder := by
        intro hn
        refine List.filter_eq_self.2 fun i _ => ?_
        by_cases hi : i = a
        · subst hi; simp [ha, hn]
        · simp [hi]
      split
      · rename_i hc
        split
        · rename_i hw
          refine List.filter_congr fun i _ => ?_
          by_cases hi : i = a
          · subst hi; simp [ha, abandonedWalk, hc, hw]
          · simp [hi]
        · rename_i hw
          exact (keep (by simp [abandonedWalk, hc, hw])).symm
      · rename_i hc
        exact (keep (by simp [abandonedWalk, hc])).symm
  have key : ∀ (l : List SlotNumber) (t : State), l.Nodup → (l.foldl (abandonSlot c) t).startOrder =
      t.startOrder.filter fun i => i ∉ l ∨ t.slot i = none ∨ abandonedWalk c (t.slot i) ≠ none := by
    intro l
    induction l with
    | nil => intro t _; exact (List.filter_eq_self.2 fun i _ => by simp).symm
    | cons a rest ih =>
      intro t hn
      obtain ⟨ha, hr⟩ := List.nodup_cons.1 hn
      rw [List.foldl_cons, ih _ hr, one t a, List.filter_filter]
      refine List.filter_congr fun i _ => ?_
      rw [(abandonSlot_spec c t a).1 i]
      by_cases hi : i = a
      · subst hi; simp [ha]
      · simp [hi]
  unfold abandonWalks
  rw [key allSlots s (by decide)]
  exact List.filter_congr fun i _ => by simp [mem_allSlots]

theorem disabled_eq_disableHead (e : Entry) : disableHead e = e.disabled := by
  unfold disableHead Entry.disabled
  cases e.state <;> rfl

theorem disabledQueue_eq (q : List Entry) : disableQueue q = disabledQueue q := by
  cases q with
  | nil => rfl
  | cons e q => simp [disableQueue, disabledQueue, disabled_eq_disableHead]

/-- The steps of a disable, from the state in which its command has been taken alone, are `State.disabled` (R22, R103). -/
theorem disable_eq (s : State) (c : ContextNumber) (w : Word) :
    let x : State :=
      { s.beginEvent with
        operandWord := w, takenCount := s.takenCount + 1#16
        commands := [{ number := s.takenCount, code := 0x11#8, operand := w, taken := true }] }
    disableQueues c (abandonWalks c ((x.setContext c { x.context c with state := .draining }).removeScope (.context c))) =
      s.disabled c w := by
  intro x
  generalize hy : (x.setContext c { x.context c with state := .draining }).removeScope (.context c) = y
  have y1 : ∀ i, y.slot i = s.slot i := fun i => by rw [← hy]; rfl
  have y2 : y.startOrder = s.startOrder := by rw [← hy]; rfl
  have y3 : ∀ h, y.boundContext h = s.boundContext h := fun h => by rw [← hy]; rfl
  have y4 : ∀ h, y.headParked h = s.headParked h := fun h => by rw [← hy]; rfl
  have y5 : ∀ h, y.parkedPlace h = s.parkedPlace h := fun h => by rw [← hy]; rfl
  obtain ⟨sl, od, ha⟩ := abandonWalks_frame c y
  obtain ⟨pk, hq⟩ := disableQueues_frame c (abandonWalks c y)
  have hsl : sl = s.slots.map (abandonedWalk c) := by
    ext i hi
    have := slot_abandonWalks c y ⟨i, hi⟩
    rw [ha, y1] at this
    simp only [State.slot] at this
    rw [this]
    simp
  have hod : od = s.startOrder.filter fun i => s.slot i = none ∨ abandonedWalk c (s.slot i) ≠ none := by
    have := startOrder_abandonWalks c y
    rw [ha] at this
    simp only [y1, y2] at this
    exact this
  have hpk : pk = (s.disabled c w).parked := by
    have hp : ∀ k, (disableQueues c (abandonWalks c y)).parkedPlace k =
        if s.boundContext k = c ∧ s.headParked k = true then none else s.parkedPlace k := by
      intro k
      rw [(disableQueues_spec c (abandonWalks c y)).2.2.2 k, ha]
      show (if y.boundContext k = c ∧ y.headParked k = true then none else y.parkedPlace k) = _
      rw [y3, y4, y5]
    rw [hq] at hp
    ext i hi
    have e1 := hp ⟨⟨i, hi⟩, .normal⟩
    have e2 := hp ⟨⟨i, hi⟩, .urgent⟩
    simp only [State.parkedPlace, PerClass.get] at e1 e2
    have : (s.disabled c w).parked[i] = ⟨pk[i].normal, pk[i].urgent⟩ := by
      simp only [State.disabled, Vector.getElem_ofFn]
      rw [e1, e2]
      rfl
    rw [this]
  rw [hq, ha, hsl, hod, hpk, ← hy]
  have hports : s.ports.map (disablePort c) = (s.disabled c w).ports := by
    refine Vector.map_congr_left fun p _ => ?_
    unfold disablePort
    simp only [disabledQueue_eq]
  show State.mk .. = _
  simp only [State.disabled] at hports ⊢
  rw [← hports]
  rfl

/-! ## The row -/

/-- DISABLE_CONTEXT of an ACTIVE context that meets an empty queue: its steps, the slot wait list presented to the slots they freed, and the tests at the
end of the event (R22, R25, R91). -/
theorem exec_disableContext {s : State} {w : Word} {c : ContextNumber} (hn : operandNames w c) (hr : s.ready = true)
    (hc : s.commands = []) (ha : (s.context c).state = .active) :
    exec (.disableContext w) s = .next (settle (representWaiting (s.disabled c w))) := by
  have hw : writeOperand w s.beginEvent = { s.beginEvent with operandWord := w } := if_pos hr
  have hsub : submit 0x11#8 { s.beginEvent with operandWord := w } =
      { s.beginEvent with
        operandWord := w, takenCount := s.takenCount + 1#16
        commands := [{ number := s.takenCount, code := 0x11#8, operand := w, taken := false }] } := by
    unfold submit
    rw [if_pos (show State.ready { s.beginEvent with operandWord := w } = true from hr)]
    have : State.commands { s.beginEvent with operandWord := w } = [] := hc
    rw [this, if_pos (by decide)]
    rfl
  have hd : decodeCommand 0x11#8 w = .ok (.disable c) := by
    show withContext w _ = _
    rw [withContext, legalContext_of_names hn]
  show Host.Outcome.next (submitAndTake 0x11#8 (writeOperand w s.beginEvent)) = _
  rw [hw]
  unfold submitAndTake
  rw [if_pos (show State.commands { s.beginEvent with operandWord := w } = [] from hc), hsub]
  unfold takeCommand
  dsimp only
  rw [if_neg (by simp), hd]
  dsimp only
  have he : ∀ x : State, x.contexts = s.contexts → stateError x (.disable c) = none := fun x hx => by
    have hx' : (x.context c).state = .active := by simp only [State.context, hx] at ha ⊢; exact ha
    exact if_pos hx'
  split
  · rename_i hs
    exact absurd ((he _ rfl).symm.trans hs) (by simp)
  · show Host.Outcome.next (settle (disableContext c _)) = _
    rw [← disable_eq]
    rfl

/-! ## The waiting DISABLE_CONTEXT (R22, R149) -/

/-- A command word that decodes to a disable is one (R144, R186). -/
theorem disable_of_decode {code : BitVec 8} {w : Word} {c : ContextNumber} (h : decodeCommand code w = .ok (.disable c)) :
    code = 0x11#8 ∧ operandNames w c := by
  have hctx : ∀ (f : ContextNumber → CommandOp) (op : CommandOp), withContext w f = .ok op →
      ∃ d, legalContext w = some d ∧ op = f d := by
    intro f op hf
    unfold withContext at hf
    split at hf
    · rename_i d hd
      injection hf with hf
      exact ⟨d, hd, hf.symm⟩
    · simp at hf
  have hhead : ∀ (f : HeadId → CommandOp) (op : CommandOp), withHead w f = .ok op → ∃ k, op = f k := by
    intro f op hf
    unfold withHead at hf
    split at hf
    · injection hf with hf
      exact ⟨_, hf.symm⟩
    · simp at hf
  have hno : ∀ f : ContextNumber → CommandOp, withContext w f = .ok (.disable c) → (∀ d, f d ≠ .disable c) → False := by
    intro f hf hne
    obtain ⟨d, -, hd⟩ := hctx f _ hf
    exact hne d hd.symm
  unfold decodeCommand at h
  split at h
  · simp at h
  · exact (hno _ h (by simp)).elim
  · split at h
    · exact (hno _ h (by simp)).elim
    · simp at h
  · exact (hno _ h (by simp)).elim
  · simp at h
  · simp at h
  · exact (hno _ h (by simp)).elim
  · rename_i hcode
    obtain ⟨d, hd, he⟩ := hctx _ _ h
    injection he with he
    subst he
    refine ⟨?_, ?_⟩
    · unfold commandOfCode at hcode
      repeat' split at hcode
      all_goals first | exact BitVec.eq_of_toNat_eq (by assumption) | simp at hcode
    · unfold legalContext at hd
      split at hd
      · rename_i hlt
        injection hd with hd
        subst hd
        show w.toNat / 16777216 = (operandContext w).toNat
        simp only [operandContext, BitVec.extractLsb'_toNat, Nat.shiftRight_eq_div_pow]
        have := w.isLt
        omega
      · simp at hd
  · obtain ⟨k, hk⟩ := hhead _ _ h
    simp at hk
  · obtain ⟨k, hk⟩ := hhead _ _ h
    simp at hk
  · simp at h
  · exact (hno _ h (by simp)).elim

namespace State.DrainsHeld

/-- What is held depends on the contexts' states and the command queue only. -/
theorem of_fields {s t : State} (h : s.DrainsHeld) (h1 : ∀ c, (t.context c).state = .draining → (s.context c).state = .draining)
    (h2 : t.commands = s.commands) : t.DrainsHeld := fun c hc => by rw [h2]; exact h c (h1 c hc)

/-- Nothing is held while no context is DRAINING. -/
theorem of_none {s : State} (h : ∀ c, (s.context c).state ≠ .draining) : s.DrainsHeld := fun c hc => absurd hc (h c)

/-- The command that waits is the disable of the DRAINING context. -/
theorem waiting {s : State} (h : s.DrainsHeld) {c : ContextNumber} (hc : (s.context c).state = .draining) :
    s.waitingOp = some (.disable c) := by
  obtain ⟨cmd, rest, h1, h2, h3, h4⟩ := h c hc
  exact waitingOp_of_disable h1 h2 h3 h4

/-- While another command waits, or none, no context is DRAINING. -/
theorem none_of_waiting {s : State} (h : s.DrainsHeld) (hw : ∀ c, s.waitingOp ≠ some (.disable c)) :
    ∀ c, (s.context c).state ≠ .draining := fun c hc => hw c (h.waiting hc)

/-- While the head of the queue is not taken, no context is DRAINING (R142). -/
theorem none_of_untaken {s : State} (h : s.DrainsHeld) (hc : ∀ cmd rest, s.commands = cmd :: rest → cmd.taken = false) :
    ∀ c, (s.context c).state ≠ .draining := by
  intro c hd
  obtain ⟨cmd, rest, h1, h2, -⟩ := h c hd
  rw [hc cmd rest h1] at h2
  simp at h2

theorem settleSync {s : State} (h : s.DrainsHeld) : (Machine.settleSync s).DrainsHeld := by
  unfold Machine.settleSync
  split
  · rename_i m hw
    split
    · exact of_none fun c => h.none_of_waiting (by rw [hw]; simp) c
    · exact h
  · exact h

theorem settleContext {s : State} (h : s.DrainsHeld) (c : ContextNumber) : (Machine.settleContext c s).DrainsHeld := by
  unfold Machine.settleContext
  split
  · rename_i hd
    have hw := h.waiting hd.1
    dsimp only
    have hw' : (s.setContext c { s.context c with state := .off }).waitingOp = some (.disable c) := hw
    rw [if_pos hw]
    refine of_none fun d => ?_
    show ((s.setContext c { s.context c with state := .off }).context d).state ≠ _
    rw [State.context_setContext]
    split
    · simp
    · rename_i hne
      intro hd'
      rw [h.waiting hd'] at hw
      simp only [Option.some.injEq, CommandOp.disable.injEq] at hw
      exact hne hw.symm
  · exact h

/-- The tests at the end of an event keep what is held (R25, R149, R153). -/
theorem settle {s : State} (h : s.DrainsHeld) : (Machine.settle s).DrainsHeld := by
  unfold Machine.settle
  refine settleSync ?_
  generalize allContexts = l
  induction l generalizing s with
  | nil => exact h
  | cons c l ih => exact ih (h.settleContext c)

/-- Translation work reaches neither the contexts nor the command queue. -/
theorem of_outside {s t : State} (h : s.DrainsHeld) (ho : t.outside = s.outside) : t.DrainsHeld :=
  h.of_fields (fun c hc => by rwa [State.outside_context ho] at hc) (State.outside_commands ho)

/-- The entry to FAILED reaches neither. -/
theorem enterFailed {s : State} (h : s.DrainsHeld) : (Machine.enterFailed s).DrainsHeld := by
  obtain ⟨h1, h2, -⟩ := enterFailed_keeps s
  exact h.of_fields (fun c hc => by unfold State.context at hc ⊢; rwa [h1] at hc) h2

/-- A take keeps what is held: a disable becomes the waiting command (R22, R142, R149). -/
theorem takeCommand {s : State} (h : s.DrainsHeld) : (Machine.takeCommand s).DrainsHeld := by
  unfold Machine.takeCommand
  split
  · exact h
  · rename_i cmd rest hs
    split
    · exact h
    · rename_i ht
      have hno : ∀ c, (s.context c).state ≠ .draining := h.none_of_untaken fun cmd' rest' h' => by
        rw [hs] at h'
        injection h' with h' _
        subst h'
        simpa using ht
      dsimp only
      split
      · exact of_none hno
      · rename_i op hop
        split
        · exact of_none hno
        · have key : ∀ g : State, (∀ c, (g.context c).state ≠ .draining) → g.completeCommand.DrainsHeld := fun _ hg => of_none hg
          cases op with
          | invalidate sc =>
            refine key _ fun c => ?_
            rw [State.outside_context (invalidate_outside sc _)]
            exact hno c
          | sync m => exact settleSync (of_none hno)
          | enable c =>
            refine of_none fun d => ?_
            show ((State.setContext c _ _).context d).state ≠ _
            rw [State.context_setContext]
            split
            · simp
            · exact hno d
          | disable c =>
            obtain ⟨hcode, hname⟩ := disable_of_decode hop
            refine settle (of_outside (s := disableQueues c (abandonWalks c _)) ?_ (representWaiting_outside _))
            obtain ⟨sl, od, pk, hf⟩ := disable_frame c { s with commands := { cmd with taken := true } :: rest }
            rw [hf]
            intro d hd
            refine ⟨_, rest, rfl, rfl, hcode, ?_⟩
            have hd' : ((State.setContext c { s.context c with state := .draining } s).context d).state = .draining := hd
            rw [State.context_setContext] at hd'
            split at hd'
            · rename_i hcd
              rw [← hcd]
              exact hname
            · exact absurd hd' (hno d)
          | resume k =>
            refine key _ fun c => ?_
            unfold resumeHead
            rw [State.outside_context (presentHead_outside k _)]
            exact hno c
          | terminate k => exact key _ hno
          | clearMemory => exact of_none hno
          | probe d p => exact of_none hno

end State.DrainsHeld

end Sys2Proof.Machine
end

