-- ==== Sys2Proof/Laws/Transactions.lean ====
section
/-! SUPPORT. The links of the walks to the outstanding list, from operation to operation: one lemma for each operation that can touch a slot or the list
(R85, R160, R165). Between the removal of a walk's transaction and the walk's next state the link of its slot is open: the state then is linked with
that slot put FREE. -/

namespace Sys2Proof.Machine

/-- What a walk asks fits it whatever its waiters, marks and grant. -/
theorem Walk.Fits.congr {w v : Walk} (h : w.Fits) (h1 : v.kind = w.kind) (h2 : v.page = w.page) (h3 : v.stage = w.stage) (h4 : v.op = w.op)
    (h5 : v.address = w.address) (h6 : v.tableFrame = w.tableFrame) (h7 : v.entryWord = w.entryWord) : v.Fits := by
  cases h with
  | directory a b c d => exact .directory (h3.trans a) (h4.trans b) (h6.trans c) (h7.trans d)
  | page f a b c d e g => exact .page f (h3.trans a) (h1.trans b) (h4.trans c) (h6.trans d) (by rw [h5, h2, e]) (h7.trans g)
  | fillUpdate f word a b c d e g =>
    exact .fillUpdate f word (h3.trans a) (h1.trans b) (h4.trans c) (h6.trans d) (by rw [h5, h2, e]) (h7.trans g)
  | flagUpdate f a b c d e g => exact .flagUpdate f (h3.trans a) (h1.trans b) (h4.trans c) (h6.trans d) (by rw [h5, h2, e]) (h7.trans g)

namespace State.TransactionsLinked

/-! ## Updates -/

/-- The links depend on the slots and the outstanding list only. -/
theorem of_fields {s t : State} (h : s.TransactionsLinked) (hs : ∀ i, t.slot i = s.slot i) (ho : t.outstanding = s.outstanding) :
    t.TransactionsLinked :=
  ⟨fun i => by rw [ho, hs]; exact h.walks i, fun i w hi => h.fits i w (hs i ▸ hi), by rw [ho]; exact h.clients⟩

/-- The slots may change as long as each has the same transaction outstanding. -/
theorem of_slots {s t : State} (h : s.TransactionsLinked) (ho : t.outstanding = s.outstanding)
    (hs : ∀ i, walkOutstanding (t.slot i) = walkOutstanding (s.slot i)) (hf : ∀ i w, t.slot i = some w → w.Fits) :
    t.TransactionsLinked :=
  ⟨fun i => by rw [ho, hs]; exact h.walks i, hf, by rw [ho]; exact h.clients⟩

/-- A slot whose walk has no transaction outstanding may be put FREE. -/
theorem free {s : State} (h : s.TransactionsLinked) {i : SlotNumber} (hi : walkOutstanding (s.slot i) = []) :
    (s.setSlot i none).TransactionsLinked := by
  refine h.of_slots rfl (fun j => ?_) fun j w hj => ?_
  · rw [State.slot_setSlot]
    split
    · rename_i hij; subst hij; rw [hi]; rfl
    · rfl
  · rw [State.slot_setSlot] at hj
    split at hj
    · simp at hj
    · exact h.fits j w hj

/-- A walk put in a slot with its transaction awaiting a grant (R85). -/
theorem put {s : State} {i : SlotNumber} (h : (s.setSlot i none).TransactionsLinked) {w : Walk} (ha : w.awaiting = true)
    (hf : w.Fits) : (s.setSlot i (some w)).TransactionsLinked := by
  refine h.of_slots rfl (fun j => ?_) fun j v hj => ?_
  · simp only [State.slot_setSlot]
    split
    · simp [walkOutstanding, ha]
    · rfl
  · rw [State.slot_setSlot] at hj
    split at hj
    · injection hj with hj; subst hj; exact hf
    · rename_i hij
      refine h.fits j v ?_
      rw [State.slot_setSlot, if_neg hij]
      exact hj

/-- A walk may change in what is not its transaction. -/
theorem alter {s : State} (h : s.TransactionsLinked) {i : SlotNumber} {w w' : Walk} (hi : s.slot i = some w)
    (ho : walkOutstanding (some w') = walkOutstanding (some w)) (hf : w.Fits → w'.Fits) :
    (s.setSlot i (some w')).TransactionsLinked := by
  refine h.of_slots rfl (fun j => ?_) fun j v hj => ?_
  · rw [State.slot_setSlot]
    split
    · rename_i hij; subst hij; rw [hi]; exact ho
    · rfl
  · rw [State.slot_setSlot] at hj
    split at hj
    · injection hj with hj; subst hj; exact hf (h.fits i w hi)
    · exact h.fits j v hj

/-- A walk's end leaves the links, its transaction being gone (R84, R165). -/
theorem releaseSlot {s : State} {i : SlotNumber} (h : (s.setSlot i none).TransactionsLinked) :
    (s.releaseSlot i).TransactionsLinked := h.of_fields (fun _ => rfl) rfl

/-- An outstanding transaction of a slot is that of its BUSY walk, which awaits no grant (R85, R160). -/
theorem slot_of_mem {s : State} (h : s.TransactionsLinked) {t : Transaction} {i : SlotNumber} (ht : t ∈ s.outstanding)
    (ho : t.origin = .walk i) : ∃ w, s.slot i = some w ∧ w.awaiting = false ∧ w.op = t.op ∧ w.address = t.address := by
  have hm : (t.op, t.address) ∈ s.outstanding.filterMap (Transaction.ofWalk i) :=
    List.mem_filterMap.2 ⟨t, ht, by simp [Transaction.ofWalk, ho]⟩
  rw [h.walks] at hm
  unfold walkOutstanding at hm
  split at hm
  · rename_i w hw
    split at hm
    · simp at hm
    · rename_i ha
      simp only [List.mem_singleton, Prod.mk.injEq] at hm
      exact ⟨w, hw, by simpa using ha, hm.1.symm, hm.2.symm⟩
  · simp at hm

/-- The oldest transaction gone, of a walk: its slot's walk is the one it was issued for, and only that slot's link is open (R165). -/
theorem taken {s : State} (h : s.TransactionsLinked) {t : Transaction} {rest : List Transaction} {i : SlotNumber}
    (ho : s.outstanding = t :: rest) (hi : t.origin = .walk i) :
    (∃ w, s.slot i = some w ∧ w.awaiting = false ∧ w.op = t.op ∧ w.address = t.address ∧ w.Fits) ∧
      (∀ x ∈ rest, x.origin ≠ .walk i) ∧
      ∀ u : State, u.slots = s.slots → u.outstanding = rest → (u.setSlot i none).TransactionsLinked := by
  obtain ⟨w, hw, ha, hop, had⟩ := h.slot_of_mem (ho ▸ List.mem_cons_self) hi
  have hrest : rest.filterMap (Transaction.ofWalk i) = [] := by
    have := h.walks i
    rw [ho, List.filterMap_cons, hw] at this
    have he : Transaction.ofWalk i t = some (t.op, t.address) := by simp [Transaction.ofWalk, hi]
    simp only [he, walkOutstanding, ha, Bool.false_eq_true, ↓reduceIte] at this
    exact (List.cons.inj this).2
  refine ⟨⟨w, hw, ha, hop, had, h.fits i w hw⟩, fun x hx hxo => ?_, fun u hu hur => ?_⟩
  · have : (x.op, x.address) ∈ rest.filterMap (Transaction.ofWalk i) :=
      List.mem_filterMap.2 ⟨x, hx, by simp [Transaction.ofWalk, hxo]⟩
    rw [hrest] at this
    simp at this
  · have hslot : ∀ j, u.slot j = s.slot j := fun j => by simp only [State.slot, hu]
    refine ⟨fun j => ?_, fun j v hj => ?_, fun x hx => ?_⟩
    · show u.outstanding.filterMap _ = _
      rw [hur, State.slot_setSlot]
      split
      · rename_i hij; subst hij; exact hrest
      · rename_i hij
        rw [hslot, ← h.walks j, ho, List.filterMap_cons]
        simp [Transaction.ofWalk, hi, hij]
    · rw [State.slot_setSlot] at hj
      split at hj
      · simp at hj
      · exact h.fits j v (hslot j ▸ hj)
    · have hx' : x ∈ rest := by
        have : x ∈ u.outstanding := hx
        rwa [hur] at this
      exact h.clients x (ho ▸ List.mem_cons_of_mem _ hx')

/-- The oldest transaction gone, of a client: the links stand (R165). -/
theorem takenClient {s u : State} (h : s.TransactionsLinked) {t : Transaction} {rest : List Transaction} {v : RequestValues}
    (ho : s.outstanding = t :: rest) (hv : t.origin = .client v) (hu : ∀ i, u.slot i = s.slot i) (hur : u.outstanding = rest) :
    u.TransactionsLinked := by
  refine ⟨fun j => ?_, fun j w hj => h.fits j w (hu j ▸ hj), fun x hx => h.clients x ?_⟩
  · rw [hur, hu, ← h.walks j, ho, List.filterMap_cons]
    simp [Transaction.ofWalk, hv]
  · rw [hur] at hx
    exact ho ▸ List.mem_cons_of_mem _ hx

/-! ## Presentation -/

theorem fault {s : State} (h : s.TransactionsLinked) (cause : FaultCause) (k : HeadId) : (takeHeadFault cause k s).TransactionsLinked :=
  h.of_fields (fun i => State.slot_takeHeadFault cause k s i) (State.outside_outstanding (outside_takeHeadFault cause k s))

theorem deliverFault {s : State} (h : s.TransactionsLinked) (cause : FaultCause) (hs : List HeadId) :
    (Machine.deliverFault cause hs s).TransactionsLinked := by
  unfold Machine.deliverFault
  induction hs generalizing s with
  | nil => exact h
  | cons k hs ih => exact ih (h.fault cause k)

end State.TransactionsLinked

/-- The transaction that a walk forms on entering its directory stage fits it (R93). -/
theorem fits_of_firstAccess {s : State} {k : WalkKind} {c : ContextNumber} {p : PageNumber} {stage : WalkStage} {op : TxnOp} {a : PhysAddr}
    {frame : Option Frame} (h : s.FirstAccess k c p stage op a frame) {w : Walk} (h1 : w.kind = k) (h2 : w.page = p) (h3 : w.stage = stage)
    (h4 : w.op = op) (h5 : w.address = a) (h6 : w.tableFrame = frame) (h7 : w.entryWord = none) : w.Fits := by
  cases h with
  | miss _ => exact .directory h3 h4 h6 h7
  | fill d _ hk => exact .page d.tableFrame h3 (h1.trans hk) h4 h6 (by rw [h5, h2]) h7
  | flag d _ hk => exact .flagUpdate d.tableFrame h3 (h1.trans hk) h4 h6 (by rw [h5, h2]) h7

namespace State.TransactionsLinked

/-- A presentation keeps the links (R48, R88, R89). -/
theorem present {s : State} (h : s.TransactionsLinked) (k : HeadId) : (Machine.present k s).TransactionsLinked := by
  have hp := presents_present k s
  generalize Machine.present k s = t at hp
  cases hp with
  | empty _ => exact h
  | malformed e q _ _ => exact h.of_fields (fun _ => rfl) rfl
  | marked e q _ _ _ => exact h.of_fields (fun _ => rfl) rfl
  | noContext e q _ _ _ => exact h.of_fields (fun _ => rfl) rfl
  | refused e q cause pages dirs _ _ _ => exact fault (s := { s with pageCache := pages, dirCache := dirs }) (h.of_fields (fun _ => rfl) rfl) cause k
  | ready e q x a _ _ _ _ _ => exact h.of_fields (fun _ => rfl) rfl
  | joins e q kind pages i w _ _ _ _ hw =>
    exact (h.alter (w' := { w with waiters := w.waiters ++ [k] }) hw.busy rfl fun hf => by
      exact hf.congr rfl rfl rfl rfl rfl rfl rfl).of_fields (fun _ => rfl) rfl
  | starts e q i w pages _ _ hst =>
    cases hst with
    | start kind pages stage op a frame _ _ _ hi hfa _ _ =>
      exact ((h.free (i := i) (by rw [hi.1]; rfl)).put
        (w := startedWalk kind (s.boundContext k) (clientPage e.request.address) k stage op a frame) rfl
        (fits_of_firstAccess hfa rfl rfl rfl rfl rfl rfl rfl)).of_fields (fun _ => rfl) rfl
  | waits e q kind pages _ _ _ _ _ _ => exact h.of_fields (fun _ => rfl) rfl

theorem presentAll {s : State} (h : s.TransactionsLinked) (hs : List HeadId) : (Machine.presentAll hs s).TransactionsLinked := by
  unfold Machine.presentAll
  induction hs generalizing s with
  | nil => exact h
  | cons k hs ih => exact ih (h.present k)

theorem drainWait {s : State} (h : s.TransactionsLinked) (n : Nat) : (Machine.drainWait n s).TransactionsLinked := by
  induction n generalizing s with
  | zero => exact h
  | succ n ih =>
    unfold Machine.drainWait
    split
    · rename_i k waiting _ _
      exact ih (present (s := { s with slotWait := waiting }) (h.of_fields (fun _ => rfl) rfl) k)
    · exact h

/-- The re-presentation of the slot wait list keeps the links (R91). -/
theorem representWaiting {s : State} (h : s.TransactionsLinked) : (Machine.representWaiting s).TransactionsLinked := h.drainWait _

theorem presentHead {s : State} (h : s.TransactionsLinked) (k : HeadId) : (Machine.presentHead k s).TransactionsLinked :=
  (h.present k).representWaiting

/-! ## Walks (R94 to R105) -/

/-- A walk's failure keeps the links, its transaction being gone (R100). -/
theorem failWalk {s : State} {i : SlotNumber} {w : Walk} (hi : s.slot i = some w) (h : (s.setSlot i none).TransactionsLinked)
    (cause : FaultCause) : (Machine.failWalk i cause s).TransactionsLinked := by
  unfold Machine.failWalk
  rw [hi]
  refine ((deliverFault ?_ cause _).representWaiting)
  unfold dropFlagged
  split
  · exact (h.of_fields (t := (s.removePage w.context w.page).setSlot i none) (fun _ => rfl) rfl).releaseSlot
  · exact h.releaseSlot

theorem endAbandoned {s : State} {i : SlotNumber} (h : (s.setSlot i none).TransactionsLinked) :
    (Machine.endAbandoned i s).TransactionsLinked := h.releaseSlot.representWaiting

theorem completeWalk {s : State} {i : SlotNumber} (h : (s.setSlot i none).TransactionsLinked) (w : Walk) (word : Word) :
    (Machine.completeWalk i w word s).TransactionsLinked := by
  unfold Machine.completeWalk
  refine (presentAll (releaseSlot (h.of_fields (fun j => ?_) ?_)) _).representWaiting
  · rw [State.slot_setSlot, State.slot_setSlot]
    split
    · rfl
    · unfold State.fillPage
      split <;> rfl
  · unfold State.fillPage
    split <;> rfl

/-- A walk goes on with a transaction that fits it, or fails (R92). -/
theorem continueWalk {s : State} {i : SlotNumber} {w : Walk} (hi : s.slot i = some w) (h : (s.setSlot i none).TransactionsLinked)
    {r : Except FaultCause Walk} (hr : ∀ w', r = .ok w' → w'.awaiting = true ∧ w'.Fits) :
    (Machine.continueWalk i r s).TransactionsLinked := by
  unfold Machine.continueWalk
  split
  · rename_i w'
    obtain ⟨ha, hf⟩ := hr w' rfl
    exact h.put ha hf
  · exact failWalk hi h _

/-- A restart keeps the links (R101, R102). -/
theorem restartWalk {s : State} {i : SlotNumber} {w : Walk} (hi : s.slot i = some w) (h : (s.setSlot i none).TransactionsLinked) :
    (Machine.restartWalk i w s).TransactionsLinked := by
  have hp := (restarts_iff hi).2 (rfl : Machine.restartWalk i w s = _)
  generalize Machine.restartWalk i w s = v at hp
  cases hp with
  | goes stage op a frame hfa _ _ =>
    exact (h.put (w := { w with
        stage := stage, stale := false, op := op, address := a, awaiting := true, tableFrame := frame, entryWord := none }) rfl
      (fits_of_firstAccess hfa rfl rfl rfl rfl rfl rfl rfl)).of_fields (fun _ => rfl) rfl
  | fails stage op a frame cause u v _ _ hu hv =>
    rw [faultsInTurn_iff] at hu
    rw [represents_iff] at hv
    subst hu hv
    refine (deliverFault ?_ cause _).representWaiting
    exact h.of_fields (fun _ => rfl) rfl

/-- The access that follows a directory entry fits the walk (R94). -/
theorem formTableAccess_fits {s : State} {w w' : Walk} {f : Frame} (he : w.entryWord = none) (h : formTableAccess s w f = .ok w') :
    w'.awaiting = true ∧ w'.Fits := by
  unfold formTableAccess at h
  split at h
  · rename_i hk
    obtain ⟨-, -, rfl⟩ := formTransaction_ok h
    exact ⟨rfl, .page f rfl hk rfl rfl rfl he⟩
  · rename_i hk
    obtain ⟨-, -, rfl⟩ := formTransaction_ok h
    exact ⟨rfl, .flagUpdate f rfl hk rfl rfl rfl he⟩

/-- A walk takes the response to its transaction, which is gone (R94, R95, R97, R102, R104, R165). -/
theorem takeWalkResponse {s : State} {i : SlotNumber} {w : Walk} (hi : s.slot i = some w) (hf : w.Fits)
    (h : (s.setSlot i none).TransactionsLinked) {status : ResponseStatus} {data : List Word} (hs : shapeFits w.op status data = true) :
    (Machine.takeWalkResponse i status data s).TransactionsLinked := by
  unfold Machine.takeWalkResponse
  rw [hi]
  dsimp only
  split
  · exact h.endAbandoned
  · split
    · exact restartWalk hi h
    · split
      · exact failWalk hi h _
      · cases hf <;> simp_all [shapeFits]
      · rename_i word _
        split
        · rename_i hst
          unfold takeDirectoryWord
          split
          · dsimp only
            have hd : ∀ d, (s.fillDir d).slot i = some w := fun d => by rw [State.slot_fillDir]; exact hi
            refine continueWalk (hd _) (h.of_fields (fun j => ?_) ?_) fun w' hw' => formTableAccess_fits ?_ hw'
            · simp only [State.slot_setSlot, State.slot_fillDir]
            · unfold State.fillDir
              split <;> rfl
            · cases hf with
              | directory _ _ _ he => exact he
              | page f a => rw [a] at hst; simp at hst
              | fillUpdate f _ a => rw [a] at hst; simp at hst
              | flagUpdate f a => rw [a] at hst; simp at hst
          · exact failWalk hi h _
        · rename_i hst
          unfold takePageWord
          split
          · exact failWalk hi h _
          · split
            · refine continueWalk hi h fun w' hw' => ?_
              obtain ⟨-, -, rfl⟩ := formTransaction_ok hw'
              refine ⟨rfl, ?_⟩
              cases hf with
              | directory a => rw [a] at hst; simp at hst
              | page f a b c d e g => exact .fillUpdate f word rfl b rfl d e rfl
              | fillUpdate f _ a => rw [a] at hst; simp at hst
              | flagUpdate f a => rw [a] at hst; simp at hst
            · exact h.completeWalk w word
        · unfold takeUpdateWord
          split
          · exact h.completeWalk w _
          · exact failWalk hi h _

/-- The memory port ends the transaction of a slot, which is gone (R105). -/
theorem endWalkTransaction {s : State} {i : SlotNumber} (h : (s.setSlot i none).TransactionsLinked) :
    (Machine.endWalkTransaction i s).TransactionsLinked := by
  unfold Machine.endWalkTransaction
  split
  · rename_i hi
    refine h.of_fields (fun j => ?_) rfl
    rw [State.slot_setSlot]
    split
    · rename_i hij; subst hij; exact hi
    · rfl
  · rename_i w hi
    split
    · exact h.endAbandoned
    · exact failWalk hi h _

/-! ## Invalidation and disable (R80, R101, R103) -/

theorem markStale {s : State} (h : s.TransactionsLinked) (i : SlotNumber) : (Machine.markStale i s).TransactionsLinked := by
  unfold Machine.markStale
  split
  · exact h
  · rename_i w hi
    split
    · rename_i ha
      exact restartWalk hi (h.free (by rw [hi]; simp [walkOutstanding, ha]))
    · refine h.alter hi rfl fun hf => ?_
      exact hf.congr rfl rfl rfl rfl rfl rfl rfl

/-- An invalidation keeps the links (R80). -/
theorem invalidate {s : State} (h : s.TransactionsLinked) (sc : Scope) : (Machine.invalidate sc s).TransactionsLinked := by
  have hm : (markScope sc (s.removeScope sc)).TransactionsLinked := by
    unfold markScope
    have h0 : (s.removeScope sc).TransactionsLinked := h.of_fields (fun _ => rfl) rfl
    generalize (allSlots.filter fun i => walkInScope sc ((s.removeScope sc).slot i)) = l
    generalize s.removeScope sc = u at h0
    induction l generalizing u with
    | nil => exact h0
    | cons i l ih => exact ih _ (h0.markStale i)
  unfold Machine.invalidate representReady
  refine representWaiting ?_
  generalize allHeads = l
  generalize markScope sc (s.removeScope sc) = u at hm
  induction l generalizing u with
  | nil => exact hm
  | cons k l ih =>
    refine ih _ ?_
    dsimp only
    split
    · exact hm.present k
    · exact hm

/-- A disable keeps the links: a walk whose transaction is outstanding keeps it (R103). -/
theorem disableContext {s : State} (h : s.TransactionsLinked) (c : ContextNumber) : (Machine.disableContext c s).TransactionsLinked := by
  unfold Machine.disableContext
  generalize hx : (s.setContext c { s.context c with state := .draining }).removeScope (.context c) = x
  have h0 : x.TransactionsLinked := h.of_fields (fun _ => by rw [← hx]; rfl) (by rw [← hx]; rfl)
  refine representWaiting ?_
  have h1 : (abandonWalks c x).TransactionsLinked := by
    obtain ⟨sl, od, hf⟩ := abandonWalks_frame c x
    refine h0.of_slots (by rw [hf]) (fun i => ?_) fun i w hi => ?_
    · rw [slot_abandonWalks]
      cases x.slot i with
      | none => rfl
      | some w =>
        unfold abandonedWalk
        dsimp only
        split
        · split
          · rename_i ha; simp [walkOutstanding, ha]
          · rfl
        · rfl
    · rw [slot_abandonWalks] at hi
      cases hs : x.slot i with
      | none => rw [hs] at hi; simp [abandonedWalk] at hi
      | some v =>
        have hv := h0.fits i v hs
        rw [hs] at hi
        unfold abandonedWalk at hi
        dsimp only at hi
        split at hi
        · split at hi
          · simp at hi
          · injection hi with hi
            subst hi
            exact hv.congr rfl rfl rfl rfl rfl rfl rfl
        · injection hi with hi
          subst hi
          exact hv
  refine h1.of_fields (fun i => (disableQueues_spec c _).2.1 i) ?_
  obtain ⟨pk, hq⟩ := disableQueues_frame c (abandonWalks c x)
  rw [hq]

/-! ## The command unit -/

theorem settle {s : State} (h : s.TransactionsLinked) : (Machine.settle s).TransactionsLinked :=
  h.of_fields (fun i => settle_slot s i) (settle_outstanding s)

theorem settleSync {s : State} (h : s.TransactionsLinked) : (Machine.settleSync s).TransactionsLinked := by
  unfold Machine.settleSync
  split
  · split <;> exact h.of_fields (fun _ => rfl) rfl
  · exact h

theorem formWatchSet {s : State} (h : s.TransactionsLinked) : (Machine.formWatchSet s).TransactionsLinked := by
  have hsl : ∀ i, (Machine.formWatchSet s).slot i = watchWalk (s.slot i) := fun i => by simp [Machine.formWatchSet, State.slot]
  refine h.of_slots rfl (fun i => ?_) fun i w hi => ?_
  · rw [hsl]
    cases s.slot i <;> rfl
  · rw [hsl] at hi
    cases hs : s.slot i with
    | none => rw [hs] at hi; simp [watchWalk] at hi
    | some v =>
      rw [hs] at hi
      injection hi with hi
      subst hi
      exact (h.fits i v hs).congr rfl rfl rfl rfl rfl rfl rfl

theorem completeCommand {s : State} (h : s.TransactionsLinked) : s.completeCommand.TransactionsLinked := h.of_fields (fun _ => rfl) rfl

/-- The effect of a command keeps the links (R147, R148). -/
theorem applyCommand {s : State} (h : s.TransactionsLinked) (op : CommandOp) : (Machine.applyCommand op s).TransactionsLinked := by
  cases op with
  | invalidate sc => exact (h.invalidate sc).completeCommand
  | sync m => exact h.formWatchSet.settleSync
  | enable d => exact h.of_fields (fun _ => rfl) rfl
  | disable d => exact (h.disableContext d).settle
  | resume k => exact (presentHead (s := s.setParked k none) (h.of_fields (fun _ => rfl) rfl) k).completeCommand
  | terminate k => exact completeCommand (s := terminateHead k s) (h.of_fields (fun _ => rfl) rfl)
  | clearMemory => exact h.of_fields (fun _ => rfl) rfl
  | probe d p => exact h.of_fields (fun _ => rfl) rfl

/-- The take of a command keeps the links (R142). -/
theorem takeCommand {s : State} (h : s.TransactionsLinked) : (Machine.takeCommand s).TransactionsLinked := by
  unfold Machine.takeCommand
  split
  · exact h
  · rename_i c rest _
    split
    · exact h
    · dsimp only
      split
      · exact h.of_fields (fun _ => rfl) rfl
      · split
        · exact h.of_fields (fun _ => rfl) rfl
        · exact applyCommand (s := { s with commands := { c with taken := true } :: rest }) (h.of_fields (fun _ => rfl) rfl) _

/-! ## Client ports -/

theorem acceptRequest {s : State} (h : s.TransactionsLinked) (p : PortNumber) (r : Request) : (Machine.acceptRequest p r s).TransactionsLinked := by
  have hq : ∀ q, (s.setQueue ⟨p, r.cls⟩ q).TransactionsLinked := fun _ => h.of_fields (fun _ => rfl) rfl
  unfold Machine.acceptRequest
  dsimp only
  split
  · exact (hq _).presentHead _
  · exact hq _

theorem transfer {s : State} (h : s.TransactionsLinked) (k : HeadId) : (Machine.transfer k s).TransactionsLinked := by
  unfold Machine.transfer
  split
  · split
    · split
      · exact (presentHead (s := moveHead k _ _ s) (h.of_fields (fun _ => rfl) rfl) k).settle
      · exact h
    · exact h
  · exact h

/-! ## The memory port -/

/-- A transaction issued for a head (R57, R164). -/
theorem issueClient {s : State} (h : s.TransactionsLinked) {op : TxnOp} (a : PhysAddr) {v : RequestValues} (hk : op.OfKind v.kind) :
    (s.issue op a (.client v)).TransactionsLinked := by
  refine ⟨fun i => ?_, h.fits, fun t ht => ?_⟩
  · show (s.outstanding ++ [_]).filterMap _ = _
    rw [List.filterMap_append, h.walks]
    exact List.append_nil _
  · have ht' : t ∈ s.outstanding ++ [{ op := op, address := a, origin := .client v, age := 0 }] := ht
    rcases List.mem_append.1 ht' with ht' | ht'
    · exact h.clients t ht'
    · rw [List.mem_singleton.1 ht']
      intro u hu
      injection hu with hu
      subst hu
      exact hk

theorem grantHead {s : State} (h : s.TransactionsLinked) (k : HeadId) : (Machine.grantHead k s).TransactionsLinked := by
  unfold Machine.grantHead
  split
  · rename_i e _
    split
    · refine presentHead (issueClient (h.of_fields (fun i => ?_) ?_) _ ?_) _
      · show (rememberGrant k s).slot i = _
        unfold rememberGrant
        split <;> rfl
      · show (rememberGrant k s).outstanding = _
        unfold rememberGrant
        split <;> rfl
      · show (clientOp e.request).OfKind e.request.kind
        unfold clientOp
        split <;> (rename_i hk; rw [hk]; exact trivial)
    · exact h
  · exact h

/-- A GRANT to a walk puts its transaction in the list (R164). -/
theorem grantWalk {s : State} (h : s.TransactionsLinked) {i : SlotNumber} (hw : walkAwaits (s.slot i) = true) :
    (Machine.grantWalk i s).TransactionsLinked := by
  unfold Machine.grantWalk
  split
  · exact h
  · rename_i w hi
    rw [hi] at hw
    have ha : w.awaiting = true := hw
    have hslot : ∀ j, ((s.setSlot i (some { w with awaiting := false })).issue w.op w.address (.walk i)).slot j =
        if i = j then some { w with awaiting := false } else s.slot j := fun j => State.slot_setSlot i j _ s
    refine ⟨fun j => ?_, fun j v hj => ?_, fun t ht u hu => ?_⟩
    · rw [hslot]
      show (s.outstanding ++ [_]).filterMap _ = _
      rw [List.filterMap_append, h.walks]
      split
      · rename_i hij
        subst hij
        simp [hi, walkOutstanding, ha, Transaction.ofWalk]
      · rename_i hij
        simp [Transaction.ofWalk, hij]
    · rw [hslot] at hj
      split at hj
      · injection hj with hj
        subst hj
        exact (h.fits i w hi).congr rfl rfl rfl rfl rfl rfl rfl
      · exact h.fits j v hj
    · have ht' : t ∈ s.outstanding ++ [{ op := w.op, address := w.address, origin := .walk i, age := 0 }] := ht
      rcases List.mem_append.1 ht' with ht' | ht'
      · exact h.clients t ht' u hu
      · rw [List.mem_singleton.1 ht'] at hu
        simp at hu

/-- A GRANT keeps the links (R161). -/
theorem grant {s : State} (h : s.TransactionsLinked) : (Machine.grant s).TransactionsLinked := by
  unfold Machine.grant
  split
  · split
    · rename_i i hw
      refine h.grantWalk ?_
      unfold State.winner at hw
      split at hw
      · rename_i j hj
        simp only [Option.some.injEq, Winner.walk.injEq] at hw
        subst hw
        exact List.find?_some (p := fun i => walkAwaits (s.slot i)) hj
      · repeat' split at hw
        all_goals simp at hw
    · exact (h.grantHead _).settle
    · exact h
  · exact h

theorem dataError {s : State} (h : s.TransactionsLinked) (v : RequestValues) : (takeDataError v s).TransactionsLinked :=
  h.of_fields (fun i => by simp only [State.slot, (takeDataError_walker v s).1]) (State.outside_outstanding (outside_takeDataError v s))

theorem endOutstanding (l : List Transaction) {s : State} (hl : s.outstanding = l) (h : s.TransactionsLinked) :
    (Machine.endOutstanding l s).TransactionsLinked := by
  induction l generalizing s with
  | nil => exact h
  | cons t rest ih =>
    unfold Machine.endOutstanding
    refine ih (by rw [(endTransaction_frame _ _).1]) ?_
    unfold Machine.endTransaction
    split
    · rename_i v hv
      exact dataError (h.takenClient (u := State.endItem ⟨v.port, v.cls⟩ .memoryError none { s with outstanding := rest }) hl hv
        (fun _ => rfl) rfl) v
    · rename_i i hi
      exact endWalkTransaction ((h.taken hl hi).2.2 _ rfl rfl)

theorem failAwaiting {s : State} (ho : s.outstanding = []) (h : s.TransactionsLinked) : (Machine.failAwaiting s).TransactionsLinked := by
  unfold Machine.failAwaiting
  generalize s.startOrder = l
  induction l generalizing s with
  | nil => exact h
  | cons i l ih =>
    refine ih ?_ (endWalkTransaction (h.free ?_))
    · rw [State.outside_outstanding (endWalkTransaction_outside i s)]; exact ho
    · rw [← h.walks, ho]; rfl

/-- The entry to FAILED keeps the links (R105, R169). -/
theorem enterFailed {s : State} (h : s.TransactionsLinked) : (Machine.enterFailed s).TransactionsLinked := by
  have hx : (State.raise .memoryFailed { s with memState := .failed, lateCleared := false }).TransactionsLinked :=
    h.of_fields (fun _ => rfl) rfl
  have ho := endOutstanding_spec s.outstanding (State.raise .memoryFailed { s with memState := .failed, lateCleared := false }) rfl
  exact failAwaiting ho.1 (endOutstanding s.outstanding rfl hx)

/-- A response keeps the links (R165, R166). -/
theorem response {s : State} (h : s.TransactionsLinked) (status : ResponseStatus) (data : List Word) :
    (Machine.response status data s).TransactionsLinked := by
  unfold Machine.response
  split
  · refine settle ?_
    unfold responseRunning
    split
    · exact h.enterFailed
    · rename_i t rest ho
      split
      · rename_i hs
        unfold takeResponse
        split
        · rename_i v hv
          have hc : ∀ st d, (State.endItem ⟨v.port, v.cls⟩ st d { s with outstanding := rest, lateCleared := false }).TransactionsLinked :=
            fun st d => h.takenClient ho hv (fun _ => rfl) rfl
          split
          · exact hc _ _
          · exact (hc _ _).dataError v
        · rename_i i hi
          obtain ⟨⟨w, hw, -, hop, -, hf⟩, -, hx⟩ := h.taken ho hi
          exact takeWalkResponse (s := { s with outstanding := rest, lateCleared := false }) (w := w) hw hf (hx _ rfl rfl) (hop ▸ hs)
      · exact h.enterFailed
  · exact h

theorem advanceAges {s : State} (h : s.TransactionsLinked) : (Machine.advanceAges s).TransactionsLinked := by
  refine ⟨fun i => ?_, h.fits, fun t ht v hv => ?_⟩
  · show (s.outstanding.map _).filterMap _ = _
    rw [List.filterMap_map]
    exact h.walks i
  · obtain ⟨x, hx, rfl⟩ := List.mem_map.1 ht
    exact h.clients x hx v hv

/-- A comparison with the response limit keeps the links (R168). -/
theorem compareLimit {s : State} (h : s.TransactionsLinked) : (Machine.compareLimit s).TransactionsLinked := by
  unfold Machine.compareLimit
  split
  · split
    · exact h
    · split
      · exact h.enterFailed.settle
      · exact h
  · split
    · exact h.of_fields (fun _ => rfl) rfl
    · exact h
  · exact h

/-- With every slot FREE and nothing outstanding there is nothing to link. -/
theorem of_empty {s : State} (h1 : ∀ i, s.slot i = none) (h2 : s.outstanding = []) : s.TransactionsLinked :=
  ⟨fun i => by rw [h1, h2]; rfl, fun i w hi => by simp [h1] at hi, by rw [h2]; simp⟩

end State.TransactionsLinked

end Sys2Proof.Machine
end

