-- ==== Sys2Proof/Tests/Slice0.lean ====
section
/-! SUPPORT. Small tests: the well-formedness checks refuse an ill-formed term each, the hypotheses of every statement are met by a concrete state (clause by
clause, at the ends of their ranges), and a few events on small states. -/

namespace Sys2Proof.Tests

set_option maxRecDepth 20000

open Sys2Proof Sys2Proof.Machine

/-! ## States -/

/-- READY and RUNNING, everything else as after reset. -/
def base : State := { State.reset with device := .ready, memState := .running, emitted := [] }

/-- RESETN held low. -/
def low : State := State.powerOn

/-- Context 0 ACTIVE with limit 1, STALL, writes and flags; port 0 OPEN; all of memory OPEN. -/
def on : State :=
  { ((base.setContext 0
        { state := .active, directoryFrame := 0x10#24, limit := 1#11, policy := .stall, writesPermitted := true
          recordFlags := true }).setRegion 0 { endUnit := 4096#13, kind := .open_ }).setPort 0
      { (base.port 0) with state := .open_ } with
    emitted := [] }

/-- The NORMAL queue of port 0. -/
abbrev n0 : HeadId := ⟨0, .normal⟩

/-- A READ of 64 bytes at the last such address under directory index 0. -/
def read0 : Request := { tag := 1#6, kind := .read, cls := .normal, address := 0x003FFFC0#32, length := 64, data := [] }

/-- A WRITE of one word to the same page. -/
def write0 : Request := { read0 with kind := .write, length := 4, data := [7#32] }

/-- An entry of a request in a head state. -/
def entryOf (r : Request) (st : EntryState) : Entry := { request := r, malformed := false, abortMark := false, state := st }

/-- The page-cache entry of the requests' page. -/
def page0 : PageEntry :=
  { context := 0, page := 0x3FF#20, frame := 0x200#24, readPermit := true, writePermit := true, modifiedKnown := true }

/-- The physical address of the requests. -/
abbrev phys0 : PhysAddr := 0x200FC0#36

/-- `on` with the page cached. -/
def cached (e : PageEntry) : State := { on with pageCache := [e] }

/-- `on` with one head in the NORMAL queue of port 0. -/
def headed (r : Request) (st : EntryState) : State := on.setQueue n0 [entryOf r st]

/-- A FILL walk of the requests' page, with the head of port 0 waiting. -/
def walk0 : Walk := startedWalk .fill 0 0x3FF#20 n0 .page (.read 4) 0x10FFC#36 (some 0x10#24)

/-- `on` with a walk in slot 3, the last, whose transaction is outstanding. -/
def walking (w : Walk) (op : TxnOp) : State :=
  { (headed read0 .walking).setSlot 3 (some { w with awaiting := false }) with
    startOrder := [3], outstanding := [{ op := op, address := w.address, origin := .walk 3, age := 0 }] }

/-- The values of the requests' transactions. -/
def values0 (r : Request) : RequestValues :=
  { port := 0, cls := .normal, tag := r.tag, kind := r.kind, context := 0, address := r.address }

/-- `on` with an item IN_FLIGHT before a DONE one. -/
def flying (r : Request) (op : TxnOp) : State :=
  { on.setPort 0
      { on.port 0 with
        returns :=
          ⟨[{ tag := r.tag, cls := .normal, kind := r.kind, state := .inFlight false },
            { tag := 2#6, cls := .normal, kind := .read, state := .done .aborted none }], []⟩ } with
    outstanding := [{ op := op, address := phys0, origin := .client (values0 r), age := 0 }] }

/-- A command that waits in the queue, taken or not. -/
def command (code : BitVec 8) (taken : Bool) : Command := { number := 0#16, code := code, operand := 0#32, taken := taken }

/-- A state with n commands in its queue. -/
def queued (n : Nat) : State := { base with commands := List.replicate n (command 0x08#8 false) }

/-- A log of n records. -/
def logged (n : Nat) (s : State) : State :=
  { s with
    faultLog := List.replicate n
      { sequence := 0#16, port := 0, cls := .normal, tag := 0#6, kind := .read, context := 0, address := 0#32
        cause := .limit, outcome := .aborted } }

/-- The state an event leaves. -/
def after (i : Instr) (s : State) : State :=
  match exec i s with
  | .next t => t
  | .fault _ => s
  | .refused _ => s

/-- The state a step leaves. -/
def afterStep (s : State) : State :=
  match step s with
  | .next t => t
  | .fault _ => s
  | .refused _ => s

/-- The permission of a page entry, as a decidable condition. -/
theorem permits_iff (s : State) (c : ContextNumber) (k : ReqKind) (e : PageEntry) :
    s.Permits c k e ↔
      (if k = .read then e.readPermit = true else e.writePermit = true ∧ (s.context c).writesPermitted = true) := by
  cases k <;> simp [State.Permits]

/-- The admission of a request's kind by a region, as a decidable condition. -/
theorem regionAdmits_iff (s : State) (k : ReqKind) (a : PhysAddr) :
    s.RegionAdmits k a ↔
      (if k = .read then s.regionOf a = .open_ ∨ s.regionOf a = .readOnly else s.regionOf a = .open_) := by
  cases k <;> simp [State.RegionAdmits]

/-- An idle command unit and no drain: nothing waits for the end of an event. -/
theorem noEnds_of_idle {s : State} (h1 : s.commands = []) (h2 : ∀ c, (s.context c).state ≠ .draining) : s.NoEnds := by
  refine ⟨h2, fun m => ?_⟩
  simp [State.waitingOp, h1]

/-! ## Well-formedness -/

theorem test_wellFormed_unknownCode : (Instr.unknownCode 0x01#8).wellFormed = false := by decide
theorem test_wellFormed_unknownCode_ok : (Instr.unknownCode 0x00#8).wellFormed = true := by decide
theorem test_wellFormed_registerWrite : (Instr.registerWrite 0x002#12 0xF#4 0#32).wellFormed = false := by decide
theorem test_wellFormed_malformedRead_offset : (Instr.malformedRead 0x3F1#12 0x7#4).wellFormed = false := by decide
theorem test_wellFormed_malformedRead_access : (Instr.malformedRead 0x000#12 0xF#4).wellFormed = false := by decide
theorem test_wellFormed_malformedRead_ok : (Instr.malformedRead 0x3F0#12 0xF#4).wellFormed = true := by decide
theorem test_decodeTableWord_none : decodeTableWord 32 0x01 = none := by decide

/-! ## The hypotheses of the statements are met -/

theorem test_witness_EmptyQueueIsOneHostClock :
    (low.pending = [] ∧ low.resetnLow = true) ∧ (base.pending = [] ∧ base.resetnLow = false ∧ 1 < base.tickLeft) ∧
    (let s : State := { flying read0 (.read 64) with tickLeft := 1, responseLimit := 2#16 }
     s.pending = [] ∧ s.resetnLow = false ∧ s.tickLeft ≤ 1 ∧ s.memState = .running ∧ s.outstanding ≠ [] ∧
       ∀ t ∈ s.outstanding, t.age + 1 < s.responseLimit.toNat) ∧
    (let s : State := { State.reset with tickLeft := 1, responseLimit := 1#16 }
     s.pending = [] ∧ s.resetnLow = false ∧ s.tickLeft ≤ 1 ∧ s.responseLimit.toNat ≠ 0 ∧ s.memState = .clearing ∧
       s.responseLimit.toNat ≤ s.clearAge + 1) ∧
    (let s : State := { flying read0 (.read 64) with tickLeft := 1, responseLimit := 1#16 }
     s.responseLimit.toNat ≠ 0 ∧ s.memState = .running ∧ ∀ t ∈ s.outstanding, s.responseLimit.toNat ≤ t.age + 1) := by
  decide

theorem test_witness_ResetPin : low.resetnLow = true ∧ base.resetnLow = false := by decide

theorem test_witness_DeviceReset :
    base.ready = true ∧ low.ready = false ∧ (1#32 : Word).getLsbD 0 = true ∧ (2#32 : Word).getLsbD 0 = false := by
  decide

theorem test_witness_PortControlWrite :
    low.ready = false ∧ (base.ready = true ∧ (base.port 3).state = .closed ∧ (on.port 0).state = .open_) ∧
    (1#32 : Word).getLsbD 0 = true ∧ (1#32 : Word).getLsbD 1 = false ∧ (2#32 : Word).getLsbD 0 = false ∧
    (2#32 : Word).getLsbD 1 = true ∧ (3#32 : Word).getLsbD 0 = (3#32 : Word).getLsbD 1 ∧
    (0#32 : Word).getLsbD 0 = (0#32 : Word).getLsbD 1 ∧ on.ready = true := by
  decide

theorem test_witness_OpenAndClose :
    (base.ready = true ∧ (base.port 0).state = .closed) ∧
    (on.ready = true ∧ (on.port 0).state = .open_ ∧ (on.port 0).isEmpty = true) ∧
    ((headed read0 .parked).ready = true ∧ ((headed read0 .parked).port 0).state = .open_ ∧
      ((headed read0 .parked).port 0).isEmpty = false) ∧ low.ready = false := by
  decide

theorem test_witness_PortBinding :
    (base.ready = true ∧ (base.port 3).state = .closed) ∧ (on.ready = true ∧ (on.port 0).state ≠ .closed) ∧
    State.reset.ready = false := by
  decide

theorem test_witness_RequestAnswered :
    ¬ (base.ready = true ∧ (base.port 0).state = .open_) ∧
    (let s := on.setQueue n0 (List.replicate 8 (entryOf read0 .queued))
     s.ready = true ∧ (s.port 0).state = .open_ ∧ 8 ≤ (s.queue n0).length) ∧
    (let s := on.setQueue n0 (List.replicate 7 (entryOf read0 .queued))
     s.ready = true ∧ (s.port 0).state = .open_ ∧ 0 < (s.queue n0).length ∧ (s.queue n0).length < 8) ∧
    wellFormedRequest read0 = true ∧ wellFormedRequest { read0 with length := 68 } = false := by
  decide

theorem test_witness_RequestFinishedAtOnce :
    on.Offered ∧ on.ready = true ∧ (on.port 0).state = .open_ ∧ on.queue n0 = [] ∧
    wellFormedRequest { read0 with length := 68 } = false ∧
    (let s := on.setPort 0 { on.port 0 with binding := 15 }
     s.Offered ∧ s.queue n0 = [] ∧ wellFormedRequest read0 = true ∧ (s.context (s.port 0).binding).state ≠ .active) :=
  ⟨offered_of_empty rfl, by decide, by decide, by decide, by decide, offered_of_empty rfl, by decide, by decide, by decide⟩

theorem test_witness_RequestHits :
    let s := cached page0
    s.Offered ∧ s.ready = true ∧ (s.port 0).state = .open_ ∧ s.queue n0 = [] ∧ wellFormedRequest read0 = true ∧
    s.Translated n0 read0 ∧ s.pageLookup 0 (clientPage read0.address) = some page0 ∧ s.HitReady 0 read0 page0 phys0 ∧
    wellFormedRequest write0 = true ∧ s.HitReady 0 write0 page0 phys0 :=
  ⟨offered_of_empty rfl, by decide, by decide, by decide, by decide, ⟨by decide, by decide⟩, by decide,
    ⟨by decide, (by rw [permits_iff]; decide), (by rw [regionAdmits_iff]; decide), by decide⟩, by decide,
    ⟨by decide, (by rw [permits_iff]; decide), (by rw [regionAdmits_iff]; decide), by decide⟩⟩

theorem test_witness_RequestFaults :
    (let s := cached page0
     (s.context 0).state = .active ∧ wellFormedRequest { read0 with address := 0x00400000#32 } = true ∧
       (s.context 0).limit.toNat ≤ (0x00400000#32 : Word).toNat / 4194304) ∧
    (let e := { page0 with readPermit := false }
     (cached e).Translated n0 read0 ∧ (cached e).pageLookup 0 (clientPage read0.address) = some e ∧
       (cached e).HitFault 0 read0 e .readDenied) ∧
    (let e := { page0 with writePermit := false }
     (cached e).HitFault 0 write0 e .writeDenied) ∧
    (let s := (cached page0).setRegion 0 { endUnit := 4096#13, kind := .readOnly }
     s.HitFault 0 write0 page0 .regionDenied) :=
  ⟨by decide, ⟨⟨by decide, by decide⟩, by decide, Or.inl ⟨(by rw [permits_iff]; decide), by decide, rfl⟩⟩,
    Or.inr (Or.inl ⟨(by rw [permits_iff]; decide), by decide, rfl⟩),
    Or.inr (Or.inr ⟨(by rw [permits_iff]; decide), (by rw [regionAdmits_iff]; decide), rfl⟩)⟩

theorem noWalk_of_free {s : State} (h : ∀ i, s.slot i = none) (c : ContextNumber) (p : PageNumber) : s.NoWalk c p := by
  intro i w hi
  rw [h i] at hi
  exact absurd hi (by simp)

/-- The page cached with modified-known no, and its directory entry. -/
def unmarked : PageEntry := { page0 with modifiedKnown := false }
def flagged : State := { cached unmarked with dirCache := [{ context := 0, index := 0#10, tableFrame := 0x20#24 }] }

theorem needsWalk_flagged : flagged.NeedsWalk 0 write0 .flag (flagged.pageFront unmarked) :=
  .flag _ (by decide) (by decide) (by decide) ((permits_iff _ _ _ _).2 (by decide)) ((regionAdmits_iff _ _ _).2 (by decide))

theorem firstAccess_flagged :
    flagged.FirstAccess .flag 0 (clientPage write0.address) .update (.update true) 0x20FFC#36 (some 0x20#24) := by
  have h := State.FirstAccess.flag (s := flagged) (k := .flag) (c := 0) (p := clientPage write0.address)
    { context := 0, index := 0#10, tableFrame := 0x20#24 } (by decide) rfl
  have ha : entryAddress 0x20#24 (pageIndex (clientPage write0.address)) = 0x20FFC#36 := by decide
  rwa [ha] at h

/-- `on` with the last frame of memory in the directory cache. -/
def directed : State := { on with dirCache := [{ context := 0, index := 0#10, tableFrame := 0xFFFFFF#24 }] }

theorem firstAccess_directed :
    directed.FirstAccess .fill 0 (clientPage read0.address) .page (.read 4) 0xFFFFFFFFC#36 (some 0xFFFFFF#24) := by
  have h := State.FirstAccess.fill (s := directed) (k := .fill) (c := 0) (p := clientPage read0.address)
    { context := 0, index := 0#10, tableFrame := 0xFFFFFF#24 } (by decide) rfl
  have ha : entryAddress 0xFFFFFF#24 (pageIndex (clientPage read0.address)) = 0xFFFFFFFFC#36 := by decide
  rwa [ha] at h

theorem firstAccess_on : on.FirstAccess .fill 0 (clientPage read0.address) .directory (.read 4) 0x10000#36 none := by
  have h := State.FirstAccess.miss (s := on) (k := .fill) (c := 0) (p := clientPage read0.address) (by decide)
  have ha : entryAddress (on.context 0).directoryFrame (directoryIndex (clientPage read0.address)) = 0x10000#36 := by decide
  rwa [ha] at h

theorem test_witness_RequestStartsWalk :
    (on.Offered ∧ on.ready = true ∧ (on.port 0).state = .open_ ∧ on.queue n0 = [] ∧ on.Translated n0 read0 ∧
      on.NeedsWalk 0 read0 .fill on.pageCache ∧ on.NoWalk 0 (clientPage read0.address) ∧ on.LowestFree 0 ∧
      on.FirstAccess .fill 0 (clientPage read0.address) .directory (.read 4) 0x10000#36 none ∧
      on.TableAdmits (.read 4) 0x10000#36 ∧ on.memState = .running) ∧
    (let s : State := { on with memState := .failed }
     s.TableAdmits (.read 4) 0x10000#36 ∧ s.memState ≠ .running) ∧
    (directed.FirstAccess .fill 0 (clientPage read0.address) .page (.read 4) 0xFFFFFFFFC#36 (some 0xFFFFFF#24) ∧
      directed.TableAdmits (.read 4) 0xFFFFFFFFC#36 ∧ ¬ base.TableAdmits (.read 4) 0xFFFFFFFFC#36) ∧
    (flagged.NeedsWalk 0 write0 .flag (flagged.pageFront unmarked) ∧
      flagged.FirstAccess .flag 0 (clientPage write0.address) .update (.update true) 0x20FFC#36 (some 0x20#24) ∧
      flagged.TableAdmits (.update true) 0x20FFC#36 ∧
      ¬ (flagged.setRegion 0 { endUnit := 4096#13, kind := .readOnly }).TableAdmits (.update true) 0x20FFC#36) := by
  refine ⟨⟨offered_of_empty rfl, by decide, by decide, by decide, ⟨by decide, by decide⟩, .miss (by decide),
      noWalk_of_free (by decide) _ _, ⟨by decide, by decide⟩, firstAccess_on, ?_, by decide⟩, ⟨?_, by decide⟩,
    ⟨firstAccess_directed, ?_, ?_⟩, needsWalk_flagged,
    firstAccess_flagged, ?_, ?_⟩ <;>
    (unfold State.TableAdmits; decide)

theorem test_witness_RequestJoinsOrWaits :
    (let s := on.setSlot 3 (some walk0)
     s.Offered ∧ s.Translated n0 read0 ∧ s.NeedsWalk 0 read0 .fill s.pageCache ∧ s.slot 3 = some walk0 ∧
       walk0.abandoned = false ∧ walk0.context = 0 ∧ walk0.page = clientPage read0.address ∧
       ∀ j v, s.slot j = some v → v.abandoned = false → v.context = 0 → v.page = clientPage read0.address → j = 3) ∧
    (let s : State := { on with slots := Vector.replicate 4 (some { walk0 with page := 0#20 }) }
     s.Offered ∧ s.NeedsWalk 0 read0 .fill s.pageCache ∧ s.NoWalk 0 (clientPage read0.address) ∧ ∀ i, s.slot i ≠ none) ∧
    flagged.NeedsWalk 0 write0 .flag (flagged.pageFront unmarked) := by
  refine ⟨⟨offered_of_empty rfl, ⟨by decide, by decide⟩, .miss (by decide), by decide, by decide, by decide, by decide, ?_⟩,
    ⟨offered_of_empty rfl, .miss (by decide), ?_, by decide⟩, needsWalk_flagged⟩
  · intro j v hj _ _ _
    have : ∀ j : SlotNumber, j ≠ 3 → (on.setSlot 3 (some walk0)).slot j = none := by decide
    by_contra hne
    rw [this j hne] at hj
    exact absurd hj (by simp)
  · intro i w hi _ _ hp
    have : ∀ i : SlotNumber,
        State.slot { on with slots := Vector.replicate 4 (some { walk0 with page := 0#20 }) } i =
          some { walk0 with page := 0#20 } := by decide
    rw [this i] at hi
    injection hi with hi
    rw [← hi] at hp
    exact absurd hp (by decide)

theorem test_witness_FaultUnit :
    (headed read0 .queued).queue n0 = [entryOf read0 .queued] ∧
    (logged 15 (headed read0 .queued)).faultLog.length < 16 ∧
    ((headed read0 .queued).context ((headed read0 .queued).port 0).binding).policy = .stall ∧
    (base.context 0).policy = .abort ∧ 16 ≤ (logged 16 base).faultLog.length := by
  decide

theorem test_witness_DeliveryOfRecord :
    let record : Completion := { tag := 1#6, cls := .normal, kind := .read, status := .aborted, data := none }
    let s (st : PortState) := base.setPort 3 { base.port 3 with state := st, completions := [record] }
    ((s .closing).ready = true ∧ ((s .closing).port 3).completions = [record] ∧
      ({ (s .closing).port 3 with completions := [] } : Port).isEmpty = true) ∧
    ((s .open_).ready = true ∧ ((s .open_).port 3).state ≠ .closing) ∧
    (low.ready = false ∧ (base.port 3).completions = []) := by
  decide

theorem frontInFlight_nil : FrontInFlight [] := by
  intro i rest h
  exact absurd h (by simp)

/-- The state with context 0 DRAINING and its DISABLE_CONTEXT waiting. -/
def draining (s : State) : State :=
  { s.setContext 0 { s.context 0 with state := .draining } with commands := [command 0x11#8 true, command 0x08#8 false] }

theorem drainWait_draining (s : State) (h : ∀ d, d ≠ 0 → (s.context d).state ≠ .draining) :
    (draining s).DrainWait 0 [command 0x08#8 false] := by
  refine ⟨?_, fun d hd => ?_, ⟨_, rfl, rfl, rfl, by unfold operandNames; decide⟩, fun c hc => ?_⟩
  · show ((s.setContext 0 _).context 0).state = _
    rw [State.context_setContext_self]
  · show ((s.setContext 0 _).context d).state ≠ _
    rw [State.context_setContext, if_neg (Ne.symm hd)]
    exact h d hd
  · rw [List.mem_singleton.1 hc]; rfl

/-- A context that drains alone, its DISABLE_CONTEXT waiting, drains only. -/
theorem drainsOnly_of_drainWait {s : State} {c : ContextNumber} {rest : List Command} (h : s.DrainWait c rest) : s.DrainsOnly c := by
  refine ⟨fun d hd => ?_, fun m => ?_⟩
  · by_contra hne
    exact h.alone d hne hd
  · rw [waitingOp_drainWait h]
    simp

/-- A head finished by a disable, before an entry that bears the abort mark. -/
def marked (malformed : Bool) : State :=
  draining (on.setQueue n0
    [entryOf read0 (.finishing .aborted), { entryOf read0 .queued with malformed := malformed, abortMark := true }])

theorem test_witness_TransferOfFinished_marked (malformed : Bool) :
    (marked malformed).queue n0 =
      [entryOf read0 (.finishing .aborted), { entryOf read0 .queued with malformed := malformed, abortMark := true }] ∧
    ((marked malformed).port 0).creditInUse = 0 ∧ FrontInFlight (((marked malformed).port 0).returns.get .normal) ∧ (marked malformed).Offered ∧
    (marked malformed).DrainsOnly ((marked malformed).boundContext n0) ∧ ∃ u, (marked malformed).Presents n0 u :=
  ⟨by cases malformed <;> decide, by cases malformed <;> decide, by cases malformed <;> exact frontInFlight_nil, offered_of_empty rfl,
    drainsOnly_of_drainWait (drainWait_draining _ (by cases malformed <;> decide)), presents_total _ _⟩

theorem test_marked_entry_finishes (malformed : Bool) :
    ((after (.transfer 0 .normal) (marked malformed)).head? n0).map Entry.state =
      some (.finishing (if malformed then .rejectedFormat else .aborted)) ∧
    ((after (.transfer 0 .normal) (marked malformed)).context 0).state = .draining := by
  cases malformed <;> decide +kernel

theorem test_witness_TransferOfFinished :
    (let s := headed read0 (.finishing .faulted)
     s.queue n0 = [entryOf read0 (.finishing .faulted)] ∧ (s.port 0).creditInUse = 0 ∧
       FrontInFlight ((s.port 0).returns.get .normal) ∧ s.NoEnds ∧ s.Offered) ∧
    (let p := { (headed read0 (.finishing .faulted)).port 0 with
       completions := List.replicate 7
         { tag := 1#6, cls := .normal, kind := .read, status := .aborted, data := none } }
     let s := (headed read0 (.finishing .faulted)).setPort 0
       { p with queues := { p.queues with urgent := [entryOf read0 (.finishing .aborted)] } }
     (s.port 0).creditInUse = 7 ∧ s.queue ⟨0, .urgent⟩ = [entryOf read0 (.finishing .aborted)]) ∧
    (let s := headed read0 .parked
     s.queue n0 = [entryOf read0 .parked]) :=
  ⟨⟨by decide, by decide, frontInFlight_nil, noEnds_of_idle (by decide) (by decide), offered_of_empty rfl⟩, by decide,
    by decide⟩

theorem test_witness_ArbiterChoice :
    (let s := walking { walk0 with awaiting := true } (.read 4)
     let s := s.setSlot 3 (some walk0)
     s.startOrder = [] ++ 3 :: [] ∧ walkAwaits (s.slot 3) = true) ∧
    (let s : State := { headed read0 (.ready phys0) with runCount := 4 }
     (∀ i ∈ s.startOrder, walkAwaits (s.slot i) = false) ∧ s.runCount = 4 ∧
       FirstAfter s.lastNormal 0 (fun p => s.headCandidate ⟨p, .normal⟩ = true) ∧
       ∀ q, s.headCandidate ⟨q, .urgent⟩ = false) ∧
    (let s := on.setQueue ⟨0, .urgent⟩ [entryOf read0 (.ready phys0)]
     FirstAfter s.lastUrgent 0 (fun p => s.headCandidate ⟨p, .urgent⟩ = true) ∧ s.runCount ≠ 4 ∧
       ∀ q, s.headCandidate ⟨q, .normal⟩ = false) ∧
    ((∀ q, on.headCandidate ⟨q, .urgent⟩ = false) ∧ ∀ q, on.headCandidate ⟨q, .normal⟩ = false) :=
  ⟨by decide, ⟨by decide, by decide, ⟨by decide, 0, by decide, by decide⟩, by decide⟩,
    ⟨⟨by decide, 0, by decide, by decide⟩, by decide, by decide⟩, by decide⟩

theorem test_witness_GrantToWalk :
    (let s := (walking walk0 (.read 4)).setSlot 3 (some walk0)
     s.memState = .running ∧ s.outstanding.length < 16 ∧ s.winner = some (.walk 3) ∧ s.slot 3 = some walk0) ∧
    (State.reset.memState ≠ .running ∧ base.winner = none) ∧
    16 ≤ ({ base with
      outstanding := List.replicate 16 { op := .read 4, address := 0#36, origin := .walk 0, age := 0 } } :
        State).outstanding.length := by
  decide

theorem test_witness_GrantToHead :
    let s : State :=
      { headed read0 (.ready phys0) with
        outstanding := List.replicate 15 { op := .read 4, address := 0#36, origin := .walk 0, age := 0 } }
    s.memState = .running ∧ s.outstanding.length < 16 ∧ s.winner = some (.head n0) ∧
    s.queue n0 = [entryOf read0 (.ready phys0)] ∧ FrontInFlight ((s.port 0).returns.get .normal) ∧ s.NoEnds ∧ s.Offered :=
  ⟨by decide, by decide, by decide, by decide, frontInFlight_nil, noEnds_of_idle (by decide) (by decide),
    offered_of_empty rfl⟩

theorem test_witness_ResponseOkEndsItem :
    (let s := flying read0 (.read 64)
     s.resetnLow = false ∧ s.memState = .running ∧
       s.outstanding = { op := .read 64, address := phys0, origin := .client (values0 read0), age := 0 } :: [] ∧
       (s.port 0).returns.get .normal =
         { tag := read0.tag, cls := .normal, kind := .read, state := .inFlight false } ::
           ([{ tag := 2#6, cls := .normal, kind := .read, state := .done .aborted none }] ++ []) ∧
       (List.replicate 16 (0#32 : Word)).length = 64 / 4) ∧
    FrontInFlight [] ∧ (flying read0 (.read 64)).NoEnds ∧
    (flying write0 (.write 4 [7#32])).outstanding.map Transaction.op = [.write 4 [7#32]] :=
  ⟨by decide, frontInFlight_nil, noEnds_of_idle (by decide) (by decide), by decide⟩

theorem test_witness_ResponseErrorEndsItem :
    (let s := logged 15 (flying read0 (.read 64))
     s.resetnLow = false ∧ s.memState = .running ∧ s.outstanding.length = 1 ∧ s.faultLog.length < 16) ∧
    (logged 15 (flying read0 (.read 64))).NoEnds ∧
    (let s := logged 16 (flying read0 (.read 64))
     s.memState = .running ∧ 16 ≤ s.faultLog.length) :=
  ⟨by decide, noEnds_of_idle (by decide) (by decide), by decide⟩

theorem test_witness_ResponseAdvancesWalk :
    (let w := { walk0 with stage := .directory }
     let s := walking w (.read 4)
     s.resetnLow = false ∧ s.memState = .running ∧ s.slot 3 = some { w with awaiting := false } ∧ w.abandoned = false ∧
       w.stale = false ∧ (0x00FFFF01#32 : Word).getLsbD 0 = true ∧ w.kind = .fill ∧
       s.TableAdmits (.read 4) (entryAddress ((0x00FFFF01#32 : Word).extractLsb' 8 24) (pageIndex w.page))) ∧
    (walking walk0 (.read 4)).NoEnds ∧
    (let w : Walk := { walk0 with stage := .directory, kind := .flag }
     let s := walking w (.read 4)
     s.slot 3 = some { w with awaiting := false } ∧ s.slotWait = [] ∧ w.waiters = [n0] ∧
       s.TableAdmits (.update true) (entryAddress ((0x00FFFF01#32 : Word).extractLsb' 8 24) (pageIndex w.page)) ∧
       ¬ (s.setRegion 0 { endUnit := 4096#13, kind := .readOnly }).TableAdmits (.update true)
         (entryAddress ((0x00FFFF01#32 : Word).extractLsb' 8 24) (pageIndex w.page)) ∧
       ¬ (s.setRegion 0 { endUnit := 1#13, kind := .open_ }).TableAdmits (.read 4)
         (entryAddress ((0xFFFFFF01#32 : Word).extractLsb' 8 24) (pageIndex w.page))) ∧
    (let s := walking walk0 (.read 4)
     walk0.stage = .page ∧ (s.context walk0.context).recordFlags = true ∧ (0x7#32 : Word).getLsbD 3 = false ∧
       s.TableAdmits (.update false) walk0.address ∧ s.slotWait = [] ∧ walk0.waiters = [n0] ∧
       ¬ (s.setRegion 0 { endUnit := 4096#13, kind := .readOnly }).TableAdmits (.update false) walk0.address) := by
  refine ⟨⟨by decide, by decide, by decide, by decide, by decide, by decide, by decide, ?_⟩, noEnds_of_idle (by decide) (by decide),
    ⟨by decide, by decide, by decide, ?_, ?_, ?_⟩, ⟨by decide, by decide, by decide, ?_, by decide, by decide, ?_⟩⟩ <;>
    (unfold State.TableAdmits; decide)

/-- Context 1 DRAINING, something of it left behind port 2, and its DISABLE_CONTEXT waiting. -/
def elsewhere (s : State) : State :=
  { ((s.setContext 1 { s.context 1 with state := .draining }).setPort 2 { s.port 2 with binding := 1 }).setQueue ⟨2, .normal⟩
      [entryOf read0 (.finishing .aborted)] with
    commands := [{ command 0x11#8 true with operand := 0x01000000#32 }] }

theorem stillWaits_of {s : State} (h1 : ∀ d, (s.context d).state = .draining → s.drained d = false)
    (h2 : s.watchEmpty = false ∨ s.waitingOp = some (.disable 1)) : s.StillWaits := by
  refine ⟨fun d hd hn => ?_, fun m hm hn => ?_⟩
  · have := h1 d hd
    rw [(drained_iff s d).2 hn] at this
    exact absurd this (by simp)
  · rcases h2 with h2 | h2
    · rw [(watchEmpty_iff s).2 hn] at h2
      exact absurd h2 (by simp)
    · rw [h2] at hm
      exact absurd hm (by simp)

/-- A walk may go on, and a stale one restart, while a SYNC waits for it, and while another context drains. -/
theorem test_witness_StillWaits :
    (let s : State := { walking { walk0 with watched := true } (.read 4) with commands := [command 0x08#8 true] }
     s.StillWaits ∧ ¬ s.NoEnds ∧ s.slot 3 = some { walk0 with awaiting := false, watched := true }) ∧
    (let s := elsewhere (walking walk0 (.read 4))
     s.StillWaits ∧ ¬ s.NoEnds ∧ s.slot 3 = some { walk0 with awaiting := false }) ∧
    (let s : State := { walking { walk0 with stale := true, watched := true } (.read 4) with commands := [command 0x08#8 true] }
     s.StillWaits ∧ s.slot 3 = some { walk0 with awaiting := false, stale := true, watched := true }) ∧
    (elsewhere (walking { walk0 with stale := true } (.read 4))).StillWaits :=
  ⟨⟨stillWaits_of (by decide) (.inl (by decide)), fun h => h.2 0#16 (by decide), by decide⟩,
    ⟨stillWaits_of (by decide) (.inr (by decide)), fun h => h.1 1 (by decide), by decide⟩,
    ⟨stillWaits_of (by decide) (.inl (by decide)), by decide⟩, stillWaits_of (by decide) (.inr (by decide))⟩

/-- The transaction of the walk in slot 3. -/
def table (op : TxnOp) : Transaction := { op := op, address := walk0.address, origin := .walk 3, age := 0 }

/-- The NORMAL queue of port 1, and a READ of another page under directory index 0. -/
abbrev n1 : HeadId := ⟨1, .normal⟩
def read1 : Request := { read0 with address := 0x003FE000#32 }

/-- `walking` with every slot BUSY and a head of port 1 waiting for one. -/
def crowded (w : Walk) (op : TxnOp) : State :=
  let other (p : PageNumber) : Option Walk := some { walk0 with page := p, waiters := [], awaiting := false }
  { ((((walking w op).setSlot 0 (other 0#20)).setSlot 1 (other 1#20)).setSlot 2 (other 2#20)).setQueue n1 [entryOf read1 .waitSlot] with
    startOrder := [0, 1, 2, 3], slotWait := [n1] }

/-- `walking` with two waiters, of ports 0 and 1. -/
def paired (w : Walk) (op : TxnOp) : State :=
  (walking { w with waiters := [n0, n1] } op).setQueue n1 [entryOf read0 .walking]

/-- The walk that the waiting head starts in slot 3. -/
def walk1 : Walk := startedWalk .fill 0 0x3FE#20 n1 .directory (.read 4) 0x10000#36 none

theorem startsWalk_read1 {s : State} {h : HeadId} (hb : s.boundContext h = 0) (hc : s.context 0 = on.context 0)
    (hl : s.pageLookup 0 0x3FE#20 = none) (hn : s.NoWalk 0 0x3FE#20) (hi : s.LowestFree 3) (hd : s.dirLookup 0 0#10 = none)
    (hr : s.regionOf 0x10000#36 = .open_) (hm : s.memState = .running) :
    s.StartsWalk h read1 3 (startedWalk .fill 0 0x3FE#20 h .directory (.read 4) 0x10000#36 none) s.pageCache := by
  have hp : clientPage read1.address = 0x3FE#20 := by decide
  have hx : directoryIndex 0x3FE#20 = 0#10 := by decide
  have ha : entryAddress (s.context 0).directoryFrame (directoryIndex 0x3FE#20) = 0x10000#36 := by rw [hc]; decide
  have hf := State.FirstAccess.miss (s := s) (k := .fill) (c := 0) (p := 0x3FE#20) (by rw [hx]; exact hd)
  rw [ha] at hf
  have key := State.StartsWalk.start (s := s) (h := h) (r := read1) (i := 3) .fill s.pageCache .directory (.read 4) 0x10000#36 none
  rw [hb, hp] at key
  refine key ⟨by rw [hb, hc]; decide, by rw [hb, hc]; decide⟩ (.miss (by rw [hp]; exact hl)) hn hi hf ?_ hm
  unfold State.TableAdmits
  rw [hr]; decide

theorem noWalk_of_pages {s : State} {c : ContextNumber} {p : PageNumber} (h : ∀ i : SlotNumber, ∀ w ∈ s.slot i, w.page ≠ p) : s.NoWalk c p :=
  fun i w hi _ _ => h i w hi

theorem test_witness_ResponseCompletesWalk :
    (let s := walking walk0 (.read 4)
     let e : PageEntry := { page0 with modifiedKnown := false }
     s.resetnLow = false ∧ s.memState = .running ∧ s.outstanding = [table (.read 4)] ∧
       s.slot 3 = some { walk0 with awaiting := false } ∧ s.slotWait = [] ∧ walk0.waiters = [n0] ∧
       s.queue n0 = [entryOf read0 .walking] ∧ s.boundContext n0 = walk0.context ∧
       clientPage read0.address = walk0.page ∧ s.CompletesWalk (table (.read 4)) walk0 0x2000F#32 e) ∧
    (walking walk0 (.read 4)).NoEnds ∧ (walking walk0 (.read 4)).Translated n0 read0 ∧
    (walking walk0 (.read 4)).HitReady 0 read0 { page0 with modifiedKnown := false } phys0 ∧
    (let w : Walk := { walk0 with stage := .update, kind := .flag, op := .update true }
     let s := (walking w (.update true)).setQueue n0 [entryOf write0 .walking]
     s.HitReady 0 write0 page0 phys0 ∧ s.CompletesWalk (table (.update true)) w 0x20007#32 page0) ∧
    (let w : Walk := { walk0 with stage := .update, op := .update false }
     (walking w (.update false)).CompletesWalk (table (.update false)) w 0x20017#32 page0) :=
  ⟨⟨by decide, by decide, by decide, by decide, by decide, by decide, by decide, by decide, by decide,
      ⟨by decide, by decide, by decide, by decide, by decide, by decide, by decide⟩⟩,
    noEnds_of_idle (by decide) (by decide), ⟨by decide, by decide⟩,
    ⟨by decide, (by rw [permits_iff]; decide), (by rw [regionAdmits_iff]; decide), by decide⟩,
    ⟨⟨by decide, (by rw [permits_iff]; decide), (by rw [regionAdmits_iff]; decide), by decide⟩,
      ⟨by decide, by decide, by decide, by decide, by decide, by decide, by decide⟩⟩,
    ⟨by decide, by decide, by decide, by decide, by decide, by decide, by decide⟩⟩

/-- The freed slot taken by the head that waited for one, after a completion. -/
theorem test_witness_ResponseCompletesWalk_slotWait :
    let s := crowded walk0 (.read 4)
    let entry : PageEntry := { page0 with modifiedKnown := false }
    let ready : State :=
      { (s.setSlot 3 none).setQueue n0 [entryOf read0 (.ready phys0)] with
        startOrder := [0, 1, 2], pageCache := s.filledPages entry, outstanding := [], slotWait := [] }
    s.slotWait = n1 :: [] ∧ (∀ j, s.slot j ≠ none) ∧ s.NoEnds ∧ s.queue n0 = [entryOf read0 .walking] ∧ s.HitReady 0 read0 entry phys0 ∧
    ready.queue n1 = [entryOf read1 .waitSlot] ∧ ready.StartsWalk n1 read1 3 walk1 ready.pageCache :=
  ⟨rfl, by decide, noEnds_of_idle (by decide) (by decide), by decide,
    ⟨by decide, (by rw [permits_iff]; decide), (by rw [regionAdmits_iff]; decide), by decide⟩, by decide,
    startsWalk_read1 (by decide) (by decide) (by decide) (noWalk_of_pages (by decide)) ⟨by decide, by decide⟩ (by decide) (by decide)
      (by decide)⟩

/-- Two waiters that the new entry refuses. -/
theorem test_witness_ResponseCompletesWalk_two :
    let s := paired walk0 (.read 4)
    let entry : PageEntry := { page0 with readPermit := false, modifiedKnown := false }
    s.NoEnds ∧ s.slotWait = [] ∧ s.CompletesWalk (table (.read 4)) { walk0 with waiters := [n0, n1] } 0x2000D#32 entry ∧
    s.queue n0 = [entryOf read0 .walking] ∧ s.queue n1 = [entryOf read0 .walking] ∧ s.Translated n0 read0 ∧ s.Translated n1 read0 ∧
    s.HitFault 0 read0 entry .readDenied ∧ (logged 14 s).faultLog.length ≤ 14 :=
  ⟨noEnds_of_idle (by decide) (by decide), by decide,
    ⟨by decide, by decide, by decide, by decide, by decide, by decide, by decide⟩, by decide, by decide, ⟨by decide, by decide⟩,
    ⟨by decide, by decide⟩, .inl ⟨(by rw [permits_iff]; decide), rfl, rfl⟩, by decide⟩

theorem test_witness_ResponseFailsWalk :
    (let s := walking walk0 (.read 4)
     s.resetnLow = false ∧ s.memState = .running ∧ s.slot 3 = some { walk0 with awaiting := false } ∧ s.slotWait = [] ∧
       walk0.waiters = [n0] ∧ s.FailsWalk (table (.read 4)) walk0 .ok [0xFFFFFFFE#32] .pageInvalid s.dirCache) ∧
    (walking walk0 (.read 4)).NoEnds ∧
    (let w : Walk := { walk0 with stage := .update, kind := .flag, op := .update true }
     (walking w (.update true)).slot 3 = some { w with awaiting := false } ∧
       (TxnOp.update true) = .update (decide (w.kind = .flag))) ∧
    (let w : Walk := { walk0 with stage := .directory }
     (walking w (.read 4)).slot 3 = some { w with awaiting := false }) :=
  ⟨⟨by decide, by decide, by decide, by decide, by decide, .page _ rfl rfl (by decide)⟩, noEnds_of_idle (by decide) (by decide), by decide,
    by decide⟩

/-- The freed slot taken by the head that waited for one, after a failure; and two waiters, with room for one record and for two. -/
theorem test_witness_ResponseFailsWalk_more :
    (let s := crowded walk0 (.read 4)
     let faulted : State :=
       { takeHeadFault .tableError n0 { s.setSlot 3 none with startOrder := [0, 1, 2], outstanding := [] } with slotWait := [] }
     s.slotWait = n1 :: [] ∧ (∀ j, s.slot j ≠ none) ∧ s.NoEnds ∧ faulted.queue n1 = [entryOf read1 .waitSlot] ∧
       faulted.StartsWalk n1 read1 3 walk1 faulted.pageCache) ∧
    (let s := paired walk0 (.read 4)
     s.NoEnds ∧ s.slotWait = [] ∧ s.FailsWalk (table (.read 4)) { walk0 with waiters := [n0, n1] } .error [] .tableError s.dirCache ∧
       s.queue n0 = [entryOf read0 .walking] ∧ s.queue n1 = [entryOf read0 .walking] ∧ (logged 14 s).faultLog.length ≤ 14 ∧
       (logged 15 s).faultLog.length = 15) :=
  ⟨⟨rfl, by decide, noEnds_of_idle (by decide) (by decide), by decide,
      startsWalk_read1 (by decide) (by decide) (by decide) (noWalk_of_pages (by decide)) ⟨by decide, by decide⟩ (by decide) (by decide)
        (by decide)⟩,
    noEnds_of_idle (by decide) (by decide), by decide, .error, by decide, by decide, by decide, by decide⟩

/-- An abandoned walk in slot 3, its response awaited, and nothing else. -/
def abandonedOn : State :=
  { on.setSlot 3 (some { walk0 with awaiting := false, abandoned := true, waiters := [] }) with
    startOrder := [3], outstanding := [table (.read 4)] }

theorem test_witness_ResponseDiscardedByWalk :
    (let s := draining abandonedOn
     s.Answers (table (.read 4)) [] .error [] ∧ (∃ w, s.slot 3 = some w ∧ w.abandoned = true ∧ w.context = 0) ∧
       s.DrainWait 0 [command 0x08#8 false] ∧ s.slotWait = [] ∧ (s.walkEnded 3 []).NothingLeft 0) ∧
    (let s := draining (abandonedOn.setQueue n0 [entryOf read0 (.finishing .aborted)])
     s.Answers (table (.read 4)) [] .ok [0#32] ∧ s.DrainWait 0 [command 0x08#8 false] ∧
       ¬ (s.walkEnded 3 []).NothingLeft 0) ∧
    (let w : Walk := { walk0 with stale := true }
     let s := walking w (.read 4)
     s.Answers (table (.read 4)) [] .error [] ∧ s.slot 3 = some { w with awaiting := false } ∧
       s.dirLookup 0 (directoryIndex w.page) = none ∧
       s.regionOf (entryAddress (s.context 0).directoryFrame (directoryIndex w.page)) ≠ .absent) ∧
    (walking { walk0 with stale := true } (.read 4)).NoEnds :=
  ⟨⟨⟨by decide, by decide, by decide, by decide⟩, ⟨_, rfl, rfl, rfl⟩, drainWait_draining _ (by decide), by decide,
      (drained_iff _ _).1 (by decide)⟩,
    ⟨⟨by decide, by decide, by decide, by decide⟩, drainWait_draining _ (by decide),
      fun h => absurd ((drained_iff _ _).2 h) (by decide)⟩,
    ⟨⟨by decide, by decide, by decide, by decide⟩, by decide, by decide, by decide⟩, noEnds_of_idle (by decide) (by decide)⟩

/-- A stale walk that restarts on a directory-cache hit, as after INVALIDATE_PAGE: a FILL walk, and a FLAG walk, whose UPDATE a READ_ONLY region
refuses. -/
theorem test_witness_ResponseDiscardedByWalk_hit :
    (∀ k : WalkKind,
      let w : Walk := { walk0 with stale := true, kind := k }
      let s : State := { walking w (.read 4) with dirCache := [{ context := 0, index := 0#10, tableFrame := 0x20#24 }] }
      s.Answers (table (.read 4)) [] .error [] ∧ s.slot 3 = some { w with awaiting := false } ∧ w.abandoned = false ∧
        s.dirLookup w.context (directoryIndex w.page) = some { context := 0, index := 0#10, tableFrame := 0x20#24 } ∧
        s.TableAdmits (.read 4) 0x20FFC#36 ∧ s.TableAdmits (.update true) 0x20FFC#36 ∧ s.StillWaits ∧
        entryAddress 0x20#24 (pageIndex w.page) = 0x20FFC#36) ∧
    (let w : Walk := { walk0 with stale := true, kind := .flag }
     let s : State :=
       { (walking w (.read 4)).setRegion 0 { endUnit := 4096#13, kind := .readOnly } with
         dirCache := [{ context := 0, index := 0#10, tableFrame := 0x20#24 }] }
     s.NoEnds ∧ s.TableRefuses (.update true) 0x20FFC#36 .tableRegion) := by
  refine ⟨fun k => ⟨⟨?_, ?_, ?_, ?_⟩, ?_, ?_, ?_, ?_, ?_, NoEnds.stillWaits (noEnds_of_idle ?_ ?_), ?_⟩,
    noEnds_of_idle (by decide) (by decide), .inl ⟨?_, rfl⟩⟩ <;>
    first | (cases k <;> decide) | (unfold State.TableAdmits; cases k <;> decide) | (unfold State.TableAdmits; decide)

/-- A FLAG walk restarts with its UPDATE, the entry at the front, and keeps its waiters and start order. -/
theorem test_stale_walk_restarts_on_hit :
    let other : DirEntry := { context := 3, index := 5#10, tableFrame := 1#24 }
    let hit : DirEntry := { context := 0, index := 0#10, tableFrame := 0x20#24 }
    let s : State := { walking { walk0 with stale := true, kind := .flag } (.read 4) with dirCache := [other, hit] }
    let t := after (.response .error []) s
    t.slot 3 =
        some { walk0 with kind := .flag, stage := .update, op := .update true, address := 0x20FFC#36, tableFrame := some 0x20#24 } ∧
      t.dirCache = [hit, other] ∧ t.startOrder = [3] := by
  decide +kernel

theorem test_witness_ClearedArrives :
    low.resetnLow = true ∧
    (State.reset.resetnLow = false ∧ State.reset.memState = .clearing ∧ State.reset.device = .resetting) ∧
    (let s : State := { base with memState := .clearing, commands := [command 0x20#8 true] }
     s.resetnLow = false ∧ s.memState = .clearing ∧ s.device = .ready ∧ s.commands = command 0x20#8 true :: []) ∧
    (base.resetnLow = false ∧ base.memState = .running ∧ base.lateCleared = false) ∧
    ({ base with lateCleared := true } : State).lateCleared = true ∧
    ({ base with memState := .failed } : State).memState = .failed := by
  decide

theorem walkerSettled_base (s : State) (h1 : s.resetnLow = false) (h2 : s.slotWait = []) (h3 : s.startOrder = [])
    (h4 : ∀ i, s.slot i = none) (h5 : s.memState = .running) : s.WalkerSettled :=
  ⟨fun h => by rw [h1] at h; exact absurd h (by simp), offered_of_empty h2,
    ⟨fun i => by simp [h3, h4 i], by rw [h3]; exact List.nodup_nil⟩, fun h => absurd h5 h⟩

theorem queue_on (h : HeadId) : on.queue h = [] := by
  obtain ⟨p, c⟩ := h
  revert p
  cases c <;> decide

/-- `on` after a miss and the grant of its directory READ. -/
def fetching : State := after .grant (after (.request 0 read0) on)

theorem headsLinked_on : on.HeadsLinked := by
  have hr : ∀ c : ReqClass, ∀ p : PortNumber, (on.port p).returns.get c = [] := by
    intro c; cases c <;> decide
  have hp : ∀ c : ReqClass, ∀ p : PortNumber, on.parkedPlace ⟨p, c⟩ = none := by
    intro c; cases c <;> decide
  exact headsLinked_of_empty queue_on (by decide) rfl (fun k => hp k.cls k.port)
    fun k => by rw [hr k.cls k.port]; exact frontInFlight_nil

theorem headsLinked_request {s : State} (h : s.HeadsLinked) (p : PortNumber) (r : Request) : (after (.request p r) s).HeadsLinked := by
  show (presentRequest p r s.beginEvent).HeadsLinked
  unfold presentRequest
  dsimp only
  split
  · exact acceptRequest_linked _ _ (h.of_fields rfl rfl rfl rfl)
  · exact h.of_fields rfl rfl rfl rfl

theorem headsLinked_grant {s : State} (h : s.HeadsLinked) : (after .grant s).HeadsLinked :=
  grant_linked (h.of_fields rfl rfl rfl rfl)

theorem headsLinked_fetching : fetching.HeadsLinked := headsLinked_grant (headsLinked_request headsLinked_on 0 read0)

theorem itemsPaired_of {s : State} (h : ∀ c : ReqClass, ∀ p : PortNumber,
    inFlightOf ((s.port p).returns.get c) = s.outstanding.filterMap (Transaction.ofHead ⟨p, c⟩)) : s.ItemsPaired :=
  fun ⟨p, c⟩ => h c p

theorem commandsInOrder_of_idle {s : State} (h1 : s.commands = []) (h2 : s.takenCount = s.completedCount) : s.CommandsInOrder :=
  ⟨fun k c h => by simp [h1] at h, by simp [h1, h2], fun k c h => by simp [h1] at h⟩

theorem test_witness_FailureEndsEverything :
    (let s := flying read0 (.read 64)
     s.WalkerSettled ∧ s.ItemsPaired ∧ s.CommandsInOrder ∧ s.HeadsLinked ∧ s.resetnLow = false ∧ s.memState = .running ∧
       s.outstanding ≠ [] ∧ s.responseLimit.toNat ≠ 0 ∧ s.lateCleared = false ∧ on.outstanding = [] ∧
       shapeFits (.read 64) .ok [] = false) ∧
    (fetching.WalkerSettled ∧ fetching.ItemsPaired ∧ fetching.CommandsInOrder ∧ fetching.HeadsLinked ∧
      fetching.memState = .running ∧ fetching.outstanding ≠ [] ∧
      ∃ w e, fetching.slot 0 = some w ∧ n0 ∈ w.waiters ∧ fetching.queue n0 = [e]) := by
  have hq : ∀ c : ReqClass, ∀ p : PortNumber, (flying read0 (.read 64)).queue ⟨p, c⟩ = [] := by
    intro c; cases c <;> decide
  have hp : ∀ c : ReqClass, ∀ p : PortNumber, (flying read0 (.read 64)).parkedPlace ⟨p, c⟩ = none := by
    intro c; cases c <;> decide
  have hr : ∀ c : ReqClass, ∀ p : PortNumber, FrontInFlight (((flying read0 (.read 64)).port p).returns.get c) := by
    intro c p i rest h
    have : ∀ p : PortNumber, ∀ x ∈ (((flying read0 (.read 64)).port p).returns.get c).head?, x.isInFlight = true := by
      cases c <;> decide
    exact this p i (by rw [h]; rfl)
  refine ⟨⟨walkerSettled_base _ (by decide) (by decide) (by decide) (by decide) (by decide), itemsPaired_of ?_,
      commandsInOrder_of_idle (by decide) (by decide),
      headsLinked_of_empty (fun k => hq k.cls k.port) (by decide) (by decide) (fun k => hp k.cls k.port) (fun k => hr k.cls k.port),
      by decide, by decide, by decide, by decide, by decide, by decide, by decide⟩,
    ⟨⟨fun h => absurd h (by decide), offered_of_empty (by decide), ⟨by decide, by decide⟩, fun h => absurd h (by decide)⟩,
      itemsPaired_of ?_, commandsInOrder_of_idle (by decide) (by decide), headsLinked_fetching, by decide, by decide,
      ⟨_, _, rfl, by decide, rfl⟩⟩⟩
  · intro c; cases c <;> decide
  · intro c; cases c <;> decide

/-- `flying` with the oldest transaction of an age. -/
def aged (n : Nat) : State :=
  { flying read0 (.read 64) with outstanding := [{ op := .read 64, address := phys0, origin := .client (values0 read0), age := n }] }

/-- The events that fail the port: a write of the response limit in both forms, at the end of its range, a tick, and the others. -/
theorem test_witness_FailsPort :
    ((aged 65535).FailsPort (exec (.responseLimitWrite 0x0000FFFF#32) (aged 65535)) ∧
      (aged 1).FailsPort (exec (.registerWrite 0x01C#12 0xF#4 1#32) (aged 1)) ∧ (aged 1).WalkerSettled ∧ (aged 1).ItemsPaired ∧
      (aged 1).CommandsInOrder ∧ (aged 1).resetnLow = false ∧ (aged 1).memState = .running) ∧
    (let s : State := { aged 0 with responseLimit := 1#16, tickLeft := 1 }
     s.FailsPort (step s) ∧ s.WalkerSettled ∧ s.ItemsPaired ∧ s.CommandsInOrder ∧ s.resetnLow = false ∧ s.memState = .running) ∧
    (let s : State := { aged 65535 with responseLimit := 0xFFFF#16, tickLeft := 0 }
     s.FailsPort (step s)) ∧
    ((aged 0).FailsPort (exec .expiry (aged 0)) ∧ (aged 0).FailsPort (exec .cleared (aged 0)) ∧
      on.FailsPort (exec (.response .ok []) on) ∧ (aged 0).FailsPort (exec (.response .ok []) (aged 0))) := by
  refine ⟨⟨.limitWrite _ [] _ (by decide) rfl (by decide) (by decide), .limitRegister _ [] _ (by decide) rfl (by decide) (by decide),
      walkerSettled_base _ (by decide) (by decide) (by decide) (by decide) (by decide), itemsPaired_of ?_,
      commandsInOrder_of_idle (by decide) (by decide), by decide, by decide⟩,
    ⟨.tick _ [] rfl (by decide) rfl (by decide) (by decide),
      walkerSettled_base _ (by decide) (by decide) (by decide) (by decide) (by decide), itemsPaired_of ?_,
      commandsInOrder_of_idle (by decide) (by decide), by decide, by decide⟩,
    .tick _ [] rfl (by decide) rfl (by decide) (by decide),
    .expiry (by decide) (by decide), .cleared (by decide), .nothingOutstanding _ _ (by decide), .shape _ _ _ [] rfl (by decide)⟩ <;>
    (intro c; cases c <;> decide)

/-- A write of the limit and a tick end the item in flight with MEMORY_ERROR. -/
theorem test_limit_write_and_tick_fail :
    (let t := after (.responseLimitWrite 1#32) (aged 1)
     t.memState = .failed ∧ t.outstanding = [] ∧ (t.port 0).completions.map Completion.status = [.memoryError, .aborted]) ∧
    (let t := afterStep { aged 0 with responseLimit := 1#16, tickLeft := 1 }
     t.memState = .failed ∧ t.outstanding = [] ∧ (t.port 0).completions.map Completion.status = [.memoryError, .aborted]) := by
  decide +kernel

theorem commandsInOrder_of_one {s : State} {c : Command} (h1 : s.commands = [c]) (h2 : c.number = s.completedCount)
    (h3 : s.takenCount = s.completedCount + 1#16) : s.CommandsInOrder := by
  have only : ∀ k x, s.commands[k]? = some x → k = 0 ∧ x = c := by
    intro k x h
    rw [h1] at h
    cases k with
    | zero => exact ⟨rfl, by simpa using h.symm⟩
    | succ n => simp at h
  refine ⟨fun k x h => ?_, by rw [h1]; exact h3, fun k x h _ => (only k x h).1⟩
  obtain ⟨rfl, rfl⟩ := only k x h
  simpa using h2

/-- A failure while a SYNC waits, and one while a DISABLE_CONTEXT does. -/
theorem test_witness_FailureEndsEverything_waiting :
    (let s : State := { flying read0 (.read 64) with commands := [command 0x08#8 true], takenCount := 1#16 }
     s.SyncWait 0#32 [] ∧ s.WalkerSettled ∧ s.ItemsPaired ∧ s.CommandsInOrder ∧ s.resetnLow = false ∧ s.memState = .running ∧
       s.outstanding ≠ [] ∧ s.responseLimit.toNat ≠ 0) ∧
    (let s : State := { draining (flying read0 (.read 64)) with commands := [command 0x11#8 true], takenCount := 1#16 }
     s.DrainWait 0 [] ∧ s.WalkerSettled ∧ s.ItemsPaired ∧ s.CommandsInOrder ∧ s.resetnLow = false ∧ s.memState = .running ∧
       s.outstanding ≠ [] ∧ s.responseLimit.toNat ≠ 0) := by
  refine ⟨⟨⟨by decide, ⟨_, rfl, rfl, rfl, rfl⟩, by simp⟩, walkerSettled_base _ (by decide) (by decide) (by decide) (by decide) (by decide),
      itemsPaired_of ?_, commandsInOrder_of_one rfl (by decide) (by decide), by decide, by decide, by decide, by decide⟩,
    ⟨⟨by decide, by decide, ⟨_, rfl, rfl, rfl, by unfold operandNames; decide⟩, by simp⟩,
      walkerSettled_base _ (by decide) (by decide) (by decide) (by decide) (by decide), itemsPaired_of ?_,
      commandsInOrder_of_one rfl (by decide) (by decide), by decide, by decide, by decide, by decide⟩⟩ <;>
    (intro c; cases c <;> decide)

theorem test_failure_completes_sync_and_disable :
    (let s : State := { flying read0 (.read 64) with commands := [command 0x08#8 true], takenCount := 1#16 }
     (after .expiry s).unitState = .idle ∧ (after .expiry s).completedCount = 1#16 ∧ (after .expiry s).irqStatus.getLsbD 2 = true) ∧
    (let s : State := { draining (flying read0 (.read 64)) with commands := [command 0x11#8 true], takenCount := 1#16 }
     (after .expiry s).unitState = .idle ∧ ((after .expiry s).context 0).state = .off) := by
  decide +kernel

/-! ## The events that can end work -/

theorem answers_of {s : State} {t : Transaction} {status : ResponseStatus} {data : List Word}
    (h : s.resetnLow = false ∧ s.memState = .running ∧ s.outstanding = [t] ∧ shapeFits t.op status data = true) :
    s.Answers t [] status data := ⟨h.1, h.2.1, h.2.2.1, h.2.2.2⟩

theorem endsWork_transfer (s : State) (hs : s = headed read0 (.finishing .faulted) ∨ s = draining (headed read0 (.finishing .faulted))) :
    s.EndsWork (.transfer 0 .normal) (presentHead n0 (s.transferred n0 (entryOf read0 (.finishing .faulted)) [] .faulted)) := by
  refine .transfer n0 _ _ _ _ _ ?_ rfl ?_ ?_ (presents_present n0 _) (represents_representWaiting _)
  · rcases hs with rfl | rfl <;> decide
  · have : (s.port 0).creditInUse = 0 := by rcases hs with rfl | rfl <;> decide
    rintro (h | ⟨-, h, -⟩)
    · rw [show (s.port n0.port).creditInUse = 0 from this] at h
      exact absurd h (by decide)
    · rw [show (s.port n0.port).creditInUse = 0 from this] at h
      exact absurd h (by decide)
  · have : (s.port n0.port).returns.get n0.cls = [] := by rcases hs with rfl | rfl <;> decide
    rw [this]; exact frontInFlight_nil

theorem endsWork_grant :
    let s := draining (headed read0 (.ready phys0))
    s.EndsWork .grant (presentHead n0 (s.granted n0 (entryOf read0 (.ready phys0)) [] phys0)) :=
  .grant n0 _ _ _ _ _ (by decide) (by decide) (by decide) (by decide) rfl frontInFlight_nil (presents_present n0 _)
    (represents_representWaiting _)

/-- The items of `flying`. -/
def item0 (r : Request) : Item := { tag := r.tag, cls := .normal, kind := r.kind, state := .inFlight false }
def item1 : Item := { tag := 2#6, cls := .normal, kind := .read, state := .done .aborted none }

/-- The transaction of `flying`. -/
def client (r : Request) (op : TxnOp) : Transaction := { op := op, address := phys0, origin := .client (values0 r), age := 0 }

theorem endsWork_item :
    (let s := draining (flying write0 (.write 4 [7#32]))
     s.EndsWork (.response .ok []) (s.answered (values0 write0) (item0 write0) [item1] [] .done none [])) ∧
    (let s := draining (flying read0 (.read 64))
     s.EndsWork (.response .error [])
       (takeDataError (values0 read0) (s.answered (values0 read0) (item0 read0) [item1] [] .memoryError none []))) :=
  ⟨.itemOk (client write0 (.write 4 [7#32])) [] [] _ _ _ _ (answers_of (by decide)) rfl (by decide) rfl (by decide) frontInFlight_nil,
    .itemError (client read0 (.read 64)) [] _ _ _ _ (answers_of (by decide)) rfl (by decide) rfl (by decide) frontInFlight_nil⟩

theorem endsWork_walk :
    (let s := draining abandonedOn
     s.EndsWork (.response .error []) (representWaiting (s.walkEnded 3 []))) ∧
    (let s := walking walk0 (.read 4)
     let e : PageEntry := { page0 with modifiedKnown := false }
     s.EndsWork (.response .ok [0x2000F#32])
       (representWaiting (presentAll [n0] { s.walkEnded 3 [] with pageCache := s.filledPages e }))) ∧
    (let s := walking walk0 (.read 4)
     s.EndsWork (.response .error [])
       (representWaiting (deliverFault .tableError [n0]
         (s.walkFailed 3 { walk0 with awaiting := false } [] .tableError s.dirCache)))) :=
  ⟨.abandonedWalk (table (.read 4)) [] _ _ 3 { walk0 with awaiting := false, abandoned := true, waiters := [] } _ (answers_of (by decide)) rfl
      (by decide) rfl (represents_representWaiting _),
    .completedWalk (table (.read 4)) [] _ 3 { walk0 with awaiting := false } _ _ _ (answers_of (by decide)) rfl (by decide) rfl rfl
      ⟨by decide, by decide, by decide, by decide, by decide, by decide, by decide⟩ (presentsInTurn_iff.2 rfl) (represents_representWaiting _),
    .failedWalk (table (.read 4)) [] _ _ 3 { walk0 with awaiting := false } .tableError _ _ _ (answers_of (by decide)) rfl (by decide) rfl rfl
      .error (faultsInTurn_iff.2 rfl) (represents_representWaiting _)⟩

/-- A walk that goes on, and a stale one that restarts. -/
theorem endsWork_onward :
    (let w : Walk := { walk0 with stage := .directory }
     let s := walking w (.read 4)
     let w' : Walk :=
       { w with awaiting := true, stage := .page, op := .read 4, address := 0x20FFC#36, tableFrame := some 0x20#24 }
     s.EndsWork (.response .ok [0x2001#32])
       { (s.responseTaken []).setSlot 3 (some w') with
         dirCache := s.filledDirs { context := 0, index := 0#10, tableFrame := 0x20#24 } }) ∧
    (let s := walking { walk0 with stale := true } (.read 4)
     s.EndsWork (.response .error []) (restartWalk 3 { walk0 with awaiting := false, stale := true } (s.responseTaken []))) ∧
    (walking walk0 (.read 4)).AdvancesWalk (table (.read 4)) walk0 0x07#32
      { walk0 with stage := .update, op := .update false, awaiting := true, entryWord := some 0x07#32 }
      (walking walk0 (.read 4)).dirCache := by
  refine ⟨.advancedWalk (table (.read 4)) [] _ 3 { walk0 with stage := .directory, awaiting := false } _ _ (answers_of (by decide)) rfl (by decide)
      rfl rfl (.directory .page (.read 4) rfl rfl (by decide) (.inl ⟨rfl, rfl, rfl⟩) ?_),
    .restartedWalk (table (.read 4)) [] _ _ 3 { walk0 with awaiting := false, stale := true } _ (answers_of (by decide)) rfl (by decide) rfl rfl
      ((restarts_iff (by decide)).2 rfl),
    .page rfl rfl (by decide) (by decide) (by decide) ?_⟩ <;>
    (unfold State.TableAdmits; decide)

theorem test_failsWalk :
    (let w : Walk := { walk0 with stage := .directory }
     let s := walking w (.read 4)
     s.FailsWalk (table (.read 4)) w .ok [0xFE#32] .directoryInvalid s.dirCache ∧
       base.FailsWalk (table (.read 4)) w .ok [0x01#32] .tableRegion
         (base.filledDirs { context := 0, index := 0#10, tableFrame := 0#24 })) ∧
    (let s := walking walk0 (.read 4)
     s.FailsWalk (table (.read 4)) walk0 .ok [0xFE#32] .pageInvalid s.dirCache ∧
       (s.setRegion 0 { endUnit := 4096#13, kind := .readOnly }).FailsWalk (table (.read 4)) walk0 .ok [0x07#32] .tableRegion
         (s.setRegion 0 { endUnit := 4096#13, kind := .readOnly }).dirCache) ∧
    (let w : Walk := { walk0 with stage := .update, kind := .flag }
     base.FailsWalk (table (.update true)) w .ok [0#32] .pageInvalid base.dirCache) := by
  refine ⟨⟨.directory _ rfl rfl (by decide), .region _ (.read 4) rfl rfl (by decide) (by decide) ?_⟩,
    ⟨.page _ rfl rfl (by decide), .flagRegion _ rfl rfl (by decide) (by decide) (by decide) ?_⟩, .update _ true rfl rfl (by decide)⟩ <;>
    (unfold State.TableAdmits; decide)

/-- A SYNC waits, its head alone in the queue or before another. -/
def syncing (s : State) : State := { s with commands := [command 0x08#8 true, command 0x08#8 false] }

theorem syncWait_syncing (s : State) (h : ∀ c, (s.context c).state ≠ .draining) : (syncing s).SyncWait 0#32 [command 0x08#8 false] :=
  ⟨h, ⟨_, rfl, rfl, rfl, rfl⟩, fun c hc => by rw [List.mem_singleton.1 hc]; rfl⟩

theorem test_witness_SyncEnds :
    (let s := syncing (walking { walk0 with watched := true } (.read 4))
     s.SyncWait 0#32 [command 0x08#8 false] ∧
       s.EndsWork (.response .error [])
         (representWaiting (deliverFault .tableError [n0]
           (s.walkFailed 3 { walk0 with awaiting := false, watched := true } [] .tableError s.dirCache))) ∧
       (representWaiting (deliverFault .tableError [n0]
           (s.walkFailed 3 { walk0 with awaiting := false, watched := true } [] .tableError s.dirCache))).NoMember) ∧
    (let s := syncing ((walking { walk0 with watched := true } (.read 4)).setSlot 2 (some { walk0 with watched := true }))
     s.SyncWait 0#32 [command 0x08#8 false] ∧
       ¬ (representWaiting (deliverFault .tableError [n0]
           (s.walkFailed 3 { walk0 with awaiting := false, watched := true } [] .tableError s.dirCache))).NoMember) :=
  ⟨⟨syncWait_syncing _ (by decide),
      .failedWalk (table (.read 4)) [] _ _ 3 { walk0 with awaiting := false, watched := true } .tableError _ _ _ (answers_of (by decide)) rfl
        (by decide) rfl rfl .error (faultsInTurn_iff.2 rfl) (represents_representWaiting _),
      (watchEmpty_iff _).1 (by decide)⟩,
    syncWait_syncing _ (by decide), fun h => absurd ((watchEmpty_iff _).2 h) (by decide)⟩

theorem test_witness_DrainEnds :
    (let s := draining (headed read0 (.finishing .faulted))
     s.DrainWait 0 [command 0x08#8 false] ∧
       (presentHead n0 (s.transferred n0 (entryOf read0 (.finishing .faulted)) [] .faulted)).NothingLeft 0) ∧
    (let s := draining (headed read0 (.ready phys0))
     s.DrainWait 0 [command 0x08#8 false] ∧
       ¬ (presentHead n0 (s.granted n0 (entryOf read0 (.ready phys0)) [] phys0)).NothingLeft 0) ∧
    (let s := draining (flying write0 (.write 4 [7#32]))
     s.DrainWait 0 [command 0x08#8 false] ∧
       (s.answered (values0 write0) (item0 write0) [item1] [] .done none []).NothingLeft 0) :=
  ⟨⟨drainWait_draining _ (by decide), (drained_iff _ _).1 (by decide)⟩,
    ⟨drainWait_draining _ (by decide), fun h => absurd ((drained_iff _ _).2 h) (by decide)⟩,
    ⟨drainWait_draining _ (by decide), (drained_iff _ _).1 (by decide)⟩⟩

theorem test_witness_TimingSettings :
    (base.ready = true ∧ (0x100#32 : Word).toNat % 256 = 0 ∧ (0xFF#32 : Word).toNat % 256 ≠ 0) ∧
    (let s := flying read0 (.read 64)
     s.ready = true ∧ s.memState = .running ∧ ∀ t ∈ s.outstanding, t.age < 1) ∧
    (let s : State := { base with memState := .clearing, clearAge := 65535 }
     s.ready = true ∧ s.memState = .clearing ∧ 65535 ≤ s.clearAge) ∧
    (let s : State := { base with outstanding := [{ op := .read 4, address := 0#36, origin := .walk 0, age := 1 }] }
     s.ready = true ∧ s.memState = .running ∧ ∀ t ∈ s.outstanding, 1 ≤ t.age) ∧
    low.ready = false ∧
    (let s : State := { base with tickLeft := 1 }
     s.pending = [] ∧ s.resetnLow = false ∧ s.tickLeft ≤ 1) ∧
    (State.reset.resetnLow = false ∧ State.reset.memState = .clearing ∧ State.reset.responseLimit.toNat ≠ 0) ∧
    (low.resetnLow = true ∧ base.memState ≠ .clearing ∧ State.reset.memState ≠ .running ∧ base.outstanding = [] ∧
      ({ base with responseLimit := 0#16 } : State).responseLimit.toNat = 0) := by
  decide

theorem test_witness_SubmitWrite :
    (queued 7).ready = true ∧ (queued 7).commands.length < 8 ∧ base.ready = true ∧ base.commands = [] ∧
    8 ≤ (queued 8).commands.length ∧ (queued 8).ready = true ∧ low.ready = false := by
  decide

theorem test_witness_SubmittedRows :
    submission (.probe 0#32) = some (0x28#8, some 0#32) ∧ submission (.unknownCode 0x00#8) = some (0x00#8, none) ∧
    base.commands = [] ∧ 0 < (queued 1).commands.length ∧ (queued 7).commands.length < 8 ∧
    8 ≤ (queued 8).commands.length := by
  decide

theorem test_witness_CommandErrors :
    (CommandFails base 0x00#8 0#32 .unknownCode ∧ CommandFails base 0x01#8 0x10000000#32 .badOperand ∧
      CommandFails base 0x02#8 0x00000400#32 .badOperand ∧ CommandFails base 0x18#8 0x00400000#32 .badOperand) ∧
    (CommandFails on 0x10#8 0#32 .wrongState ∧ CommandFails base 0x10#8 0#32 .badOperand ∧
      CommandFails base 0x11#8 0#32 .wrongState ∧ CommandFails base 0x19#8 0#32 .nothingParked ∧
      CommandFails base 0x20#8 0#32 .wrongState) ∧
    (∀ error, ¬ CommandFails base 0x08#8 0#32 error) ∧
    (queued 1).commands = command 0x08#8 false :: [] ∧
    ((queued 8).commands = command 0x08#8 false :: List.replicate 7 (command 0x08#8 false) ∧
      ∀ cmd ∈ List.replicate 7 (command 0x08#8 false), cmd.taken = false) ∧
    ({ base with commands := [command 0x08#8 true] } : State).commands = command 0x08#8 true :: [] := by
  refine ⟨⟨.unknown (by decide), .context (by decide) (by decide), .directory (by decide) (by decide),
    .port (by decide) (by decide)⟩, ⟨.enableState 0 rfl (by unfold operandNames; decide) (by decide),
    .enableLimit 0 rfl (by unfold operandNames; decide) (by decide) (by decide),
    .disableState 0 rfl (by unfold operandNames; decide) (by decide),
    .nothingParked n0 (by decide) (by unfold operandHead; decide) ?_, .clearState rfl (by decide)⟩, ?_, by decide, by decide, by decide⟩
  · rintro ⟨e, q, h, _⟩
    have : base.queue n0 = [] := by decide
    rw [this] at h
    exact absurd h (by simp)
  · intro error h
    cases h with
    | unknown h => exact absurd h (by decide)
    | context h => exact absurd h (by decide)
    | directory h => exact absurd h (by decide)
    | port h => exact absurd h (by decide)
    | enableState c h => exact absurd h (by decide)
    | enableLimit c h => exact absurd h (by decide)
    | disableState c h => exact absurd h (by decide)
    | nothingParked h' h => exact absurd h (by decide)
    | clearState h => exact absurd h (by decide)

/-- A SYNC taken with a PROBE behind it waits in front of it, and a PROBE with a SYNC behind it leaves. -/
theorem test_take_with_commands_behind :
    (let s : State := { flying read0 (.read 64) with commands := [command 0x08#8 false, command 0x28#8 false] }
     (after .commandTake s).commands = [command 0x08#8 true, command 0x28#8 false]) ∧
    (let s : State := { cached page0 with commands := [{ command 0x28#8 false with operand := 0x3FF#32 }, command 0x08#8 false] }
     (after .commandTake s).commands = [command 0x08#8 false] ∧ (after .commandTake s).probe.hit = true ∧
       (after .commandTake s).completedCount = 1#16) := by
  decide +kernel

theorem test_witness_EnableAndProbe :
    (let s := base.setContext 15 { base.context 15 with limit := 1024#11 }
     operandNames 0x0F000000#32 15 ∧ (s.context 15).state = .off ∧ (s.context 15).limit.toNat ≤ 1024 ∧
       s.ready = true ∧ s.commands = []) ∧
    (let s := cached page0
     operandNames 0x000003FF#32 0 ∧ s.ready = true ∧ s.commands = [] ∧
       s.pageLookup 0 ((0x000003FF#32 : Word).extractLsb' 0 20) = some page0 ∧
       s.pageLookup 0 ((0x000003FE#32 : Word).extractLsb' 0 20) = none) := by
  unfold operandNames
  decide

theorem test_witness_WaitingCommands :
    (base.ready = true ∧ base.commands = [] ∧ ∀ i, base.slot i = none) ∧
    (∀ (h : HeadId) (item : Item), item ∈ (base.port h.port).returns.get h.cls → item.isInFlight = false) ∧
    ((walking walk0 (.read 4)).ready = true ∧ (walking walk0 (.read 4)).commands = [] ∧
      ¬ (∀ i, (walking walk0 (.read 4)).slot i = none)) ∧
    (item0 read0 ∈ ((flying read0 (.read 64)).port 0).returns.get .normal ∧ (item0 read0).isInFlight = true) ∧
    ({ base with memState := .failed } : State).memState = .failed := by
  refine ⟨by decide, ?_, by decide, by decide, by decide⟩
  intro ⟨p, c⟩ item h
  have : ∀ p : PortNumber, (base.port p).returns.get c = [] := by cases c <;> decide
  rw [this p] at h
  exact absurd h (by simp)

theorem test_witness_TerminateAndResume :
    let s : State := { headed read0 .parked with pageCache := [page0] }
    operandHead 0#32 n0 ∧ s.ready = true ∧ s.commands = [] ∧ s.queue n0 = [entryOf read0 .parked] ∧ s.Offered ∧
    s.Translated n0 read0 ∧ s.pageLookup 0 (clientPage read0.address) = some page0 ∧ s.HitReady 0 read0 page0 phys0 :=
  ⟨by unfold operandHead; decide, by decide, by decide, by decide, offered_of_empty rfl, ⟨by decide, by decide⟩, by decide,
    ⟨by decide, (by rw [permits_iff]; decide), (by rw [regionAdmits_iff]; decide), by decide⟩⟩

/-- A parked head that needs a walk: it starts one in the last slot, joins one, or waits for a slot. -/
theorem test_witness_TerminateAndResume_walk :
    (let other (p : PageNumber) : Option Walk := some { walk0 with page := p, awaiting := false }
     let s := (((headed read1 .parked).setSlot 0 (other 0#20)).setSlot 1 (other 1#20)).setSlot 2 (other 2#20)
     s.queue n0 = [entryOf read1 .parked] ∧ s.Offered ∧
       s.StartsWalk n0 read1 3 (startedWalk .fill 0 0x3FE#20 n0 .directory (.read 4) 0x10000#36 none) s.pageCache) ∧
    (let s := (headed read0 .parked).setSlot 3 (some walk0)
     s.Offered ∧ s.NeedsWalk 0 read0 .fill s.pageCache ∧ s.WalkOf 0 (clientPage read0.address) 3 walk0) ∧
    (let s : State := { headed read0 .parked with slots := Vector.replicate 4 (some { walk0 with page := 0#20 }) }
     s.Offered ∧ s.NeedsWalk 0 read0 .fill s.pageCache ∧ s.NoWalk 0 (clientPage read0.address) ∧ ∀ i, s.slot i ≠ none) := by
  refine ⟨⟨by decide, offered_of_empty rfl,
      startsWalk_read1 (by decide) (by decide) (by decide) (noWalk_of_pages (by decide)) ⟨by decide, by decide⟩ (by decide) (by decide)
        (by decide)⟩,
    ⟨offered_of_empty rfl, .miss (by decide), ⟨by decide, by decide, by decide, by decide, ?_⟩⟩,
    ⟨offered_of_empty rfl, .miss (by decide), noWalk_of_pages (by decide), by decide⟩⟩
  intro j v hj hs
  have : ∀ j : SlotNumber, j ≠ 3 → ((headed read0 .parked).setSlot 3 (some walk0)).slot j = none := by decide
  rw [this j (by rintro rfl; exact absurd hj (by decide))] at hs
  exact absurd hs (by simp)

/-- A parked head that faults again, by each of the three ways, with room in the log and with none, under both policies. -/
theorem test_witness_TerminateAndResume_refused :
    (let r : Request := { read0 with address := 0x00400000#32 }
     (headed r .parked).queue n0 = [entryOf r .parked] ∧ (headed r .parked).RefusesHead n0 r .limit [] []) ∧
    (let e : PageEntry := { page0 with readPermit := false }
     let s : State := { headed read0 .parked with pageCache := [e] }
     s.RefusesHead n0 read0 .readDenied (s.pageFront e) s.dirCache) ∧
    (let s : State := { headed read0 .parked with memState := .failed }
     s.RefusesHead n0 read0 .tableError s.pageCache (s.dirFront 0 (directoryIndex (clientPage read0.address)))) ∧
    ((logged 15 (headed read0 .parked)).faultLog.length < 16 ∧ 16 ≤ (logged 16 (headed read0 .parked)).faultLog.length ∧
      (on.context 0).policy = .stall ∧ (base.context 0).policy = .abort) := by
  refine ⟨⟨by decide, .limit (by decide) (by decide)⟩,
    .hit _ _ ⟨by decide, by decide⟩ (by decide) (.inl ⟨(by rw [permits_iff]; decide), rfl, rfl⟩), ?_, by decide⟩
  have hf := State.FirstAccess.miss (s := { headed read0 .parked with memState := .failed }) (k := .fill) (c := 0)
    (p := clientPage read0.address) (by decide)
  refine .table .fill _ 0 _ _ _ _ _ ⟨by decide, by decide⟩ (.miss (by decide)) (noWalk_of_free (by decide) _ _) ⟨by decide, by decide⟩ hf
    (.inr ⟨?_, by decide, rfl⟩)
  unfold State.TableAdmits
  decide

theorem test_resume_faults_again :
    let s := (headed { read0 with address := 0x00400000#32 } .parked).setParked n0 (some { sequence := 9#16, cause := .pageInvalid })
    (after (.resume 0#32) s).parkedPlace n0 = some { sequence := 0#16, cause := .limit } ∧ (after (.resume 0#32) s).faultLog.length = 1 ∧
    (after (.resume 0#32) (logged 16 s)).parkedPlace n0 = none := by
  decide +kernel

theorem test_witness_DisableContext :
    (operandNames 0#32 0 ∧ on.ready = true ∧ on.commands = [] ∧ (on.context 0).state = .active ∧ on.NoEnds ∧ on.Offered ∧
      on.NothingLeft 0 ∧ ∀ h ∈ on.slotWait, on.boundContext h ≠ 0) ∧
    (after (.disableContext 0#32) on).NothingLeft 0 ∧
    (let s := headed read0 (.ready phys0)
     s.ready = true ∧ s.commands = [] ∧ (s.context 0).state = .active ∧ s.boundContext n0 = 0 ∧
       s.queue n0 = [entryOf read0 (.ready phys0)] ∧ ¬ (after (.disableContext 0#32) s).NothingLeft 0) ∧
    (headed read0 (.finishing .faulted)).queue n0 = [entryOf read0 (.finishing .faulted)] ∧
    (headed read0 .parked).ParkedHead n0 :=
  ⟨⟨by unfold operandNames; decide, by decide, by decide, by decide, noEnds_of_idle (by decide) (by decide), offered_of_empty rfl,
      (drained_iff _ _).1 (by decide), by decide⟩,
    (drained_iff _ _).1 (by decide +kernel),
    ⟨by decide, by decide, by decide, by decide, by decide, fun h => absurd ((drained_iff _ _).2 h) (by decide +kernel)⟩,
    by decide, entryOf read0 .parked, [], by decide, by decide⟩

/-- A context 0 with work of every kind, and a head of port 1, bound to context 1, that waits for a slot: port 0 has a READY head before an entry, a PARKED
head and an item IN_FLIGHT; port 2 a waiter of each of the walks of slot 0, which awaits a grant, and slot 3, which is outstanding. -/
def loaded : State :=
  let of (s : State) (p : PortNumber) (b : ContextNumber) (normal urgent : List Entry) (items : List Item) : State :=
    s.setPort p { s.port p with state := .open_, binding := b, queues := ⟨normal, urgent⟩, returns := ⟨items, []⟩ }
  let ports := of (of (of (on.setContext 1 (on.context 0)) 0 0
    [entryOf read0 (.ready phys0), entryOf read1 .queued] [entryOf read1 .parked]
      [{ tag := 2#6, cls := .normal, kind := .read, state := .inFlight false }])
    1 1 [entryOf read1 .waitSlot] [] []) 2 0 [entryOf read0 .walking] [entryOf read1 .walking] []
  let other (p : PageNumber) : Option Walk := some { walk0 with context := 1, page := p, waiters := [], awaiting := false }
  { ((((ports.setParked ⟨0, .urgent⟩ (some { sequence := 0#16, cause := .limit })).setSlot 0
        (some { walk0 with waiters := [⟨2, .normal⟩] })).setSlot 1 (other 1#20)).setSlot 2 (other 2#20)).setSlot 3
      (some { walk0 with page := 0x3FE#20, waiters := [⟨2, .urgent⟩], awaiting := false }) with
    startOrder := [1, 0, 3, 2], slotWait := [n1], pageCache := [{ page0 with context := 1 }, page0] }

/-- The whole next state of a disable: with a slot freed and a head of another context taking it, with nothing to present, and with nothing left. -/
theorem test_witness_DisableContext_whole :
    (loaded.ready = true ∧ loaded.commands = [] ∧ (loaded.context 0).state = .active ∧ loaded.DrainsHeld ∧
      (loaded.disabled 0 0#32).freeSlot? = some 0 ∧ (loaded.disabled 0 0#32).slotWait = [n1] ∧
      ¬ (representWaiting (loaded.disabled 0 0#32)).NothingLeft 0) ∧
    (let s := headed read0 (.ready phys0)
     s.DrainsHeld ∧ (s.disabled 0 0#32).Offered ∧ ¬ (s.disabled 0 0#32).NothingLeft 0) ∧
    on.DrainsHeld ∧ (on.disabled 0 0#32).Offered ∧ (on.disabled 0 0#32).NothingLeft 0 :=
  ⟨⟨by decide, by decide, by decide, State.DrainsHeld.of_none (by decide), by decide +kernel, by decide,
      fun h => absurd ((drained_iff _ _).2 h) (by decide +kernel)⟩,
    ⟨State.DrainsHeld.of_none (by decide), offered_of_empty (by decide), fun h => absurd ((drained_iff _ _).2 h) (by decide +kernel)⟩,
    State.DrainsHeld.of_none (by decide), offered_of_empty (by decide), (drained_iff _ _).1 (by decide +kernel)⟩

/-- A disable frees the walk that awaits a grant, keeps the outstanding one, abandoned, and finishes the heads; the head of port 1 takes the slot. -/
theorem test_disable_loaded :
    let t := after (.disableContext 0#32) loaded
    t.slot 0 = some (startedWalk .fill 1 0x3FE#20 n1 .directory (.read 4) 0x10000#36 none) ∧
      t.slot 3 = some { walk0 with page := 0x3FE#20, waiters := [], awaiting := false, abandoned := true } ∧
      t.startOrder = [1, 3, 2, 0] ∧ t.slotWait = [] ∧ t.pageCache = [{ page0 with context := 1 }] ∧
      t.queue n0 = [entryOf read0 (.finishing .aborted), { entryOf read1 .queued with abortMark := true }] ∧
      t.queue ⟨0, .urgent⟩ = [entryOf read1 (.finishing .aborted)] ∧ t.parkedPlace ⟨0, .urgent⟩ = none ∧
      t.queue n1 = [entryOf read1 .walking] ∧ t.port 3 = loaded.port 3 ∧ t.unitState = .waiting := by
  decide +kernel

theorem test_witness_InvalidationCovers :
    (InvalidationCovers (.invalidatePage 0x0F0FFFFF#32) (some 0x0F0FFFFF#32)
      (fun d p => d == 15 && p == (0x0F0FFFFF#32 : Word).extractLsb' 0 20) fun _ _ => false) ∧
    (InvalidationCovers (.invalidateDirectory 0x000003FF#32) (some 0x000003FF#32)
      (fun d p => d == 0 && decide (p.toNat / 1024 = (0x000003FF#32 : Word).toNat % 1048576))
      fun d i => d == 0 && decide (i.toNat = (0x000003FF#32 : Word).toNat % 1048576)) ∧
    (InvalidationCovers (.invalidateContext 0x0F000000#32) (some 0x0F000000#32) (fun d _ => d == 15) fun d _ => d == 15) ∧
    InvalidationCovers .invalidateAll none (fun _ _ => true) fun _ _ => true := by
  refine ⟨.page _ 15 ?_, .directory _ 0 ?_ ?_, .context _ 15 ?_, .all⟩ <;> (try unfold operandNames) <;> decide

/-- The heads that are READY in a scope are among those that are READY. -/
theorem readyIn_of {s : State} {pages : ContextNumber → PageNumber → Bool} {h : HeadId} (hr : s.ReadyIn pages h) :
    (s.head? h).any Entry.isReady = true ∧
      ∀ e ∈ s.head? h, pages (s.boundContext h) (clientPage e.request.address) = true := by
  obtain ⟨e, q, a, hq, he, hp⟩ := hr
  rw [State.head?_of_queue hq]
  simp [Entry.isReady, he, hp]

/-- A head that is not READY, or out of the scope. -/
theorem notReady_of {s : State} {pages : ContextNumber → PageNumber → Bool}
    (h : ∀ c : ReqClass, ∀ p : PortNumber,
      (s.head? ⟨p, c⟩).all (fun e => !(e.isReady && pages (s.boundContext ⟨p, c⟩) (clientPage e.request.address))) = true) (k : HeadId) :
    ¬ s.ReadyIn pages k := by
  intro hr
  obtain ⟨e, q, a, hq, he, hp⟩ := hr
  have := h k.cls k.port
  rw [show (⟨k.port, k.cls⟩ : HeadId) = k from rfl, State.head?_of_queue hq] at this
  simp [Entry.isReady, he, hp] at this

/-- The scope of INVALIDATE_PAGE for context 0 and a page. -/
abbrev pageScope (w : Word) : ContextNumber → PageNumber → Bool := fun d p => d == 0 && p == w.extractLsb' 0 20

theorem test_witness_InvalidationsQuiet :
    let s := (headed read0 (.ready phys0)).setSlot 3 (some walk0)
    s.ready = true ∧ s.commands = [] ∧ s.Offered ∧ s.queue n0 = [entryOf read0 (.ready phys0)] ∧ s.slot 3 = some walk0 ∧
    (∀ h, ¬ s.ReadyIn (pageScope 0x000003FE#32) h) ∧
    ∀ i v, s.slot i = some v → v.abandoned = false → pageScope 0x000003FE#32 v.context v.page = false := by
  refine ⟨by decide, by decide, offered_of_empty rfl, by decide, by decide, notReady_of ?_, ?_⟩
  · intro c; cases c <;> decide
  · intro i v hi _
    have : ∀ i : SlotNumber, ∀ x ∈ ((headed read0 (.ready phys0)).setSlot 3 (some walk0)).slot i,
        (x.page == (0x000003FE#32 : Word).extractLsb' 0 20) = false := by decide
    exact Bool.and_eq_false_iff.2 (.inr (this i v (by rw [hi]; rfl)))

/-- Walks of the scope that are outstanding, one that awaits a grant, and a READY head beside an outstanding walk of its key. -/
theorem test_witness_InvalidationsQuiet_inside :
    (let s := walking walk0 (.read 4)
     s.ready = true ∧ s.commands = [] ∧ s.Offered ∧ (∀ h, ¬ s.ReadyIn (pageScope 0x000003FF#32) h) ∧
       (∀ i v, s.slot i = some v → v.awaiting = false) ∧ ∃ v, s.slot 3 = some v ∧ pageScope 0x000003FF#32 v.context v.page = true) ∧
    (let s := (headed read0 .walking).setSlot 3 (some walk0)
     s.ready = true ∧ s.commands = [] ∧ s.Offered ∧ (∀ h, ¬ s.ReadyIn (pageScope 0x000003FF#32) h) ∧ s.slot 3 = some walk0 ∧
       walk0.awaiting = true ∧ pageScope 0x000003FF#32 walk0.context walk0.page = true ∧ (∀ j, s.slot j ≠ none → j = 3) ∧
       s.FirstAccess .fill 0 (clientPage read0.address) .directory (.read 4) 0x10000#36 none ∧ s.TableAdmits (.read 4) 0x10000#36) ∧
    (let s := (walking walk0 (.read 4)).setQueue n1 [entryOf read0 (.ready phys0)]
     s.ready = true ∧ s.commands = [] ∧ s.Offered ∧ s.ReadyIn (pageScope 0x000003FF#32) n1 ∧
       (∀ k, s.ReadyIn (pageScope 0x000003FF#32) k → k = n1) ∧ (∀ i v, s.slot i = some v → v.awaiting = false) ∧
       s.queue n1 = [entryOf read0 (.ready phys0)] ∧ (entryOf read0 (.ready phys0)).Unmarked ∧ s.Translated n1 read0 ∧
       State.WalkOf { s with slots := s.slots.map fun slot => slot.map (staleIn (pageScope 0x000003FF#32)) } 0
         (clientPage read0.address) 3 { walk0 with awaiting := false, stale := true }) := by
  have hout : ∀ s : State, (∀ i : SlotNumber, ∀ v ∈ s.slot i, v.awaiting = false) → ∀ i v, s.slot i = some v → v.awaiting = false :=
    fun s h i v hi => h i v (by rw [hi]; rfl)
  refine ⟨⟨by decide, by decide, offered_of_empty rfl, notReady_of ?_, hout _ (by decide), ⟨_, rfl, by decide⟩⟩,
    ⟨by decide, by decide, offered_of_empty rfl, notReady_of ?_, by decide, by decide, by decide, by decide,
      firstAccess_of (s := on) rfl rfl firstAccess_on, ?_⟩,
    by decide, by decide, offered_of_empty rfl, ⟨entryOf read0 (.ready phys0), [], phys0, by decide, rfl, by decide⟩, fun k hk => ?_,
    hout _ (by decide), by decide, ⟨rfl, rfl⟩, ⟨by decide, by decide⟩, by decide +kernel, rfl, rfl, by decide, fun j v hj hv => ?_⟩
  · intro c; cases c <;> decide
  · intro c; cases c <;> decide
  · unfold State.TableAdmits; decide
  · obtain ⟨p, c⟩ := k
    have h1 := (readyIn_of hk).1
    have : ∀ p : PortNumber,
        ((((walking walk0 (.read 4)).setQueue n1 [entryOf read0 (.ready phys0)]).head? ⟨p, c⟩).any Entry.isReady = true) →
          (⟨p, c⟩ : HeadId) = n1 := by
      cases c <;> decide
    exact this p h1
  · have : ∀ j : SlotNumber, j < 3 → ((walking walk0 (.read 4)).slot j) = none := by decide
    have hm : ((walking walk0 (.read 4)).slots.map fun slot => slot.map (staleIn (pageScope 0x000003FF#32)))[j.val] = some v := hv
    rw [Vector.getElem_map, show (walking walk0 (.read 4)).slots[j.val] = none from this j hj] at hm
    exact absurd hm (by simp)

/-- A READY head of the scope joins the walk that the invalidation has just marked stale, and two such heads are presented in ascending port. -/
theorem test_invalidation_represents :
    (let s := (walking walk0 (.read 4)).setQueue n1 [entryOf read0 (.ready phys0)]
     (after (.invalidatePage 0x000003FF#32) s).slot 3 =
       some { walk0 with awaiting := false, stale := true, waiters := [n0, n1] }) ∧
    (let s := (headed read0 (.ready phys0)).setQueue n1 [entryOf read0 (.ready phys0)]
     ((after .invalidateAll s).slot 0).map Walk.waiters = some [n0, n1]) := by
  decide +kernel

theorem test_witness_InvalidationLeavesNothing :
    (on.ready = true ∧ on.commands = [] ∧
      exec (.invalidateDirectory 0x000003FF#32) on = .next (after (.invalidateDirectory 0x000003FF#32) on)) ∧
    (let s := walking walk0 (.read 4)
     s.ready = true ∧ s.commands = [] ∧ exec .invalidateAll s = .next (after .invalidateAll s) ∧
       ((after .invalidateAll s).slot 3).map Walk.stale = some true) ∧
    (let s := (walking walk0 (.read 4)).setSlot 3 (some walk0)
     exec .invalidateAll s = .next (after .invalidateAll s) ∧
       ((after .invalidateAll s).slot 3).map Walk.tableFrame = some none) :=
  ⟨⟨by decide, by decide, rfl⟩, ⟨by decide, by decide, rfl, by decide⟩, rfl, by decide⟩

theorem test_witness_ContextFields :
    (base.ready = true ∧ (base.context 15).state = .off) ∧ (on.ready = true ∧ (on.context 0).state ≠ .off) ∧
    low.ready = false := by
  decide

theorem test_witness_RegionEntryWrite :
    ((0x00031000#32 : Word).extractLsb' 16 2 = 3#2 ∧ (0x00031000#32 : Word).toNat % 8192 ≤ 4096 ∧
      4096 < (0x00031001#32 : Word).toNat % 8192) ∧
    ((0x00000000#32 : Word).extractLsb' 16 2 = 0#2 ∧ (0x00010000#32 : Word).extractLsb' 16 2 = 1#2 ∧
      (0x00020000#32 : Word).extractLsb' 16 2 = 2#2) ∧
    (base.ready = true ∧ ∀ c, (base.context c).state = .off) ∧ (on.ready = true ∧ ∃ c, (on.context c).state ≠ .off) ∧
    low.ready = false := by
  decide

theorem test_witness_RegionLookup :
    (let s := base.setRegion 7 { endUnit := 1#13, kind := .tables }
     (0xFFFFFF#36 : PhysAddr).toNat / 16777216 < (s.region 7).endUnit.toNat ∧
       ∀ j : Fin 8, j < 7 → (s.region j).endUnit.toNat ≤ (0xFFFFFF#36 : PhysAddr).toNat / 16777216) ∧
    ∀ i : Fin 8, (base.region i).endUnit.toNat ≤ (0xFFFFFFFFF#36 : PhysAddr).toNat / 16777216 := by
  decide

theorem test_witness_InterruptWords : base.ready = true ∧ low.ready = false ∧ base.resetnLow = false := by decide

theorem test_witness_FaultLogPop :
    (logged 1 base).ready = true ∧ (logged 1 base).faultLog.length = 1 ∧ base.ready = true ∧ base.faultLog = [] ∧
    low.ready = false := by
  decide

theorem test_witness_OperandWord : base.ready = true ∧ low.ready = false ∧ (queued 7).commands.length < 8 := by decide

theorem test_witness_AccessErrors :
    (0xE#4 : BitVec 4) ≠ 0xF#4 ∧ registerAt 0xFFC#12 = none ∧ registerAt 0x008#12 = none ∧ base.ready = true ∧
    State.reset.ready = false := by
  decide

theorem test_witness_WindowReads :
    registerAt 0x000#12 = some .deviceStatus ∧ registerAt 0x280#12 = some .parkedSummary ∧
    registerAt 0x050#12 = some (.portStatus 0) ∧ registerAt 0x05C#12 = some (.portStatus 3) ∧
    registerAt 0x27C#12 = some (.parkedPlace 3 .urgent) ∧ registerAt 0x260#12 = some (.parkedPlace 0 .normal) ∧
    (State.reset.resetnLow = false ∧ State.reset.device = .resetting) ∧ base.ready = true ∧ base.faultLog = [] ∧
    base.parkedPlace n0 = none ∧ (base.setParked n0 (some { sequence := 5#16, cause := .pageInvalid })).ready = true ∧
    (base.setParked n0 (some { sequence := 5#16, cause := .pageInvalid })).parkedPlace n0 =
      some { sequence := 5#16, cause := .pageInvalid } ∧
    (logged 16 base).faultLog.length = 16 := by
  decide

theorem test_witness_ConfigurationFixed :
    (∃ c, (on.context c).state ≠ .off) ∧ (on.port 0).state ≠ .closed ∧
    exec .deviceReset on = .next (after .deviceReset on) ∧ Instr.deviceReset ≠ .powerOnReset :=
  ⟨by decide, by decide, rfl, by decide⟩

theorem test_witness_TransactionsOnlyByGrant :
    let s := headed read0 (.ready phys0)
    exec .grant s = .next (after .grant s) ∧ Output.transaction (.read 64) phys0 ∈ (after .grant s).emitted :=
  ⟨rfl, by decide⟩

theorem closedEmpty_of {s : State} (h : ∀ p : PortNumber, (s.port p).state = .closed → (s.port p).isEmpty = true) : s.ClosedEmpty := h

theorem transactionsLinked_walking : (walking walk0 (.read 4)).TransactionsLinked := by
  refine ⟨by decide, fun i w h => ?_, fun t ht v hv => ?_⟩
  · have : ∀ i : SlotNumber, ∀ x ∈ (walking walk0 (.read 4)).slot i, x = { walk0 with awaiting := false } := by decide
    rw [this i w (by rw [h]; rfl)]
    exact .page 0x10#24 rfl rfl rfl rfl (by decide) rfl
  · have : ∀ x ∈ (walking walk0 (.read 4)).outstanding, x.client? = none := by decide
    have hx := this t ht
    rw [Transaction.client?, hv] at hx
    simp at hx

theorem transactionsLinked_flying : (flying read0 (.read 64)).TransactionsLinked := by
  refine ⟨by decide, fun i w h => ?_, fun t ht v hv => ?_⟩
  · have : ∀ i, (flying read0 (.read 64)).slot i = none := by decide
    rw [this i] at h
    exact absurd h (by simp)
  · rw [List.mem_singleton.1 (show t ∈ [client read0 (.read 64)] from ht)] at hv ⊢
    injection hv with hv
    subst hv
    exact trivial

/-- Two responses whose oldest transaction is linked: to a walk, and to an item. -/
theorem test_witness_ItemsPairedKept :
    (let s := walking walk0 (.read 4)
     s.TransactionsLinked ∧ s.ItemsPaired ∧ (∀ h : HeadId, FrontInFlight ((s.port h.port).returns.get h.cls)) ∧
       s.Answers (table (.read 4)) [] .ok [0x2000F#32]) ∧
    (let s := flying read0 (.read 64)
     s.TransactionsLinked ∧ s.ItemsPaired ∧ (∀ h : HeadId, FrontInFlight ((s.port h.port).returns.get h.cls)) ∧
       s.Answers (client read0 (.read 64)) [] .error []) := by
  have front : ∀ s : State, (∀ c : ReqClass, ∀ p : PortNumber, ((s.port p).returns.get c).head?.all Item.isInFlight = true) →
      ∀ h : HeadId, FrontInFlight ((s.port h.port).returns.get h.cls) := by
    intro s h k i rest hi
    have := h k.cls k.port
    rw [hi] at this
    simpa using this
  refine ⟨⟨transactionsLinked_walking, itemsPaired_of ?_, front _ ?_, answers_of (by decide)⟩,
    ⟨transactionsLinked_flying, itemsPaired_of ?_, front _ ?_, answers_of (by decide)⟩⟩ <;>
    (intro c; cases c <;> decide)

theorem test_witness_CommandOrderKept :
    (draining on).DrainsHeld ∧ ((draining on).context 0).state = .draining ∧ ∃ t, step (draining on) = .next t := by
  refine ⟨fun c hc => ?_, by decide, _, rfl⟩
  have : ∀ c : ContextNumber, ((draining on).context c).state = .draining → c = 0 := by decide
  rw [this c hc]
  exact ⟨_, _, rfl, rfl, rfl, by decide⟩

/-- The premises of the statements about every step, at a state with work. -/
theorem test_witness_Kept :
    (let s := flying read0 (.read 64)
     s.Bounded ∧ s.LogNumbered ∧ s.CommandsInOrder ∧ s.CachesSound ∧ s.ResetsQuiet ∧ s.WalkerSettled ∧ s.ItemsPaired) ∧
    (fetching.ClosedEmpty ∧ fetching.HeadsLinked) ∧ ∃ t, step fetching = .next t := by
  refine ⟨⟨⟨by unfold Port.Bounded; decide, by decide, by decide, by decide, by decide, by decide, by decide, by decide, by decide,
        by decide, by decide⟩, fun k r h => absurd h (by simp [show (flying read0 (.read 64)).faultLog = [] from rfl]),
      commandsInOrder_of_idle (by decide) (by decide), ⟨List.Pairwise.nil, List.Pairwise.nil, by decide, by decide, ?_, ?_, ?_⟩,
      ⟨by decide, fun h => absurd h (by decide), closedEmpty_of (by decide)⟩,
      walkerSettled_base _ (by decide) (by decide) (by decide) (by decide) (by decide), itemsPaired_of ?_⟩,
    ⟨closedEmpty_of (by decide), headsLinked_fetching⟩, ⟨_, rfl⟩⟩
  · intro i j v w h
    have : ∀ i, (flying read0 (.read 64)).slot i = none := by decide
    rw [this i] at h
    exact absurd h (by simp)
  · intro i w h
    have : ∀ i, (flying read0 (.read 64)).slot i = none := by decide
    rw [this i] at h
    exact absurd h (by simp)
  · intro i w h
    have : ∀ i, (flying read0 (.read 64)).slot i = none := by decide
    rw [this i] at h
    exact absurd h (by simp)
  · intro c; cases c <;> decide

/-! ## Events on small states -/

theorem test_reset_then_cleared : (after .cleared State.reset).ready = true ∧ (after .cleared State.reset).memState = .running := by
  decide

theorem test_request_reads_through_hit :
    (after (.request 0 read0) (cached page0)).queue n0 = [entryOf read0 (.ready phys0)] := by decide

theorem test_request_miss_walks :
    (after (.request 0 read0) on).slot 0 =
      some (startedWalk .fill 0 0x3FF#20 n0 .directory (.read 4) 0x10000#36 none) := by decide

theorem test_grant_sends_read :
    (after .grant (headed read0 (.ready phys0))).emitted = [.transaction (.read 64) phys0] := by decide

theorem test_directory_response :
    (after (.response .ok [0x00FFFF01#32]) (walking { walk0 with stage := .directory } (.read 4))).dirCache =
      [{ context := 0, index := 0#10, tableFrame := 0xFFFF#24 }] := by decide

theorem test_page_response_needs_update :
    ((after (.response .ok [0x20007#32]) (walking walk0 (.read 4))).slot 3).map Walk.op = some (.update false) := by decide

theorem test_page_response_fills :
    (after (.response .ok [0x2000F#32]) (walking walk0 (.read 4))).pageCache = [{ page0 with modifiedKnown := false }] := by
  decide

theorem test_page_response_invalid_parks :
    ((after (.response .ok [0#32]) (walking walk0 (.read 4))).parkedPlace n0).map ParkedPlace.cause = some .pageInvalid := by
  decide

theorem test_violation_fails :
    (after (.response .ok []) base).memState = .failed ∧ (after (.response .ok []) base).irqStatus = 0x20#8 := by decide

theorem test_expiry_ends_item :
    ((after .expiry (flying read0 (.read 64))).port 0).completions.map Completion.status = [.memoryError, .aborted] := by
  decide

theorem test_clear_memory_port :
    (after .clearMemoryPort { base with memState := .failed }).unitState = .waiting ∧
      (after .clearMemoryPort { base with memState := .failed }).emitted = [.clear] := by decide

theorem test_disable_idle : ((after (.disableContext 0#32) on).context 0).state = .off := by decide +kernel

theorem test_disable_ready_head :
    (after (.disableContext 0#32) (headed read0 (.ready phys0))).queue n0 = [entryOf read0 (.finishing .aborted)] ∧
      (after (.disableContext 0#32) (headed read0 (.ready phys0))).unitState = .waiting := by decide +kernel

theorem test_sync_waits_then_completes :
    (after (.sync 5#32) (flying write0 (.write 4 [7#32]))).unitState = .waiting ∧
      (after (.response .ok []) (after (.sync 5#32) (flying write0 (.write 4 [7#32])))).syncMarker = 5#16 := by decide +kernel

theorem test_invalidate_represents_ready :
    ((after (.invalidateAll) { headed read0 (.ready phys0) with pageCache := [page0] }).head? n0).map Entry.state =
      some .walking := by decide

theorem test_transfer_reaches_client :
    ((after (.transfer 0 .normal) (headed read0 (.finishing .noContext))).port 0).completions.map Completion.status =
      [.noContext] := by decide

theorem test_intn_after_access_error :
    (after (.malformedRead 0x3F0#12 0xF#4) { base with irqEnable := 0x80#8 }).intnAsserted = true := by decide

theorem test_window_context_control :
    readValue 0x104#12 0xF#4 on = 0x01070001#32 ∧ readValue 0x100#12 0xF#4 on = 0x10#32 := by decide

theorem test_window_parked_place :
    readValue 0x260#12 0xF#4 (base.setParked n0 (some { sequence := 5#16, cause := .pageInvalid })) = 0x83000005#32 := by
  decide

theorem test_host_clock_ticks :
    ((step { flying read0 (.read 64) with tickLeft := 1 } : Host.Outcome State Fault Refusal) matches .next _) = true := by
  decide

end Sys2Proof.Tests
end

section
/-! PROOFS of the family "contexts and port bindings" (R19, R30): what a host write of a port binding word or of a context's words does, and
what these words read as. -/

namespace Sys2Proof.Machine

/-! ## Host writes while the device takes them, and while it does not -/

/-- The `exec` arm of PORT_BINDING_WRITE. -/
theorem exec_portBindingWrite (p : PortNumber) (value : Word) (s : State) :
    exec (.portBindingWrite p value) s = .next (writeBinding p value s.beginEvent) :=
  rfl

/-- The `exec` arm of CONTEXT_WRITE. -/
theorem exec_contextWrite (c : ContextNumber) (word : ContextWord) (value : Word) (s : State) :
    exec (.contextWrite c word value) s = .next (writeContext c word value s.beginEvent) :=
  rfl

/-- A refused host write, as a whole event: PROGRAM_ERROR is bit 6 of the causes (section 12.4). -/
theorem raise_programError_beginEvent (s : State) :
    s.beginEvent.raise .programError = { s with irqStatus := s.irqStatus ||| 0x40#8, emitted := [] } := rfl

/-- A port record written in an event that hands nothing outside. -/
theorem State.setPort_beginEvent (p : PortNumber) (v : Port) (s : State) :
    s.beginEvent.setPort p v = { s.setPort p v with emitted := [] } := rfl

/-- A context record written in an event that hands nothing outside. -/
theorem State.setContext_beginEvent (c : ContextNumber) (v : ContextRecord) (s : State) :
    s.beginEvent.setContext c v = { s.setContext c v with emitted := [] } := rfl

/-! ## Port bindings (R30) -/

theorem bindingField_eq (w : Word) : bindingField w = Fin.ofNat 16 (w.toNat % 16) := by
  apply Fin.ext
  simp [bindingField]

theorem writeBinding_of_closed {p : PortNumber} {s : State} (value : Word) (hr : s.ready = true)
    (hc : (s.port p).state = .closed) :
    writeBinding p value s = s.setPort p { s.port p with binding := bindingField value } := by
  simp [writeBinding, hr, hc]

theorem writeBinding_of_not_closed {p : PortNumber} {s : State} (value : Word) (hr : s.ready = true)
    (hc : (s.port p).state ≠ .closed) : writeBinding p value s = s.raise .programError := by
  simp [writeBinding, hr, hc]

theorem writeBinding_of_not_ready {s : State} (p : PortNumber) (value : Word) (hr : s.ready = false) :
    writeBinding p value s = s := by
  simp [writeBinding, hr]

/-- Power-on reset gives every port its power-on record (R63, R179). -/
theorem port_powerOnReset (s : State) (p : PortNumber) : (powerOnReset s).port p = Port.powerOn := by
  simp [State.port, powerOnReset, State.powerOn]

/-- A device reset empties and closes each port and keeps its binding (R63). -/
theorem port_startDeviceReset (s : State) (p : PortNumber) : (startDeviceReset s).port p = (s.port p).deviceReset := by
  simp [State.port, startDeviceReset, State.emit]

/-- A binding is configuration: a device reset keeps it, taken or not (R30, R180). -/
theorem binding_deviceReset (s : State) (p : PortNumber) : ((deviceReset s).port p).binding = (s.port p).binding := by
  cases hr : s.ready with
  | true => simp [deviceReset, hr, port_startDeviceReset, Port.deviceReset]
  | false => simp [deviceReset, hr]

/-! ## Reads of the window while the device is READY (R177) -/

theorem readValue_of_ready {s : State} {offset : BitVec 12} {r : Register} (hr : s.ready = true)
    (ha : registerAt offset = some r) : readValue offset 0xF#4 s = registerValue s r := by
  obtain ⟨hl, hd⟩ : s.resetnLow = false ∧ s.device = .ready := by simpa [State.ready] using hr
  simp [readValue, ha, hl, hd, malformedAccess]

theorem registerAt_portBinding : ∀ p : PortNumber,
    registerAt (BitVec.ofNat 12 (0x060 + 4 * p.val)) = some (.portBinding p) := by
  decide

theorem registerAt_contextFrame : ∀ c : ContextNumber,
    registerAt (BitVec.ofNat 12 (0x100 + 8 * c.val)) = some (.contextFrame c) := by
  decide

theorem registerAt_contextControl : ∀ c : ContextNumber,
    registerAt (BitVec.ofNat 12 (0x104 + 8 * c.val)) = some (.contextControl c) := by
  decide

/-- A binding fits its window word (R185). -/
theorem toNat_registerValue_portBinding (s : State) (p : PortNumber) :
    (registerValue s (.portBinding p)).toNat = (s.port p).binding.val := by
  have := (s.port p).binding.isLt
  simp only [registerValue, fieldAt, BitVec.toNat_ofNat]
  omega

/-- Settles O9: each clause is one rule of the binding word, its resets or its read. -/
theorem portBinding : Obligations.PortBinding := by
  intro p value s
  refine ⟨fun hr hc => ?closed, fun hr hc => ?notClosed, fun hr => ?notReady, ?powerOn, ?reset, fun hr => ?read⟩
  case closed =>
    rw [exec_portBindingWrite, writeBinding_of_closed value (s := s.beginEvent) hr hc, State.setPort_beginEvent, bindingField_eq]
    rfl
  case notClosed =>
    rw [exec_portBindingWrite, writeBinding_of_not_closed value (s := s.beginEvent) hr hc, raise_programError_beginEvent]
  case notReady =>
    rw [exec_portBindingWrite, writeBinding_of_not_ready p value (s := s.beginEvent) hr]
    rfl
  case powerOn =>
    rintro _ ⟨⟩
    rw [port_powerOnReset]
    rfl
  case reset =>
    rintro _ ⟨⟩
    exact binding_deviceReset s.beginEvent p
  case read =>
    rw [readValue_of_ready hr (registerAt_portBinding p), toNat_registerValue_portBinding]

/-! ## Context words (R19) -/

theorem writeContextFrame_of_off {c : ContextNumber} {s : State} (value : Word) (hr : s.ready = true)
    (hc : (s.context c).state = .off) :
    writeContext c .frame value s = s.setContext c { s.context c with directoryFrame := frameField value } := by
  simp [writeContext, writeContextFrame, hr, hc]

theorem writeContextControl_of_off {c : ContextNumber} {s : State} (value : Word) (hr : s.ready = true)
    (hc : (s.context c).state = .off) :
    writeContext c .control value s = s.setContext c
      { s.context c with
        limit := limitField value
        policy := if policyField value then .stall else .abort
        writesPermitted := writesField value
        recordFlags := recordField value } := by
  simp [writeContext, writeContextControl, hr, hc]

theorem writeContext_of_not_off {c : ContextNumber} {s : State} (word : ContextWord) (value : Word) (hr : s.ready = true)
    (hc : (s.context c).state ≠ .off) : writeContext c word value s = s.raise .programError := by
  cases word with
  | frame => simp [writeContext, writeContextFrame, hr, hc]
  | control => simp [writeContext, writeContextControl, hr, hc]

theorem writeContext_of_not_ready {s : State} (c : ContextNumber) (word : ContextWord) (value : Word) (hr : s.ready = false) :
    writeContext c word value s = s := by
  cases word with
  | frame => simp [writeContext, writeContextFrame, hr]
  | control => simp [writeContext, writeContextControl, hr]

/-! ## The bits of a window word built from fields (R185) -/

theorem getLsbD_fieldAt (n v i : Nat) :
    (fieldAt n v).getLsbD i = (decide (i < 32) && (decide (n ≤ i) && v.testBit (i - n))) := by
  simp [fieldAt, BitVec.getLsbD_ofNat, Nat.testBit_mul_two_pow]

theorem getLsbD_bitAt {n : Nat} (hn : n < 32) (b : Bool) (i : Nat) : (bitAt n b).getLsbD i = (decide (i = n) && b) := by
  cases b with
  | false => simp [bitAt]
  | true =>
    have hw : bitAt n true = BitVec.twoPow 32 n := (BitVec.twoPow_eq 32 n).symm
    simp [hw, BitVec.getLsbD_twoPow, hn, eq_comm]

/-- The policy field is one bit: 1 for STALL (R185). -/
theorem testBit_policyCode (p : Policy) (i : Nat) : p.code.testBit i = (decide (i = 0) && decide (p = .stall)) := by
  cases p with
  | abort => simp [Policy.code]
  | stall =>
    rw [Bool.eq_iff_iff]
    simp [Policy.code, Nat.testBit_one_eq_true_iff_self_eq_zero]

/-- Bit `i` of a context control word, field by field (R185). -/
theorem getLsbD_contextControlWord (c : ContextRecord) {i : Nat} (hi : i < 32) :
    (contextControlWord c).getLsbD i =
      (c.limit.getLsbD i || (decide (i = 16) && decide (c.policy = .stall)) || (decide (i = 17) && c.writesPermitted) ||
        (decide (i = 18) && c.recordFlags) || (decide (24 ≤ i) && c.state.code.testBit (i - 24))) := by
  have h16 : (decide (16 ≤ i) && decide (i - 16 = 0)) = decide (i = 16) := by
    rw [← Bool.decide_and, decide_eq_decide]
    omega
  simp only [contextControlWord, BitVec.getLsbD_or, getLsbD_fieldAt, testBit_policyCode, BitVec.testBit_toNat,
    getLsbD_bitAt (by decide : 17 < 32), getLsbD_bitAt (by decide : 18 < 32), hi, ← Bool.and_assoc, h16,
    decide_true, Bool.true_and, Nat.zero_le, Nat.sub_zero]

/-! ## The fields of the two context words -/

theorem directoryFrame_contextFrame (s : State) (c : ContextNumber) :
    (registerValue s (.contextFrame c)).extractLsb' 0 24 = (s.context c).directoryFrame := by
  apply BitVec.eq_of_getLsbD_eq
  intro i hi
  have h32 : i < 32 := by omega
  simp [registerValue, hi, h32]

theorem limit_contextControlWord (c : ContextRecord) : (contextControlWord c).extractLsb' 0 11 = c.limit := by
  apply BitVec.eq_of_getLsbD_eq
  intro i hi
  have h16 : i ≠ 16 := by omega
  have h17 : i ≠ 17 := by omega
  have h18 : i ≠ 18 := by omega
  have h24 : ¬ 24 ≤ i := by omega
  rw [BitVec.getLsbD_extractLsb', Nat.zero_add, getLsbD_contextControlWord c (by omega : i < 32)]
  simp [hi, h16, h17, h18, h24]

theorem policy_contextControlWord (c : ContextRecord) : (contextControlWord c).getLsbD 16 = true ↔ c.policy = .stall := by
  rw [getLsbD_contextControlWord c (by decide)]
  simp [BitVec.getLsbD_of_ge]

theorem writesPermitted_contextControlWord (c : ContextRecord) : (contextControlWord c).getLsbD 17 = c.writesPermitted := by
  rw [getLsbD_contextControlWord c (by decide)]
  simp [BitVec.getLsbD_of_ge]

theorem recordFlags_contextControlWord (c : ContextRecord) : (contextControlWord c).getLsbD 18 = c.recordFlags := by
  rw [getLsbD_contextControlWord c (by decide)]
  simp [BitVec.getLsbD_of_ge]

theorem state_contextControlWord (c : ContextRecord) :
    (contextControlWord c).extractLsb' 24 2 = BitVec.ofNat 2 c.state.code := by
  apply BitVec.eq_of_getLsbD_eq
  intro i hi
  have h16 : 24 + i ≠ 16 := by omega
  have h17 : 24 + i ≠ 17 := by omega
  have h18 : 24 + i ≠ 18 := by omega
  have hlimit : c.limit.getLsbD (24 + i) = false := BitVec.getLsbD_of_ge _ _ (by omega)
  rw [BitVec.getLsbD_extractLsb', getLsbD_contextControlWord c (by omega : 24 + i < 32), BitVec.getLsbD_ofNat]
  simp [hi, h16, h17, h18, hlimit]

/-- The state codes of R185 tell the context states apart in two bits. -/
theorem ofNat_contextStateCode_inj (a b : ContextState) : BitVec.ofNat 2 a.code = BitVec.ofNat 2 b.code ↔ a = b := by
  cases a <;> cases b <;> decide

/-- Settles O43: each clause is one rule of the two context words. -/
theorem contextFields : Obligations.ContextFields := by
  intro s c word value
  refine ⟨fun hr hc => ⟨?frame, ?control⟩, fun hr hc => ?notOff, fun hr => ?notReady, fun hr => ?read⟩
  case frame =>
    rw [exec_contextWrite, writeContextFrame_of_off value (s := s.beginEvent) hr hc, State.setContext_beginEvent]
    rfl
  case control =>
    rw [exec_contextWrite, writeContextControl_of_off value (s := s.beginEvent) hr hc, State.setContext_beginEvent]
    rfl
  case notOff =>
    rw [exec_contextWrite, writeContext_of_not_off word value (s := s.beginEvent) hr hc, raise_programError_beginEvent]
  case notReady =>
    rw [exec_contextWrite, writeContext_of_not_ready c word value (s := s.beginEvent) hr]
    rfl
  case read =>
    have hstate (a : ContextState) :
        (contextControlWord (s.context c)).extractLsb' 24 2 = BitVec.ofNat 2 a.code ↔ (s.context c).state = a := by
      rw [state_contextControlWord, ofNat_contextStateCode_inj]
    rw [readValue_of_ready hr (registerAt_contextFrame c), readValue_of_ready hr (registerAt_contextControl c)]
    exact ⟨directoryFrame_contextFrame s c, limit_contextControlWord _, policy_contextControlWord _, writesPermitted_contextControlWord _,
      recordFlags_contextControlWord _, hstate .off, hstate .active, hstate .draining⟩

end Sys2Proof.Machine
end

section
/-! PROOFS of the family "client ports" (R37 to R40): what OPEN and CLOSE do by the port's state, and what a host write of a port-control
word does. -/

namespace Sys2Proof.Machine

/-! ## A host write that reaches its word (R177) -/

theorem hostWrite_of_assigned {offset : BitVec 12} {r : Register} (value : Word) (s : State)
    (ha : registerAt offset = some r) : hostWrite offset 0xF#4 value s = writeRegister r value s := by
  simp [hostWrite, ha, malformedAccess]

theorem registerAt_portControl : ∀ p : PortNumber,
    registerAt (BitVec.ofNat 12 (0x040 + 4 * p.val)) = some (.portControl p) := by
  decide

/-- A REGISTER_WRITE of a port's control word is the port-control write of R40. -/
theorem exec_registerWrite_portControl (p : PortNumber) (value : Word) (s : State) :
    exec (.registerWrite (BitVec.ofNat 12 (0x040 + 4 * p.val)) 0xF#4 value) s =
      .next (writePortControl p value s.beginEvent) :=
  congrArg Host.Outcome.next (hostWrite_of_assigned value s.beginEvent (registerAt_portControl p))

/-! ## OPEN and CLOSE by the port's state (R37, R38, R40) -/

theorem openPort_of_closed {p : PortNumber} {s : State} (hr : s.ready = true) (hc : (s.port p).state = .closed) :
    openPort p s = s.setPort p { s.port p with state := .open_ } := by
  simp [openPort, hr, hc]

theorem openPort_of_not_closed {p : PortNumber} {s : State} (hr : s.ready = true) (hc : (s.port p).state ≠ .closed) :
    openPort p s = s.raise .programError := by
  simp [openPort, hr, hc]

theorem openPort_of_not_ready {s : State} (p : PortNumber) (hr : s.ready = false) : openPort p s = s := by
  simp [openPort, hr]

/-- The end of the drain is tested in the CLOSE write itself (R38, R39). -/
theorem closeIfEmpty_closing (v : Port) :
    Port.closeIfEmpty { v with state := .closing } = { v with state := if v.isEmpty then .closed else .closing } := by
  have he : Port.isEmpty { v with state := .closing } = v.isEmpty := rfl
  cases hv : v.isEmpty <;> simp [Port.closeIfEmpty, he, hv]

theorem closePort_of_open {p : PortNumber} {s : State} (hr : s.ready = true) (ho : (s.port p).state = .open_) :
    closePort p s = s.setPort p { s.port p with state := if (s.port p).isEmpty then .closed else .closing } := by
  simp [closePort, hr, ho, closeIfEmpty_closing]

theorem closePort_of_not_open {p : PortNumber} {s : State} (hr : s.ready = true) (ho : (s.port p).state ≠ .open_) :
    closePort p s = s.raise .programError := by
  simp [closePort, hr, ho]

theorem closePort_of_not_ready {s : State} (p : PortNumber) (hr : s.ready = false) : closePort p s = s := by
  simp [closePort, hr]

/-! ## The request a port-control word names (R40, R185) -/

theorem writePortControl_of_open {value : Word} (p : PortNumber) (s : State) (ho : portControlOpen value = true)
    (hc : portControlClose value = false) : writePortControl p value s = openPort p s := by
  simp [writePortControl, ho, hc]

theorem writePortControl_of_close {value : Word} (p : PortNumber) (s : State) (ho : portControlOpen value = false)
    (hc : portControlClose value = true) : writePortControl p value s = closePort p s := by
  simp [writePortControl, ho, hc]

/-- A word that names both requests, or neither, names none. -/
theorem writePortControl_of_both_or_neither {value : Word} (p : PortNumber) (s : State)
    (h : portControlOpen value = portControlClose value) :
    writePortControl p value s = if s.ready then s.raise .programError else s := by
  cases hc : portControlClose value <;> simp [writePortControl, h, hc]

/-- The three ways a port-control word reads: OPEN, CLOSE, or neither request. -/
theorem portControl_cases (value : Word) :
    (portControlOpen value = true ∧ portControlClose value = false) ∨
      (portControlOpen value = false ∧ portControlClose value = true) ∨
      portControlOpen value = portControlClose value := by
  cases portControlOpen value <;> cases portControlClose value <;> simp

theorem writePortControl_of_not_ready {s : State} (p : PortNumber) (value : Word) (hr : s.ready = false) :
    writePortControl p value s = s := by
  obtain ⟨ho, hc⟩ | ⟨ho, hc⟩ | hsame := portControl_cases value
  · rw [writePortControl_of_open p s ho hc, openPort_of_not_ready p hr]
  · rw [writePortControl_of_close p s ho hc, closePort_of_not_ready p hr]
  · simp [writePortControl_of_both_or_neither p s hsame, hr]

/-- Every port-control write that the table of R40 does not take sets PROGRAM_ERROR and changes nothing else. -/
theorem writePortControl_of_not_taken {p : PortNumber} {value : Word} {s : State} (hr : s.ready = true)
    (h : portControlOpen value = portControlClose value ∨
      (portControlOpen value = true ∧ (s.port p).state ≠ .closed) ∨
      (portControlClose value = true ∧ (s.port p).state ≠ .open_)) :
    writePortControl p value s = s.raise .programError := by
  obtain ⟨ho, hc⟩ | ⟨ho, hc⟩ | hsame := portControl_cases value
  · have hstate : (s.port p).state ≠ .closed := by simpa [ho, hc] using h
    rw [writePortControl_of_open p s ho hc, openPort_of_not_closed hr hstate]
  · have hstate : (s.port p).state ≠ .open_ := by simpa [ho, hc] using h
    rw [writePortControl_of_close p s ho hc, closePort_of_not_open hr hstate]
  · simp [writePortControl_of_both_or_neither p s hsame, hr]

/-- Settles O7: each clause is one row of R40's table, or the write that no row takes. -/
theorem portControlWrite : Obligations.PortControlWrite := by
  intro p value s
  refine ⟨fun hr => ?notReady, fun hr ho hc hstate => ?opened, fun hr ho hc hstate => ?closed, fun hr h => ?ignored⟩
  case notReady =>
    rw [exec_registerWrite_portControl, writePortControl_of_not_ready (s := s.beginEvent) p value hr]
    rfl
  case opened =>
    rw [exec_registerWrite_portControl, writePortControl_of_open p s.beginEvent ho hc,
      openPort_of_closed (s := s.beginEvent) hr hstate, State.setPort_beginEvent]
    rfl
  case closed =>
    rw [exec_registerWrite_portControl, writePortControl_of_close p s.beginEvent ho hc,
      closePort_of_open (s := s.beginEvent) hr hstate, State.setPort_beginEvent]
    rfl
  case ignored =>
    rw [exec_registerWrite_portControl, writePortControl_of_not_taken (s := s.beginEvent) hr h, raise_programError_beginEvent]

end Sys2Proof.Machine
end

section
/-! PROOFS of the family "the region map" (R111, R112, R114): when a host write of a region entry is taken, which entry gives the kind of
an address, and what each kind admits. -/

namespace Sys2Proof.Machine

/-! ## The fields of a region entry word (R185) -/

theorem toNat_endField (w : Word) : (endField w).toNat = w.toNat % 8192 := by
  simp [endField]

/-- The kind codes of R185 name one kind each. -/
theorem regionKindOf_code (k : RegionKind) : regionKindOf (BitVec.ofNat 2 k.code) = k := by
  cases k <;> rfl

/-! ## The write of a region entry (R114) -/

/-- The `exec` arm of REGION_ENTRY_WRITE. -/
theorem exec_regionEntryWrite (i : Fin 8) (value : Word) (s : State) :
    exec (.regionEntryWrite i value) s = .next (writeRegion i value s.beginEvent) :=
  rfl

theorem State.allOff_iff (s : State) : s.allOff = true ↔ ∀ c, (s.context c).state = .off := by
  simp [State.allOff, State.context, Fin.forall_iff]

/-- A region entry written in an event that hands nothing outside. -/
theorem State.setRegion_beginEvent (i : Fin 8) (v : RegionEntry) (s : State) :
    s.beginEvent.setRegion i v = { s.setRegion i v with emitted := [] } := rfl

theorem writeRegion_of_taken {s : State} (i : Fin 8) {value : Word} (hr : s.ready = true)
    (hoff : ∀ c, (s.context c).state = .off) (hend : value.toNat % 8192 ≤ 4096) :
    writeRegion i value s = s.setRegion i { endUnit := endField value, kind := regionKindOf (kindField value) } := by
  have htaken : s.allOff = true ∧ (endField value).toNat ≤ Config.regionEndMax :=
    ⟨s.allOff_iff.2 hoff, by rwa [toNat_endField]⟩
  rw [writeRegion, if_pos hr, if_pos htaken]

theorem writeRegion_of_refused {s : State} (i : Fin 8) {value : Word} (hr : s.ready = true)
    (h : (∃ c, (s.context c).state ≠ .off) ∨ 4096 < value.toNat % 8192) :
    writeRegion i value s = s.raise .programError := by
  have hnot : ¬ (s.allOff = true ∧ (endField value).toNat ≤ Config.regionEndMax) := by
    rintro ⟨hoff, hend⟩
    rw [toNat_endField] at hend
    obtain ⟨c, hc⟩ | hlarge := h
    · exact hc (s.allOff_iff.1 hoff c)
    · exact Nat.not_lt.2 hend hlarge
  rw [writeRegion, if_pos hr, if_neg hnot]

theorem writeRegion_of_not_ready {s : State} (i : Fin 8) (value : Word) (hr : s.ready = false) :
    writeRegion i value s = s := by
  simp [writeRegion, hr]

/-- Settles O44: the write is taken, refused, or made while the device is not READY. -/
theorem regionEntryWrite : Obligations.RegionEntryWrite := by
  intro s i value kind hbits
  have hkind : regionKindOf (kindField value) = kind := by
    have hcode : kindField value = BitVec.ofNat 2 kind.code := by
      obtain ⟨hk, rfl⟩ | ⟨hk, rfl⟩ | ⟨hk, rfl⟩ | ⟨hk, rfl⟩ := hbits <;> exact hk
    rw [hcode, regionKindOf_code]
  refine ⟨fun hr hoff hend => ?taken, fun hr h => ?refused, fun hr => ?notReady⟩
  case taken =>
    rw [exec_regionEntryWrite, writeRegion_of_taken (s := s.beginEvent) i hr hoff hend, State.setRegion_beginEvent, hkind]
    rfl
  case refused =>
    rw [exec_regionEntryWrite, writeRegion_of_refused (s := s.beginEvent) i hr h, raise_programError_beginEvent]
  case notReady =>
    rw [exec_regionEntryWrite, writeRegion_of_not_ready (s := s.beginEvent) i value hr]
    rfl

/-! ## The lookup of an address (R111) -/

/-- The first entry in index order whose end is above the unit gives the kind. -/
theorem State.regionOf_of_first {s : State} {a : PhysAddr} {i : Fin 8} (hi : unitOf a < (s.region i).endUnit.toNat)
    (hfirst : ∀ j : Fin 8, j < i → (s.region j).endUnit.toNat ≤ unitOf a) : s.regionOf a = (s.region i).kind := by
  have hfind : s.regions.toList.find? (fun r => decide (unitOf a < r.endUnit.toNat)) = some (s.region i) := by
    rw [List.find?_eq_some_iff_getElem]
    refine ⟨decide_eq_true hi, i.val, by simp, by simp [State.region], fun j hj => ?_⟩
    have hbefore : s.regions[j].endUnit.toNat ≤ unitOf a := hfirst ⟨j, hj.trans i.isLt⟩ hj
    simpa using hbefore
  rw [State.regionOf, regionLookup, hfind]

/-- An address whose unit no entry's end is above lies in no region. -/
theorem State.regionOf_of_none {s : State} {a : PhysAddr} (h : ∀ i : Fin 8, (s.region i).endUnit.toNat ≤ unitOf a) :
    s.regionOf a = .absent := by
  have hfind : s.regions.toList.find? (fun r => decide (unitOf a < r.endUnit.toNat)) = none := by
    rw [List.find?_eq_none]
    intro r hr
    obtain ⟨i, hi, rfl⟩ := Vector.getElem_of_mem (Vector.mem_toList_iff.1 hr)
    have hbelow : s.regions[i].endUnit.toNat ≤ unitOf a := h ⟨i, hi⟩
    simpa using hbelow
  rw [State.regionOf, regionLookup, hfind]

/-! ## What each kind admits (R112) -/

theorem admitsClient_read_iff (kind : RegionKind) :
    admitsClient kind .read = true ↔ kind = .open_ ∨ kind = .readOnly := by
  cases kind <;> simp [admitsClient]

theorem admitsClient_write_iff (kind : RegionKind) : admitsClient kind .write = true ↔ kind = .open_ := by
  cases kind <;> simp [admitsClient]

theorem admitsTable_read_iff (kind : RegionKind) (n : Nat) :
    admitsTable kind (.read n) = true ↔ kind = .open_ ∨ kind = .readOnly ∨ kind = .tables := by
  cases kind <;> simp [admitsTable]

theorem admitsTable_update_iff (kind : RegionKind) (m : Bool) :
    admitsTable kind (.update m) = true ↔ kind = .open_ ∨ kind = .tables := by
  cases kind <;> simp [admitsTable]

/-- Settles O45: the first entry above the unit, or none, and the four columns of R112. (In a namespace of its own: `regionLookup` is the
model's lookup.) -/
theorem RegionMap.regionLookup : Obligations.RegionLookup := by
  refine ⟨fun s a => ⟨fun i hi hfirst => ?first, fun hnone => ?none⟩, fun kind n m => ?admits⟩
  case first => exact State.regionOf_of_first hi hfirst
  case none => exact State.regionOf_of_none hnone
  case admits =>
    exact ⟨admitsClient_read_iff kind, admitsClient_write_iff kind, admitsTable_read_iff kind n, admitsTable_update_iff kind m⟩

end Sys2Proof.Machine
end

section
/-! PROOFS of the family "faults and parked requests" (R127): what a pop of the fault log removes, and when it is ignored. -/

namespace Sys2Proof.Machine

/-! ## The pop of the fault log (R127) -/

/-- The `exec` arm of FAULT_LOG_POP: the value of the write is not read (R184). -/
theorem exec_faultLogPop (value : Word) (s : State) : exec (.faultLogPop value) s = .next (popFaultLog s.beginEvent) :=
  rfl

theorem popFaultLog_of_cons {s : State} {record : FaultRecord} {rest : List FaultRecord} (hr : s.ready = true)
    (hlog : s.faultLog = record :: rest) : popFaultLog s = { s with faultLog := rest } := by
  simp [popFaultLog, hr, hlog]

theorem popFaultLog_of_nil {s : State} (hr : s.ready = true) (hlog : s.faultLog = []) :
    popFaultLog s = s.raise .programError := by
  simp [popFaultLog, hr, hlog]

theorem popFaultLog_of_not_ready {s : State} (hr : s.ready = false) : popFaultLog s = s := by
  simp [popFaultLog, hr]

/-- Settles O47: the pop of a log with an oldest record, of an empty log, and while the device is not READY. -/
theorem faultLogPop : Obligations.FaultLogPop := by
  intro s value
  refine ⟨fun record rest hr hlog => ?popped, fun hr hlog => ?empty, fun hr => ?notReady⟩
  case popped =>
    rw [exec_faultLogPop, popFaultLog_of_cons (s := s.beginEvent) hr hlog]
    rfl
  case empty =>
    rw [exec_faultLogPop, popFaultLog_of_nil (s := s.beginEvent) hr hlog, raise_programError_beginEvent]
  case notReady =>
    rw [exec_faultLogPop, popFaultLog_of_not_ready (s := s.beginEvent) hr]
    rfl

end Sys2Proof.Machine
end

section
/-! PROOFS of the family "the command queue" (R140, R141): the operand word, and what a submit write does to the queue. -/

namespace Sys2Proof.Machine

/-! ## The operand word and the submit write (R140, R141) -/

theorem registerAt_operandWord : registerAt 0x200#12 = some .operandWord := by decide

theorem registerAt_submitWord : registerAt 0x204#12 = some .submitWord := by decide

/-- A REGISTER_WRITE of the operand word is the write of R140. -/
theorem exec_registerWrite_operandWord (value : Word) (s : State) :
    exec (.registerWrite 0x200#12 0xF#4 value) s = .next (writeOperand value s.beginEvent) :=
  congrArg Host.Outcome.next (hostWrite_of_assigned value s.beginEvent registerAt_operandWord)

/-- A REGISTER_WRITE of the submit word is the submission of R141. -/
theorem exec_registerWrite_submitWord (value : Word) (s : State) :
    exec (.registerWrite 0x204#12 0xF#4 value) s = .next (submit (submitCode value) s.beginEvent) :=
  congrArg Host.Outcome.next (hostWrite_of_assigned value s.beginEvent registerAt_submitWord)

/-- The code is bits 7..0 of the word written (R186). -/
theorem submitCode_eq (w : Word) : submitCode w = BitVec.ofNat 8 w.toNat := by
  simp [submitCode, BitVec.extractLsb']

theorem writeOperand_of_ready {s : State} (value : Word) (hr : s.ready = true) :
    writeOperand value s = { s with operandWord := value } := by
  simp [writeOperand, hr]

theorem writeOperand_of_not_ready {s : State} (value : Word) (hr : s.ready = false) : writeOperand value s = s := by
  simp [writeOperand, hr]

/-- The command that a submit write admits: the code written, a copy of the operand word, the taken count as its number (R141). -/
def State.nextCommand (s : State) (code : BitVec 8) : Command :=
  { number := s.takenCount, code := code, operand := s.operandWord, taken := false }

theorem submit_of_room {s : State} (code : BitVec 8) (hr : s.ready = true) (hl : s.commands.length < 8) :
    submit code s = { s with commands := s.commands ++ [s.nextCommand code], takenCount := s.takenCount + 1#16 } := by
  rw [submit, if_pos hr, if_pos (show s.commands.length < Config.commandQueueDepth from hl), State.nextCommand]

theorem submit_of_full {s : State} (code : BitVec 8) (hr : s.ready = true) (hl : 8 ≤ s.commands.length) :
    submit code s = s.raise .commandRefused := by
  rw [submit, if_pos hr, if_neg (show ¬ s.commands.length < Config.commandQueueDepth from Nat.not_lt.2 hl)]

theorem submit_of_not_ready {s : State} (code : BitVec 8) (hr : s.ready = false) : submit code s = s := by
  simp [submit, hr]

/-- A submit write that is admitted, as a whole event. -/
theorem exec_submitWrite_of_room {s : State} (value : Word) (hr : s.ready = true) (hl : s.commands.length < 8) :
    exec (.registerWrite 0x204#12 0xF#4 value) s = .next
      { s with
        commands := s.commands ++ [s.nextCommand (BitVec.ofNat 8 value.toNat)]
        takenCount := s.takenCount + 1#16
        emitted := [] } := by
  rw [exec_registerWrite_submitWord, submit_of_room (s := s.beginEvent) _ hr hl, submitCode_eq]
  rfl

/-- Settles O33: the submit write is admitted, makes an IDLE unit EXECUTING, is refused, or is ignored. -/
theorem submitWrite : Obligations.SubmitWrite := by
  intro s value
  refine ⟨fun hr hl => ?admitted, fun hr hc t ht => ?executing, fun hr hl => ?refused, fun hr => ?notReady⟩
  case admitted => exact exec_submitWrite_of_room value hr hl
  case executing =>
    rw [exec_submitWrite_of_room value hr (by simp [hc])] at ht
    cases ht
    simp [State.unitState, hc, State.nextCommand]
  case refused =>
    rw [exec_registerWrite_submitWord, submit_of_full (s := s.beginEvent) _ hr hl]
    rfl
  case notReady =>
    rw [exec_registerWrite_submitWord, submit_of_not_ready (s := s.beginEvent) _ hr]
    rfl

/-! ## The command unit's words after the resets (R140, R143, R179, R180) -/

theorem exec_powerOnReset (s : State) : exec .powerOnReset s = .next (powerOnReset s.beginEvent) := rfl

theorem exec_deviceReset_of_ready {s : State} (hr : s.ready = true) :
    exec .deviceReset s = .next (startDeviceReset s.beginEvent) :=
  congrArg Host.Outcome.next (if_pos (show s.beginEvent.ready = true from hr))

/-- Settles O48: the write of the operand word, its read, its copy at a submit write, and its resets. -/
theorem operandWord : Obligations.OperandWord := by
  intro s value
  refine ⟨fun hr => ?written, fun hr => ?notReady, fun hr => ?read, fun t hr hl ht => ?copied, fun t ht => ?powerOn, fun t hr ht => ?reset⟩
  case written =>
    rw [exec_registerWrite_operandWord, writeOperand_of_ready (s := s.beginEvent) value hr]
    rfl
  case notReady =>
    rw [exec_registerWrite_operandWord, writeOperand_of_not_ready (s := s.beginEvent) value hr]
    rfl
  case read => exact readValue_of_ready hr registerAt_operandWord
  case copied =>
    rw [exec_submitWrite_of_room value hr hl] at ht
    cases ht
    exact ⟨rfl, _, rfl, rfl⟩
  case powerOn =>
    rw [exec_powerOnReset] at ht
    cases ht
    rfl
  case reset =>
    rw [exec_deviceReset_of_ready hr] at ht
    cases ht
    rfl

end Sys2Proof.Machine
end

section
/-! PROOFS of the family "the command queue" (R143 to R146): the checks of a take, the errors they give, and what a take leaves of the error words and of
the commands behind it. -/

namespace Sys2Proof.Machine

/-! ## The fields of an operand word (R144, R186) -/

theorem toNat_operandContext (w : Word) : (operandContext w).toNat = w.toNat / 16777216 := by
  simp only [operandContext, BitVec.extractLsb'_toNat, Nat.shiftRight_eq_div_pow]
  omega

theorem toNat_operandPort (w : Word) : (operandPort w).toNat = w.toNat / 1048576 % 8 := by
  simp [operandPort, BitVec.extractLsb'_toNat, Nat.shiftRight_eq_div_pow]

theorem toNat_operandPage (w : Word) : (operandPage w).toNat = w.toNat % 1048576 := by
  simp [operandPage, BitVec.extractLsb'_toNat]

theorem operandClass_eq_urgent_iff (w : Word) : operandClass w = .urgent ↔ w.getLsbD 23 = true := by
  cases h : w.getLsbD 23 <;> simp only [operandClass, h] <;> decide

theorem legalContext_eq_none_iff (w : Word) : legalContext w = none ↔ 16 ≤ w.toNat / 16777216 := by
  simp [legalContext, toNat_operandContext]

theorem legalContext_eq_some_iff (w : Word) (c : ContextNumber) : legalContext w = some c ↔ operandNames w c := by
  refine ⟨fun h => ?_, legalContext_of_names⟩
  unfold legalContext at h
  split at h
  · cases h
    exact (toNat_operandContext w).symm
  · cases h

theorem legalDirectory_eq_none_iff (w : Word) : legalDirectory w = none ↔ 1024 ≤ w.toNat % 1048576 := by
  simp [legalDirectory, toNat_operandPage]

theorem legalPort_eq_none_iff (w : Word) : legalPort w = none ↔ 4 ≤ w.toNat / 1048576 % 8 := by
  simp [legalPort, toNat_operandPort]

theorem legalPort_eq_some_iff (w : Word) (p : PortNumber) : legalPort w = some p ↔ w.toNat / 1048576 % 8 = p.val := by
  rw [← toNat_operandPort]
  unfold legalPort
  split
  · simp [Fin.ext_iff]
  · simp; omega

/-- The queue that an operand word names is the legal port with the class bit (R144, R186). -/
theorem operandHead_iff (w : Word) (h : HeadId) : operandHead w h ↔ legalPort w = some h.port ∧ operandClass w = h.cls := by
  rw [operandHead, legalPort_eq_some_iff, ← operandClass_eq_urgent_iff]
  refine and_congr_right fun _ => ?_
  cases h.cls <;> cases operandClass w <;> simp

theorem State.headParked_iff (s : State) (h : HeadId) : s.headParked h = true ↔ s.ParkedHead h := by
  unfold State.headParked State.ParkedHead State.head?
  cases s.queue h <;> simp

theorem limitLegal_eq_false_iff (limit : BitVec 11) : limitLegal limit = false ↔ limit.toNat = 0 ∨ 1024 < limit.toNat := by
  simp [limitLegal, Config.limitMax]
  omega

/-! ## The codes (R186) -/

theorem commandOfCode_byte (k : CommandCode) : commandOfCode k.byte = some k := by
  cases k <;> rfl

theorem commandOfCode_eq_some_iff (code : BitVec 8) (k : CommandCode) : commandOfCode code = some k ↔ code = k.byte := by
  refine ⟨fun h => ?_, fun h => h ▸ commandOfCode_byte k⟩
  unfold commandOfCode at h
  split at h <;> cases h <;> exact BitVec.eq_of_toNat_eq ‹_›

theorem commandOfCode_eq_none_iff (code : BitVec 8) : commandOfCode code = none ↔
    code ∉ [0x01#8, 0x02#8, 0x03#8, 0x04#8, 0x08#8, 0x10#8, 0x11#8, 0x18#8, 0x19#8, 0x20#8, 0x28#8] := by
  revert code
  decide

/-! ## The checks of a take (R143 to R145) -/

/-- The four checks of R143 in their order: the error of the first that fails, or the command to apply. -/
def takeCheck (s : State) (code : BitVec 8) (w : Word) : Except ErrorCode CommandOp :=
  match decodeCommand code w with
  | .error error => .error error
  | .ok op =>
    match stateError s op with
    | some error => .error error
    | none => .ok op

section
variable {s : State} {code : BitVec 8} {w : Word} {error : ErrorCode} {op : CommandOp}

theorem takeCheck_eq_error_iff : takeCheck s code w = .error error ↔
    decodeCommand code w = .error error ∨ ∃ op, decodeCommand code w = .ok op ∧ stateError s op = some error := by
  unfold takeCheck
  cases decodeCommand code w with
  | error error' => simp
  | ok op => cases h : stateError s op <;> simp [h]

theorem takeCheck_eq_ok_iff : takeCheck s code w = .ok op ↔ decodeCommand code w = .ok op ∧ stateError s op = none := by
  unfold takeCheck
  cases decodeCommand code w with
  | error error' => simp
  | ok op' =>
    simp only [Except.ok.injEq]
    constructor
    · intro h
      split at h
      · cases h
      · cases h
        exact ⟨rfl, ‹_›⟩
    · rintro ⟨rfl, h⟩
      simp [h]

/-- The checks of a command whose one checked operand is a context. -/
theorem takeCheck_error_iff_of_context {f : ContextNumber → CommandOp} (hd : decodeCommand code w = withContext w f) :
    takeCheck s code w = .error error ↔
      (16 ≤ w.toNat / 16777216 ∧ error = .badOperand) ∨ ∃ c, operandNames w c ∧ stateError s (f c) = some error := by
  rw [takeCheck_eq_error_iff, hd, withContext, ← legalContext_eq_none_iff]
  simp only [← legalContext_eq_some_iff]
  cases legalContext w <;> simp [eq_comm]

/-- The checks of a command whose one checked operand is a port. -/
theorem takeCheck_error_iff_of_head {f : HeadId → CommandOp} (hd : decodeCommand code w = withHead w f) :
    takeCheck s code w = .error error ↔
      (4 ≤ w.toNat / 1048576 % 8 ∧ error = .badOperand) ∨ ∃ h, operandHead w h ∧ stateError s (f h) = some error := by
  rw [takeCheck_eq_error_iff, hd, withHead, ← legalPort_eq_none_iff]
  simp only [operandHead_iff]
  cases legalPort w with
  | none => simp [eq_comm]
  | some p =>
    simp only [reduceCtorEq, Except.ok.injEq, exists_eq_left', false_or, false_and, Option.some.injEq]
    refine ⟨fun h => ⟨_, ⟨rfl, rfl⟩, h⟩, ?_⟩
    rintro ⟨h, ⟨rfl, hc⟩, he⟩
    rwa [hc]

/-- INVALIDATE_DIRECTORY has two operands to check, and one error for both. -/
theorem takeCheck_invalidateDirectory_error_iff : takeCheck s 0x02#8 w = .error error ↔
    (1024 ≤ w.toNat % 1048576 ∨ 16 ≤ w.toNat / 16777216) ∧ error = .badOperand := by
  have hcode : commandOfCode 0x02#8 = some .invalidateDirectory := rfl
  cases hl : legalDirectory w with
  | none =>
    have hd : decodeCommand 0x02#8 w = .error .badOperand := by
      simp only [decodeCommand, hcode, hl]
    rw [takeCheck_eq_error_iff, hd]
    simp [(legalDirectory_eq_none_iff w).1 hl, eq_comm]
  | some d =>
    have hd : decodeCommand 0x02#8 w = withContext w fun c => .invalidate (.directory c d) := by
      simp only [decodeCommand, hcode, hl]
    have hpage : ¬ 1024 ≤ w.toNat % 1048576 := by
      rw [← legalDirectory_eq_none_iff, hl]
      simp
    rw [takeCheck_error_iff_of_context hd]
    simp [hpage, stateError]

/-! ### Checks 3 and 4 of each command (R145) -/

theorem stateError_enable_iff {c : ContextNumber} : stateError s (.enable c) = some error ↔
    ((s.context c).state ≠ .off ∧ error = .wrongState) ∨
      ((s.context c).state = .off ∧ ((s.context c).limit.toNat = 0 ∨ 1024 < (s.context c).limit.toNat) ∧ error = .badOperand) := by
  rw [← limitLegal_eq_false_iff, stateError]
  by_cases hc : (s.context c).state = .off
  · cases limitLegal (s.context c).limit <;> simp [hc, eq_comm]
  · simp [hc, eq_comm (a := error)]

theorem stateError_disable_iff {c : ContextNumber} : stateError s (.disable c) = some error ↔
    (s.context c).state ≠ .active ∧ error = .wrongState := by
  by_cases hc : (s.context c).state = .active <;> simp [stateError, hc, eq_comm]

theorem stateError_resume_iff {h : HeadId} : stateError s (.resume h) = some error ↔ ¬ s.ParkedHead h ∧ error = .nothingParked := by
  rw [← State.headParked_iff, stateError]
  cases s.headParked h <;> simp [eq_comm]

theorem stateError_terminate_iff {h : HeadId} :
    stateError s (.terminate h) = some error ↔ ¬ s.ParkedHead h ∧ error = .nothingParked :=
  stateError_resume_iff

theorem stateError_clearMemory_iff : stateError s .clearMemory = some error ↔ s.memState ≠ .failed ∧ error = .wrongState := by
  by_cases hm : s.memState = .failed <;> simp [stateError, hm, eq_comm]

theorem takeCheck_clearMemory_error_iff : takeCheck s 0x20#8 w = .error error ↔ s.memState ≠ .failed ∧ error = .wrongState := by
  have hd : decodeCommand 0x20#8 w = .ok .clearMemory := rfl
  rw [takeCheck_eq_error_iff, hd, ← stateError_clearMemory_iff]
  simp

/-! ### The checks are those of `CommandFails` -/

theorem takeCheck_of_fails (h : CommandFails s code w error) : takeCheck s code w = .error error := by
  cases h with
  | unknown hk =>
    rw [takeCheck, decodeCommand, (commandOfCode_eq_none_iff code).2 hk]
  | context hk hl =>
    simp only [List.mem_cons, List.not_mem_nil, or_false] at hk
    obtain rfl | rfl | rfl | rfl | rfl | rfl := hk
    case inr.inl => exact takeCheck_invalidateDirectory_error_iff.2 ⟨.inr hl, rfl⟩
    all_goals exact (takeCheck_error_iff_of_context rfl).2 (.inl ⟨hl, rfl⟩)
  | directory hk hl =>
    subst hk
    exact takeCheck_invalidateDirectory_error_iff.2 ⟨.inl hl, rfl⟩
  | port hk hl =>
    simp only [List.mem_cons, List.not_mem_nil, or_false] at hk
    obtain rfl | rfl := hk
    all_goals exact (takeCheck_error_iff_of_head rfl).2 (.inl ⟨hl, rfl⟩)
  | enableState c hk hn hs =>
    subst hk
    exact (takeCheck_error_iff_of_context rfl).2 (.inr ⟨c, hn, stateError_enable_iff.2 (.inl ⟨hs, rfl⟩)⟩)
  | enableLimit c hk hn hs hl =>
    subst hk
    exact (takeCheck_error_iff_of_context rfl).2 (.inr ⟨c, hn, stateError_enable_iff.2 (.inr ⟨hs, hl, rfl⟩)⟩)
  | disableState c hk hn hs =>
    subst hk
    exact (takeCheck_error_iff_of_context rfl).2 (.inr ⟨c, hn, stateError_disable_iff.2 ⟨hs, rfl⟩⟩)
  | nothingParked h hk hn hp =>
    simp only [List.mem_cons, List.not_mem_nil, or_false] at hk
    obtain rfl | rfl := hk
    · exact (takeCheck_error_iff_of_head rfl).2 (.inr ⟨h, hn, stateError_resume_iff.2 ⟨hp, rfl⟩⟩)
    · exact (takeCheck_error_iff_of_head rfl).2 (.inr ⟨h, hn, stateError_terminate_iff.2 ⟨hp, rfl⟩⟩)
  | clearState hk hm =>
    subst hk
    exact takeCheck_clearMemory_error_iff.2 ⟨hm, rfl⟩

theorem fails_of_takeCheck (h : takeCheck s code w = .error error) : CommandFails s code w error := by
  cases hk : commandOfCode code with
  | none =>
    rw [takeCheck, decodeCommand, hk] at h
    cases h
    exact .unknown ((commandOfCode_eq_none_iff code).1 hk)
  | some k =>
    obtain rfl := (commandOfCode_eq_some_iff code k).1 hk
    cases k with
    | invalidatePage | invalidateContext | probe =>
      obtain ⟨hl, rfl⟩ | ⟨c, -, he⟩ := (takeCheck_error_iff_of_context rfl).1 h
      · exact .context (by decide) hl
      · cases he
    | invalidateDirectory =>
      obtain ⟨hl | hl, rfl⟩ := takeCheck_invalidateDirectory_error_iff.1 h
      · exact .directory rfl hl
      · exact .context (by decide) hl
    | invalidateAll | sync => cases h
    | enableContext =>
      obtain ⟨hl, rfl⟩ | ⟨c, hn, he⟩ := (takeCheck_error_iff_of_context rfl).1 h
      · exact .context (by decide) hl
      · obtain ⟨hs, rfl⟩ | ⟨hs, hl, rfl⟩ := stateError_enable_iff.1 he
        · exact .enableState c rfl hn hs
        · exact .enableLimit c rfl hn hs hl
    | disableContext =>
      obtain ⟨hl, rfl⟩ | ⟨c, hn, he⟩ := (takeCheck_error_iff_of_context rfl).1 h
      · exact .context (by decide) hl
      · obtain ⟨hs, rfl⟩ := stateError_disable_iff.1 he
        exact .disableState c rfl hn hs
    | resume =>
      obtain ⟨hl, rfl⟩ | ⟨k, hn, he⟩ := (takeCheck_error_iff_of_head rfl).1 h
      · exact .port (by decide) hl
      · obtain ⟨hp, rfl⟩ := stateError_resume_iff.1 he
        exact .nothingParked k (by decide) hn hp
    | terminate =>
      obtain ⟨hl, rfl⟩ | ⟨k, hn, he⟩ := (takeCheck_error_iff_of_head rfl).1 h
      · exact .port (by decide) hl
      · obtain ⟨hp, rfl⟩ := stateError_terminate_iff.1 he
        exact .nothingParked k (by decide) hn hp
    | clearMemoryPort =>
      obtain ⟨hm, rfl⟩ := takeCheck_clearMemory_error_iff.1 h
      exact .clearState rfl hm

/-- The checks of a take give exactly the errors of R143 to R145. -/
theorem takeCheck_error_iff_fails : takeCheck s code w = .error error ↔ CommandFails s code w error :=
  ⟨fails_of_takeCheck, takeCheck_of_fails⟩

end

/-! ## What a take does, by its checks (R142, R143, R147) -/

section
variable {s : State} {c : Command} {rest : List Command}

/-- Checks 3 and 4 read nothing of the command queue. -/
theorem stateError_commands (op : CommandOp) (s : State) (l : List Command) :
    stateError { s with commands := l } op = stateError s op := by
  cases op <;> rfl

theorem takeCheck_beginEvent (s : State) (code : BitVec 8) (w : Word) : takeCheck s.beginEvent code w = takeCheck s code w := by
  have hstate (op : CommandOp) : stateError s.beginEvent op = stateError s op := by cases op <;> rfl
  unfold takeCheck
  simp only [hstate]

theorem takeCommand_of_error {error : ErrorCode} (hs : s.commands = c :: rest) (ht : c.taken = false)
    (he : takeCheck s c.code c.operand = .error error) :
    takeCommand s =
      { s with
        commands := rest, completedCount := s.completedCount + 1#16
        lastError := { code := error, number := c.number }
        irqStatus := s.irqStatus ||| 0x08#8 } := by
  unfold takeCommand
  obtain hd | ⟨op, hd, hop⟩ := takeCheck_eq_error_iff.1 he
  · simp only [hs, ht, hd]
    rfl
  · simp only [hs, ht, hd, stateError_commands, hop]
    rfl

theorem takeCommand_of_ok {op : CommandOp} (hs : s.commands = c :: rest) (ht : c.taken = false)
    (hok : takeCheck s c.code c.operand = .ok op) :
    takeCommand s = applyCommand op { s with commands := { c with taken := true } :: rest } := by
  obtain ⟨hd, hop⟩ := takeCheck_eq_ok_iff.1 hok
  unfold takeCommand
  simp only [hs, ht, hd, stateError_commands, hop]
  rfl

/-- An IDLE or WAITING unit takes nothing (R142). -/
theorem takeCommand_of_not_executing (h : s.commands = [] ∨ ∃ c rest, s.commands = c :: rest ∧ c.taken = true) :
    takeCommand s = s := by
  unfold takeCommand
  obtain hs | ⟨c, rest, hs, ht⟩ := h
  · rw [hs]
  · simp only [hs, ht, if_true]

end

/-! ## Commands that pass leave the error words alone (R143) -/

/-- What a command in error changes besides the queue: the last-error word and the cause COMMAND_ERROR, bit 3 (section 12.4). -/
def State.errorWords (s : State) : LastError × Bool := (s.lastError, s.irqStatus.getLsbD 3)

theorem State.errorWords_of_outside {s t : State} (h : t.outside = s.outside) : t.errorWords = s.errorWords := by
  have hmask : t.irqStatus &&& 0xFC#8 = s.irqStatus &&& 0xFC#8 := congrArg State.irqStatus h
  have hbit : t.irqStatus.getLsbD 3 = s.irqStatus.getLsbD 3 := by
    simpa using congrArg (fun x => x.getLsbD 3) hmask
  rw [State.errorWords, State.errorWords, State.outside_lastError h, hbit]

@[simp] theorem State.errorWords_raise_syncDone (s : State) : (s.raise .syncDone).errorWords = s.errorWords := by
  simp [State.errorWords, State.raise, IrqCause.mask, IrqCause.bit]

@[simp] theorem State.errorWords_completeCommand (s : State) : s.completeCommand.errorWords = s.errorWords := rfl

theorem errorWords_settleSync (s : State) : (settleSync s).errorWords = s.errorWords := by
  unfold settleSync
  split
  · split
    · rw [State.errorWords_completeCommand, State.errorWords_raise_syncDone]
      rfl
    · rfl
  · rfl

theorem errorWords_settleContext (c : ContextNumber) (s : State) : (settleContext c s).errorWords = s.errorWords := by
  unfold settleContext
  dsimp only
  split
  · split <;> rfl
  · rfl

theorem errorWords_settle (s : State) : (settle s).errorWords = s.errorWords := by
  have hcontexts (l : List ContextNumber) (t : State) : (l.foldl (fun t c => settleContext c t) t).errorWords = t.errorWords := by
    induction l generalizing t with
    | nil => rfl
    | cons c l ih => rw [List.foldl_cons, ih, errorWords_settleContext]
  rw [settle, errorWords_settleSync, hcontexts]

theorem errorWords_disableContext (c : ContextNumber) (s : State) : (disableContext c s).errorWords = s.errorWords := by
  obtain ⟨slots, order, parked, h⟩ := disable_frame c s
  rw [disableContext, State.errorWords_of_outside (representWaiting_outside _), h]
  rfl

/-- A command that passes its checks changes neither the last-error word nor COMMAND_ERROR. -/
theorem errorWords_applyCommand (op : CommandOp) (s : State) : (applyCommand op s).errorWords = s.errorWords := by
  cases op with
  | invalidate sc => exact (State.errorWords_completeCommand _).trans (State.errorWords_of_outside (invalidate_outside sc s))
  | sync marker => exact errorWords_settleSync (formWatchSet s)
  | enable c => rfl
  | disable c => exact (errorWords_settle _).trans (errorWords_disableContext c s)
  | resume h =>
    exact (State.errorWords_completeCommand _).trans (State.errorWords_of_outside (presentHead_outside h (s.setParked h none)))
  | terminate h => rfl
  | clearMemory => rfl
  | probe c p => rfl

/-! ## The statement -/

theorem exec_commandTake (s : State) : exec .commandTake s = .next (takeCommand s.beginEvent) := rfl

theorem exec_unknownCode (code : BitVec 8) (s : State) : exec (.unknownCode code) s = .next (submitAndTake code s.beginEvent) := rfl

/-- A command that fails a check, as a whole event. -/
theorem exec_commandTake_of_fails {s : State} {c : Command} {rest : List Command} {error : ErrorCode} (hs : s.commands = c :: rest)
    (ht : c.taken = false) (hf : CommandFails s c.code c.operand error) :
    exec .commandTake s = .next
      { s with
        commands := rest, completedCount := s.completedCount + 1#16
        lastError := { code := error, number := c.number }
        irqStatus := s.irqStatus ||| 0x08#8
        emitted := [] } := by
  have hk : takeCheck s.beginEvent c.code c.operand = .error error := by
    rw [takeCheck_beginEvent, takeCheck_error_iff_fails]
    exact hf
  rw [exec_commandTake, takeCommand_of_error (s := s.beginEvent) hs ht hk]
  rfl

/-- A command that passes its checks, as a whole event. -/
theorem exec_commandTake_of_passes {s : State} {c : Command} {rest : List Command} (hs : s.commands = c :: rest)
    (ht : c.taken = false) (hp : ∀ error, ¬ CommandFails s c.code c.operand error) :
    ∃ t, exec .commandTake s = .next t ∧ t.errorWords = s.errorWords := by
  cases hk : takeCheck s c.code c.operand with
  | error error => exact absurd (takeCheck_error_iff_fails.1 hk) (hp error)
  | ok op =>
    rw [← takeCheck_beginEvent] at hk
    refine ⟨_, exec_commandTake s, ?_⟩
    rw [takeCommand_of_ok (s := s.beginEvent) hs ht hk, errorWords_applyCommand]
    rfl

/-- A code that names no command, submitted into an empty queue, is taken at once and ends in its error (log entry 4). -/
theorem submitAndTake_of_unknownCode {s : State} {code : BitVec 8} (hr : s.ready = true) (hs : s.commands = [])
    (hcode : commandOfCode code = none) :
    submitAndTake code s =
      { s with
        takenCount := s.takenCount + 1#16, completedCount := s.completedCount + 1#16
        lastError := { code := .unknownCode, number := s.takenCount }
        irqStatus := s.irqStatus ||| 0x08#8 } := by
  have hqueue : (submit code s).commands = [s.nextCommand code] := by
    rw [submit_of_room code hr (by simp [hs]), hs]
    rfl
  have hcheck : takeCheck (submit code s) (s.nextCommand code).code (s.nextCommand code).operand = .error .unknownCode := by
    rw [takeCheck, decodeCommand, show commandOfCode (s.nextCommand code).code = none from hcode]
  rw [submitAndTake, if_pos hs, takeCommand_of_error hqueue rfl hcheck, submit_of_room code hr (by simp [hs]), ← hs]
  rfl

/-- Settles O35: the errors of a take are those of its checks, the commands behind the head are kept by `takeCommand_before`, and the rest are the
unit's other states and the resets. -/
theorem commandErrors : Obligations.CommandErrors := by
  intro s
  refine ⟨fun c rest hs ht => ⟨fun error hf => ?fails, fun hp => ?passes⟩, fun c rest operand taken hs ht hr => ?behind,
    fun code hr hs hf => ?unknown, fun h => ?notExecuting, fun t h => ?resets⟩
  case fails => exact exec_commandTake_of_fails hs ht hf
  case passes =>
    obtain ⟨t, ht, hwords⟩ := exec_commandTake_of_passes hs ht hp
    obtain ⟨hlast, hbit⟩ := Prod.mk.inj hwords
    exact ⟨t, ht, hlast, hbit⟩
  case behind =>
    refine ⟨_, exec_commandTake _, ?_⟩
    have hbefore : s.beginEvent =
        State.before rest s.takenCount s.operandWord
          (State.beginEvent { s with commands := [c], operandWord := operand, takenCount := taken }) := by
      have hqueue : s.commands = [c] ++ rest := hs
      unfold State.before State.withUnit State.beginEvent
      rw [← hqueue]
    rw [exec_commandTake, hbefore, takeCommand_before hr _ _ rfl]
    rfl
  case unknown =>
    have hcode : commandOfCode code = none := by
      cases hf with
      | unknown hk => exact (commandOfCode_eq_none_iff code).2 hk
    rw [exec_unknownCode, submitAndTake_of_unknownCode (s := s.beginEvent) hr hs hcode]
    rfl
  case notExecuting =>
    rw [exec_commandTake, takeCommand_of_not_executing (s := s.beginEvent) h]
    rfl
  case resets =>
    obtain ht | ⟨hr, ht⟩ := h
    · rw [exec_powerOnReset] at ht
      cases ht
      rfl
    · rw [exec_deviceReset_of_ready hr] at ht
      cases ht
      rfl

end Sys2Proof.Machine
end

section
/-! PROOFS of the family "the memory port" (R161 to R163): which heads are candidates, which candidate a grant chooses, and what the arbiter remembers of
the grant. -/

namespace Sys2Proof.Machine

/-! ## Candidates (R161) -/

theorem Port.hasCredit_iff (p : Port) : p.hasCredit = true ↔ p.creditInUse < 8 := decide_eq_true_iff

theorem Entry.isReady_iff (e : Entry) : e.isReady = true ↔ ∃ a, e.state = .ready a := by
  unfold Entry.isReady
  cases e.state <;> simp

theorem State.headCandidate_iff (s : State) (h : HeadId) :
    s.headCandidate h = true ↔ (s.port h.port).creditInUse < 8 ∧ ∃ e q a, s.queue h = e :: q ∧ e.state = .ready a := by
  unfold State.headCandidate State.head?
  rw [Bool.and_eq_true, Port.hasCredit_iff]
  cases hq : s.queue h with
  | nil => simp
  | cons e q => simp [Entry.isReady_iff]

/-! ## A rotation (R162) -/

theorem rotation_getElem (last : PortNumber) (k : Fin 4) : (rotation last)[k.val]'k.isLt = last + 1 + k := by
  revert last k
  decide

theorem mem_rotation (last p : PortNumber) : p ∈ rotation last := by
  revert last p
  decide

/-- The first candidate of a rotation is the one it finds. -/
theorem find?_rotation_of_firstAfter {last p : PortNumber} {f : PortNumber → Bool} (h : FirstAfter last p fun q => f q = true) :
    (rotation last).find? f = some p := by
  obtain ⟨hp, k, hk, hbefore⟩ := h
  refine List.find?_eq_some_iff_getElem.2 ⟨hp, k.val, k.isLt, ?_, fun j hj => ?_⟩
  · rw [rotation_getElem, hk]
  · have hnot := hbefore ⟨j, hj.trans k.isLt⟩ hj
    rw [← rotation_getElem] at hnot
    rw [Bool.not_eq_true', Bool.eq_false_iff]
    exact hnot

theorem find?_rotation_eq_none_iff {last : PortNumber} {f : PortNumber → Bool} :
    (rotation last).find? f = none ↔ ∀ p, ¬ f p = true := by
  rw [List.find?_eq_none]
  exact ⟨fun h p => h p (mem_rotation last p), fun h p _ => h p⟩

/-! ## The winners of the three kinds (R162) -/

section
variable {s : State} {p : PortNumber} {i : SlotNumber}

theorem State.walkWinner_of_oldest {before after : List SlotNumber} (horder : s.startOrder = before ++ i :: after)
    (hi : walkAwaits (s.slot i) = true) (hbefore : ∀ j ∈ before, walkAwaits (s.slot j) = false) : s.walkWinner = some i :=
  List.find?_eq_some_iff_append.2 ⟨hi, before, after, horder, fun j hj => by rw [hbefore j hj]; rfl⟩

theorem State.walkWinner_of_none_awaits (h : ∀ i ∈ s.startOrder, walkAwaits (s.slot i) = false) : s.walkWinner = none :=
  List.find?_eq_none.2 fun i hi => by simp [h i hi]

theorem State.urgentWinner_eq_none_iff : s.urgentWinner = none ↔ ∀ p, ¬ s.headCandidate ⟨p, .urgent⟩ = true :=
  find?_rotation_eq_none_iff

theorem State.normalWinner_eq_none_iff : s.normalWinner = none ↔ ∀ p, ¬ s.headCandidate ⟨p, .normal⟩ = true :=
  find?_rotation_eq_none_iff

/-! ## The winner among the candidates (R162) -/

theorem State.winner_of_walk (hw : s.walkWinner = some i) : s.winner = some (.walk i) := by
  simp [State.winner, hw]

theorem State.winner_of_none (hw : s.walkWinner = none) (hu : s.urgentWinner = none) (hn : s.normalWinner = none) :
    s.winner = none := by
  simp [State.winner, hw, hu, hn]

theorem State.winner_of_urgent (hw : s.walkWinner = none) (hr : s.runCount ≠ 4 ∨ s.normalWinner = none)
    (hu : s.urgentWinner = some p) : s.winner = some (.head ⟨p, .urgent⟩) := by
  unfold State.winner
  rw [hw, hu]
  cases hn : s.normalWinner with
  | none => rfl
  | some n =>
    have hrun : s.runCount ≠ 4 := by simpa [hn] using hr
    exact if_neg hrun

theorem State.winner_of_normal (hw : s.walkWinner = none) (hr : s.runCount = 4 ∨ s.urgentWinner = none)
    (hn : s.normalWinner = some p) : s.winner = some (.head ⟨p, .normal⟩) := by
  unfold State.winner
  rw [hw, hn]
  cases hu : s.urgentWinner with
  | none => rfl
  | some u =>
    have hrun : s.runCount = 4 := by simpa [hu] using hr
    exact if_pos hrun

/-- What a winner says of the candidates: an URGENT head wins by the rotation of its class, and over a NORMAL candidate only below run count 4; a NORMAL
head wins by the rotation of its class. -/
theorem State.winner_cases (s : State) :
    (∃ i, s.winner = some (.walk i)) ∨
    (∃ p, s.winner = some (.head ⟨p, .urgent⟩) ∧ s.urgentWinner = some p ∧ (s.runCount ≠ 4 ∨ s.normalWinner = none)) ∨
    (∃ p, s.winner = some (.head ⟨p, .normal⟩) ∧ s.normalWinner = some p) ∨
    s.winner = none := by
  cases hw : s.walkWinner with
  | some i => exact .inl ⟨i, State.winner_of_walk hw⟩
  | none =>
    cases hu : s.urgentWinner with
    | none =>
      cases hn : s.normalWinner with
      | none => exact .inr (.inr (.inr (State.winner_of_none hw hu hn)))
      | some n => exact .inr (.inr (.inl ⟨n, State.winner_of_normal hw (.inr hu) hn, rfl⟩))
    | some u =>
      cases hn : s.normalWinner with
      | none => exact .inr (.inl ⟨u, State.winner_of_urgent hw (.inr hn) hu, rfl, .inr rfl⟩)
      | some n =>
        by_cases hr : s.runCount = 4
        · exact .inr (.inr (.inl ⟨n, State.winner_of_normal hw (.inl hr) hn, rfl⟩))
        · exact .inr (.inl ⟨u, State.winner_of_urgent hw (.inl hr) hu, rfl, .inl hr⟩)

/-- A head that wins is a candidate. -/
theorem State.headCandidate_of_winner {k : HeadId} (h : s.winner = some (.head k)) : s.headCandidate k = true := by
  obtain ⟨i, hi⟩ | ⟨p, hp, hu, -⟩ | ⟨p, hp, hn⟩ | hnone := s.winner_cases
  · simp [hi] at h
  · obtain rfl : ⟨p, .urgent⟩ = k := by simpa [hp] using h
    exact List.find?_some (p := fun p => s.headCandidate ⟨p, .urgent⟩) hu
  · obtain rfl : ⟨p, .normal⟩ = k := by simpa [hp] using h
    exact List.find?_some (p := fun p => s.headCandidate ⟨p, .normal⟩) hn
  · simp [hnone] at h

end

/-! ## The arbiter's memory (R162, R163) -/

/-- What the arbiter remembers: the last URGENT grant, the last NORMAL grant and the run count. -/
def State.arbiterMemory (s : State) : PortNumber × PortNumber × Nat := (s.lastUrgent, s.lastNormal, s.runCount)

theorem State.arbiterMemory_eq_iff {s : State} {u n : PortNumber} {r : Nat} :
    s.arbiterMemory = (u, n, r) ↔ s.lastUrgent = u ∧ s.lastNormal = n ∧ s.runCount = r := by
  simp [State.arbiterMemory]

theorem arbiterMemory_presentHead (h : HeadId) (s : State) : (presentHead h s).arbiterMemory = s.arbiterMemory := by
  have hout := presentHead_outside h s
  rw [State.arbiterMemory, State.outside_lastUrgent hout, State.outside_lastNormal hout, State.outside_runCount hout]
  rfl

theorem arbiterMemory_settle (s : State) : (settle s).arbiterMemory = s.arbiterMemory := by
  obtain ⟨contexts, commands, n, m, irq, h⟩ := settle_frame s
  rw [h]
  rfl

/-- A granted walk stays out of the arbiter's memory (R163). -/
theorem arbiterMemory_grantWalk (i : SlotNumber) (s : State) : (grantWalk i s).arbiterMemory = s.arbiterMemory := by
  unfold grantWalk
  split <;> rfl

/-- A granted candidate is remembered, and the rest of its grant leaves the memory alone. -/
theorem arbiterMemory_grantHead {h : HeadId} {s : State} (hc : s.headCandidate h = true) :
    (grantHead h s).arbiterMemory = (rememberGrant h s).arbiterMemory := by
  obtain ⟨-, e, q, a, hq, he⟩ := (s.headCandidate_iff h).1 hc
  unfold grantHead
  simp only [State.head?_of_queue hq, he]
  exact arbiterMemory_presentHead h _

theorem arbiterMemory_rememberGrant_urgent (p : PortNumber) (s : State) :
    (rememberGrant ⟨p, .urgent⟩ s).arbiterMemory =
      (p, s.lastNormal, if s.normalWinner.isSome then s.runCount + 1 else 0) := rfl

theorem arbiterMemory_rememberGrant_normal (p : PortNumber) (s : State) :
    (rememberGrant ⟨p, .normal⟩ s).arbiterMemory = (s.lastUrgent, p, 0) := rfl

/-! ## The memory after GRANT (R161) -/

theorem exec_grant (s : State) : exec .grant s = .next (grant s.beginEvent) := rfl

section
variable {s : State} {p : PortNumber} {i : SlotNumber} {h : HeadId}
variable (hrun : s.memState = .running) (hroom : s.outstanding.length < 16)
include hrun hroom

theorem grant_of_walk (hw : s.winner = some (.walk i)) : grant s = grantWalk i s := by
  rw [grant, if_pos ⟨hrun, hroom⟩, hw]

theorem grant_of_head (hw : s.winner = some (.head h)) : grant s = settle (grantHead h s) := by
  rw [grant, if_pos ⟨hrun, hroom⟩, hw]

theorem grant_of_no_winner (hw : s.winner = none) : grant s = s := by
  rw [grant, if_pos ⟨hrun, hroom⟩, hw]

theorem arbiterMemory_grant_of_walk (hw : s.winner = some (.walk i)) : (grant s).arbiterMemory = s.arbiterMemory := by
  rw [grant_of_walk hrun hroom hw, arbiterMemory_grantWalk]

theorem arbiterMemory_grant_of_head (hw : s.winner = some (.head h)) :
    (grant s).arbiterMemory = (rememberGrant h s).arbiterMemory := by
  rw [grant_of_head hrun hroom hw, arbiterMemory_settle, arbiterMemory_grantHead (State.headCandidate_of_winner hw)]

theorem arbiterMemory_grant_of_urgent (hw : s.winner = some (.head ⟨p, .urgent⟩)) :
    (grant s).arbiterMemory = (p, s.lastNormal, if s.normalWinner.isSome then s.runCount + 1 else 0) := by
  rw [arbiterMemory_grant_of_head hrun hroom hw, arbiterMemory_rememberGrant_urgent]

theorem arbiterMemory_grant_of_normal (hw : s.winner = some (.head ⟨p, .normal⟩)) :
    (grant s).arbiterMemory = (s.lastUrgent, p, 0) := by
  rw [arbiterMemory_grant_of_head hrun hroom hw, arbiterMemory_rememberGrant_normal]

/-- The run count never passes 4: an URGENT head wins over a NORMAL candidate only below 4 (R162, R163). -/
theorem runCount_grant_le (hle : s.runCount ≤ 4) : (grant s).runCount ≤ 4 := by
  obtain ⟨i, hw⟩ | ⟨p, hw, -, hr⟩ | ⟨p, hw, -⟩ | hw := s.winner_cases
  · obtain ⟨-, -, hcount⟩ := State.arbiterMemory_eq_iff.1 (arbiterMemory_grant_of_walk hrun hroom hw)
    rwa [hcount]
  · obtain ⟨-, -, hcount⟩ := State.arbiterMemory_eq_iff.1 (arbiterMemory_grant_of_urgent hrun hroom hw)
    rw [hcount]
    obtain hne | hnone := hr
    · split <;> omega
    · simp [hnone]
  · obtain ⟨-, -, hcount⟩ := State.arbiterMemory_eq_iff.1 (arbiterMemory_grant_of_normal hrun hroom hw)
    rw [hcount]
    exact Nat.zero_le 4
  · rwa [grant_of_no_winner hrun hroom hw]

end

/-- Settles O20: a rotation finds the first candidate after its last grant, the winner is chosen among those of the three kinds, and the arbiter's memory
after a grant is what `rememberGrant` makes of it. -/
theorem arbiterChoice : Obligations.ArbiterChoice := by
  intro s
  refine ⟨s.headCandidate_iff, fun i before after horder hi hbefore => ?oldestWalk, fun hwalks => ?_, fun t hrun hroom ht => ?_⟩
  case oldestWalk => exact State.winner_of_walk (State.walkWinner_of_oldest horder hi hbefore)
  · have hw : s.walkWinner = none := State.walkWinner_of_none_awaits hwalks
    refine ⟨fun p hr hp => ?runFull, fun p hr hp => ?urgentHead, fun p hu hp => ?normalHead, fun hu hn => ?noCandidate⟩
    case runFull => exact State.winner_of_normal hw (.inl hr) (find?_rotation_of_firstAfter hp)
    case urgentHead =>
      exact State.winner_of_urgent hw (hr.imp_right State.normalWinner_eq_none_iff.2) (find?_rotation_of_firstAfter hp)
    case normalHead =>
      exact State.winner_of_normal hw (.inr (State.urgentWinner_eq_none_iff.2 hu)) (find?_rotation_of_firstAfter hp)
    case noCandidate =>
      exact State.winner_of_none hw (State.urgentWinner_eq_none_iff.2 hu) (State.normalWinner_eq_none_iff.2 hn)
  · rw [exec_grant] at ht
    cases ht
    refine ⟨fun i hw => ?walkGrant, fun p hw => ?urgentGrant, fun p hw => ?normalGrant, fun hle => ?runBound⟩
    case walkGrant =>
      exact State.arbiterMemory_eq_iff.1 (arbiterMemory_grant_of_walk (s := s.beginEvent) hrun hroom hw)
    case urgentGrant =>
      obtain ⟨hlast, hother, hcount⟩ :=
        State.arbiterMemory_eq_iff.1 (arbiterMemory_grant_of_urgent (s := s.beginEvent) hrun hroom hw)
      refine ⟨hlast, hother, fun ⟨q, hq⟩ => ?_, fun hnone => ?_⟩
      · have hsome : s.normalWinner ≠ none := fun hn => State.normalWinner_eq_none_iff.1 hn q hq
        rw [hcount]
        exact if_pos (Option.isSome_iff_ne_none.2 hsome)
      · have hn : s.beginEvent.normalWinner = none := State.normalWinner_eq_none_iff.2 hnone
        simpa [hn] using hcount
    case normalGrant =>
      exact State.arbiterMemory_eq_iff.1 (arbiterMemory_grant_of_normal (s := s.beginEvent) hrun hroom hw)
    case runBound => exact runCount_grant_le (s := s.beginEvent) hrun hroom hle

end Sys2Proof.Machine
end

section
/-! PROOFS of the family "register window, interrupts and formats" (R182, R183): what the writes of the interrupt status and of the interrupt
enables change, when INTN is asserted, and both words after the resets. -/

namespace Sys2Proof.Machine

/-! ## The write of the interrupt status (R182) -/

/-- The causes written are bits 7..0 of the word (R182). -/
theorem causeField_eq (w : Word) : causeField w = BitVec.ofNat 8 w.toNat := by
  simp [causeField, BitVec.extractLsb']

/-- The `exec` arm of INTERRUPT_STATUS_CLEAR. -/
theorem exec_interruptStatusClear (value : Word) (s : State) :
    exec (.interruptStatusClear value) s = .next (writeInterruptStatus value s.beginEvent) :=
  rfl

theorem writeInterruptStatus_of_ready {s : State} (value : Word) (hr : s.ready = true) :
    writeInterruptStatus value s = { s with irqStatus := s.irqStatus &&& ~~~(causeField value) } :=
  if_pos hr

theorem writeInterruptStatus_of_not_ready {s : State} (value : Word) (hr : s.ready = false) :
    writeInterruptStatus value s = s := by
  simp [writeInterruptStatus, hr]

theorem registerAt_interruptStatus : registerAt 0x010#12 = some .interruptStatus := by decide

/-! ## The write of the interrupt enables (R183) -/

/-- The `exec` arm of INTERRUPT_ENABLE_WRITE. -/
theorem exec_interruptEnableWrite (value : Word) (s : State) :
    exec (.interruptEnableWrite value) s = .next (writeInterruptEnable value s.beginEvent) :=
  rfl

theorem writeInterruptEnable_of_ready {s : State} (value : Word) (hr : s.ready = true) :
    writeInterruptEnable value s = { s with irqEnable := causeField value } :=
  if_pos hr

theorem writeInterruptEnable_of_not_ready {s : State} (value : Word) (hr : s.ready = false) :
    writeInterruptEnable value s = s := by
  simp [writeInterruptEnable, hr]

/-! ## INTN (R179, R183) -/

/-- The test that INTN is computed by, bit by bit. -/
theorem and_ne_zero_iff_common_bit {w : Nat} (x y : BitVec w) :
    x &&& y ≠ 0#w ↔ ∃ n, x.getLsbD n = true ∧ y.getLsbD n = true := by
  rw [Ne, ← not_iff_not, not_not, BitVec.zero_iff_eq_false]
  simp

/-- INTN is asserted exactly while RESETN is high and a cause is both set and enabled. -/
theorem State.intnAsserted_iff (s : State) :
    s.intnAsserted = true ↔
      s.resetnLow = false ∧ ∃ n, s.irqStatus.getLsbD n = true ∧ s.irqEnable.getLsbD n = true := by
  rw [State.intnAsserted, Bool.and_eq_true, Bool.not_eq_true', bne_iff_ne, and_ne_zero_iff_common_bit]

/-- While RESETN is held low INTN is inactive (R179). -/
theorem State.intnAsserted_of_resetnLow {s : State} (hl : s.resetnLow = true) : s.intnAsserted = false := by
  simp [State.intnAsserted, hl]

/-! ## Both words at the resets (R179, R180, R182, R183) -/

theorem irqStatus_startDeviceReset (s : State) : (startDeviceReset s).irqStatus = 0#8 := rfl

theorem irqEnable_startDeviceReset (s : State) : (startDeviceReset s).irqEnable = s.irqEnable := rfl

/-- Settles O46: each clause is one rule of setting a cause, of the two words' writes, of INTN, or of a reset. -/
theorem interruptWords : Obligations.InterruptWords := by
  intro s value
  refine ⟨fun cause => ?raised, fun hr => ⟨?cleared, ?enabled, ?read⟩, fun hr => ⟨?statusIgnored, ?enableIgnored⟩, fun hl => ?intn,
    fun t ht => ?powerOn, fun t hr ht => ?reset⟩
  case raised => rw [State.raise, IrqCause.mask]
  case cleared =>
    rw [exec_interruptStatusClear, writeInterruptStatus_of_ready (s := s.beginEvent) value hr, causeField_eq]
    rfl
  case enabled =>
    rw [exec_interruptEnableWrite, writeInterruptEnable_of_ready (s := s.beginEvent) value hr, causeField_eq]
    rfl
  case read => exact readValue_of_ready hr registerAt_interruptStatus
  case statusIgnored =>
    rw [exec_interruptStatusClear, writeInterruptStatus_of_not_ready (s := s.beginEvent) value hr]
    rfl
  case enableIgnored =>
    rw [exec_interruptEnableWrite, writeInterruptEnable_of_not_ready (s := s.beginEvent) value hr]
    rfl
  case intn => rw [State.intnAsserted_iff, and_iff_right hl]
  case powerOn =>
    rw [exec_powerOnReset] at ht
    cases ht
    exact ⟨rfl, rfl, State.intnAsserted_of_resetnLow rfl⟩
  case reset =>
    rw [exec_deviceReset_of_ready hr] at ht
    cases ht
    exact ⟨irqStatus_startDeviceReset _, irqEnable_startDeviceReset _⟩

end Sys2Proof.Machine
end

section
/-! PROOFS of the family "invariants" (R124, R127): the numbering of the fault log. -/

namespace Sys2Proof.Machine

/-- A grant to a head touches the arbiter's memory only, before the head moves (R162, R163). -/
theorem rememberGrant_frame (h : HeadId) (s : State) :
    ∃ u n r, rememberGrant h s = { s with lastUrgent := u, lastNormal := n, runCount := r } := by
  unfold rememberGrant
  split
  · exact ⟨h.port, s.lastNormal, _, rfl⟩
  · exact ⟨s.lastUrgent, h.port, 0, rfl⟩

/-! ## The numbering of the fault log (R124) -/

/-- The numbering reads the log and the next sequence number only. -/
theorem State.LogNumbered.of_fields {s t : State} (hs : s.LogNumbered) (hl : t.faultLog = s.faultLog)
    (hn : t.nextSeq = s.nextSeq) : t.LogNumbered := by
  unfold State.LogNumbered at hs ⊢
  rwa [hl, hn]

theorem State.LogNumbered.of_empty {s : State} (hl : s.faultLog = []) : s.LogNumbered := by
  intro k r hk
  simp [hl] at hk

/-- A record written with the next sequence number keeps the numbering: every older record is one further back (R124). -/
theorem State.LogNumbered.append {s t : State} {r : FaultRecord} (hs : s.LogNumbered)
    (hl : t.faultLog = s.faultLog ++ [r]) (hr : r.sequence = s.nextSeq) (hn : t.nextSeq = s.nextSeq + 1#16) :
    t.LogNumbered := by
  intro k x hx
  rw [hl] at hx ⊢
  rw [hn, List.length_append, List.length_singleton]
  rcases Nat.lt_trichotomy k s.faultLog.length with hk | hk | hk
  · rw [List.getElem?_append_left hk] at hx
    rw [hs k x hx, show s.faultLog.length + 1 - k = (s.faultLog.length - k) + 1 by omega, BitVec.ofNat_add]
    abel
  · subst hk
    obtain rfl : r = x := by simpa using hx
    rw [hr, Nat.add_sub_cancel_left]
    exact (BitVec.add_sub_cancel _ _).symm
  · have hlen : s.faultLog.length + 1 ≤ k := hk
    rw [List.getElem?_eq_none (by simpa using hlen)] at hx
    cases hx

/-- The pop of the oldest record leaves the younger ones their numbers (R127). -/
theorem State.LogNumbered.pop {s t : State} {r : FaultRecord} (hs : s.LogNumbered) (hl : s.faultLog = r :: t.faultLog)
    (hn : t.nextSeq = s.nextSeq) : t.LogNumbered := by
  intro k x hx
  rw [hn, hs (k + 1) x (by rw [hl]; exact hx), hl, List.length_cons, Nat.add_sub_add_right]

theorem State.LogNumbered.appendRecord {s : State} (hs : s.LogNumbered) (v : RequestValues) (cause : FaultCause)
    (o : RecordOutcome) : (s.appendRecord v cause o).LogNumbered :=
  hs.append rfl rfl rfl

theorem State.LogNumbered.takeHeadFault {s : State} (hs : s.LogNumbered) (cause : FaultCause) (h : HeadId) :
    (takeHeadFault cause h s).LogNumbered := by
  unfold Machine.takeHeadFault
  split
  · exact hs
  · dsimp only
    split
    · split <;> exact State.LogNumbered.appendRecord hs _ _ _
    · exact hs

theorem State.LogNumbered.takeDataError {s : State} (hs : s.LogNumbered) (v : RequestValues) :
    (takeDataError v s).LogNumbered := by
  unfold Machine.takeDataError
  split
  · exact hs.appendRecord _ _ _
  · exact hs

/-- Only the fault unit and the pop touch the log. -/
theorem kept_logNumbered : Kept State.LogNumbered where
  head _ _ hs := hs
  fault cause h hs := hs.takeHeadFault cause h
  touchPage _ hs := hs
  touchDir _ hs := hs
  wait _ _ hs := hs
  start _ _ _ _ _ _ _ _ _ _ hs := hs
  join _ _ _ _ _ hs := hs
  popWait _ hs := hs
  release _ hs := hs
  removePage _ _ hs := hs
  removeScope _ hs := hs
  rewalk _ _ _ _ _ _ _ _ hs := hs
  fillPage _ _ _ _ hs := by rw [fillPage_eq]; exact hs
  fillDir _ _ _ hs := by rw [fillDir_eq]; exact hs

theorem keptByEvents_logNumbered : KeptByEvents State.LogNumbered where
  toKept := kept_logNumbered
  beginEvent hs := hs
  dequeue _ hs := hs
  emit _ hs := hs
  raise _ hs := hs
  powerOn _ := .of_empty rfl
  releasePin hs := by unfold releaseResetn; split <;> exact hs
  reset _ _ := .of_empty rfl
  enqueue _ _ _ _ _ hs := hs
  deliver _ _ _ _ _ hs := hs
  transfer _ _ _ _ _ _ hs := hs
  openPort _ _ _ hs := hs
  closePort _ _ _ hs := hs
  bindPort _ _ _ _ hs := hs
  writeContext _ _ _ _ _ hs := hs
  writeRegion _ _ _ _ _ hs := hs
  clearCauses _ hs := hs
  irqEnable _ hs := hs
  timebase _ _ hs := hs
  responseLimit _ hs := hs
  operandWord _ _ hs := hs
  pop _ _ hl hs := hs.pop hl rfl
  submit _ _ _ hs := hs
  take _ _ _ _ hs := hs
  complete _ _ _ _ hs := hs
  recordError _ hs := hs
  probe _ hs := hs
  syncMarker _ hs := hs
  watch hs := hs
  enable _ _ _ _ hs := hs
  disable c _ hs := by
    obtain ⟨slots, order, parked, h⟩ := disable_frame c _
    rw [h]
    exact hs
  drained _ _ _ hs := hs
  unpark _ _ hs := hs
  grantWalk _ _ _ _ _ _ hs := hs
  grantHead h _ _ _ _ _ _ _ hs := by
    obtain ⟨u, n, r, hg⟩ := rememberGrant_frame h _
    rw [hg]
    exact hs
  answeredItem _ _ _ _ _ _ _ _ hs := hs
  answeredWalk _ _ _ _ _ _ hs := hs
  endedItem _ _ _ _ _ hs := hs
  endedWalk _ _ _ _ _ hs := hs
  dataError v _ hs := hs.takeDataError v
  fail _ hs := hs
  forgetLate hs := hs
  resendClear _ hs := hs
  startClear _ hs := hs
  run _ _ hs := hs
  runReset _ _ _ hs := hs
  ages hs := hs
  tickLeft _ hs := hs

/-- Settles O54: a record takes the next sequence number, and a pop takes the oldest (R124, R127). -/
theorem logNumberingKept : Obligations.LogNumberingKept := fun _ _ hs he => keptByEvents_logNumbered.step hs he

end Sys2Proof.Machine
end

section
/-! PROOFS of the family "invariants" (R44, R55, R66, R67, R123, R139, R160, R163, R167): the bounds of the collections. -/

namespace Sys2Proof.Machine

/-! ## The bounds of one port (R44, R55) -/

theorem Port.bounded_iff (p : Port) :
    p.Bounded ↔ (∀ c, (p.queues.get c).length ≤ 8) ∧ p.creditInUse ≤ 8 := by
  constructor
  · rintro ⟨hn, hu, hc⟩
    exact ⟨fun c => by cases c <;> assumption, hc⟩
  · rintro ⟨hq, hc⟩
    exact ⟨hq .normal, hq .urgent, hc⟩

theorem Port.Bounded.of_le {p v : Port} (hp : p.Bounded) (hq : ∀ c, (v.queues.get c).length ≤ (p.queues.get c).length)
    (hc : v.creditInUse ≤ p.creditInUse) : v.Bounded := by
  rw [Port.bounded_iff] at hp ⊢
  exact ⟨fun c => (hq c).trans (hp.1 c), hc.trans hp.2⟩

theorem Port.closeIfEmpty_bounded {p : Port} (hp : p.Bounded) : p.closeIfEmpty.Bounded := by
  unfold Port.closeIfEmpty
  split <;> exact hp

/-- A queue replaced by one within the bound (R44). -/
theorem Port.Bounded.setQueue {p : Port} (hp : p.Bounded) (c : ReqClass) {q : List Entry} (hq : q.length ≤ 8) :
    ({ p with queues := p.queues.set c q } : Port).Bounded := by
  rw [Port.bounded_iff] at hp ⊢
  refine ⟨fun d => ?_, hp.2⟩
  simp only [PerClass.get_set]
  split
  · exact hq
  · exact hp.1 d

/-- An item enters a return list on a free credit (R55, R56). -/
theorem Port.Bounded.pushReturn {p : Port} (hp : p.Bounded) (hc : p.hasCredit = true) (i : Item) :
    (p.pushReturn i).Bounded := by
  rw [Port.hasCredit_iff] at hc
  rw [Port.bounded_iff] at hp ⊢
  rw [Port.pushReturn_queues, Port.pushReturn_creditInUse]
  exact ⟨hp.1, hc⟩

theorem Port.bounded_of_empty {p : Port} (hq : p.queues = ⟨[], []⟩) (hr : p.returns = ⟨[], []⟩) (hc : p.completions = []) :
    p.Bounded := by
  simp [Port.Bounded, Port.creditInUse, hq, hr, hc]

/-! ## The bounds of the part -/

theorem State.Bounded.setPort {s : State} (hs : s.Bounded) (p : PortNumber) {v : Port} (hv : v.Bounded) :
    (s.setPort p v).Bounded :=
  { hs with
    ports := fun q => by
      rw [State.port_setPort]
      split
      · exact hv
      · exact hs.ports q }

/-- Every port keeps its bounds when each of its collections is no longer than before. -/
theorem State.Bounded.mapPorts {s : State} (hs : s.Bounded) (f : Port → Port)
    (hf : ∀ p : Port, p.Bounded → (f p).Bounded) : ({ s with ports := s.ports.map f } : State).Bounded :=
  { hs with
    ports := fun p => by
      simp only [State.port, Vector.getElem_map]
      exact hf _ (hs.ports p) }

/-- What translation work cannot reach keeps its bounds; the caches and the fault log are left to say (R49). -/
theorem State.Bounded.of_outside {s t : State} (hs : s.Bounded) (ho : t.outside = s.outside)
    (hp : t.pageCache.length ≤ 64) (hd : t.dirCache.length ≤ 8) (hf : t.faultLog.length ≤ 16) : t.Bounded where
  ports p := by
    refine (hs.ports p).of_le (fun c => ?_) (State.outside_creditInUse ho p).le
    exact (State.outside_queue_length ho ⟨p, c⟩).le
  pageCache := hp
  dirCache := hd
  faultLog := hf
  commands := by rw [State.outside_commands ho]; exact hs.commands
  outstanding := by rw [State.outside_outstanding ho]; exact hs.outstanding
  runCount := by rw [State.outside_runCount ho]; exact hs.runCount
  timebase := by rw [State.outside_timebase ho]; exact hs.timebase
  regions i := by
    rw [show t.region i = s.region i by rw [State.region, State.outside_regions ho]; rfl]
    exact hs.regions i
  ages := by rw [State.outside_outstanding ho]; exact hs.ages
  clearAge := by rw [State.outside_clearAge ho]; exact hs.clearAge

/-! ## The caches and the fault log (R66, R67, R123) -/

theorem State.length_filledPages_le {s : State} (e : PageEntry) (hs : s.pageCache.length ≤ 64) :
    (s.filledPages e).length ≤ 64 := by
  unfold State.filledPages
  split
  · rename_i hl
    obtain ⟨x, hx⟩ := Option.ne_none_iff_exists'.1 hl
    obtain ⟨hm, hc, hp⟩ := State.pageLookup_mem hx
    exact (State.touchPage_length_le (e := e) hm hc hp).trans hs
  · split
    · rw [List.length_cons]; omega
    · rw [List.length_cons, List.length_take]; omega

theorem State.length_filledDirs_le {s : State} (e : DirEntry) (hs : s.dirCache.length ≤ 8) :
    (s.filledDirs e).length ≤ 8 := by
  unfold State.filledDirs
  split
  · rename_i hl
    obtain ⟨x, hx⟩ := Option.ne_none_iff_exists'.1 hl
    obtain ⟨hm, hc, hp⟩ := State.dirLookup_mem hx
    exact (State.touchDir_length_le (e := e) hm hc hp).trans hs
  · split
    · rw [List.length_cons]; omega
    · rw [List.length_cons, List.length_take]; omega

/-- A record is written only with room in the log (R124, R129). -/
theorem takeHeadFault_faultLog_length_le (cause : FaultCause) (h : HeadId) {s : State} (hs : s.faultLog.length ≤ 16) :
    (takeHeadFault cause h s).faultLog.length ≤ 16 := by
  cases hq : s.queue h with
  | nil => simpa [takeHeadFault, State.head?, hq] using hs
  | cons e q =>
    obtain ⟨hroom, hfull⟩ := takeHeadFault_log cause hq
    by_cases hl : s.faultLog.length < 16
    · rw [(hroom hl).1, List.length_append, List.length_singleton]
      omega
    · rw [hfull (Nat.not_lt.1 hl)]
      exact hs

theorem takeHeadFault_caches (cause : FaultCause) (h : HeadId) (s : State) :
    (takeHeadFault cause h s).pageCache = s.pageCache ∧ (takeHeadFault cause h s).dirCache = s.dirCache := by
  obtain ⟨st, p, l, n, q, h1 | h1⟩ := takeHeadFault_frame cause h s <;> rw [h1] <;> exact ⟨rfl, rfl⟩

/-! ## Translation work and events -/

theorem kept_bounded : Kept State.Bounded where
  head h st hs := hs.of_outside (State.outside_setHeadState h st _) hs.pageCache hs.dirCache hs.faultLog
  fault {s} cause h hs := by
    obtain ⟨hp, hd⟩ := takeHeadFault_caches cause h s
    exact hs.of_outside (outside_takeHeadFault cause h s) (hp ▸ hs.pageCache) (hd ▸ hs.dirCache)
      (takeHeadFault_faultLog_length_le cause h hs.faultLog)
  touchPage he hs := { hs with pageCache := (State.touchPage_length_le he rfl rfl).trans hs.pageCache }
  touchDir he hs := { hs with dirCache := (State.touchDir_length_le he rfl rfl).trans hs.dirCache }
  wait {s} h _ hs := hs.of_outside (State.outside_setHeadState h .waitSlot s) hs.pageCache hs.dirCache hs.faultLog
  start {s} i w h _ _ _ _ _ _ _ hs :=
    hs.of_outside (State.outside_setHeadState h .walking (s.setSlot i (some w))) hs.pageCache hs.dirCache hs.faultLog
  join {s} i w h _ _ hs :=
    hs.of_outside (State.outside_setHeadState h .walking (s.setSlot i _)) hs.pageCache hs.dirCache hs.faultLog
  popWait _ hs := { hs with }
  release _ hs := { hs with }
  removePage _ _ hs := { hs with pageCache := (List.length_filter_le _ _).trans hs.pageCache }
  removeScope _ hs :=
    { hs with
      pageCache := (List.length_filter_le _ _).trans hs.pageCache
      dirCache := (List.length_filter_le _ _).trans hs.dirCache }
  rewalk _ _ _ _ _ _ _ _ hs := { hs with }
  fillPage _ _ _ _ hs := by
    rw [fillPage_eq]
    exact { hs with pageCache := State.length_filledPages_le _ hs.pageCache }
  fillDir _ _ _ hs := by
    rw [fillDir_eq]
    exact { hs with dirCache := State.length_filledDirs_le _ hs.dirCache }

/-- A head that moves to its return list takes a credit of its port (R46, R55). -/
theorem State.Bounded.moveHead {s : State} (hs : s.Bounded) (h : HeadId) (state : ItemState) (e : Entry)
    (hc : (s.port h.port).hasCredit = true) : (moveHead h state e s).Bounded := by
  have hq : ((s.port h.port).queues.get h.cls).tail.length ≤ 8 :=
    (List.tail_sublist _).length_le.trans (((Port.bounded_iff _).1 (hs.ports h.port)).1 h.cls)
  exact hs.setPort _ (((hs.ports h.port).setQueue h.cls hq).pushReturn hc _)

theorem State.Bounded.endItem {s : State} (hs : s.Bounded) (h : HeadId) (st : Status) (d : Option (List Word)) :
    (s.endItem h st d).Bounded :=
  { hs with
    ports := fun p => by
      obtain ⟨hc, hq, -, -⟩ := State.endItem_port h st d p s
      exact (hs.ports p).of_le (fun c => by rw [hq]) hc.le }

/-- A list of transactions within the bounds, in place of the one outstanding (R158, R160). -/
theorem State.Bounded.withOutstanding {s : State} (hs : s.Bounded) {l : List Transaction} (hl : l.length ≤ 16)
    (ha : ∀ t ∈ l, t.age ≤ 65535) : ({ s with outstanding := l } : State).Bounded :=
  { hs with outstanding := hl, ages := ha }

/-- The oldest transaction leaves the outstanding list (R160). -/
theorem State.Bounded.oldestGone {s : State} (hs : s.Bounded) {t : Transaction} {rest : List Transaction}
    (ho : s.outstanding = t :: rest) : ({ s with outstanding := rest } : State).Bounded := by
  have hl := hs.outstanding
  have ha := hs.ages
  rw [ho] at hl ha
  exact hs.withOutstanding (Nat.le_of_succ_le hl) fun x hx => ha x (List.mem_cons_of_mem _ hx)

/-- A transaction is issued with room in the list, with age 0 (R160, R164). -/
theorem State.Bounded.issue {s : State} (hs : s.Bounded) (hroom : s.outstanding.length < 16) (op : TxnOp) (a : PhysAddr)
    (o : Origin) : (s.issue op a o).Bounded := by
  refine { hs.withOutstanding (l := s.outstanding ++ [⟨op, a, o, 0⟩]) ?_ ?_ with }
  · rw [List.length_append, List.length_singleton]; omega
  · intro t ht
    rcases List.mem_append.1 ht with ht | ht
    · exact hs.ages t ht
    · rw [List.mem_singleton.1 ht]; exact Nat.zero_le _

/-- An URGENT head wins while the run count is 4 only where no NORMAL head stands, so the count passes 4 never (R162, R163). -/
theorem runCount_rememberGrant_le {s : State} {h : HeadId} (hw : s.winner = some (.head h)) (hr : s.runCount ≤ 4) :
    (rememberGrant h s).runCount ≤ 4 := by
  rcases State.winner_cases s with ⟨i, hi⟩ | ⟨p, hp, -, hu⟩ | ⟨p, hp, -⟩ | hn
  · rw [hi] at hw; cases hw
  · rw [hp] at hw; cases hw
    rcases hu with hu | hu
    · show (if s.normalWinner.isSome then s.runCount + 1 else 0) ≤ 4
      split <;> omega
    · show (if s.normalWinner.isSome then s.runCount + 1 else 0) ≤ 4
      simp [hu]
  · rw [hp] at hw; cases hw
    exact Nat.zero_le _
  · rw [hn] at hw; cases hw

theorem State.Bounded.rememberGrant {s : State} (hs : s.Bounded) {h : HeadId} (hw : s.winner = some (.head h)) :
    (rememberGrant h s).Bounded := by
  have hr := runCount_rememberGrant_le hw hs.runCount
  obtain ⟨u, n, r, hg⟩ := rememberGrant_frame h s
  rw [hg] at hr ⊢
  exact { hs with runCount := hr }

theorem nextAge_le {age : Nat} (h : age ≤ 65535) : nextAge age ≤ 65535 := by
  unfold nextAge
  split
  · rename_i hl; exact hl
  · exact h

theorem State.Bounded.advanceAges {s : State} (hs : s.Bounded) : (advanceAges s).Bounded :=
  { hs with
    outstanding := by
      show (s.outstanding.map _).length ≤ 16
      rw [List.length_map]
      exact hs.outstanding
    ages := by
      intro t ht
      obtain ⟨x, hx, rfl⟩ := List.mem_map.1 ht
      exact nextAge_le (hs.ages x hx)
    clearAge := by
      show (if s.memState = .clearing then nextAge s.clearAge else s.clearAge) ≤ 65535
      split
      · exact nextAge_le hs.clearAge
      · exact hs.clearAge }

theorem State.Bounded.takeDataError {s : State} (hs : s.Bounded) (v : RequestValues) : (takeDataError v s).Bounded := by
  unfold Machine.takeDataError
  split
  · rename_i hl
    have hroom : s.faultLog.length < 16 := of_decide_eq_true hl
    refine { hs with faultLog := ?_ }
    show (s.faultLog ++ [_]).length ≤ 16
    rw [List.length_append, List.length_singleton]
    omega
  · exact { hs with }

theorem State.bounded_powerOnReset (s : State) : (powerOnReset s).Bounded where
  ports p := by
    rw [port_powerOnReset]
    exact Port.bounded_of_empty rfl rfl rfl
  pageCache := Nat.zero_le _
  dirCache := Nat.zero_le _
  faultLog := Nat.zero_le _
  commands := Nat.zero_le _
  outstanding := Nat.zero_le _
  runCount := Nat.zero_le _
  timebase := by show Config.powerOnTimebase ≠ 0#8; decide
  regions i := by
    simp [State.region, powerOnReset, State.powerOn, RegionEntry.powerOn]
  ages t ht := by cases ht
  clearAge := Nat.zero_le _

theorem State.Bounded.startDeviceReset {s : State} (hs : s.Bounded) : (startDeviceReset s).Bounded where
  ports p := by
    rw [port_startDeviceReset]
    exact Port.bounded_of_empty rfl rfl rfl
  pageCache := Nat.zero_le _
  dirCache := Nat.zero_le _
  faultLog := Nat.zero_le _
  commands := Nat.zero_le _
  outstanding := Nat.zero_le _
  runCount := Nat.zero_le _
  timebase := hs.timebase
  regions := hs.regions
  ages t ht := by cases ht
  clearAge := Nat.zero_le _

theorem watchPort_bounded {p : Port} (hp : p.Bounded) : (watchPort p).Bounded :=
  hp.of_le (fun _ => le_rfl) (by simp [watchPort, Port.creditInUse])

theorem disablePort_bounded (c : ContextNumber) {p : Port} (hp : p.Bounded) : (disablePort c p).Bounded := by
  obtain ⟨hn, hu, hr, hc, -, -⟩ := disablePort_spec c p
  refine hp.of_le (fun d => ?_) (by simp [Port.creditInUse, hr, hc])
  cases d
  · exact hn.le
  · exact hu.le

theorem keptByEvents_bounded : KeptByEvents State.Bounded where
  toKept := kept_bounded
  beginEvent hs := { hs with }
  dequeue _ hs := { hs with }
  emit _ hs := { hs with }
  raise _ hs := { hs with }
  powerOn _ := State.bounded_powerOnReset _
  releasePin hs := by
    unfold releaseResetn
    split
    · exact { hs with clearAge := Nat.zero_le _ }
    · exact hs
  reset _ hs := hs.startDeviceReset
  enqueue h r _ _ hl hs := hs.setPort _ ((hs.ports h.port).setQueue h.cls (by simpa using hl))
  deliver p r rest hc _ hs :=
    hs.setPort p (Port.closeIfEmpty_bounded ((hs.ports p).of_le (fun _ => le_rfl) (by simp [Port.creditInUse, hc])))
  transfer h e st _ _ ha hs := hs.moveHead h _ e (Bool.and_eq_true _ _ ▸ ha : _ ∧ _).1
  openPort p _ _ hs := hs.setPort p (hs.ports p)
  closePort p _ _ hs := hs.setPort p (Port.closeIfEmpty_bounded (hs.ports p))
  bindPort p _ _ _ hs := hs.setPort p (hs.ports p)
  writeContext _ _ _ _ _ hs := { hs with }
  writeRegion i v _ _ hv hs :=
    { hs with
      regions := fun j => by
        rw [State.region_setRegion]
        split
        · exact hv
        · exact hs.regions j }
  clearCauses _ hs := { hs with }
  irqEnable _ hs := { hs with }
  timebase _ hb hs := { hs with timebase := hb }
  responseLimit _ hs := { hs with }
  operandWord _ _ hs := { hs with }
  pop _ _ hl hs := { hs with faultLog := Nat.le_of_succ_le (by simpa [hl] using hs.faultLog) }
  submit _ _ hl hs := { hs with commands := by simpa using hl }
  take _ _ hc _ hs := { hs with commands := by simpa [hc] using hs.commands }
  complete _ _ _ _ hs := { hs with commands := (List.tail_sublist _).length_le.trans hs.commands }
  recordError _ hs := { hs with }
  probe _ hs := { hs with }
  syncMarker _ hs := { hs with }
  watch hs := { hs.mapPorts watchPort fun _ hp => watchPort_bounded hp with }
  enable _ _ _ _ hs := { hs with }
  disable {s} c _ hs := by
    obtain ⟨slots, order, parked, h⟩ := disable_frame c s
    rw [h]
    exact
      { hs.mapPorts (disablePort c) fun _ hp => disablePort_bounded c hp with
        pageCache := (List.length_filter_le _ _).trans hs.pageCache
        dirCache := (List.length_filter_le _ _).trans hs.dirCache }
  drained _ _ _ hs := { hs with }
  unpark _ _ hs := { hs with }
  grantWalk {s} i w _ hroom _ _ hs := State.Bounded.issue (s := s.setSlot i _) { hs with } hroom _ _ _
  grantHead {s} h e a _ hroom hw _ _ hs := by
    have hg := hs.rememberGrant hw
    have hcredit := (State.headCandidate_iff s h).1 (State.headCandidate_of_winner hw)
    obtain ⟨u, n, r, hr⟩ := rememberGrant_frame h s
    rw [hr] at hg ⊢
    exact (hg.moveHead h _ e ((Port.hasCredit_iff _).2 hcredit.1)).issue hroom _ _ _
  answeredItem {s} t rest v st d ho _ _ hs :=
    State.Bounded.endItem (s := { s with outstanding := rest, lateCleared := false }) { hs.oldestGone ho with } _ st d
  answeredWalk t rest i ho _ _ hs := { hs.oldestGone ho with }
  endedItem t rest v ho _ hs := (hs.oldestGone ho).endItem _ _ _
  endedWalk t rest i ho _ hs := hs.oldestGone ho
  dataError v _ hs := hs.takeDataError v
  fail _ hs := { hs with }
  forgetLate hs := { hs with }
  resendClear _ hs := { hs with clearAge := Nat.zero_le _ }
  startClear _ hs := { hs with clearAge := Nat.zero_le _ }
  run _ _ hs := { hs with clearAge := Nat.zero_le _ }
  runReset _ _ _ hs := { hs with clearAge := Nat.zero_le _ }
  ages hs := hs.advanceAges
  tickLeft _ hs := { hs with }

/-- Settles O53: a collection grows only where its rule finds room, and an age stops at 65535. -/
theorem boundsKept : Obligations.BoundsKept := fun _ _ hs he => keptByEvents_bounded.step hs he

end Sys2Proof.Machine
end

section
/-! PROOFS of the family "invariants": an induction over events for the properties that hold between the operations of an event and not within one, which read
the queues, the walks, the command queue and the outstanding list only. -/

namespace Sys2Proof.Machine

/-! ## What the invariants about waiting work read -/

/-- The state without what the invariants about heads, walks, transactions and drains never read: causes, counts, settings, the caches, the fault log, and
of a context all but its state. -/
def State.workload (s : State) : State :=
  { State.powerOn with
    resetnLow := s.resetnLow
    ports := s.ports
    contexts := s.contexts.map fun c => { ContextRecord.powerOn with state := c.state }
    slots := s.slots
    startOrder := s.startOrder
    slotWait := s.slotWait
    parked := s.parked
    commands := s.commands
    memState := s.memState
    outstanding := s.outstanding }

/-- A context record that keeps its state in place of the old one leaves the workload alone (R19). -/
theorem State.workload_setContext {s : State} {c : ContextNumber} {v : ContextRecord} (hv : v.state = (s.context c).state) :
    (s.setContext c v).workload = s.workload := by
  have hmap : (s.contexts.set c.val v).map (fun d => { ContextRecord.powerOn with state := d.state }) =
      s.contexts.map fun d => { ContextRecord.powerOn with state := d.state } := by
    refine Vector.ext fun i hi => ?_
    simp only [Vector.getElem_map, Vector.getElem_set]
    split
    · rename_i hci
      subst hci
      rw [hv]
      rfl
    · rfl
  unfold State.workload State.setContext
  rw [hmap]

section
variable {s t : State} (h : t.workload = s.workload)
include h

theorem State.workload_resetnLow : t.resetnLow = s.resetnLow := by
  injection h

theorem State.workload_ports : t.ports = s.ports := by
  injection h

theorem State.workload_context_state (c : ContextNumber) : (t.context c).state = (s.context c).state := by
  have hc := congrArg (fun u => (u.context c).state) h
  simpa [State.context, State.workload] using hc

theorem State.workload_slots : t.slots = s.slots := by
  injection h

theorem State.workload_startOrder : t.startOrder = s.startOrder := by
  injection h

theorem State.workload_slotWait : t.slotWait = s.slotWait := by
  injection h

theorem State.workload_parked : t.parked = s.parked := by
  injection h

theorem State.workload_commands : t.commands = s.commands := by
  injection h

theorem State.workload_memState : t.memState = s.memState := by
  injection h

theorem State.workload_outstanding : t.outstanding = s.outstanding := by
  injection h

end

/-! ## Invariants that hold between operations -/

/-- A property that reads the workload only and that every operation of an event keeps, though it need not hold within one. `Q` is what is known at the
event's begin: it too reads the workload only, and a binding write may use it. -/
structure KeptByOperations (Q P : State → Prop) : Prop where
  side : ∀ {s t : State}, t.workload = s.workload → Q s → Q t
  frame : ∀ {s t : State}, t.workload = s.workload → P s → P t
  -- resets
  powerOn : ∀ {s : State}, P s → P (powerOnReset s)
  releasePin : ∀ {s : State}, s.resetnLow = true → P s → P (releaseResetn s)
  reset : ∀ {s : State}, P s → P (startDeviceReset s)
  -- client ports
  acceptRequest : ∀ {s : State} (p : PortNumber) (r : Request), P s → P (acceptRequest p r s)
  deliver : ∀ {s : State} (p : PortNumber) (rest : List Completion), P s →
    P (s.setPort p (Port.closeIfEmpty { s.port p with completions := rest }))
  transfer : ∀ {s : State} (h : HeadId), P s → P (transfer h s)
  portState : ∀ {s : State} (p : PortNumber) (st : PortState), P s →
    P (s.setPort p (Port.closeIfEmpty { s.port p with state := st }))
  bindPort : ∀ {s : State} (p : PortNumber) (c : ContextNumber), (s.port p).state = .closed → Q s → P s →
    P (s.setPort p { s.port p with binding := c })
  -- command unit
  submit : ∀ {s : State} (code : BitVec 8), P s → P (submit code s)
  takeCommand : ∀ {s : State}, P s → P (takeCommand s)
  -- memory port
  grant : ∀ {s : State}, P s → P (grant s)
  response : ∀ {s : State} (status : ResponseStatus) (data : List Word), P s → P (response status data s)
  fail : ∀ {s : State}, s.memState = .running → P s → P (settle (enterFailed s))
  clearedClearing : ∀ {s : State}, s.resetnLow = false → s.memState = .clearing → P s → P (clearedClearing s)
  ages : ∀ {s : State}, P s → P (advanceAges s)

namespace KeptByOperations
variable {Q P : State → Prop} (K : KeptByOperations Q P)
include K

/-- An update that leaves the workload alone by its definition. -/
theorem same {s t : State} (h : P s) (ht : t.workload = s.workload := by rfl) : P t := K.frame ht h

theorem raise (c : IrqCause) {s : State} (h : P s) : P (s.raise c) := K.same h

/-! ### Client ports -/

theorem presentRequest (p : PortNumber) (r : Request) {s : State} (h : P s) : P (Machine.presentRequest p r s) := by
  have he : P (s.emit (.answer p (s.answerFor p r))) := K.same h
  unfold Machine.presentRequest
  dsimp only
  split
  · exact K.acceptRequest p r he
  · exact he

theorem deliverRecord (p : PortNumber) {s : State} (h : P s) : P (Machine.deliver p s) := by
  unfold Machine.deliver
  split
  · exact h
  · split
    · exact K.same (K.deliver p _ h)
    · exact h

theorem openWrite (p : PortNumber) {s : State} (h : P s) : P (Machine.openPort p s) := by
  unfold Machine.openPort
  split
  · split
    · have hs := K.portState p .open_ h
      rwa [Port.closeIfEmpty, if_neg (by simp)] at hs
    · exact K.raise _ h
  · exact h

theorem closeWrite (p : PortNumber) {s : State} (h : P s) : P (Machine.closePort p s) := by
  unfold Machine.closePort
  split
  · split
    · exact K.portState p .closing h
    · exact K.raise _ h
  · exact h

theorem writePortControl (p : PortNumber) (v : Word) {s : State} (h : P s) : P (Machine.writePortControl p v s) := by
  unfold Machine.writePortControl
  split
  · exact K.openWrite p h
  · exact K.closeWrite p h
  · split
    · exact K.raise _ h
    · exact h

theorem writeBinding (p : PortNumber) (v : Word) {s : State} (hq : Q s) (h : P s) : P (Machine.writeBinding p v s) := by
  unfold Machine.writeBinding
  split
  · split
    · rename_i hc
      exact K.bindPort p _ hc hq h
    · exact K.raise _ h
  · exact h

/-! ### Command unit -/

theorem writeOperand (w : Word) {s : State} (h : P s) : P (Machine.writeOperand w s) := by
  unfold Machine.writeOperand
  split
  · exact K.same h
  · exact h

theorem submitAndTake (code : BitVec 8) {s : State} (h : P s) : P (Machine.submitAndTake code s) := by
  unfold Machine.submitAndTake
  split
  · exact K.takeCommand (K.submit code h)
  · exact K.submit code h

theorem submitWith (code : CommandCode) (w : Word) {s : State} (h : P s) : P (Machine.submitWith code w s) :=
  K.submitAndTake _ (K.writeOperand w h)

/-! ### Memory port -/

theorem compareLimit {s : State} (h : P s) : P (Machine.compareLimit s) := by
  unfold Machine.compareLimit
  split
  · rename_i hr
    split
    · exact h
    · split
      · exact K.fail hr h
      · exact h
  · split
    · exact K.same h
    · exact h
  · exact h

theorem hostClock {s : State} (h : P s) : P (Machine.hostClock s) := by
  unfold Machine.hostClock
  split
  · exact h
  · split
    · exact K.compareLimit (K.ages (K.same h))
    · exact K.same h

theorem expire {s : State} (h : P s) : P (Machine.expire s) := by
  unfold Machine.expire
  split
  · rename_i hm
    exact K.fail hm.2.1 (K.same h)
  · exact h

theorem expireClear {s : State} (h : P s) : P (Machine.expireClear s) := by
  unfold Machine.expireClear
  split
  · exact K.same h
  · exact h

theorem cleared {s : State} (h : P s) : P (Machine.cleared s) := by
  unfold Machine.cleared
  split
  · exact h
  · rename_i hp
    split
    · rename_i hm
      exact K.clearedClearing (by simpa using hp) hm h
    · rename_i hr
      split
      · exact K.same h
      · exact K.fail hr h
    · exact K.raise _ h

theorem writeTimebase (v : Word) {s : State} (h : P s) : P (Machine.writeTimebase v s) := by
  unfold Machine.writeTimebase
  split
  · split <;> exact K.same h
  · exact h

theorem writeResponseLimit (v : Word) {s : State} (h : P s) : P (Machine.writeResponseLimit v s) := by
  unfold Machine.writeResponseLimit
  split
  · exact K.compareLimit (K.same h)
  · exact h

/-! ### Resets and window -/

theorem resetnRelease {s : State} (h : P s) : P (releaseResetn s) := by
  cases hl : s.resetnLow with
  | true => exact K.releasePin hl h
  | false => simpa [releaseResetn, hl] using h

theorem deviceReset {s : State} (h : P s) : P (Machine.deviceReset s) := by
  unfold Machine.deviceReset
  split
  · exact K.reset h
  · exact h

theorem writeDeviceControl (v : Word) {s : State} (h : P s) : P (Machine.writeDeviceControl v s) := by
  unfold Machine.writeDeviceControl
  split
  · exact K.deviceReset h
  · split
    · exact K.raise _ h
    · exact h

theorem writeContextFrame (c : ContextNumber) (v : Word) {s : State} (h : P s) : P (Machine.writeContextFrame c v s) := by
  unfold Machine.writeContextFrame
  split
  · split
    · exact K.frame (State.workload_setContext rfl) h
    · exact K.raise _ h
  · exact h

theorem writeContextControl (c : ContextNumber) (v : Word) {s : State} (h : P s) :
    P (Machine.writeContextControl c v s) := by
  unfold Machine.writeContextControl
  split
  · split
    · exact K.frame (State.workload_setContext rfl) h
    · exact K.raise _ h
  · exact h

theorem writeContextWord (c : ContextNumber) (w : ContextWord) (v : Word) {s : State} (h : P s) :
    P (Machine.writeContext c w v s) := by
  cases w with
  | frame => exact K.writeContextFrame c v h
  | control => exact K.writeContextControl c v h

theorem writeRegionEntry (i : Fin 8) (v : Word) {s : State} (h : P s) : P (Machine.writeRegion i v s) := by
  unfold Machine.writeRegion
  split
  · split <;> exact K.same h
  · exact h

theorem writeInterruptStatus (v : Word) {s : State} (h : P s) : P (Machine.writeInterruptStatus v s) := by
  unfold Machine.writeInterruptStatus
  split
  · exact K.same h
  · exact h

theorem writeInterruptEnable (v : Word) {s : State} (h : P s) : P (Machine.writeInterruptEnable v s) := by
  unfold Machine.writeInterruptEnable
  split
  · exact K.same h
  · exact h

theorem popFaultLog {s : State} (h : P s) : P (Machine.popFaultLog s) := by
  unfold Machine.popFaultLog
  split
  · split <;> exact K.same h
  · exact h

/-- A well-formed write of an assigned word keeps the property (R177). -/
theorem writeRegister (r : Register) (v : Word) {s : State} (hq : Q s) (h : P s) : P (Machine.writeRegister r v s) := by
  cases r with
  | deviceControl => exact K.writeDeviceControl v h
  | interruptStatus => exact K.writeInterruptStatus v h
  | interruptEnable => exact K.writeInterruptEnable v h
  | timebase => exact K.writeTimebase v h
  | responseLimit => exact K.writeResponseLimit v h
  | portControl p => exact K.writePortControl p v h
  | portBinding p => exact K.writeBinding p v hq h
  | contextFrame c => exact K.writeContextFrame c v h
  | contextControl c => exact K.writeContextControl c v h
  | regionEntry i => exact K.writeRegionEntry i v h
  | operandWord => exact K.writeOperand v h
  | submitWord => exact K.submit _ h
  | faultLogPop => exact K.popFaultLog h
  | deviceStatus | memoryPortStatus | portStatus | commandUnitStatus | commandCounts | lastError | syncMarker | probeResult
  | faultLogStatus | faultRecord0 | faultRecord1 | faultRecord2 | parkedPlace | parkedSummary => exact h

theorem hostWrite (o : BitVec 12) (en : BitVec 4) (v : Word) {s : State} (hq : Q s) (h : P s) :
    P (Machine.hostWrite o en v s) := by
  unfold Machine.hostWrite
  split
  · split
    · exact K.raise _ h
    · exact h
  · split
    · split
      · exact K.raise _ h
      · exact h
    · exact K.writeRegister _ v hq h

theorem hostRead (o : BitVec 12) (en : BitVec 4) {s : State} (h : P s) : P (Machine.hostRead o en s) := by
  unfold Machine.hostRead
  dsimp only
  split <;> exact K.same h

/-! ### Every event and every step -/

/-- An event keeps the property. -/
theorem exec (c : Instr) {s t : State} (hq : Q s) (h : P s) (he : Machine.exec c s = .next t) : P t := by
  have hb : P s.beginEvent := K.same h
  have hqb : Q s.beginEvent := K.side (s := s) rfl hq
  cases c <;> (change Host.Outcome.next _ = Host.Outcome.next _ at he; injection he with he; subst he)
  case powerOnReset => exact K.powerOn hb
  case resetnRelease => exact K.resetnRelease hb
  case deviceReset => exact K.deviceReset hb
  case request p r => exact K.presentRequest p r hb
  case delivery p => exact K.deliverRecord p hb
  case response st d => exact K.response st d hb
  case cleared => exact K.cleared hb
  case expiry => exact K.expire hb
  case clearExpiry => exact K.expireClear hb
  case grant => exact K.grant hb
  case transfer p k => exact K.transfer _ hb
  case invalidatePage w => exact K.submitWith _ w hb
  case invalidateDirectory w => exact K.submitWith _ w hb
  case invalidateContext w => exact K.submitWith _ w hb
  case invalidateAll => exact K.submitAndTake _ hb
  case sync w => exact K.submitWith _ w hb
  case enableContext w => exact K.submitWith _ w hb
  case disableContext w => exact K.submitWith _ w hb
  case resume w => exact K.submitWith _ w hb
  case terminate w => exact K.submitWith _ w hb
  case clearMemoryPort => exact K.submitAndTake _ hb
  case probe w => exact K.submitWith _ w hb
  case unknownCode k => exact K.submitAndTake _ hb
  case openPort p => exact K.openWrite p hb
  case closePort p => exact K.closeWrite p hb
  case portBindingWrite p v => exact K.writeBinding p v hqb hb
  case contextWrite k w v => exact K.writeContextWord k w v hb
  case regionEntryWrite i v => exact K.writeRegionEntry i v hb
  case timebaseWrite v => exact K.writeTimebase v hb
  case responseLimitWrite v => exact K.writeResponseLimit v hb
  case interruptStatusClear v => exact K.writeInterruptStatus v hb
  case interruptEnableWrite v => exact K.writeInterruptEnable v hb
  case faultLogPop v => exact K.popFaultLog hb
  case registerWrite o en v => exact K.hostWrite o en v hqb hb
  case commandTake => exact K.takeCommand hb
  case malformedRead o en => exact K.hostRead o en hb

/-- A step keeps the property. -/
theorem step {s t : State} (hq : Q s) (h : P s) (he : Machine.step s = .next t) : P t := by
  unfold Machine.step at he
  split at he
  · injection he with he
    subst he
    exact K.hostClock (K.same h)
  · rename_i rest _
    have hd : Q { s with pending := rest } := K.side (s := s) rfl hq
    exact K.exec _ hd (K.same h) he

end KeptByOperations

end Sys2Proof.Machine
end

section
/-! PROOFS of the family "invariants" (R22, R141, R142, R146, R149): the order of the command queue, and the waiting DISABLE_CONTEXT. -/

namespace Sys2Proof.Machine

/-! ## The order and numbering of the command queue (R141, R142, R146) -/

theorem State.CommandsInOrder.of_fields {s t : State} (hs : s.CommandsInOrder) (hc : t.commands = s.commands)
    (ht : t.takenCount = s.takenCount) (hd : t.completedCount = s.completedCount) : t.CommandsInOrder where
  numbers := by rw [hc, hd]; exact hs.numbers
  counts := by rw [hc, ht, hd]; exact hs.counts
  head := by rw [hc]; exact hs.head

theorem State.CommandsInOrder.of_outside {s t : State} (hs : s.CommandsInOrder) (ho : t.outside = s.outside) :
    t.CommandsInOrder :=
  hs.of_fields (State.outside_commands ho) (State.outside_takenCount ho) (State.outside_completedCount ho)

/-- Both resets empty the queue and set both counts to 0 (R156). -/
theorem State.commandsInOrder_of_empty {s : State} (hc : s.commands = []) (hn : s.takenCount = s.completedCount) :
    s.CommandsInOrder where
  numbers k c hk := by simp [hc] at hk
  counts := by simp [hc, hn]
  head k c hk := by simp [hc] at hk

/-- A command that enters takes the next number at the back of the queue, not taken (R141). -/
theorem State.CommandsInOrder.enqueue {s t : State} {cmd : Command} (hs : s.CommandsInOrder)
    (hc : t.commands = s.commands ++ [cmd]) (hn : cmd.number = s.takenCount) (hu : cmd.taken = false)
    (ht : t.takenCount = s.takenCount + 1#16) (hd : t.completedCount = s.completedCount) : t.CommandsInOrder := by
  have hlast : ∀ k c, t.commands[k]? = some c → s.commands[k]? = some c ∨ (k = s.commands.length ∧ c = cmd) := by
    intro k c hk
    rw [hc] at hk
    rcases Nat.lt_trichotomy k s.commands.length with hl | hl | hl
    · rw [List.getElem?_append_left hl] at hk
      exact .inl hk
    · subst hl
      simp only [List.getElem?_concat_length, Option.some.injEq] at hk
      exact .inr ⟨rfl, hk.symm⟩
    · have hlen : s.commands.length + 1 ≤ k := hl
      rw [List.getElem?_eq_none (by simpa using hlen)] at hk
      cases hk
  constructor
  case numbers =>
    intro k c hk
    rw [hd]
    rcases hlast k c hk with hk | ⟨rfl, rfl⟩
    · exact hs.numbers k c hk
    · rw [hn, hs.counts]
  case counts =>
    rw [ht, hd, hs.counts, hc, List.length_append, List.length_singleton, BitVec.ofNat_add, BitVec.add_assoc]
  case head =>
    intro k c hk hct
    rcases hlast k c hk with hk | ⟨-, rfl⟩
    · exact hs.head k c hk hct
    · rw [hu] at hct
      cases hct

/-- A take marks the head and keeps its number (R142). -/
theorem State.CommandsInOrder.take {s t : State} {c : Command} {rest : List Command} (hs : s.CommandsInOrder)
    (hc : s.commands = c :: rest) (ht : t.commands = { c with taken := true } :: rest) (hn : t.takenCount = s.takenCount)
    (hd : t.completedCount = s.completedCount) : t.CommandsInOrder := by
  have hnumbers := hs.numbers
  have hcounts := hs.counts
  have hhead := hs.head
  rw [hc] at hnumbers hcounts hhead
  constructor
  case numbers =>
    intro k x hk
    rw [hd]
    rw [ht] at hk
    cases k with
    | zero =>
      cases hk
      exact hnumbers 0 c rfl
    | succ k => exact hnumbers (k + 1) x hk
  case counts =>
    rw [ht, hn, hd, hcounts]
    rfl
  case head =>
    intro k x hk hx
    rw [ht] at hk
    cases k with
    | zero => rfl
    | succ k => exact hhead (k + 1) x hk hx

/-- The head leaves the queue and the completed count advances past its number (R146). -/
theorem State.CommandsInOrder.completeCommand {s : State} {c : Command} {rest : List Command} (hs : s.CommandsInOrder)
    (hc : s.commands = c :: rest) : s.completeCommand.CommandsInOrder := by
  have hnumbers := hs.numbers
  have hcounts := hs.counts
  have hhead := hs.head
  rw [hc] at hnumbers hcounts hhead
  have hrest : s.completeCommand.commands = rest := by rw [State.completeCommand, hc]; rfl
  have hone : ∀ n : Nat, s.completedCount + BitVec.ofNat 16 (n + 1) = s.completedCount + 1#16 + BitVec.ofNat 16 n := by
    intro n
    rw [Nat.add_comm n 1, BitVec.ofNat_add, BitVec.add_assoc]
  constructor
  case numbers =>
    intro k x hk
    rw [hrest] at hk
    exact (hnumbers (k + 1) x hk).trans (hone k)
  case counts =>
    rw [hrest]
    exact hcounts.trans (hone rest.length)
  case head =>
    intro k x hk hx
    rw [hrest] at hk
    cases hhead (k + 1) x hk hx

theorem kept_commandsInOrder : Kept State.CommandsInOrder :=
  kept_of_outside fun ho hs => hs.of_outside ho

theorem keptByEvents_commandsInOrder : KeptByEvents State.CommandsInOrder where
  toKept := kept_commandsInOrder
  beginEvent hs := hs.of_fields rfl rfl rfl
  dequeue _ hs := hs.of_fields rfl rfl rfl
  emit _ hs := hs.of_fields rfl rfl rfl
  raise _ hs := hs.of_fields rfl rfl rfl
  powerOn _ := State.commandsInOrder_of_empty rfl rfl
  releasePin hs := by
    unfold releaseResetn
    split
    · exact hs.of_fields rfl rfl rfl
    · exact hs
  reset _ _ := State.commandsInOrder_of_empty rfl rfl
  enqueue _ _ _ _ _ hs := hs.of_fields rfl rfl rfl
  deliver _ _ _ _ _ hs := hs.of_fields rfl rfl rfl
  transfer _ _ _ _ _ _ hs := hs.of_fields rfl rfl rfl
  openPort _ _ _ hs := hs.of_fields rfl rfl rfl
  closePort _ _ _ hs := hs.of_fields rfl rfl rfl
  bindPort _ _ _ _ hs := hs.of_fields rfl rfl rfl
  writeContext _ _ _ _ _ hs := hs.of_fields rfl rfl rfl
  writeRegion _ _ _ _ _ hs := hs.of_fields rfl rfl rfl
  clearCauses _ hs := hs.of_fields rfl rfl rfl
  irqEnable _ hs := hs.of_fields rfl rfl rfl
  timebase _ _ hs := hs.of_fields rfl rfl rfl
  responseLimit _ hs := hs.of_fields rfl rfl rfl
  operandWord _ _ hs := hs.of_fields rfl rfl rfl
  pop _ _ _ hs := hs.of_fields rfl rfl rfl
  submit _ _ _ hs := hs.enqueue rfl rfl rfl rfl rfl
  take _ _ hc _ hs := hs.take hc rfl rfl rfl
  complete _ _ hc _ hs := hs.completeCommand hc
  recordError _ hs := hs.of_fields rfl rfl rfl
  probe _ hs := hs.of_fields rfl rfl rfl
  syncMarker _ hs := hs.of_fields rfl rfl rfl
  watch hs := hs.of_fields rfl rfl rfl
  enable _ _ _ _ hs := hs.of_fields rfl rfl rfl
  disable {s} c _ hs := by
    obtain ⟨slots, order, parked, h⟩ := disable_frame c s
    rw [h]
    exact hs.of_fields rfl rfl rfl
  drained _ _ _ hs := hs.of_fields rfl rfl rfl
  unpark _ _ hs := hs.of_fields rfl rfl rfl
  grantWalk _ _ _ _ _ _ hs := hs.of_fields rfl rfl rfl
  grantHead {s} h _ _ _ _ _ _ _ hs := by
    obtain ⟨u, n, r, hg⟩ := rememberGrant_frame h s
    rw [hg]
    exact hs.of_fields rfl rfl rfl
  answeredItem _ _ _ _ _ _ _ _ hs := hs.of_fields rfl rfl rfl
  answeredWalk _ _ _ _ _ _ hs := hs.of_fields rfl rfl rfl
  endedItem _ _ _ _ _ hs := hs.of_fields rfl rfl rfl
  endedWalk _ _ _ _ _ hs := hs.of_fields rfl rfl rfl
  dataError {s} v _ hs := hs.of_outside (outside_takeDataError v s)
  fail _ hs := hs.of_fields rfl rfl rfl
  forgetLate hs := hs.of_fields rfl rfl rfl
  resendClear _ hs := hs.of_fields rfl rfl rfl
  startClear _ hs := hs.of_fields rfl rfl rfl
  run _ _ hs := hs.of_fields rfl rfl rfl
  runReset _ _ _ hs := hs.of_fields rfl rfl rfl
  ages hs := hs.of_fields rfl rfl rfl
  tickLeft _ hs := hs.of_fields rfl rfl rfl

/-! ## The waiting DISABLE_CONTEXT of a DRAINING context (R22, R142, R149) -/

/-- The queue may grow at its back: what is held is at its head. -/
theorem State.DrainsHeld.of_grown {s t : State} (hs : s.DrainsHeld) (hx : t.contexts = s.contexts) {l : List Command}
    (hc : t.commands = s.commands ++ l) : t.DrainsHeld := by
  intro c hd
  rw [State.context, hx] at hd
  obtain ⟨cmd, rest, hq, hheld⟩ := hs c hd
  exact ⟨cmd, rest ++ l, by rw [hc, hq]; rfl, hheld⟩

theorem State.DrainsHeld.same {s t : State} (hs : s.DrainsHeld) (hx : t.contexts = s.contexts)
    (hc : t.commands = s.commands) : t.DrainsHeld :=
  hs.of_grown (l := []) hx (by rw [hc, List.append_nil])

theorem State.DrainsHeld.submit {s : State} (hs : s.DrainsHeld) (code : BitVec 8) : (submit code s).DrainsHeld := by
  unfold Machine.submit
  split
  · split
    · exact hs.of_grown rfl rfl
    · exact hs.same rfl rfl
  · exact hs

/-- A request, a transfer and a grant to a head are translation work around a move of one port. -/
theorem State.DrainsHeld.acceptRequest {s : State} (hs : s.DrainsHeld) (p : PortNumber) (r : Request) :
    (acceptRequest p r s).DrainsHeld := by
  unfold Machine.acceptRequest
  dsimp only
  have hq : (s.setQueue ⟨p, r.cls⟩ (s.queue ⟨p, r.cls⟩ ++ [newEntry r])).DrainsHeld := hs.same rfl rfl
  split
  · exact hq.of_outside (presentHead_outside _ _)
  · exact hq

theorem State.DrainsHeld.transfer {s : State} (hs : s.DrainsHeld) (h : HeadId) : (transfer h s).DrainsHeld := by
  unfold Machine.transfer
  split
  · rename_i e _
    split
    · rename_i st _
      split
      · have hm : (moveHead h (.done st.status none) e s).DrainsHeld := hs.same rfl rfl
        exact (hm.of_outside (presentHead_outside _ _)).settle
      · exact hs
    · exact hs
  · exact hs

theorem State.DrainsHeld.grantHead {s : State} (hs : s.DrainsHeld) (h : HeadId) : (grantHead h s).DrainsHeld := by
  unfold Machine.grantHead
  split
  · split
    · obtain ⟨u, n, r, hg⟩ := rememberGrant_frame h s
      rw [hg]
      refine State.DrainsHeld.of_outside ?_ (presentHead_outside h _)
      exact hs.same rfl rfl
    · exact hs
  · exact hs

theorem State.DrainsHeld.grant {s : State} (hs : s.DrainsHeld) : (grant s).DrainsHeld := by
  unfold Machine.grant
  split
  · split
    · unfold Machine.grantWalk
      split
      · exact hs
      · exact hs.same rfl rfl
    · exact (hs.grantHead _).settle
    · exact hs
  · exact hs

theorem State.DrainsHeld.responseRunning {s : State} (hs : s.DrainsHeld) (status : ResponseStatus) (data : List Word) :
    (responseRunning status data s).DrainsHeld := by
  unfold Machine.responseRunning
  split
  · exact hs.enterFailed
  · rename_i t rest ho
    have ht : ({ s with outstanding := rest, lateCleared := false } : State).DrainsHeld := hs.same rfl rfl
    split
    · unfold Machine.takeResponse
      split
      · split
        · exact ht.same rfl rfl
        · refine State.DrainsHeld.of_outside ?_ (outside_takeDataError _ _)
          exact ht.same rfl rfl
      · exact ht.of_outside (takeWalkResponse_outside _ _ _ _)
    · exact hs.enterFailed

theorem State.DrainsHeld.response {s : State} (hs : s.DrainsHeld) (status : ResponseStatus) (data : List Word) :
    (response status data s).DrainsHeld := by
  unfold Machine.response
  split
  · exact (hs.responseRunning status data).settle
  · exact hs

/-- A CLEAR_MEMORY_PORT completes only where it is what waits, so no context is DRAINING then (R172). -/
theorem State.DrainsHeld.clearedClearing {s : State} (hs : s.DrainsHeld) : (clearedClearing s).DrainsHeld := by
  unfold Machine.clearedClearing
  split
  · exact hs.same rfl rfl
  · split
    · rename_i hw
      exact .of_none fun c => hs.none_of_waiting (fun d => by rw [hw]; simp) c
    · exact hs.same rfl rfl

theorem keptByOperations_drainsHeld : KeptByOperations (fun _ => True) State.DrainsHeld where
  side _ _ := trivial
  frame ht hs := hs.of_fields (fun c hc => by rwa [State.workload_context_state ht] at hc) (State.workload_commands ht)
  powerOn {s} _ := .of_none fun c => by simp [powerOnReset, State.powerOn, State.context, ContextRecord.powerOn]
  releasePin hl hs := by
    rw [releaseResetn, if_pos hl]
    exact hs.same rfl rfl
  reset {s} _ := .of_none fun c => by
    simp [startDeviceReset, State.emit, State.context, ContextRecord.deviceReset]
  acceptRequest p r hs := hs.acceptRequest p r
  deliver _ _ hs := hs.same rfl rfl
  transfer h hs := hs.transfer h
  portState _ _ hs := hs.same rfl rfl
  bindPort _ _ _ _ hs := hs.same rfl rfl
  submit code hs := hs.submit code
  takeCommand hs := hs.takeCommand
  grant hs := hs.grant
  response status data hs := hs.response status data
  fail _ hs := hs.enterFailed.settle
  clearedClearing _ _ hs := hs.clearedClearing
  ages hs := hs.same rfl rfl

/-- Settles O55: the queue changes at its back by a submit and at its head by a take or a completion, and a context becomes DRAINING at the take of its
disable and leaves DRAINING with its completion. -/
theorem commandOrderKept : Obligations.CommandOrderKept :=
  ⟨fun _ _ hs he => keptByEvents_commandsInOrder.step hs he,
    fun _ _ hs he => keptByOperations_drainsHeld.step trivial hs he⟩

end Sys2Proof.Machine
end

section
/-! PROOFS of the family "invariants" (R68, R86, R88, R89, R103): the keys of the caches and of the walks. -/

namespace Sys2Proof.Machine

/-! ## Lists with distinct keys -/

/-- An entry put in front of a list that loses every entry of its key. -/
theorem pairwise_key_cons_filter {α κ : Type} (key : α → κ) (f : α → Bool) {e : α} {l : List α}
    (hf : ∀ x, f x = true → key e ≠ key x) (hl : l.Pairwise fun a b => key a ≠ key b) :
    (e :: l.filter f).Pairwise fun a b => key a ≠ key b :=
  List.pairwise_cons.2 ⟨fun x hx => hf x (List.mem_filter.1 hx).2, hl.filter f⟩

/-- A page-cache fill leaves no key twice: the entry of the key is the new one (R76). -/
theorem State.filledPages_keys {s : State} (e : PageEntry)
    (hs : s.pageCache.Pairwise fun d x => (d.context, d.page) ≠ (x.context, x.page)) :
    (s.filledPages e).Pairwise fun d x => (d.context, d.page) ≠ (x.context, x.page) := by
  unfold State.filledPages
  split
  · refine pairwise_key_cons_filter (fun x : PageEntry => (x.context, x.page)) _ (fun x hx hk => ?_) hs
    obtain ⟨hc, hp⟩ := Prod.mk.injEq _ _ _ _ ▸ hk
    simp [hc, hp] at hx
  · rename_i hmiss
    have hnone : ∀ x ∈ s.pageCache, (e.context, e.page) ≠ (x.context, x.page) := by
      intro x hx hk
      obtain ⟨hc, hp⟩ := Prod.mk.injEq _ _ _ _ ▸ hk
      have hno := List.find?_eq_none.1 (not_not.1 hmiss) x hx
      simp [PageEntry.hasKey, hc, hp] at hno
    split
    · exact List.pairwise_cons.2 ⟨hnone, hs⟩
    · exact List.pairwise_cons.2 ⟨fun x hx => hnone x (List.mem_of_mem_take hx), hs.sublist (List.take_sublist _ _)⟩

theorem State.filledDirs_keys {s : State} (e : DirEntry)
    (hs : s.dirCache.Pairwise fun d x => (d.context, d.index) ≠ (x.context, x.index)) :
    (s.filledDirs e).Pairwise fun d x => (d.context, d.index) ≠ (x.context, x.index) := by
  unfold State.filledDirs
  split
  · refine pairwise_key_cons_filter (fun x : DirEntry => (x.context, x.index)) _ (fun x hx hk => ?_) hs
    obtain ⟨hc, hp⟩ := Prod.mk.injEq _ _ _ _ ▸ hk
    simp [hc, hp] at hx
  · rename_i hmiss
    have hnone : ∀ x ∈ s.dirCache, (e.context, e.index) ≠ (x.context, x.index) := by
      intro x hx hk
      obtain ⟨hc, hp⟩ := Prod.mk.injEq _ _ _ _ ▸ hk
      have hno := List.find?_eq_none.1 (not_not.1 hmiss) x hx
      simp [DirEntry.hasKey, hc, hp] at hno
    split
    · exact List.pairwise_cons.2 ⟨hnone, hs⟩
    · exact List.pairwise_cons.2 ⟨fun x hx => hnone x (List.mem_of_mem_take hx), hs.sublist (List.take_sublist _ _)⟩

theorem State.mem_filledPages {s : State} {e x : PageEntry} (hx : x ∈ s.filledPages e) : x = e ∨ x ∈ s.pageCache := by
  unfold State.filledPages State.pageFront at hx
  split at hx
  · exact (List.mem_cons.1 hx).imp_right fun h => (List.mem_filter.1 h).1
  · split at hx
    · exact List.mem_cons.1 hx
    · exact (List.mem_cons.1 hx).imp_right List.mem_of_mem_take

theorem State.mem_filledDirs {s : State} {e x : DirEntry} (hx : x ∈ s.filledDirs e) : x = e ∨ x ∈ s.dirCache := by
  unfold State.filledDirs at hx
  split at hx
  · exact (List.mem_cons.1 hx).imp_right fun h => (List.mem_filter.1 h).1
  · split at hx
    · exact List.mem_cons.1 hx
    · exact (List.mem_cons.1 hx).imp_right List.mem_of_mem_take

/-! ## The caches and the walks of one state -/

/-- A walk as it was, as far as the soundness of the walks reads it: the same key, and not abandoned unless it has neither waiters nor a grant to wait for. -/
structure Walk.Continues (w w' : Walk) : Prop where
  context   : w'.context = w.context
  page      : w'.page = w.page
  live      : w'.abandoned = false → w.abandoned = false
  abandoned : w'.abandoned = true → w'.waiters = [] ∧ w'.awaiting = false

/-- No cache entry and no live walk of a context is left. -/
def State.Forgets (s : State) (c : ContextNumber) : Prop :=
  (∀ e ∈ s.pageCache, e.context ≠ c) ∧ (∀ e ∈ s.dirCache, e.context ≠ c) ∧
    ∀ i w, s.slot i = some w → w.context = c → w.abandoned = true

/-- Entries and walks may go, and walks may go on; a context may leave ACTIVE once nothing of it is left. -/
theorem State.CachesSound.shrink {s t : State} (hs : s.CachesSound) (hp : t.pageCache.Sublist s.pageCache)
    (hd : t.dirCache.Sublist s.dirCache) (hw : ∀ i w', t.slot i = some w' → ∃ w, s.slot i = some w ∧ w.Continues w')
    (hc : ∀ c, (s.context c).state = .active → (t.context c).state = .active ∨ t.Forgets c) : t.CachesSound where
  pageKeys := hs.pageKeys.sublist hp
  dirKeys := hs.dirKeys.sublist hd
  pageActive e he := (hc _ (hs.pageActive e (hp.subset he))).resolve_right fun h => h.1 e he rfl
  dirActive e he := (hc _ (hs.dirActive e (hd.subset he))).resolve_right fun h => h.2.1 e he rfl
  walkKeys i j v' w' hv' hw' hva hwa hcc hpp := by
    obtain ⟨v, hv, hvc⟩ := hw i v' hv'
    obtain ⟨w, hw, hwc⟩ := hw j w' hw'
    refine hs.walkKeys i j v w hv hw (hvc.live hva) (hwc.live hwa) ?_ ?_
    · rw [← hvc.context, ← hwc.context, hcc]
    · rw [← hvc.page, ← hwc.page, hpp]
  walkActive i w' hw' ha := by
    obtain ⟨w, hi, hcont⟩ := hw i w' hw'
    have hact := hs.walkActive i w hi (hcont.live ha)
    rw [← hcont.context] at hact
    refine (hc _ hact).resolve_right fun h => ?_
    rw [h.2.2 i w' hw' rfl] at ha
    cases ha
  abandoned i w' hw' ha := by
    obtain ⟨w, -, hcont⟩ := hw i w' hw'
    exact hcont.abandoned ha

theorem State.CachesSound.continues {s : State} (hs : s.CachesSound) {i : SlotNumber} {w : Walk} (hi : s.slot i = some w) :
    w.Continues w :=
  ⟨rfl, rfl, id, hs.abandoned i w hi⟩

/-- What is sound reads the caches, the slots and which contexts are ACTIVE. -/
theorem State.CachesSound.of_fields {s t : State} (hs : s.CachesSound) (hp : t.pageCache = s.pageCache)
    (hd : t.dirCache = s.dirCache) (hw : ∀ i, t.slot i = s.slot i)
    (hc : ∀ c, (s.context c).state = .active → (t.context c).state = .active) : t.CachesSound := by
  refine hs.shrink (by rw [hp]) (by rw [hd]) (fun i w' hw' => ?_) fun c h => .inl (hc c h)
  rw [hw i] at hw'
  exact ⟨w', hw', hs.continues hw'⟩

theorem State.CachesSound.same {s t : State} (hs : s.CachesSound) (hp : t.pageCache = s.pageCache)
    (hd : t.dirCache = s.dirCache) (hw : t.slots = s.slots) (hc : t.contexts = s.contexts) : t.CachesSound :=
  hs.of_fields hp hd (fun i => by rw [State.slot, hw]; rfl) fun c h => by rwa [State.context, hc]

/-- A walk in place of the one of its key (R84). -/
theorem State.CachesSound.rewalk {s : State} (hs : s.CachesSound) {i : SlotNumber} {w w' : Walk} (hi : s.slot i = some w)
    (h : w.Continues w') : (s.setSlot i (some w')).CachesSound := by
  refine hs.shrink (List.Sublist.refl _) (List.Sublist.refl _) (fun j v hv => ?_) fun c h => .inl h
  rw [State.slot_setSlot] at hv
  split at hv
  · rename_i hij
    subst hij
    cases hv
    exact ⟨w, hi, h⟩
  · exact ⟨v, hv, hs.continues hv⟩

/-- A walk started in a FREE slot for a key that no live walk has (R88, R89). -/
theorem State.CachesSound.startWalk {s : State} (hs : s.CachesSound) {i : SlotNumber} {w : Walk}
    (hno : s.findWalk w.context w.page = none) (hact : (s.context w.context).state = .active) (ha : w.abandoned = false) :
    (s.setSlot i (some w)).CachesSound := by
  have hnone := State.findWalk_none.1 hno
  constructor
  case pageKeys => exact hs.pageKeys
  case dirKeys => exact hs.dirKeys
  case pageActive => exact hs.pageActive
  case dirActive => exact hs.dirActive
  case walkKeys =>
    intro j k u v hu hv hua hva hcc hpp
    rw [State.slot_setSlot] at hu hv
    split at hu <;> split at hv
    · rename_i hij hik
      exact hij.symm.trans hik
    · cases hu
      exact absurd hpp.symm (hnone k v hv hva hcc.symm)
    · cases hv
      exact absurd hpp (hnone j u hu hua hcc)
    · exact hs.walkKeys j k u v hu hv hua hva hcc hpp
  case walkActive =>
    intro j v hv hva
    rw [State.slot_setSlot] at hv
    split at hv
    · cases hv
      exact hact
    · exact hs.walkActive j v hv hva
  case abandoned =>
    intro j v hv hva
    rw [State.slot_setSlot] at hv
    split at hv
    · cases hv
      rw [ha] at hva
      cases hva
    · exact hs.abandoned j v hv hva

/-- A page-cache entry of an ACTIVE context filled, or moved to the front (R70, R76). -/
theorem State.CachesSound.fillPage {s : State} (hs : s.CachesSound) {e : PageEntry}
    (he : (s.context e.context).state = .active) : (s.fillPage e).CachesSound := by
  rw [fillPage_eq]
  refine { hs with pageKeys := State.filledPages_keys e hs.pageKeys, pageActive := fun x hx => ?_ }
  rcases State.mem_filledPages hx with rfl | hx
  · exact he
  · exact hs.pageActive x hx

theorem State.CachesSound.fillDir {s : State} (hs : s.CachesSound) {e : DirEntry}
    (he : (s.context e.context).state = .active) : (s.fillDir e).CachesSound := by
  rw [fillDir_eq]
  refine { hs with dirKeys := State.filledDirs_keys e hs.dirKeys, dirActive := fun x hx => ?_ }
  rcases State.mem_filledDirs hx with rfl | hx
  · exact he
  · exact hs.dirActive x hx

/-- A hit is a fill with the entry held (R70). -/
theorem State.touchPage_eq_fillPage {s : State} {e : PageEntry} (he : e ∈ s.pageCache) : s.touchPage e = s.fillPage e := by
  unfold State.fillPage
  split
  · rfl
  · rename_i hmiss
    have := List.find?_eq_none.1 hmiss e he
    simp [PageEntry.hasKey] at this

theorem State.touchDir_eq_fillDir {s : State} {e : DirEntry} (he : e ∈ s.dirCache) : s.touchDir e = s.fillDir e := by
  unfold State.fillDir
  split
  · rfl
  · rename_i hmiss
    have := List.find?_eq_none.1 hmiss e he
    simp [DirEntry.hasKey] at this

/-- Both resets leave no entry and no walk (R69, R87). -/
theorem State.cachesSound_of_empty {s : State} (hp : s.pageCache = []) (hd : s.dirCache = []) (hw : ∀ i, s.slot i = none) :
    s.CachesSound := by
  constructor <;> simp [hp, hd, hw]

/-! ## Translation work -/

theorem kept_cachesSound : Kept State.CachesSound where
  head _ _ hs := hs.same rfl rfl rfl rfl
  fault {s} cause h hs := by
    obtain ⟨hp, hd⟩ := takeHeadFault_caches cause h s
    refine hs.of_fields hp hd (fun i => State.slot_takeHeadFault cause h s i) fun c hc => ?_
    rwa [State.outside_context (outside_takeHeadFault cause h s)]
  touchPage he hs := by
    rw [State.touchPage_eq_fillPage he]
    exact hs.fillPage (hs.pageActive _ he)
  touchDir he hs := by
    rw [State.touchDir_eq_fillDir he]
    exact hs.fillDir (hs.dirActive _ he)
  wait _ _ hs := hs.same rfl rfl rfl rfl
  start i w h _ hno hact _ ha _ _ hs := (hs.startWalk (i := i) hno hact ha).same rfl rfl rfl rfl
  join i w h hi ha hs := by
    refine State.CachesSound.same (s := State.setSlot i _ _) (hs.rewalk hi (w' := { w with waiters := w.waiters ++ [h] }) ?_)
      rfl rfl rfl rfl
    exact ⟨rfl, rfl, fun _ => ha, fun h => by rw [ha] at h; cases h⟩
  popWait _ hs := hs.same rfl rfl rfl rfl
  release i hs := by
    refine hs.shrink (List.Sublist.refl _) (List.Sublist.refl _) (fun j w hw => ?_) fun c h => .inl h
    rw [State.slot_releaseSlot] at hw
    split at hw
    · cases hw
    · exact ⟨w, hw, hs.continues hw⟩
  removePage _ _ hs :=
    hs.shrink List.filter_sublist (List.Sublist.refl _) (fun i w hw => ⟨w, hw, hs.continues hw⟩) fun c h => .inl h
  removeScope _ hs :=
    hs.shrink List.filter_sublist List.filter_sublist (fun i w hw => ⟨w, hw, hs.continues hw⟩) fun c h => .inl h
  rewalk w' hi ha hc hp _ _ ha' hs := hs.rewalk hi ⟨hc, hp, fun _ => ha, fun h => by rw [ha'] at h; cases h⟩
  fillPage f word hi ha hs := hs.fillPage (hs.walkActive _ _ hi ha)
  fillDir f hi ha hs := hs.fillDir (hs.walkActive _ _ hi ha)

/-! ## Events -/

/-- A context that is not ACTIVE may take any state: nothing is held of it. -/
theorem State.CachesSound.setContext {s : State} (hs : s.CachesSound) {c : ContextNumber} (v : ContextRecord)
    (hc : (s.context c).state ≠ .active) : (s.setContext c v).CachesSound := by
  refine hs.of_fields rfl rfl (fun _ => rfl) fun d hd => ?_
  rw [State.context_setContext]
  split
  · rename_i hcd
    subst hcd
    exact absurd hd hc
  · exact hd

/-- The walks a SYNC watches go on (R151). -/
theorem State.CachesSound.formWatchSet {s : State} (hs : s.CachesSound) : (formWatchSet s).CachesSound := by
  refine hs.shrink (List.Sublist.refl _) (List.Sublist.refl _) (fun i w' hw' => ?_) fun c h => .inl h
  rw [show (Machine.formWatchSet s).slot i = (s.slot i).map fun v => { v with watched := true } by
    simp [Machine.formWatchSet, State.slot, watchWalk]] at hw'
  obtain ⟨w, hw, rfl⟩ := Option.map_eq_some_iff.1 hw'
  exact ⟨w, hw, rfl, rfl, id, hs.abandoned i w hw⟩

/-- An abandoned walk has no waiters, and its transaction is outstanding (R103). -/
theorem abandonedWalk_continues {c : ContextNumber} {o : Option Walk} {w' : Walk} (h : abandonedWalk c o = some w') :
    ∃ w, o = some w ∧ (w.context = c → w'.abandoned = true ∧ w'.waiters = [] ∧ w'.awaiting = false) ∧
      (w.context ≠ c → w' = w) ∧ w'.context = w.context ∧ w'.page = w.page := by
  cases o with
  | none => cases h
  | some w =>
    refine ⟨w, rfl, ?_⟩
    simp only [abandonedWalk] at h
    split at h
    · rename_i hc
      split at h
      · cases h
      · rename_i hn
        cases h
        exact ⟨fun _ => ⟨rfl, rfl, by simpa using hn⟩, fun hne => absurd hc hne, rfl, rfl⟩
    · rename_i hc
      cases h
      exact ⟨fun h => absurd h hc, fun _ => rfl, rfl, rfl⟩

/-- A disable takes every entry of its context and abandons every walk of it, before the context is DRAINING (R22, R103). -/
theorem State.CachesSound.disable {s : State} (hs : s.CachesSound) (c : ContextNumber) :
    (disableQueues c (abandonWalks c
      ((s.setContext c { s.context c with state := .draining }).removeScope (.context c)))).CachesSound := by
  have hslot : ∀ i, (disableQueues c (abandonWalks c
      ((s.setContext c { s.context c with state := .draining }).removeScope (.context c)))).slot i =
      abandonedWalk c (s.slot i) := by
    intro i
    rw [(disableQueues_spec c _).2.1 i, slot_abandonWalks]
    rfl
  obtain ⟨slots, order, parked, hf⟩ := disable_frame c s
  rw [hf] at hslot ⊢
  refine hs.shrink List.filter_sublist List.filter_sublist (fun i w' hw' => ?_) fun d hd => ?_
  · obtain ⟨w, hi, habandoned, hsame, hctx, hpage⟩ := abandonedWalk_continues ((hslot i).symm.trans hw')
    refine ⟨w, hi, hctx, hpage, fun ha => ?_, fun ha => ?_⟩
    · by_cases hwc : w.context = c
      · rw [(habandoned hwc).1] at ha
        cases ha
      · rwa [hsame hwc] at ha
    · by_cases hwc : w.context = c
      · exact (habandoned hwc).2
      · rw [hsame hwc] at ha ⊢
        exact hs.abandoned i w hi ha
  · by_cases hdc : c = d
    · subst hdc
      refine .inr ⟨fun e he => ?_, fun e he => ?_, fun i w' hw' hwc => ?_⟩
      · simpa [Scope.covers] using (List.mem_filter.1 he).2
      · simpa [Scope.coversDir] using (List.mem_filter.1 he).2
      · obtain ⟨w, -, habandoned, -, hctx, -⟩ := abandonedWalk_continues ((hslot i).symm.trans hw')
        exact (habandoned (hctx ▸ hwc)).1
    · left
      show ((s.setContext c _).context d).state = .active
      rw [State.context_setContext, if_neg hdc]
      exact hd

theorem keptByEvents_cachesSound : KeptByEvents State.CachesSound where
  toKept := kept_cachesSound
  beginEvent hs := hs.same rfl rfl rfl rfl
  dequeue _ hs := hs.same rfl rfl rfl rfl
  emit _ hs := hs.same rfl rfl rfl rfl
  raise _ hs := hs.same rfl rfl rfl rfl
  powerOn _ := State.cachesSound_of_empty rfl rfl fun i => by simp [State.slot, powerOnReset, State.powerOn]
  releasePin hs := by
    unfold releaseResetn
    split
    · exact hs.same rfl rfl rfl rfl
    · exact hs
  reset _ _ := State.cachesSound_of_empty rfl rfl fun i => by simp [State.slot, startDeviceReset, State.emit]
  enqueue _ _ _ _ _ hs := hs.same rfl rfl rfl rfl
  deliver _ _ _ _ _ hs := hs.same rfl rfl rfl rfl
  transfer _ _ _ _ _ _ hs := hs.same rfl rfl rfl rfl
  openPort _ _ _ hs := hs.same rfl rfl rfl rfl
  closePort _ _ _ hs := hs.same rfl rfl rfl rfl
  bindPort _ _ _ _ hs := hs.same rfl rfl rfl rfl
  writeContext _ v _ hoff _ hs := hs.setContext v (by rw [hoff]; decide)
  writeRegion _ _ _ _ _ hs := hs.same rfl rfl rfl rfl
  clearCauses _ hs := hs.same rfl rfl rfl rfl
  irqEnable _ hs := hs.same rfl rfl rfl rfl
  timebase _ _ hs := hs.same rfl rfl rfl rfl
  responseLimit _ hs := hs.same rfl rfl rfl rfl
  operandWord _ _ hs := hs.same rfl rfl rfl rfl
  pop _ _ _ hs := hs.same rfl rfl rfl rfl
  submit _ _ _ hs := hs.same rfl rfl rfl rfl
  take _ _ _ _ hs := hs.same rfl rfl rfl rfl
  complete _ _ _ _ hs := hs.same rfl rfl rfl rfl
  recordError _ hs := hs.same rfl rfl rfl rfl
  probe _ hs := hs.same rfl rfl rfl rfl
  syncMarker _ hs := hs.same rfl rfl rfl rfl
  watch hs := hs.formWatchSet
  enable c _ hoff _ hs := hs.setContext _ (by rw [hoff]; decide)
  disable c _ hs := hs.disable c
  drained c hd _ hs := hs.setContext _ (by rw [hd]; decide)
  unpark _ _ hs := hs.same rfl rfl rfl rfl
  grantWalk {s} i w _ _ hi ha hs := by
    refine State.CachesSound.same (s := s.setSlot i _) (hs.rewalk hi (w' := { w with awaiting := false }) ?_) rfl rfl rfl rfl
    refine ⟨rfl, rfl, id, fun hab => ?_⟩
    rw [(hs.abandoned i w hi hab).2] at ha
    cases ha
  grantHead {s} h _ _ _ _ _ _ _ hs := by
    obtain ⟨u, n, r, hg⟩ := rememberGrant_frame h s
    rw [hg]
    exact hs.same rfl rfl rfl rfl
  answeredItem _ _ _ _ _ _ _ _ hs := hs.same rfl rfl rfl rfl
  answeredWalk _ _ _ _ _ _ hs := hs.same rfl rfl rfl rfl
  endedItem _ _ _ _ _ hs := hs.same rfl rfl rfl rfl
  endedWalk _ _ _ _ _ hs := hs.same rfl rfl rfl rfl
  dataError v _ hs := by
    unfold takeDataError
    split <;> exact hs.same rfl rfl rfl rfl
  fail _ hs := hs.same rfl rfl rfl rfl
  forgetLate hs := hs.same rfl rfl rfl rfl
  resendClear _ hs := hs.same rfl rfl rfl rfl
  startClear _ hs := hs.same rfl rfl rfl rfl
  run _ _ hs := hs.same rfl rfl rfl rfl
  runReset _ _ _ hs := hs.same rfl rfl rfl rfl
  ages hs := hs.same rfl rfl rfl rfl
  tickLeft _ hs := hs.same rfl rfl rfl rfl

/-- Settles O56: a key enters a cache or the slots only where it is not held, of an ACTIVE context, and a context leaves ACTIVE with nothing of it left. -/
theorem cachesAndWalksKept : Obligations.CachesAndWalksKept := fun _ _ hs he => keptByEvents_cachesSound.step hs he

end Sys2Proof.Machine
end

section
/-! PROOFS of the family "invariants" (R31, R39, R174, R179, R180): CLOSED ports are empty, and the part is quiet while RESETTING. -/

namespace Sys2Proof.Machine

/-! ## CLOSED ports are empty (R31, R39) -/

theorem Port.isEmpty_iff (p : Port) : p.isEmpty = true ↔ (∀ c, p.queues.get c = []) ∧ p.creditInUse = 0 := by
  have hq : (∀ c, p.queues.get c = []) ↔ p.queues.normal = [] ∧ p.queues.urgent = [] :=
    ⟨fun h => ⟨h .normal, h .urgent⟩, fun ⟨hn, hu⟩ c => by cases c <;> assumption⟩
  rw [hq]
  simp only [Port.isEmpty, Port.creditInUse, Bool.and_eq_true, List.isEmpty_iff, Nat.add_eq_zero_iff, List.length_eq_zero_iff]
  tauto

/-- A port no fuller than an empty one is empty. -/
theorem Port.isEmpty_of_le {p v : Port} (hp : p.isEmpty = true)
    (hq : ∀ c, (v.queues.get c).length ≤ (p.queues.get c).length) (hc : v.creditInUse ≤ p.creditInUse) :
    v.isEmpty = true := by
  rw [Port.isEmpty_iff] at hp ⊢
  refine ⟨fun c => List.length_eq_zero_iff.1 (Nat.le_zero.1 ?_), Nat.le_zero.1 (hp.2 ▸ hc)⟩
  have hle := hq c
  rwa [hp.1 c] at hle

/-- The end of a drain closes an empty port only (R39). -/
theorem Port.closeIfEmpty_closed {p : Port} (h : p.closeIfEmpty.state = .closed) :
    p.state = .closed ∨ p.closeIfEmpty.isEmpty = true := by
  unfold Port.closeIfEmpty at h ⊢
  split
  · rename_i hp
    exact .inr hp.2
  · rename_i hp
    rw [if_neg hp] at h
    exact .inl h

/-- Every CLOSED port was CLOSED before and is no fuller. -/
theorem State.ClosedEmpty.of_ports {s t : State} (hs : s.ClosedEmpty)
    (h : ∀ p, (t.port p).state = .closed → (s.port p).state = .closed ∧
      (∀ c, ((t.port p).queues.get c).length ≤ ((s.port p).queues.get c).length) ∧
      (t.port p).creditInUse ≤ (s.port p).creditInUse) : t.ClosedEmpty := by
  intro p hp
  obtain ⟨hc, hq, hcr⟩ := h p hp
  exact Port.isEmpty_of_le (hs p hc) hq hcr

theorem State.ClosedEmpty.same {s t : State} (hs : s.ClosedEmpty) (h : t.ports = s.ports) : t.ClosedEmpty := by
  intro p hp
  rw [State.port, h] at hp ⊢
  exact hs p hp

theorem State.ClosedEmpty.setPort {s : State} (hs : s.ClosedEmpty) (p : PortNumber) {v : Port}
    (hv : v.state = .closed → v.isEmpty = true) : (s.setPort p v).ClosedEmpty := by
  intro q hq
  rw [State.port_setPort] at hq ⊢
  split at hq
  · rename_i hpq
    rw [if_pos hpq]
    exact hv hq
  · rename_i hpq
    rw [if_neg hpq]
    exact hs q hq

theorem State.ClosedEmpty.of_outside {s t : State} (hs : s.ClosedEmpty) (ho : t.outside = s.outside) : t.ClosedEmpty := by
  refine hs.of_ports fun p hp => ⟨by rwa [← State.outside_portState ho], fun c => ?_, (State.outside_creditInUse ho p).le⟩
  exact (State.outside_queue_length ho ⟨p, c⟩).le

/-- A port with a head is not CLOSED. -/
theorem State.ClosedEmpty.not_closed {s : State} (hs : s.ClosedEmpty) {h : HeadId} {e : Entry} (he : s.head? h = some e) :
    (s.port h.port).state ≠ .closed := by
  intro hc
  have hq : s.queue h = [] := ((Port.isEmpty_iff _).1 (hs _ hc)).1 h.cls
  simp [State.head?, hq] at he

theorem State.ClosedEmpty.moveHead {s : State} (hs : s.ClosedEmpty) {h : HeadId} {e : Entry} (he : s.head? h = some e)
    (state : ItemState) : (moveHead h state e s).ClosedEmpty :=
  hs.setPort _ fun hc => absurd hc (hs.not_closed he)

theorem State.ClosedEmpty.endItem {s : State} (hs : s.ClosedEmpty) (h : HeadId) (st : Status) (d : Option (List Word)) :
    (s.endItem h st d).ClosedEmpty := by
  refine hs.of_ports fun p hp => ?_
  obtain ⟨hc, hq, hst, -⟩ := State.endItem_port h st d p s
  exact ⟨by rwa [← hst], fun c => by rw [hq], hc.le⟩

/-- A map of the ports that keeps their states and fills none. -/
theorem State.ClosedEmpty.mapPorts {s t : State} (hs : s.ClosedEmpty) {f : Port → Port} (h : t.ports = s.ports.map f)
    (hf : ∀ p, (f p).state = p.state ∧ (∀ c, ((f p).queues.get c).length ≤ (p.queues.get c).length) ∧
      (f p).creditInUse ≤ p.creditInUse) : t.ClosedEmpty := by
  have hport : ∀ p, t.port p = f (s.port p) := fun p => by simp [State.port, h]
  refine hs.of_ports fun p hp => ?_
  obtain ⟨hst, hq, hc⟩ := hf (s.port p)
  rw [hport p] at hp ⊢
  exact ⟨hst ▸ hp, hq, hc⟩

theorem kept_closedEmpty : Kept State.ClosedEmpty := kept_of_outside fun ho hs => hs.of_outside ho

theorem keptByEvents_closedEmpty : KeptByEvents State.ClosedEmpty where
  toKept := kept_closedEmpty
  beginEvent hs := hs.same rfl
  dequeue _ hs := hs.same rfl
  emit _ hs := hs.same rfl
  raise _ hs := hs.same rfl
  powerOn _ p _ := by rw [port_powerOnReset]; rfl
  releasePin hs := by
    unfold releaseResetn
    split
    · exact hs.same rfl
    · exact hs
  reset _ _ p _ := by rw [port_startDeviceReset]; rfl
  enqueue h r _ ho _ hs := hs.setPort _ fun hc => by
    have hc' : (_ : PortState) = .closed := hc
    rw [ho] at hc'
    cases hc'
  deliver p r rest hr _ hs := hs.setPort p fun hc => by
    rcases Port.closeIfEmpty_closed hc with hc | he
    · have hempty := ((Port.isEmpty_iff _).1 (hs p hc)).2
      simp [Port.creditInUse, hr] at hempty
    · exact he
  transfer h e st he _ _ hs := hs.moveHead he _
  openPort p _ _ hs := hs.setPort p fun hc => by cases hc
  closePort p _ _ hs := hs.setPort p fun hc => (Port.closeIfEmpty_closed hc).resolve_left (by simp)
  bindPort p c _ _ hs := hs.setPort p (hs p)
  writeContext _ _ _ _ _ hs := hs.same rfl
  writeRegion _ _ _ _ _ hs := hs.same rfl
  clearCauses _ hs := hs.same rfl
  irqEnable _ hs := hs.same rfl
  timebase _ _ hs := hs.same rfl
  responseLimit _ hs := hs.same rfl
  operandWord _ _ hs := hs.same rfl
  pop _ _ _ hs := hs.same rfl
  submit _ _ _ hs := hs.same rfl
  take _ _ _ _ hs := hs.same rfl
  complete _ _ _ _ hs := hs.same rfl
  recordError _ hs := hs.same rfl
  probe _ hs := hs.same rfl
  syncMarker _ hs := hs.same rfl
  watch hs := hs.mapPorts rfl fun p => ⟨rfl, fun _ => le_rfl, by simp [watchPort, Port.creditInUse]⟩
  enable _ _ _ _ hs := hs.same rfl
  disable {s} c _ hs := by
    obtain ⟨slots, order, parked, h⟩ := disable_frame c s
    rw [h]
    refine hs.mapPorts (f := disablePort c) rfl fun p => ?_
    obtain ⟨hn, hu, hr, hc, hst, -⟩ := disablePort_spec c p
    refine ⟨hst, fun d => ?_, by simp [Port.creditInUse, hr, hc]⟩
    cases d
    · exact hn.le
    · exact hu.le
  drained _ _ _ hs := hs.same rfl
  unpark _ _ hs := hs.same rfl
  grantWalk _ _ _ _ _ _ hs := hs.same rfl
  grantHead {s} h e _ _ _ _ he _ hs := by
    obtain ⟨u, n, r, hg⟩ := rememberGrant_frame h s
    rw [hg]
    refine State.ClosedEmpty.same (s := moveHead h _ e { s with lastUrgent := u, lastNormal := n, runCount := r }) ?_ rfl
    exact State.ClosedEmpty.moveHead (hs.same rfl) he _
  answeredItem {s} t rest v st d _ _ _ hs :=
    State.ClosedEmpty.endItem (s := { s with outstanding := rest, lateCleared := false }) (hs.same rfl) _ st d
  answeredWalk _ _ _ _ _ _ hs := hs.same rfl
  endedItem {s} t rest v _ _ hs := State.ClosedEmpty.endItem (s := { s with outstanding := rest }) (hs.same rfl) _ _ _
  endedWalk _ _ _ _ _ hs := hs.same rfl
  dataError {s} v _ hs := hs.of_outside (outside_takeDataError v s)
  fail _ hs := hs.same rfl
  forgetLate hs := hs.same rfl
  resendClear _ hs := hs.same rfl
  startClear _ hs := hs.same rfl
  run _ _ hs := hs.same rfl
  runReset _ _ _ hs := hs.same rfl
  ages hs := hs.same rfl
  tickLeft _ hs := hs.same rfl

/-! ## The quiet of RESETTING (R18, R63, R69, R87, R123, R133, R156, R174) -/

theorem State.Quiet.no_slot {s : State} (hq : s.Quiet) {i : SlotNumber} {w : Walk} (hi : s.slot i = some w) : False := by
  rw [hq.walker.1 i] at hi
  cases hi

theorem State.Quiet.not_running {s : State} (hq : s.Quiet) (hr : s.memState = .running) : False := by
  rw [hq.memory.1] at hr
  cases hr

theorem State.Quiet.no_transaction {s : State} (hq : s.Quiet) {t : Transaction} {rest : List Transaction}
    (ho : s.outstanding = t :: rest) : False := by
  rw [hq.memory.2] at ho
  cases ho

theorem State.Quiet.no_command {s : State} (hq : s.Quiet) {c : Command} {rest : List Command} (hc : s.commands = c :: rest) :
    False := by
  rw [hq.commands] at hc
  cases hc

/-- While the part is quiet and CLOSED ports are empty no queue has a head. -/
theorem State.Quiet.no_head {s : State} (hq : s.Quiet) (hc : s.ClosedEmpty) (h : HeadId) : s.head? h = none := by
  cases he : s.head? h with
  | none => rfl
  | some e => exact absurd (hq.ports h.port) (hc.not_closed he)

/-- The quiet reads no cause, count or setting. -/
theorem State.Quiet.same {s t : State} (hq : s.Quiet) (hm : t.memState = s.memState) (ho : t.outstanding = s.outstanding)
    (hp : ∀ p, (t.port p).state = (s.port p).state) (hx : t.contexts = s.contexts) (hw : ∀ i, t.slot i = s.slot i)
    (hs : t.startOrder = s.startOrder) (hl : t.slotWait = s.slotWait) (hpc : t.pageCache = s.pageCache)
    (hdc : t.dirCache = s.dirCache) (hf : t.faultLog = s.faultLog) (hk : t.parked = s.parked)
    (hc : t.commands = s.commands) : t.Quiet where
  memory := by rw [hm, ho]; exact hq.memory
  ports p := by rw [hp]; exact hq.ports p
  contexts c := by rw [State.context, hx]; exact hq.contexts c
  walker := ⟨fun i => by rw [hw]; exact hq.walker.1 i, by rw [hs]; exact hq.walker.2.1, by rw [hl]; exact hq.walker.2.2⟩
  caches := by rw [hpc, hdc]; exact hq.caches
  faults := ⟨by rw [hf]; exact hq.faults.1, fun h => by rw [State.parkedPlace, hk]; exact hq.faults.2 h⟩
  commands := by rw [hc]; exact hq.commands

/-- An update that leaves all of this alone keeps the quiet while RESETTING. -/
theorem State.ResetsQuiet.keep {s t : State} (hs : s.ResetsQuiet) (hc : t.ClosedEmpty) (hl : t.resetnLow = s.resetnLow)
    (hd : t.device = s.device) (hq : s.Quiet → t.Quiet) : t.ResetsQuiet where
  pin h := by rw [hd]; exact hs.pin (hl ▸ h)
  quiet h := hq (hs.quiet (hd ▸ h))
  closed := hc

/-- An update that the quiet excludes. -/
theorem State.ResetsQuiet.loud {s t : State} (hs : s.ResetsQuiet) (hc : t.ClosedEmpty) (hl : t.resetnLow = s.resetnLow)
    (hd : t.device = s.device) (hq : s.Quiet → False) : t.ResetsQuiet :=
  hs.keep hc hl hd fun h => (hq h).elim

/-- An update of a part that is READY. -/
theorem State.ResetsQuiet.ready {s t : State} (hs : s.ResetsQuiet) (hc : t.ClosedEmpty) (hr : s.ready = true)
    (hl : t.resetnLow = s.resetnLow) (hd : t.device = s.device) : t.ResetsQuiet := by
  have hready : s.device = .ready := by
    simp only [State.ready, Bool.and_eq_true, beq_iff_eq] at hr
    exact hr.2
  refine ⟨fun h => ?_, fun h => ?_, hc⟩
  · rw [hd]
    exact hs.pin (hl ▸ h)
  · rw [hd, hready] at h
    cases h

theorem kept_resetsQuiet : Kept State.ResetsQuiet where
  head {s} h st hs := by
    have hc := kept_closedEmpty.head h st hs.closed
    refine hs.keep hc rfl rfl fun hq => hq.same rfl rfl (fun p => ?_) rfl (fun _ => rfl) rfl rfl rfl rfl rfl rfl rfl
    exact State.outside_portState (State.outside_setHeadState h st s) p
  fault {s} cause h hs := by
    have hc := kept_closedEmpty.fault cause h hs.closed
    have ho := outside_takeHeadFault cause h s
    refine hs.keep hc (State.outside_resetnLow ho) (State.outside_device ho) fun hq => ?_
    rwa [takeHeadFault, hq.no_head hs.closed h]
  touchPage he hs :=
    hs.loud (kept_closedEmpty.touchPage he hs.closed) rfl rfl fun hq => by rw [hq.caches.1] at he; cases he
  touchDir he hs := hs.loud (kept_closedEmpty.touchDir he hs.closed) rfl rfl fun hq => by rw [hq.caches.2] at he; cases he
  wait h hf hs :=
    hs.loud (kept_closedEmpty.wait h hf hs.closed) rfl rfl fun hq => State.freeSlot?_none.1 hf 0 (hq.walker.1 0)
  start i w h hi hno hact hr ha hg hw hs :=
    hs.loud (kept_closedEmpty.start i w h hi hno hact hr ha hg hw hs.closed) rfl rfl fun hq => hq.not_running hr
  join i w h hi ha hs := hs.loud (kept_closedEmpty.join i w h hi ha hs.closed) rfl rfl fun hq => hq.no_slot hi
  popWait hw hs := hs.loud (kept_closedEmpty.popWait hw hs.closed) rfl rfl fun hq => by rw [hq.walker.2.2] at hw; cases hw
  release {s} i hs := by
    refine hs.keep (kept_closedEmpty.release i hs.closed) rfl rfl fun hq => { hq with walker := ⟨fun j => ?_, ?_, ?_⟩ }
    · rw [State.slot_releaseSlot]
      split
      · rfl
      · exact hq.walker.1 j
    · show s.startOrder.filter _ = []
      rw [hq.walker.2.1]
      rfl
    · exact hq.walker.2.2
  removePage {s} c p hs :=
    hs.keep (kept_closedEmpty.removePage c p hs.closed) rfl rfl fun hq =>
      { hq with caches := ⟨by rw [State.removePage, hq.caches.1]; rfl, hq.caches.2⟩ }
  removeScope {s} sc hs :=
    hs.keep (kept_closedEmpty.removeScope sc hs.closed) rfl rfl fun hq =>
      { hq with caches := ⟨by rw [State.removeScope, hq.caches.1]; rfl, by rw [State.removeScope, hq.caches.2]; rfl⟩ }
  rewalk w' hi ha hc hp hk hw ha' hs :=
    hs.loud (kept_closedEmpty.rewalk w' hi ha hc hp hk hw ha' hs.closed) rfl rfl fun hq => hq.no_slot hi
  fillPage f word hi ha hs := by
    have hc := kept_closedEmpty.fillPage f word hi ha hs.closed
    rw [fillPage_eq] at hc ⊢
    exact hs.loud hc rfl rfl fun hq => hq.no_slot hi
  fillDir f hi ha hs := by
    have hc := kept_closedEmpty.fillDir f hi ha hs.closed
    rw [fillDir_eq] at hc ⊢
    exact hs.loud hc rfl rfl fun hq => hq.no_slot hi

/-- The part right at a reset: everything cleared (R174, R179, R180). -/
theorem State.quiet_powerOnReset (s : State) : (powerOnReset s).Quiet where
  memory := ⟨rfl, rfl⟩
  ports p := by rw [port_powerOnReset]; rfl
  contexts c := by simp [powerOnReset, State.powerOn, State.context, ContextRecord.powerOn]
  walker := ⟨fun i => by simp [State.slot, powerOnReset, State.powerOn], rfl, rfl⟩
  caches := ⟨rfl, rfl⟩
  faults := ⟨rfl, fun h => by cases hc : h.cls <;> simp [State.parkedPlace, powerOnReset, State.powerOn, PerClass.get, hc]⟩
  commands := rfl

theorem State.quiet_startDeviceReset (s : State) : (startDeviceReset s).Quiet where
  memory := ⟨rfl, rfl⟩
  ports p := by rw [port_startDeviceReset]; rfl
  contexts c := by simp [startDeviceReset, State.emit, State.context, ContextRecord.deviceReset]
  walker := ⟨fun i => by simp [State.slot, startDeviceReset, State.emit], rfl, rfl⟩
  caches := ⟨rfl, rfl⟩
  faults := ⟨rfl, fun h => by
    cases hc : h.cls <;> simp [State.parkedPlace, startDeviceReset, State.emit, PerClass.get, hc]⟩
  commands := rfl

theorem State.ResetsQuiet.releasePin {s : State} (hs : s.ResetsQuiet) : (releaseResetn s).ResetsQuiet := by
  have hc := keptByEvents_closedEmpty.releasePin hs.closed
  cases hl : s.resetnLow with
  | false => simpa [releaseResetn, hl] using hs
  | true =>
    have hq := hs.quiet (hs.pin hl)
    rw [releaseResetn, if_pos hl] at hc ⊢
    exact ⟨fun h => (by cases h), fun _ => { hq with memory := ⟨rfl, hq.memory.2⟩ }, hc⟩

theorem State.ResetsQuiet.watch {s : State} (hs : s.ResetsQuiet) : (formWatchSet s).ResetsQuiet := by
  refine hs.keep (keptByEvents_closedEmpty.watch hs.closed) rfl rfl fun hq => ?_
  refine hq.same rfl rfl (fun p => ?_) rfl (fun i => ?_) rfl rfl rfl rfl rfl rfl rfl
  · simp [formWatchSet, State.port, watchPort]
  · have hi : s.slots[i.val] = none := hq.walker.1 i
    simp [formWatchSet, State.slot, watchWalk, hi]

theorem keptByEvents_resetsQuiet : KeptByEvents State.ResetsQuiet where
  toKept := kept_resetsQuiet
  beginEvent hs := hs.keep (hs.closed.same rfl) rfl rfl fun hq => { hq with }
  dequeue _ hs := hs.keep (hs.closed.same rfl) rfl rfl fun hq => { hq with }
  emit _ hs := hs.keep (hs.closed.same rfl) rfl rfl fun hq => { hq with }
  raise _ hs := hs.keep (hs.closed.same rfl) rfl rfl fun hq => { hq with }
  powerOn hs := ⟨fun _ => rfl, fun _ => State.quiet_powerOnReset _, keptByEvents_closedEmpty.powerOn hs.closed⟩
  releasePin hs := hs.releasePin
  reset {s} hr hs := by
    refine ⟨fun hl => ?_, fun _ => State.quiet_startDeviceReset s, keptByEvents_closedEmpty.reset hr hs.closed⟩
    have hlow : s.resetnLow = true := hl
    simp [State.ready, hlow] at hr
  enqueue h r hr ho hl hs := hs.ready (keptByEvents_closedEmpty.enqueue h r hr ho hl hs.closed) hr rfl rfl
  deliver p r rest hc hr hs := hs.ready (keptByEvents_closedEmpty.deliver p r rest hc hr hs.closed) hr rfl rfl
  transfer h e st he hst ha hs :=
    hs.loud (keptByEvents_closedEmpty.transfer h e st he hst ha hs.closed) rfl rfl fun hq => by
      rw [hq.no_head hs.closed h] at he
      cases he
  openPort p hr ho hs := hs.ready (keptByEvents_closedEmpty.openPort p hr ho hs.closed) hr rfl rfl
  closePort p hr ho hs := hs.ready (keptByEvents_closedEmpty.closePort p hr ho hs.closed) hr rfl rfl
  bindPort p c hr ho hs := hs.ready (keptByEvents_closedEmpty.bindPort p c hr ho hs.closed) hr rfl rfl
  writeContext c v hr hoff hv hs := hs.ready (hs.closed.same rfl) hr rfl rfl
  writeRegion _ _ hr _ _ hs := hs.ready (hs.closed.same rfl) hr rfl rfl
  clearCauses _ hs := hs.keep (hs.closed.same rfl) rfl rfl fun hq => { hq with }
  irqEnable _ hs := hs.keep (hs.closed.same rfl) rfl rfl fun hq => { hq with }
  timebase _ _ hs := hs.keep (hs.closed.same rfl) rfl rfl fun hq => { hq with }
  responseLimit _ hs := hs.keep (hs.closed.same rfl) rfl rfl fun hq => { hq with }
  operandWord _ hr hs := hs.ready (hs.closed.same rfl) hr rfl rfl
  pop r rest hl hs := hs.loud (hs.closed.same rfl) rfl rfl fun hq => by rw [hq.faults.1] at hl; cases hl
  submit _ hr _ hs := hs.ready (hs.closed.same rfl) hr rfl rfl
  take c rest hc _ hs := hs.loud (hs.closed.same rfl) rfl rfl fun hq => hq.no_command hc
  complete c rest hc _ hs := hs.loud (hs.closed.same rfl) rfl rfl fun hq => hq.no_command hc
  recordError _ hs := hs.keep (hs.closed.same rfl) rfl rfl fun hq => { hq with }
  probe _ hs := hs.keep (hs.closed.same rfl) rfl rfl fun hq => { hq with }
  syncMarker _ hs := hs.keep (hs.closed.same rfl) rfl rfl fun hq => { hq with }
  watch hs := hs.watch
  enable c hne _ _ hs := hs.loud (hs.closed.same rfl) rfl rfl fun hq => hne hq.commands
  disable {s} c hact hs := by
    have hc := keptByEvents_closedEmpty.disable c hact hs.closed
    obtain ⟨slots, order, parked, h⟩ := disable_frame c s
    rw [h] at hc ⊢
    refine hs.loud hc rfl rfl fun hq => ?_
    rw [hq.contexts c] at hact
    cases hact
  drained c hd _ hs := hs.loud (hs.closed.same rfl) rfl rfl fun hq => by
    rw [hq.contexts c] at hd
    cases hd
  unpark h hp hs := hs.loud (hs.closed.same rfl) rfl rfl fun hq => by
    simp [State.headParked, hq.no_head hs.closed h] at hp
  grantWalk i w hr _ _ _ hs := hs.loud (hs.closed.same rfl) rfl rfl fun hq => hq.not_running hr
  grantHead {s} h e a hr hl hw he hst hs := by
    have hc := keptByEvents_closedEmpty.grantHead h e a hr hl hw he hst hs.closed
    obtain ⟨u, n, r, hg⟩ := rememberGrant_frame h s
    rw [hg] at hc ⊢
    exact hs.loud hc rfl rfl fun hq => hq.not_running hr
  answeredItem t rest v st d ho hv hr hs :=
    hs.loud (keptByEvents_closedEmpty.answeredItem t rest v st d ho hv hr hs.closed) rfl rfl fun hq => hq.no_transaction ho
  answeredWalk t rest i ho _ _ hs := hs.loud (hs.closed.same rfl) rfl rfl fun hq => hq.no_transaction ho
  endedItem t rest v ho hv hs :=
    hs.loud (keptByEvents_closedEmpty.endedItem t rest v ho hv hs.closed) rfl rfl fun hq => hq.no_transaction ho
  endedWalk t rest i ho _ hs := hs.loud (hs.closed.same rfl) rfl rfl fun hq => hq.no_transaction ho
  dataError {s} v hm hs := by
    have ho := outside_takeDataError v s
    exact hs.loud (hs.closed.of_outside ho) (State.outside_resetnLow ho) (State.outside_device ho) fun hq => hm hq.memory.1
  fail hr hs := hs.loud (hs.closed.same rfl) rfl rfl fun hq => hq.not_running hr
  forgetLate hs := hs.keep (hs.closed.same rfl) rfl rfl fun hq => { hq with }
  resendClear _ hs := hs.keep (hs.closed.same rfl) rfl rfl fun hq => { hq with }
  startClear hm hs := hs.loud (hs.closed.same rfl) rfl rfl fun hq => by rw [hq.memory.1] at hm; cases hm
  run {s} hm hd hs := by
    refine ⟨hs.pin, fun h => ?_, hs.closed.same rfl⟩
    have hres : s.device = .resetting := h
    rw [hd] at hres
    cases hres
  runReset {s} hl _ _ hs := by
    refine ⟨fun h => ?_, fun h => (by cases h), hs.closed.same rfl⟩
    have hlow : s.resetnLow = true := h
    rw [hl] at hlow
    cases hlow
  ages {s} hs := hs.keep (hs.closed.same rfl) rfl rfl fun hq =>
    { hq with memory := ⟨hq.memory.1, by rw [advanceAges, hq.memory.2]; rfl⟩ }
  tickLeft _ hs := hs.keep (hs.closed.same rfl) rfl rfl fun hq => { hq with }

/-- Settles O57: a part that is quiet has nothing that an event could work on, but the end of its reset, and both resets leave it quiet. -/
theorem resetsQuietKept : Obligations.ResetsQuietKept := fun _ _ hs he => keptByEvents_resetsQuiet.step hs he

end Sys2Proof.Machine
end

section
/-! PROOFS of the family "invariants" (R84, R85, R91, R93 to R96, R106, R160, R165): the settled walker, and the links of its walks to the outstanding
list. -/

namespace Sys2Proof.Machine

/-! ## The settled walker: what it reads -/

theorem State.WalkerSettled.of_fields {s t : State} (hs : s.WalkerSettled) (hl : t.resetnLow = s.resetnLow)
    (hm : t.memState = s.memState) (hw : ∀ i, t.slot i = s.slot i) (ho : t.startOrder = s.startOrder)
    (hq : t.slotWait = s.slotWait) (hx : t.outstanding = s.outstanding) : t.WalkerSettled where
  pin h := by rw [hm]; exact hs.pin (hl ▸ h)
  offered := offered_of_slot hw hq hs.offered
  ordered := ordered_of hw ho hs.ordered
  quiet h := by
    rw [hm] at h
    refine ⟨by rw [hx]; exact (hs.quiet h).1, fun i => by rw [hw]; exact (hs.quiet h).2 i⟩

/-- Translation work with a memory port that stays RUNNING or has no walk, once the slot wait list has been offered what it frees. -/
theorem State.WalkerSettled.of_outside {s t : State} (hs : s.WalkerSettled) (ht : t.outside = s.outside) (ho : t.Offered)
    (hd : t.Ordered) (hf : s.memState ≠ .running → ∀ i, t.slot i = none) : t.WalkerSettled where
  pin h := by
    rw [State.outside_memState ht]
    exact hs.pin (State.outside_resetnLow ht ▸ h)
  offered := ho
  ordered := hd
  quiet h := by
    rw [State.outside_memState ht] at h
    exact ⟨(State.outside_outstanding ht).trans (hs.quiet h).1, hf h⟩

/-- A walker in which a slot's FREEness, the start order and the two lists are as before. -/
theorem State.WalkerSettled.of_busy {s t : State} (hs : s.WalkerSettled) (hl : t.resetnLow = s.resetnLow)
    (hm : t.memState = s.memState) (hw : ∀ i, t.slot i = none ↔ s.slot i = none) (ho : t.startOrder = s.startOrder)
    (hq : t.slotWait = s.slotWait) (hx : t.outstanding = s.outstanding) : t.WalkerSettled where
  pin h := by rw [hm]; exact hs.pin (hl ▸ h)
  offered hf := by
    rw [hq]
    refine hs.offered fun hn => hf ?_
    rw [State.freeSlot?_none] at hn ⊢
    exact fun i hi => hn i ((hw i).1 hi)
  ordered := ⟨fun i => by rw [ho, hs.ordered.1 i, Ne, Ne, hw i], ho ▸ hs.ordered.2⟩
  quiet h := by
    rw [hm] at h
    exact ⟨hx.trans (hs.quiet h).1, fun i => (hw i).2 ((hs.quiet h).2 i)⟩

/-- Nothing in the slots, in the start order, in the slot wait list or outstanding: as every reset and every failure leaves it. -/
theorem State.walkerSettled_of_empty {s : State} (hl : s.resetnLow = true → s.memState = .clearing)
    (hw : ∀ i, s.slot i = none) (ho : s.startOrder = []) (hq : s.slotWait = []) (hx : s.outstanding = []) :
    s.WalkerSettled where
  pin := hl
  offered _ := hq
  ordered := ⟨fun i => by simp [ho, hw i], by simp [ho]⟩
  quiet _ := ⟨hx, hw⟩

/-! ## The settled walker, operation by operation -/

theorem State.WalkerSettled.presentHead {s : State} (hs : s.WalkerSettled) (h : HeadId) :
    (presentHead h s).WalkerSettled :=
  hs.of_outside (presentHead_outside h s) (presentHead_offered h s) (kept_ordered.presentHead h hs.ordered) fun hm i =>
    ((kept_free i).presentHead h ⟨hm, (hs.quiet hm).2 i⟩).2

theorem State.WalkerSettled.settle {s : State} (hs : s.WalkerSettled) : (settle s).WalkerSettled := by
  obtain ⟨c, l, n, m, q, h⟩ := settle_frame s
  rw [h]
  exact hs.of_fields rfl rfl (fun _ => rfl) rfl rfl rfl

theorem State.WalkerSettled.settleSync {s : State} (hs : s.WalkerSettled) : (settleSync s).WalkerSettled := by
  unfold Machine.settleSync
  split
  · split
    · exact hs.of_fields rfl rfl (fun _ => rfl) rfl rfl rfl
    · exact hs
  · exact hs

theorem State.WalkerSettled.acceptRequest {s : State} (hs : s.WalkerSettled) (p : PortNumber) (r : Request) :
    (acceptRequest p r s).WalkerSettled := by
  have hq : (s.setQueue ⟨p, r.cls⟩ (s.queue ⟨p, r.cls⟩ ++ [newEntry r])).WalkerSettled :=
    hs.of_fields rfl rfl (fun _ => rfl) rfl rfl rfl
  unfold Machine.acceptRequest
  dsimp only
  split
  · exact hq.presentHead _
  · exact hq

theorem State.WalkerSettled.transfer {s : State} (hs : s.WalkerSettled) (h : HeadId) : (transfer h s).WalkerSettled := by
  unfold Machine.transfer
  split
  · rename_i e _
    split
    · rename_i st _
      split
      · have hm : (moveHead h (.done st.status none) e s).WalkerSettled := hs.of_fields rfl rfl (fun _ => rfl) rfl rfl rfl
        exact (hm.presentHead h).settle
      · exact hs
    · exact hs
  · exact hs

theorem State.WalkerSettled.invalidate {s : State} (hs : s.WalkerSettled) (sc : Scope) : (invalidate sc s).WalkerSettled :=
  hs.of_outside (invalidate_outside sc s) (invalidate_offered sc s) (kept_ordered.invalidate sc hs.ordered) fun hm i =>
    ((kept_free i).invalidate sc ⟨hm, (hs.quiet hm).2 i⟩).2

theorem formWatchSet_slot_eq_none (s : State) (i : SlotNumber) : (formWatchSet s).slot i = none ↔ s.slot i = none := by
  simp [formWatchSet, State.slot, watchWalk]

theorem abandonedWalk_eq_none_of_none (c : ContextNumber) : abandonedWalk c none = none := rfl

/-- The start order after an abandonment lists the slots still BUSY, in their former order (R84, R103). -/
theorem ordered_abandonWalks {s : State} (c : ContextNumber) (hs : s.Ordered) : (abandonWalks c s).Ordered := by
  refine ⟨fun i => ?_, hs.2.sublist (startOrder_abandonWalks_sublist c s)⟩
  rw [mem_startOrder_abandonWalks c s i fun j hj => (hs.1 j).1 hj, hs.1 i, slot_abandonWalks]
  refine and_iff_right_of_imp fun hne hn => hne ?_
  rw [hn, abandonedWalk_eq_none_of_none]

theorem State.WalkerSettled.disableContext {s : State} (hs : s.WalkerSettled) (c : ContextNumber) :
    (disableContext c s).WalkerSettled := by
  unfold Machine.disableContext
  generalize hu : (s.setContext c { s.context c with state := .draining }).removeScope (.context c) = u
  have hslot : ∀ i, u.slot i = s.slot i := fun i => by rw [← hu]; rfl
  have hord : u.Ordered := ordered_of hslot (by rw [← hu]; rfl) hs.ordered
  obtain ⟨slots, order, ha⟩ := abandonWalks_frame c u
  obtain ⟨parked, hd⟩ := disableQueues_frame c (abandonWalks c u)
  have hfree : ∀ i, (disableQueues c (abandonWalks c u)).slot i = abandonedWalk c (s.slot i) := fun i => by
    rw [(disableQueues_spec c _).2.1 i, slot_abandonWalks, hslot]
  have hordered : (disableQueues c (abandonWalks c u)).Ordered :=
    ordered_of ((disableQueues_spec c _).2.1) (by rw [hd]) (ordered_abandonWalks c hord)
  have hout : ∀ {α : Type} (f : State → α), (∀ (x : State) sl od pk pt sw, f { x with
      slots := sl, startOrder := od, parked := pk, ports := pt, slotWait := sw } = f x) →
      f (disableQueues c (abandonWalks c u)) = f u := by
    intro α f hf
    rw [hd, ha]
    exact hf u slots order parked _ _
  generalize disableQueues c (abandonWalks c u) = v at hfree hordered hout
  have hlow : v.resetnLow = s.resetnLow := (hout State.resetnLow fun _ _ _ _ _ _ => rfl).trans (by rw [← hu]; rfl)
  have hmem : v.memState = s.memState := (hout State.memState fun _ _ _ _ _ _ => rfl).trans (by rw [← hu]; rfl)
  have hlist : v.outstanding = s.outstanding := (hout State.outstanding fun _ _ _ _ _ _ => rfl).trans (by rw [← hu]; rfl)
  have hr := representWaiting_outside v
  refine ⟨fun h => ?_, representWaiting_offered v, kept_ordered.representWaiting hordered, fun h => ?_⟩
  · rw [State.outside_memState hr, hmem]
    exact hs.pin (hlow ▸ State.outside_resetnLow hr ▸ h)
  · rw [State.outside_memState hr, hmem] at h
    refine ⟨by rw [State.outside_outstanding hr, hlist]; exact (hs.quiet h).1, fun i => ?_⟩
    refine ((kept_free i).representWaiting ⟨by rw [hmem]; exact h, ?_⟩).2
    rw [hfree, (hs.quiet h).2 i]
    rfl

theorem State.WalkerSettled.completeCommand {s : State} (hs : s.WalkerSettled) : s.completeCommand.WalkerSettled :=
  hs.of_fields rfl rfl (fun _ => rfl) rfl rfl rfl

/-- The effect of a command; CLEAR_MEMORY_PORT takes a FAILED port, which has no walk and nothing outstanding (R147, R148, R171). -/
theorem State.WalkerSettled.applyCommand {s : State} (hs : s.WalkerSettled) (op : CommandOp) (he : stateError s op = none) :
    (applyCommand op s).WalkerSettled := by
  cases op with
  | invalidate sc => exact (hs.invalidate sc).completeCommand
  | sync m =>
    refine State.WalkerSettled.settleSync ?_
    exact hs.of_busy rfl rfl (formWatchSet_slot_eq_none s) rfl rfl rfl
  | enable c => exact hs.of_fields rfl rfl (fun _ => rfl) rfl rfl rfl
  | disable c => exact (hs.disableContext c).settle
  | resume h =>
    have hu : (s.setParked h none).WalkerSettled := hs.of_fields rfl rfl (fun _ => rfl) rfl rfl rfl
    exact (hu.presentHead h).completeCommand
  | terminate h => exact hs.of_fields rfl rfl (fun _ => rfl) rfl rfl rfl
  | clearMemory =>
    have hm : s.memState = .failed := by
      by_contra hn
      simp [stateError, hn] at he
    have hquiet := hs.quiet (by rw [hm]; decide)
    exact ⟨fun _ => rfl, offered_of_slot (s := s) (fun _ => rfl) rfl hs.offered,
      ordered_of (s := s) (fun _ => rfl) rfl hs.ordered, fun _ => hquiet⟩
  | probe c p => exact hs.of_fields rfl rfl (fun _ => rfl) rfl rfl rfl

theorem State.WalkerSettled.takeCommand {s : State} (hs : s.WalkerSettled) : (takeCommand s).WalkerSettled := by
  cases hc : s.commands with
  | nil => rwa [takeCommand_of_not_executing (.inl hc)]
  | cons c rest =>
    cases ht : c.taken with
    | true => rwa [takeCommand_of_not_executing (.inr ⟨c, rest, hc, ht⟩)]
    | false =>
      cases hk : takeCheck s c.code c.operand with
      | error e =>
        rw [takeCommand_of_error hc ht hk]
        exact hs.of_fields rfl rfl (fun _ => rfl) rfl rfl rfl
      | ok op =>
        rw [takeCommand_of_ok hc ht hk]
        have ht : ({ s with commands := { c with taken := true } :: rest } : State).WalkerSettled :=
          hs.of_fields rfl rfl (fun _ => rfl) rfl rfl rfl
        exact ht.applyCommand op ((stateError_commands op s _).trans (takeCheck_eq_ok_iff.1 hk).2)

theorem State.WalkerSettled.grant {s : State} (hs : s.WalkerSettled) : (grant s).WalkerSettled := by
  unfold Machine.grant
  split
  · rename_i hr
    split
    · rename_i i _
      unfold Machine.grantWalk
      split
      · exact hs
      · rename_i w hi
        have hbusy : ∀ j, (s.setSlot i (some { w with awaiting := false })).slot j = none ↔ s.slot j = none := by
          intro j
          rw [State.slot_setSlot]
          split
          · rename_i hij
            subst hij
            simp [hi]
          · rfl
        have hset : (s.setSlot i (some { w with awaiting := false })).WalkerSettled :=
          hs.of_busy rfl rfl hbusy rfl rfl rfl
        exact ⟨hset.pin, offered_of_slot (fun _ => rfl) rfl hset.offered, ordered_of (fun _ => rfl) rfl hset.ordered,
          fun hm => absurd hr.1 hm⟩
    · rename_i h _
      refine State.WalkerSettled.settle ?_
      unfold Machine.grantHead
      split
      · rename_i e _
        split
        · refine State.WalkerSettled.presentHead ?_ h
          obtain ⟨u, n, r, hg⟩ := rememberGrant_frame h s
          rw [hg]
          exact ⟨hs.pin, offered_of_slot (s := s) (fun _ => rfl) rfl hs.offered,
            ordered_of (s := s) (fun _ => rfl) rfl hs.ordered, fun hm => absurd hr.1 hm⟩
        · exact hs
      · exact hs
    · exact hs
  · exact hs

/-- The failure of the port leaves the reset pin alone. -/
theorem enterFailed_resetnLow (s : State) : (enterFailed s).resetnLow = s.resetnLow := by
  have hone : ∀ (t : Transaction) (x : State), (endTransaction t x).resetnLow = x.resetnLow := by
    intro t x
    unfold endTransaction
    split
    · rename_i v _
      exact (State.outside_resetnLow (outside_takeDataError v (x.endItem ⟨v.port, v.cls⟩ .memoryError none))).trans rfl
    · exact State.outside_resetnLow (endWalkTransaction_outside _ x)
  have hall : ∀ (l : List Transaction) (x : State), (endOutstanding l x).resetnLow = x.resetnLow := by
    intro l
    induction l with
    | nil => exact fun _ => rfl
    | cons t rest ih => exact fun x => (ih _).trans (hone t { x with outstanding := rest })
  rw [enterFailed, State.outside_resetnLow (failAwaiting_outside _), hall]
  rfl

/-- The entry to FAILED leaves no walk and nothing outstanding (R105, R106, R169). -/
theorem State.WalkerSettled.enterFailed {s : State} (hs : s.WalkerSettled) (hr : s.memState = .running) :
    (enterFailed s).WalkerSettled := by
  obtain ⟨hm, hx, hw, hq, -⟩ := enterFailed_spec s hs.ordered hs.offered
  have hlow : s.resetnLow = false := by
    by_contra hl
    have hc := hs.pin (by simpa using hl)
    rw [hr] at hc
    cases hc
  have hord : (Machine.enterFailed s).Ordered := by
    obtain ⟨-, -, -, hkept, -⟩ := endOutstanding_spec s.outstanding
      (State.raise .memoryFailed { s with memState := .failed, lateCleared := false }) rfl
    exact kept_ordered.failAwaiting (hkept (ordered_of (s := s) (fun _ => rfl) rfl hs.ordered))
  exact ⟨fun h => (by rw [enterFailed_resetnLow, hlow] at h; cases h), fun _ => hq, hord, fun _ => ⟨hx, hw⟩⟩

theorem State.WalkerSettled.response {s : State} (hs : s.WalkerSettled) (status : ResponseStatus) (data : List Word) :
    (response status data s).WalkerSettled := by
  unfold Machine.response
  split
  · rename_i hr
    refine State.WalkerSettled.settle ?_
    unfold Machine.responseRunning
    split
    · exact hs.enterFailed hr.2
    · rename_i t rest ho
      have ht : ({ s with outstanding := rest, lateCleared := false } : State).WalkerSettled :=
        ⟨hs.pin, offered_of_slot (s := s) (fun _ => rfl) rfl hs.offered,
          ordered_of (s := s) (fun _ => rfl) rfl hs.ordered, fun hm => absurd hr.2 hm⟩
      split
      · unfold Machine.takeResponse
        split
        · rename_i v _
          have hi : ∀ st d, (State.endItem ⟨v.port, v.cls⟩ st d
              { s with outstanding := rest, lateCleared := false }).WalkerSettled :=
            fun st d => ht.of_fields rfl rfl (fun _ => rfl) rfl rfl rfl
          split
          · exact hi _ _
          · have ho := outside_takeDataError v (State.endItem ⟨v.port, v.cls⟩ .memoryError none
              { s with outstanding := rest, lateCleared := false })
            obtain ⟨hsl, hsw, hso⟩ := takeDataError_walker v (State.endItem ⟨v.port, v.cls⟩ .memoryError none
              { s with outstanding := rest, lateCleared := false })
            exact (hi _ _).of_fields (State.outside_resetnLow ho) (State.outside_memState ho)
              (fun i => by rw [State.slot, hsl]; rfl) hso hsw (State.outside_outstanding ho)
        · rename_i i _
          exact ht.of_outside (takeWalkResponse_outside i status data _) (takeWalkResponse_offered i status data ht.offered)
            (kept_ordered.takeWalkResponse i status data ht.ordered) fun hm => absurd hr.2 hm
      · exact hs.enterFailed hr.2
  · exact hs

/-- The port leaves CLEARING for RUNNING with RESETN high (R172). -/
theorem State.WalkerSettled.clearedClearing {s : State} (hs : s.WalkerSettled) (hl : s.resetnLow = false) :
    (clearedClearing s).WalkerSettled := by
  have hrun : ∀ t : State, t.resetnLow = s.resetnLow → t.memState = .running → t.slots = s.slots →
      t.startOrder = s.startOrder → t.slotWait = s.slotWait → t.WalkerSettled := by
    intro t hlow hm hsl hso hsw
    have hslot : ∀ i, t.slot i = s.slot i := fun i => by rw [State.slot, hsl]; rfl
    refine ⟨fun h => ?_, offered_of_slot hslot hsw hs.offered, ordered_of hslot hso hs.ordered, fun h => absurd hm h⟩
    rw [hlow, hl] at h
    cases h
  unfold Machine.clearedClearing
  split
  · exact hrun _ rfl rfl rfl rfl rfl
  · split <;> exact hrun _ rfl rfl rfl rfl rfl

theorem keptByOperations_walkerSettled : KeptByOperations (fun _ => True) State.WalkerSettled where
  side _ _ := trivial
  frame ht hs := hs.of_fields (State.workload_resetnLow ht) (State.workload_memState ht)
    (fun i => by rw [State.slot, State.workload_slots ht]; rfl) (State.workload_startOrder ht) (State.workload_slotWait ht)
    (State.workload_outstanding ht)
  powerOn {s} _ := State.walkerSettled_of_empty (fun _ => rfl) (fun i => by simp [State.slot, powerOnReset, State.powerOn])
    rfl rfl rfl
  releasePin {s} hl hs := by
    have hquiet := hs.quiet (by rw [hs.pin hl]; decide)
    rw [releaseResetn, if_pos hl]
    exact ⟨fun _ => rfl, offered_of_slot (s := s) (fun _ => rfl) rfl hs.offered,
      ordered_of (s := s) (fun _ => rfl) rfl hs.ordered, fun _ => hquiet⟩
  reset {s} _ := State.walkerSettled_of_empty (fun _ => rfl) (fun i => by simp [State.slot, startDeviceReset, State.emit])
    rfl rfl rfl
  acceptRequest p r hs := hs.acceptRequest p r
  deliver _ _ hs := hs.of_fields rfl rfl (fun _ => rfl) rfl rfl rfl
  transfer h hs := hs.transfer h
  portState _ _ hs := hs.of_fields rfl rfl (fun _ => rfl) rfl rfl rfl
  bindPort _ _ _ _ hs := hs.of_fields rfl rfl (fun _ => rfl) rfl rfl rfl
  submit code hs := by
    unfold submit
    split
    · split <;> exact hs.of_fields rfl rfl (fun _ => rfl) rfl rfl rfl
    · exact hs
  takeCommand hs := hs.takeCommand
  grant hs := hs.grant
  response status data hs := hs.response status data
  fail hr hs := (hs.enterFailed hr).settle
  clearedClearing hl _ hs := hs.clearedClearing hl
  ages {s} hs := ⟨hs.pin, offered_of_slot (s := s) (fun _ => rfl) rfl hs.offered,
    ordered_of (s := s) (fun _ => rfl) rfl hs.ordered, fun hm => by
      obtain ⟨hx, hw⟩ := hs.quiet hm
      exact ⟨by rw [advanceAges, hx]; rfl, hw⟩⟩

/-! ## The links of the walks to the outstanding list -/

theorem keptByOperations_transactionsLinked : KeptByOperations (fun _ => True) State.TransactionsLinked where
  side _ _ := trivial
  frame ht hs := hs.of_fields (fun i => by rw [State.slot, State.workload_slots ht]; rfl) (State.workload_outstanding ht)
  powerOn {s} _ := .of_empty (fun i => by simp [State.slot, powerOnReset, State.powerOn]) rfl
  releasePin hl hs := by
    rw [releaseResetn, if_pos hl]
    exact hs.of_fields (fun _ => rfl) rfl
  reset {s} _ := .of_empty (fun i => by simp [State.slot, startDeviceReset, State.emit]) rfl
  acceptRequest p r hs := hs.acceptRequest p r
  deliver _ _ hs := hs.of_fields (fun _ => rfl) rfl
  transfer h hs := hs.transfer h
  portState _ _ hs := hs.of_fields (fun _ => rfl) rfl
  bindPort _ _ _ _ hs := hs.of_fields (fun _ => rfl) rfl
  submit code hs := by
    unfold submit
    split
    · split <;> exact hs.of_fields (fun _ => rfl) rfl
    · exact hs
  takeCommand hs := hs.takeCommand
  grant hs := hs.grant
  response status data hs := hs.response status data
  fail _ hs := hs.enterFailed.settle
  clearedClearing _ _ hs := by
    unfold clearedClearing
    split
    · exact hs.of_fields (fun _ => rfl) rfl
    · split <;> exact hs.of_fields (fun _ => rfl) rfl
  ages hs := hs.advanceAges

/-- Settles O58: a freed slot is offered within the event that frees it, and the port leaves RUNNING with every walk ended. -/
theorem walkerSettledKept : Obligations.WalkerSettledKept :=
  ⟨fun _ _ hs he => keptByOperations_walkerSettled.step trivial hs he,
    fun _ _ hs he => keptByOperations_transactionsLinked.step trivial hs he⟩

end Sys2Proof.Machine
end

section
/-! PROOFS of the family "invariants" (R46, R47, R60, R86, R90, R133): heads and the lists they stand in, from step to step. -/

namespace Sys2Proof.Machine

/-! ## Ports and resets -/

/-- A drain that ends, a completion record delivered and a new state of a port touch no link (R37 to R39, R61). -/
theorem State.HeadsLinked.closePort {s : State} (hs : s.HeadsLinked) (p : PortNumber) (v : Port)
    (hq : v.queues = (s.port p).queues) (hb : v.binding = (s.port p).binding) (hr : v.returns = (s.port p).returns) :
    (s.setPort p v.closeIfEmpty).HeadsLinked := by
  obtain ⟨hcq, hcb, hcr⟩ := closeIfEmpty_fields v
  refine hs.setPort p _ (hcq.trans hq) (hcb.trans hb) fun c => ?_
  rw [hcr, hr]
  exact hs.front ⟨p, c⟩

theorem frontInFlight_nil : FrontInFlight [] := fun _ _ h => by cases h

/-- Both resets leave every queue, list and place empty (R63, R87, R133). -/
theorem headsLinked_of_powerOnPorts {s : State} (hp : ∀ p, (s.port p).queues = ⟨[], []⟩ ∧ (s.port p).returns = ⟨[], []⟩)
    (hw : ∀ i, s.slot i = none) (hq : s.slotWait = []) (hk : ∀ k, s.parkedPlace k = none) : s.HeadsLinked := by
  have hget : ∀ {α : Type} (c : ReqClass), (⟨[], []⟩ : PerClass (List α)).get c = [] := fun c => by cases c <;> rfl
  refine headsLinked_of_empty (fun k => ?_) hw hq hk fun k => ?_
  · rw [State.queue, (hp k.port).1, hget]
  · rw [(hp k.port).2, hget]
    exact frontInFlight_nil

/-! ## Every step -/

theorem keptByOperations_headsLinked : KeptByOperations State.ClosedEmpty State.HeadsLinked where
  side ht hq := hq.same (State.workload_ports ht)
  frame ht hs := hs.of_fields (State.workload_ports ht) (State.workload_slots ht) (State.workload_slotWait ht)
    (State.workload_parked ht)
  powerOn {s} _ := headsLinked_of_powerOnPorts (fun p => by rw [port_powerOnReset]; exact ⟨rfl, rfl⟩)
    (State.quiet_powerOnReset s).walker.1 rfl (State.quiet_powerOnReset s).faults.2
  releasePin hl hs := by
    rw [releaseResetn, if_pos hl]
    exact hs.of_fields rfl rfl rfl rfl
  reset {s} _ := headsLinked_of_powerOnPorts (fun p => by rw [port_startDeviceReset]; exact ⟨rfl, rfl⟩)
    (State.quiet_startDeviceReset s).walker.1 rfl (State.quiet_startDeviceReset s).faults.2
  acceptRequest p r hs := acceptRequest_linked p r hs
  deliver p _ hs := hs.closePort p _ rfl rfl rfl
  transfer h hs := transfer_linked h hs
  portState p _ hs := hs.closePort p _ rfl rfl rfl
  bindPort p c hc hq hs := hs.bind p c (hq p hc)
  submit code hs := by
    unfold submit
    split
    · split <;> exact hs.of_fields rfl rfl rfl rfl
    · exact hs
  takeCommand hs := takeCommand_linked hs
  grant hs := grant_linked hs
  response status data hs := response_linked status data hs
  fail _ hs := settle_linked (enterFailed_linked hs)
  clearedClearing _ _ hs := by
    unfold clearedClearing
    split
    · exact hs.of_fields rfl rfl rfl rfl
    · split <;> exact hs.of_fields rfl rfl rfl rfl
  ages hs := hs.of_fields rfl rfl rfl rfl

/-- Settles O60: every operation moves a head and its place in a list together; a binding changes on an empty port only. -/
theorem headsLinkedKept : Obligations.HeadsLinkedKept := fun _ _ hc hs he => keptByOperations_headsLinked.step hc hs he

end Sys2Proof.Machine
end

section
/-! PROOFS of the family "invariants" (R57, R59, R85, R93 to R97, R158, R165): the IN_FLIGHT items stand in step with the outstanding client transactions, and
every response of the right shape finds its origin and an outcome. -/

namespace Sys2Proof.Machine

/-! ## The IN_FLIGHT items of a return list -/

theorem inFlightOf_append (l m : List Item) : inFlightOf (l ++ m) = inFlightOf l ++ inFlightOf m := by
  simp [inFlightOf]

theorem inFlightOf_cons_done {i : Item} (hi : i.isInFlight = false) (l : List Item) : inFlightOf (i :: l) = inFlightOf l := by
  simp [inFlightOf, hi]

theorem inFlightOf_cons_inFlight {i : Item} (hi : i.isInFlight = true) (l : List Item) :
    inFlightOf (i :: l) = (i.tag, i.kind) :: inFlightOf l := by
  simp [inFlightOf, hi]

/-- The DONE items that move into the completion queue are not IN_FLIGHT (R60). -/
theorem inFlightOf_splitDone (l : List Item) : inFlightOf (splitDone l).2 = inFlightOf l := by
  induction l with
  | nil => rfl
  | cons i rest ih =>
    unfold splitDone
    split
    · rfl
    · rename_i st d hd
      rw [inFlightOf_cons_done (by simp [Item.isInFlight, hd])]
      exact ih

/-- The oldest IN_FLIGHT item ends (R59). -/
theorem inFlightOf_endFirstInFlight (st : Status) (d : Option (List Word)) (l : List Item) :
    inFlightOf (endFirstInFlight st d l) = (inFlightOf l).tail := by
  induction l with
  | nil => rfl
  | cons i rest ih =>
    unfold endFirstInFlight
    split
    · rename_i hw
      rw [inFlightOf_cons_done rfl, inFlightOf_cons_inFlight (by simp [Item.isInFlight, hw])]
      rfl
    · rename_i hd
      have hi : i.isInFlight = false := by simp [Item.isInFlight, hd]
      rw [inFlightOf_cons_done hi, inFlightOf_cons_done hi, ih]

theorem inFlightOf_watchItem (l : List Item) : inFlightOf (l.map watchItem) = inFlightOf l := by
  induction l with
  | nil => rfl
  | cons i rest ih =>
    have hsame : (watchItem i).tag = i.tag ∧ (watchItem i).kind = i.kind := by
      unfold watchItem
      split <;> exact ⟨rfl, rfl⟩
    rw [List.map_cons]
    cases hi : i.isInFlight with
    | true =>
      rw [inFlightOf_cons_inFlight (by rw [watchItem_isInFlight, hi]), inFlightOf_cons_inFlight hi, hsame.1, hsame.2, ih]
    | false => rw [inFlightOf_cons_done (by rw [watchItem_isInFlight, hi]), inFlightOf_cons_done hi, ih]

/-! ## Return lists after a head's move and after an item's end (R46, R59, R60) -/

theorem inFlightOf_pushReturn (p : Port) (i : Item) (c : ReqClass) :
    inFlightOf ((p.pushReturn i).returns.get c) =
      inFlightOf (p.returns.get c) ++ if i.cls = c then inFlightOf [i] else [] := by
  simp only [Port.pushReturn, Port.flushReturns, PerClass.get_set]
  split
  · rename_i hc
    subst hc
    simp [inFlightOf_splitDone, inFlightOf_append]
  · simp

theorem inFlightOf_moveHead (s : State) (h k : HeadId) (state : ItemState) (e : Entry) :
    inFlightOf (((moveHead h state e s).port k.port).returns.get k.cls) =
      inFlightOf ((s.port k.port).returns.get k.cls) ++
        if h = k then inFlightOf [⟨e.request.tag, h.cls, e.request.kind, state⟩] else [] := by
  rw [moveHead, State.port_setPort]
  by_cases hp : h.port = k.port
  · rw [if_pos hp, inFlightOf_pushReturn]
    simp [HeadId.ext_iff', hp]
  · simp [HeadId.ext_iff', hp]

theorem inFlightOf_endItem (s : State) (h k : HeadId) (st : Status) (d : Option (List Word)) :
    inFlightOf (((s.endItem h st d).port k.port).returns.get k.cls) =
      if h = k then (inFlightOf ((s.port k.port).returns.get k.cls)).tail
      else inFlightOf ((s.port k.port).returns.get k.cls) := by
  rw [State.endItem, State.port_setPort]
  by_cases hp : h.port = k.port
  · simp only [Port.flushReturns, PerClass.get_set, HeadId.ext_iff', hp, true_and]
    by_cases hc : h.cls = k.cls
    · simp [hc, inFlightOf_splitDone, inFlightOf_endFirstInFlight]
    · simp [hc, PerClass.get_set]
  · simp [HeadId.ext_iff', hp]

/-! ## The pairing -/

theorem State.ItemsPaired.of_fields {s t : State} (hs : s.ItemsPaired) (hr : ∀ p, (t.port p).returns = (s.port p).returns)
    (ho : t.outstanding = s.outstanding) : t.ItemsPaired := fun h => by rw [hr, ho]; exact hs h

theorem State.ItemsPaired.same {s t : State} (hs : s.ItemsPaired) (hp : t.ports = s.ports)
    (ho : t.outstanding = s.outstanding) : t.ItemsPaired :=
  hs.of_fields (fun p => by rw [State.port, hp]; rfl) ho

theorem State.ItemsPaired.of_outside {s t : State} (hs : s.ItemsPaired) (ho : t.outside = s.outside) : t.ItemsPaired :=
  hs.of_fields (State.outside_returns ho) (State.outside_outstanding ho)

theorem State.ItemsPaired.setPort {s : State} (hs : s.ItemsPaired) (p : PortNumber) {v : Port}
    (hv : v.returns = (s.port p).returns) : (s.setPort p v).ItemsPaired := by
  refine hs.of_fields (fun q => ?_) rfl
  rw [State.port_setPort]
  split
  · rename_i hpq
    subst hpq
    exact hv
  · rfl

/-- A head that leaves as a DONE item is not IN_FLIGHT (R58). -/
theorem State.ItemsPaired.transfer {s : State} (hs : s.ItemsPaired) (h : HeadId) (e : Entry) (st : Status)
    (d : Option (List Word)) : (moveHead h (.done st d) e s).ItemsPaired := by
  intro k
  refine (inFlightOf_moveHead s h k _ e).trans ?_
  rw [inFlightOf_cons_done rfl]
  refine Eq.trans ?_ (hs k)
  simp [inFlightOf]

/-- A granted head's item and its transaction are both the youngest (R57, R164). -/
theorem State.ItemsPaired.grantHead {s : State} (hs : s.ItemsPaired) (h : HeadId) (e : Entry) (op : TxnOp) (a : PhysAddr) :
    ((moveHead h (.inFlight false) e s).issue op a (.client (s.requestValues h e.request))).ItemsPaired := by
  intro k
  refine (inFlightOf_moveHead s h k _ e).trans ?_
  show _ = (s.outstanding ++ [_]).filterMap (Transaction.ofHead k)
  rw [List.filterMap_append, ← hs k, inFlightOf_cons_inFlight rfl]
  congr 1
  by_cases hk : h = k
  · subst hk
    simp [Transaction.ofHead, State.requestValues, inFlightOf]
  · have hne : ¬ (h.port = k.port ∧ h.cls = k.cls) := fun hc => hk ((HeadId.ext_iff' h k).2 hc)
    simp [Transaction.ofHead, State.requestValues, hk, hne]

theorem State.ItemsPaired.grantWalk {s t : State} (hs : s.ItemsPaired) {x : Transaction} {i : SlotNumber}
    (hp : t.ports = s.ports) (hx : x.origin = .walk i) (ho : t.outstanding = s.outstanding ++ [x]) : t.ItemsPaired := by
  intro h
  have hport : t.port h.port = s.port h.port := by rw [State.port, hp]; rfl
  rw [ho, List.filterMap_append, hport]
  simpa [Transaction.ofHead, hx] using hs h

/-- The oldest transaction gone, of a walk: no item is its own (R165). -/
theorem State.ItemsPaired.walkGone {s t : State} (hs : s.ItemsPaired) {x : Transaction} {i : SlotNumber}
    (hp : t.ports = s.ports) (hx : x.origin = .walk i) (ho : s.outstanding = x :: t.outstanding) : t.ItemsPaired := by
  intro h
  have hh := hs h
  rw [ho, List.filterMap_cons_none (by simp [Transaction.ofHead, hx])] at hh
  rw [State.port, hp]
  exact hh

/-- The oldest transaction gone, of a client: the item that ends is the oldest of its list (R59, R165). -/
theorem State.ItemsPaired.itemGone {s u : State} (hs : s.ItemsPaired) {x : Transaction} {v : RequestValues}
    (hx : x.origin = .client v) (hp : u.ports = s.ports) (ho : s.outstanding = x :: u.outstanding) (st : Status)
    (d : Option (List Word)) : (u.endItem ⟨v.port, v.cls⟩ st d).ItemsPaired := by
  intro h
  have hh := hs h
  rw [inFlightOf_endItem, State.port, hp]
  show _ = u.outstanding.filterMap (Transaction.ofHead h)
  by_cases hk : (⟨v.port, v.cls⟩ : HeadId) = h
  · subst hk
    rw [ho, List.filterMap_cons_some (b := (v.tag, v.kind)) (by simp [Transaction.ofHead, hx])] at hh
    rw [if_pos rfl]
    exact congrArg List.tail hh
  · have hne : ¬ (v.port = h.port ∧ v.cls = h.cls) := fun hc => hk ((HeadId.ext_iff' _ h).2 hc)
    rw [ho, List.filterMap_cons_none (by simp [Transaction.ofHead, hx, hne])] at hh
    rw [if_neg hk]
    exact hh

theorem State.itemsPaired_of_empty {s : State} (hr : ∀ p, (s.port p).returns = ⟨[], []⟩) (ho : s.outstanding = []) :
    s.ItemsPaired := by
  intro h
  rw [hr, ho]
  cases h.cls <;> rfl

theorem keptByEvents_itemsPaired : KeptByEvents State.ItemsPaired where
  toKept := kept_of_outside fun ho hs => hs.of_outside ho
  beginEvent hs := hs.same rfl rfl
  dequeue _ hs := hs.same rfl rfl
  emit _ hs := hs.same rfl rfl
  raise _ hs := hs.same rfl rfl
  powerOn _ := State.itemsPaired_of_empty (fun p => by rw [port_powerOnReset]; rfl) rfl
  releasePin hs := by
    unfold releaseResetn
    split
    · exact hs.same rfl rfl
    · exact hs
  reset _ _ := State.itemsPaired_of_empty (fun p => by rw [port_startDeviceReset]; rfl) rfl
  enqueue h _ _ _ _ hs := hs.setPort _ rfl
  deliver p _ _ _ _ hs := hs.setPort p (closeIfEmpty_fields _).2.2
  transfer h e st _ _ _ hs := hs.transfer h e _ _
  openPort p _ _ hs := hs.setPort p rfl
  closePort p _ _ hs := hs.setPort p (closeIfEmpty_fields _).2.2
  bindPort p _ _ _ hs := hs.setPort p rfl
  writeContext _ _ _ _ _ hs := hs.same rfl rfl
  writeRegion _ _ _ _ _ hs := hs.same rfl rfl
  clearCauses _ hs := hs.same rfl rfl
  irqEnable _ hs := hs.same rfl rfl
  timebase _ _ hs := hs.same rfl rfl
  responseLimit _ hs := hs.same rfl rfl
  operandWord _ _ hs := hs.same rfl rfl
  pop _ _ _ hs := hs.same rfl rfl
  submit _ _ _ hs := hs.same rfl rfl
  take _ _ _ _ hs := hs.same rfl rfl
  complete _ _ _ _ hs := hs.same rfl rfl
  recordError _ hs := hs.same rfl rfl
  probe _ hs := hs.same rfl rfl
  syncMarker _ hs := hs.same rfl rfl
  watch {s} hs := fun h => by
    have hw : ((formWatchSet s).port h.port).returns.get h.cls = ((s.port h.port).returns.get h.cls).map watchItem := by
      cases hc : h.cls <;> simp [formWatchSet, State.port, watchPort, PerClass.get]
    rw [hw, inFlightOf_watchItem]
    exact hs h
  enable _ _ _ _ hs := hs.same rfl rfl
  disable {s} c _ hs := by
    obtain ⟨slots, order, parked, h⟩ := disable_frame c s
    rw [h]
    refine hs.of_fields (fun p => ?_) rfl
    have hport := (disablePort_spec c (s.port p)).2.2.1
    simpa [State.port] using hport
  drained _ _ _ hs := hs.same rfl rfl
  unpark _ _ hs := hs.same rfl rfl
  grantWalk i w _ _ _ _ hs := hs.grantWalk (x := ⟨w.op, w.address, .walk i, 0⟩) rfl rfl rfl
  grantHead {s} h e a _ _ _ _ _ hs := by
    obtain ⟨u, n, r, hg⟩ := rememberGrant_frame h s
    rw [hg]
    have hr : ({ s with lastUrgent := u, lastNormal := n, runCount := r } : State).ItemsPaired := hs.same rfl rfl
    exact hr.grantHead h e _ a
  answeredItem {s} t rest v st d ho hv _ hs :=
    hs.itemGone (u := { s with outstanding := rest, lateCleared := false }) hv rfl ho st d
  answeredWalk t rest i ho hi _ hs := hs.walkGone rfl hi ho
  endedItem {s} t rest v ho hv hs := hs.itemGone (u := { s with outstanding := rest }) hv rfl ho _ _
  endedWalk t rest i ho hi hs := hs.walkGone rfl hi ho
  dataError {s} v _ hs := hs.of_outside (outside_takeDataError v s)
  fail _ hs := hs.same rfl rfl
  forgetLate hs := hs.same rfl rfl
  resendClear _ hs := hs.same rfl rfl
  startClear _ hs := hs.same rfl rfl
  run _ _ hs := hs.same rfl rfl
  runReset _ _ _ hs := hs.same rfl rfl
  ages {s} hs := fun h => by
    show _ = (s.outstanding.map _).filterMap _
    rw [List.filterMap_map]
    exact hs h
  tickLeft _ hs := hs.same rfl rfl

/-! ## A response of the right shape finds its origin (R165) -/

/-- The item of the oldest transaction is at the front of its return list, with the transaction's tag and kind (R59, R60). -/
theorem State.ItemsPaired.front {s : State} (hs : s.ItemsPaired)
    (hf : ∀ h : HeadId, FrontInFlight ((s.port h.port).returns.get h.cls)) {t : Transaction} {rest : List Transaction}
    {v : RequestValues} (ho : s.outstanding = t :: rest) (hv : t.origin = .client v) :
    ∃ item later, (s.port v.port).returns.get v.cls = item :: later ∧ item.isInFlight = true ∧ item.tag = v.tag ∧
      item.kind = v.kind := by
  have hp := hs ⟨v.port, v.cls⟩
  rw [ho, List.filterMap_cons_some (b := (v.tag, v.kind)) (by simp [Transaction.ofHead, hv])] at hp
  cases hl : (s.port v.port).returns.get v.cls with
  | nil => simp [hl, inFlightOf] at hp
  | cons item later =>
    have hi := hf ⟨v.port, v.cls⟩ item later hl
    simp only [hl] at hp
    rw [inFlightOf_cons_inFlight hi] at hp
    obtain ⟨htag, hkind⟩ := Prod.mk.injEq _ _ _ _ ▸ (List.cons.inj hp).1
    exact ⟨item, later, rfl, hi, htag, hkind⟩

/-- A list of items splits at its first IN_FLIGHT one. -/
theorem exists_done_later (l : List Item) :
    ∃ done later, l = done ++ later ∧ (∀ d ∈ done, d.isInFlight = false) ∧ FrontInFlight later := by
  refine ⟨l.takeWhile fun i => !i.isInFlight, l.dropWhile fun i => !i.isInFlight, List.takeWhile_append_dropWhile.symm,
    fun d hd => by simpa using List.mem_takeWhile_imp hd, fun i rest hl => ?_⟩
  have hne : l.dropWhile (fun i => !i.isInFlight) ≠ [] := by rw [hl]; simp
  have hhead := List.head_dropWhile_not (fun i : Item => !i.isInFlight) hne
  simpa [hl] using hhead

theorem data_of_shapeFits_error {op : TxnOp} {data : List Word} (h : shapeFits op .error data = true) : data = [] := by
  simpa [shapeFits] using h

/-- A response to a table READ or an UPDATE carries one word (R159). -/
theorem data_of_shapeFits_ok {op : TxnOp} {data : List Word} (h : shapeFits op .ok data = true)
    (hop : op = .read 4 ∨ ∃ m, op = .update m) : ∃ word, data = [word] := by
  rcases hop with rfl | ⟨m, rfl⟩ <;> exact List.length_eq_one_iff.1 (by simpa [shapeFits] using h)

/-- What a response does to a walk that is neither stale nor abandoned (R94 to R98, R100). -/
inductive State.WalkTurn (s : State) (t : Transaction) (w : Walk) (status : ResponseStatus) (data : List Word) : Prop where
  | completes (word : Word) (entry : PageEntry) : status = .ok → data = [word] → s.CompletesWalk t w word entry →
      WalkTurn s t w status data
  | fails (cause : FaultCause) (dirs : List DirEntry) : s.FailsWalk t w status data cause dirs → WalkTurn s t w status data
  | advances (word : Word) (w' : Walk) (dirs : List DirEntry) : status = .ok → data = [word] →
      s.AdvancesWalk t w word w' dirs → WalkTurn s t w status data

/-- A directory READ answered: the entry is invalid, or the table access formed from it is refused or goes on (R94, R96). -/
theorem State.walkTurn_directory {s : State} {t : Transaction} {w : Walk} (hst : w.stage = .directory) (hop : t.op = .read 4)
    (word : Word) : s.WalkTurn t w .ok [word] := by
  cases hv : word.getLsbD 0 with
  | false => exact .fails _ _ (.directory word hst hop hv)
  | true =>
    have hnext : ∃ stage op, w.kind = .fill ∧ stage = WalkStage.page ∧ op = TxnOp.read 4 ∨
        w.kind = .flag ∧ stage = WalkStage.update ∧ op = TxnOp.update true := by
      cases w.kind with
      | fill => exact ⟨.page, .read 4, .inl ⟨rfl, rfl, rfl⟩⟩
      | flag => exact ⟨.update, .update true, .inr ⟨rfl, rfl, rfl⟩⟩
    obtain ⟨stage, op, hn⟩ := hnext
    by_cases hadm : s.TableAdmits op (entryAddress (word.extractLsb' 8 24) (pageIndex w.page))
    · exact .advances word _ _ rfl rfl (.directory stage op hst hop hv hn hadm)
    · refine .fails _ _ (.region word op hst hop hv ?_ hadm)
      exact hn.imp (fun h => ⟨h.1, h.2.2⟩) fun h => ⟨h.1, h.2.2⟩

/-- The page-cache entry that a walk's last word fills (R75, R97). -/
def filledEntry (w : Walk) (word : Word) (known : Bool) : PageEntry :=
  { context := w.context, page := w.page, frame := word.extractLsb' 8 24, readPermit := word.getLsbD 1
    writePermit := word.getLsbD 2, modifiedKnown := known }

/-- A page READ answered: the entry is invalid, or its referenced flag is to be set, or it is filled (R95, R96). -/
theorem State.walkTurn_page {s : State} {t : Transaction} {w : Walk} (hst : w.stage = .page) (hop : t.op = .read 4)
    (word : Word) : s.WalkTurn t w .ok [word] := by
  cases hv : word.getLsbD 0 with
  | false => exact .fails _ _ (.page word hst hop hv)
  | true =>
    by_cases hflag : (s.context w.context).recordFlags = false ∨ word.getLsbD 3 = true
    · exact .completes word (filledEntry w word _) rfl rfl
        ⟨hv, rfl, rfl, rfl, rfl, rfl, .inl ⟨hst, hop, hflag, rfl⟩⟩
    · obtain ⟨hrec, href⟩ : (s.context w.context).recordFlags = true ∧ word.getLsbD 3 = false := by
        simpa [not_or] using hflag
      by_cases hadm : s.TableAdmits (.update false) w.address
      · exact .advances word _ _ rfl rfl (.page hst hop hv hrec href hadm)
      · exact .fails _ _ (.flagRegion word hst hop hv hrec href hadm)

/-- An UPDATE answered: the entry is invalid, or it is filled (R97). -/
theorem State.walkTurn_update {s : State} {t : Transaction} {w : Walk} (hst : w.stage = .update)
    (hop : w.kind = .fill ∧ t.op = .update false ∨ w.kind = .flag ∧ t.op = .update true) (word : Word) :
    s.WalkTurn t w .ok [word] := by
  cases hv : word.getLsbD 0 with
  | false =>
    rcases hop with ⟨-, hop⟩ | ⟨-, hop⟩ <;> exact .fails _ _ (.update word _ hst hop hv)
  | true =>
    rcases hop with ⟨hk, hop⟩ | ⟨hk, hop⟩
    · exact .completes word (filledEntry w word _) rfl rfl
        ⟨hv, rfl, rfl, rfl, rfl, rfl, .inr (.inl ⟨hst, hk, hop, rfl⟩)⟩
    · exact .completes word (filledEntry w word _) rfl rfl
        ⟨hv, rfl, rfl, rfl, rfl, rfl, .inr (.inr ⟨hst, hk, hop, rfl⟩)⟩

/-- A response of the shape of a walk's transaction has one of the three outcomes. -/
theorem State.walkTurn_of_fits {s : State} {t : Transaction} {w : Walk} (hf : w.Fits) (hop : w.op = t.op)
    {status : ResponseStatus} {data : List Word} (hs : shapeFits t.op status data = true) : s.WalkTurn t w status data := by
  cases status with
  | error =>
    obtain rfl := data_of_shapeFits_error hs
    exact .fails _ _ .error
  | ok =>
    cases hf with
    | directory hst hread _ _ =>
      obtain ⟨word, rfl⟩ := data_of_shapeFits_ok hs (.inl (hop ▸ hread))
      exact State.walkTurn_directory hst (hop ▸ hread) word
    | page f hst hk hread _ _ _ =>
      obtain ⟨word, rfl⟩ := data_of_shapeFits_ok hs (.inl (hop ▸ hread))
      exact State.walkTurn_page hst (hop ▸ hread) word
    | fillUpdate f old hst hk hupd _ _ _ =>
      obtain ⟨word, rfl⟩ := data_of_shapeFits_ok hs (.inr ⟨_, hop ▸ hupd⟩)
      exact State.walkTurn_update hst (.inl ⟨hk, hop ▸ hupd⟩) word
    | flagUpdate f hst hk hupd _ _ _ =>
      obtain ⟨word, rfl⟩ := data_of_shapeFits_ok hs (.inr ⟨_, hop ▸ hupd⟩)
      exact State.walkTurn_update hst (.inr ⟨hk, hop ▸ hupd⟩) word

/-- A response taken by a walk has one of the outcomes of `EndsWork` (R94 to R98, R100, R102, R104). -/
theorem State.endsWork_of_walk {s : State} {t : Transaction} {rest : List Transaction} {status : ResponseStatus}
    {data : List Word} (ha : s.Answers t rest status data) {i : SlotNumber} {w : Walk} (ho : t.origin = .walk i)
    (hi : s.slot i = some w) (hf : w.Fits) (hop : w.op = t.op) : ∃ u, s.EndsWork (.response status data) u := by
  cases hab : w.abandoned with
  | true => exact ⟨_, .abandonedWalk t rest status data i w _ ha ho hi hab (represents_representWaiting _)⟩
  | false =>
    cases hst : w.stale with
    | true =>
      obtain ⟨v, hv⟩ := restarts_total (s.responseTaken rest) i w
      exact ⟨v, .restartedWalk t rest status data i w v ha ho hi hab hst hv⟩
    | false =>
      cases State.walkTurn_of_fits (s := s) hf hop ha.shape with
      | completes word entry hok hdata hc =>
        subst hok hdata
        exact ⟨_, .completedWalk t rest word i w entry _ _ ha ho hi hab hst hc (presentsInTurn_iff.2 rfl)
          (represents_representWaiting _)⟩
      | fails cause dirs hfail =>
        exact ⟨_, .failedWalk t rest status data i w cause dirs _ _ ha ho hi hab hst hfail (faultsInTurn_iff.2 rfl)
          (represents_representWaiting _)⟩
      | advances word w' dirs hok hdata hadv =>
        subst hok hdata
        exact ⟨_, .advancedWalk t rest word i w w' dirs ha ho hi hab hst hadv⟩

/-- A response taken by a client item has one of the outcomes of `EndsWork` (R59, R60, R132). -/
theorem State.endsWork_of_client {s : State} {t : Transaction} {rest : List Transaction} {status : ResponseStatus}
    {data : List Word} (ha : s.Answers t rest status data) {v : RequestValues} (ho : t.origin = .client v) {item : Item}
    {behind : List Item} (hl : (s.port v.port).returns.get v.cls = item :: behind) (hi : item.isInFlight = true) :
    ∃ u, s.EndsWork (.response status data) u := by
  obtain ⟨done, later, rfl, hd, hf⟩ := exists_done_later behind
  cases status with
  | ok => exact ⟨_, .itemOk t rest data v item done later ha ho hl hi hd hf⟩
  | error =>
    obtain rfl := data_of_shapeFits_error ha.shape
    exact ⟨_, .itemError t rest v item done later ha ho hl hi hd hf⟩

/-- Settles O59: items and transactions enter at the back and leave at the front together, so the origin of the oldest transaction is there to take its
response. -/
theorem itemsPairedKept : Obligations.ItemsPairedKept := by
  refine ⟨fun _ _ hs he => keptByEvents_itemsPaired.step hs he, fun s t rest status data hlinked hpaired hfront ha => ?_⟩
  refine ⟨?outcome, fun i ho => ?walk, fun v ho => ?client⟩
  case outcome =>
    cases ho : t.origin with
    | walk i =>
      obtain ⟨⟨w, hi, -, hop, -, hf⟩, -, -⟩ := hlinked.taken ha.oldest ho
      exact State.endsWork_of_walk ha ho hi hf hop
    | client v =>
      obtain ⟨item, later, hl, hi, -, -⟩ := hpaired.front hfront ha.oldest ho
      exact State.endsWork_of_client ha ho hl hi
  case walk =>
    obtain ⟨⟨w, hi, haw, hop, haddr, -⟩, hrest, -⟩ := hlinked.taken ha.oldest ho
    exact ⟨w, hi, haw, hop, haddr, hrest⟩
  case client =>
    exact ⟨hlinked.clients t (ha.oldest ▸ List.mem_cons_self) v ho, hpaired.front hfront ha.oldest ho⟩

end Sys2Proof.Machine
end

section
/-! PROOFS of the family "what holds of every event": what no operation but its own write reaches (R19, R20, R30, R114), the causes that stay set, and the
transactions handed outside (R160, R161, R164). -/

namespace Sys2Proof.Machine

/-! ## The surroundings of an event's work -/

/-- The operation and address of a transaction that is handed outside. -/
def Output.sent? : Output → Option (TxnOp × PhysAddr)
  | .transaction op a => some (op, a)
  | .answer _ _ => none
  | .completion _ _ => none
  | .clear => none
  | .readData _ => none

/-- What the work of an event leaves alone unless the event is a write of it, or a grant: the model's queue, the region map, the configuration fields of the
contexts, the bindings of the ports, and the transactions handed outside so far. -/
structure Surroundings where
  pending       : List Instr
  regions       : Vector RegionEntry 8
  configuration : Vector ContextRecord 16
  bindings      : Vector ContextNumber 4
  sent          : List (TxnOp × PhysAddr)

def State.surroundings (s : State) : Surroundings :=
  { pending := s.pending
    regions := s.regions
    configuration := s.contexts.map ContextRecord.deviceReset
    bindings := s.ports.map Port.binding
    sent := s.emitted.filterMap Output.sent? }

section
variable {s t : State} (h : t.surroundings = s.surroundings)
include h

theorem State.pending_of_surroundings : t.pending = s.pending := congrArg Surroundings.pending h

theorem State.regions_of_surroundings : t.regions = s.regions := congrArg Surroundings.regions h

theorem State.configuration_of_surroundings (c : ContextNumber) :
    (t.context c).deviceReset = (s.context c).deviceReset := by
  have hc := congrArg (fun v => v[c.val]) (congrArg Surroundings.configuration h)
  simpa [State.surroundings, State.context] using hc

theorem State.binding_of_surroundings (p : PortNumber) : (t.port p).binding = (s.port p).binding := by
  have hp := congrArg (fun v => v[p.val]) (congrArg Surroundings.bindings h)
  simpa [State.surroundings, State.port] using hp

end

/-- Translation work reaches none of them. -/
theorem State.surroundings_of_outside {s t : State} (h : t.outside = s.outside) : t.surroundings = s.surroundings := by
  have hports : ∀ u : State, u.outside.ports.map Port.binding = u.ports.map Port.binding := fun u => by
    simp [State.outside, Function.comp_def, Port.outside]
  unfold State.surroundings
  rw [State.outside_pending h, State.outside_regions h, State.outside_contexts h, State.outside_emitted h, ← hports t, h, hports s]

theorem State.surroundings_setPort {s : State} {p : PortNumber} {v : Port} (hv : v.binding = (s.port p).binding) :
    (s.setPort p v).surroundings = s.surroundings := by
  have hb : (s.ports.set p.val v).map Port.binding = s.ports.map Port.binding := by
    refine Vector.ext fun i hi => ?_
    simp only [Vector.getElem_map, Vector.getElem_set]
    split
    · next hpi => subst hpi; exact hv
    · rfl
  unfold State.surroundings State.setPort
  rw [hb]

theorem State.surroundings_mapPorts {s : State} {f : Port → Port} (hf : ∀ p, (f p).binding = p.binding) :
    ({ s with ports := s.ports.map f } : State).surroundings = s.surroundings := by
  have hb : (s.ports.map f).map Port.binding = s.ports.map Port.binding := by
    simp [Function.comp_def, hf]
  unfold State.surroundings
  rw [hb]

/-- A context record that changes its state only. -/
theorem State.surroundings_setContext {s : State} {c : ContextNumber} {v : ContextRecord}
    (hv : v.deviceReset = (s.context c).deviceReset) : (s.setContext c v).surroundings = s.surroundings := by
  have hc : (s.contexts.set c.val v).map ContextRecord.deviceReset = s.contexts.map ContextRecord.deviceReset := by
    refine Vector.ext fun i hi => ?_
    simp only [Vector.getElem_map, Vector.getElem_set]
    split
    · next hci => subst hci; exact hv
    · rfl
  unfold State.surroundings State.setContext
  rw [hc]

theorem State.surroundings_emit {s : State} {o : Output} (ho : o.sent? = none) :
    (s.emit o).surroundings = s.surroundings := by
  simp [State.surroundings, State.emit, ho]

theorem State.surroundings_issue (s : State) (op : TxnOp) (a : PhysAddr) (o : Origin) :
    (s.issue op a o).surroundings = { s.surroundings with sent := s.surroundings.sent ++ [(op, a)] } := by
  simp [State.surroundings, State.issue, State.emit, Output.sent?]

/-! ## Operations shared by the events -/

theorem surroundings_presentHead (h : HeadId) (s : State) : (presentHead h s).surroundings = s.surroundings :=
  State.surroundings_of_outside (presentHead_outside h s)

theorem surroundings_endItem (h : HeadId) (st : Status) (d : Option (List Word)) (s : State) :
    (s.endItem h st d).surroundings = s.surroundings :=
  State.surroundings_setPort rfl

theorem surroundings_moveHead (h : HeadId) (state : ItemState) (e : Entry) (s : State) :
    (moveHead h state e s).surroundings = s.surroundings :=
  State.surroundings_setPort rfl

theorem surroundings_takeDataError (v : RequestValues) (s : State) :
    (takeDataError v s).surroundings = s.surroundings :=
  State.surroundings_of_outside (outside_takeDataError v s)

theorem surroundings_settleContext (c : ContextNumber) (s : State) :
    (settleContext c s).surroundings = s.surroundings := by
  have hoff : (s.setContext c { s.context c with state := .off }).surroundings = s.surroundings :=
    State.surroundings_setContext rfl
  unfold settleContext
  dsimp only
  split
  · split
    · exact hoff
    · exact hoff
  · rfl

theorem surroundings_settleSync (s : State) : (settleSync s).surroundings = s.surroundings := by
  unfold settleSync
  split
  · split <;> rfl
  · rfl

theorem surroundings_settle (s : State) : (settle s).surroundings = s.surroundings := by
  have hcontexts (l : List ContextNumber) (t : State) :
      (l.foldl (fun t c => settleContext c t) t).surroundings = t.surroundings := by
    induction l generalizing t with
    | nil => rfl
    | cons c l ih => rw [List.foldl_cons, ih, surroundings_settleContext]
  rw [settle, surroundings_settleSync, hcontexts]

/-! ## The end of all work (R169) -/

theorem surroundings_endTransaction (t : Transaction) (s : State) :
    (endTransaction t s).surroundings = s.surroundings := by
  unfold endTransaction
  split
  · rw [surroundings_takeDataError, surroundings_endItem]
  · exact State.surroundings_of_outside (endWalkTransaction_outside _ s)

theorem surroundings_endOutstanding (l : List Transaction) (s : State) :
    (endOutstanding l s).surroundings = s.surroundings := by
  induction l generalizing s with
  | nil => rfl
  | cons t rest ih => rw [endOutstanding, ih, surroundings_endTransaction]; rfl

theorem surroundings_enterFailed (s : State) : (enterFailed s).surroundings = s.surroundings := by
  rw [enterFailed, State.surroundings_of_outside (failAwaiting_outside _), surroundings_endOutstanding]
  rfl

theorem surroundings_compareLimit (s : State) : (compareLimit s).surroundings = s.surroundings := by
  unfold compareLimit
  split
  · split
    · rfl
    · split
      · rw [surroundings_settle, surroundings_enterFailed]
      · rfl
  · split
    · exact State.surroundings_emit rfl
    · rfl
  · rfl

/-! ## Events of the client ports and of the memory port -/

theorem surroundings_presentRequest (p : PortNumber) (r : Request) (s : State) :
    (presentRequest p r s).surroundings = s.surroundings := by
  have hanswer : ∀ a, (s.emit (.answer p a)).surroundings = s.surroundings := fun a => State.surroundings_emit rfl
  have haccept : ∀ u : State, (acceptRequest p r u).surroundings = u.surroundings := by
    intro u
    have hq : (u.setQueue ⟨p, r.cls⟩ (u.queue ⟨p, r.cls⟩ ++ [newEntry r])).surroundings = u.surroundings :=
      State.surroundings_setPort rfl
    unfold acceptRequest
    dsimp only
    split
    · rw [surroundings_presentHead, hq]
    · exact hq
  unfold presentRequest
  dsimp only
  split
  · rw [haccept, hanswer]
  · exact hanswer _

theorem surroundings_deliver (p : PortNumber) (s : State) : (deliver p s).surroundings = s.surroundings := by
  have hclose : ∀ v : Port, v.closeIfEmpty.binding = v.binding := fun v => by
    unfold Port.closeIfEmpty; split <;> rfl
  unfold deliver
  split
  · rfl
  · split
    · exact (State.surroundings_emit rfl).trans (State.surroundings_setPort (hclose _))
    · rfl

theorem surroundings_transfer (h : HeadId) (s : State) : (transfer h s).surroundings = s.surroundings := by
  unfold transfer
  split
  · split
    · split
      · rw [surroundings_settle, surroundings_presentHead, surroundings_moveHead]
      · rfl
    · rfl
  · rfl

theorem surroundings_rememberGrant (h : HeadId) (s : State) : (rememberGrant h s).surroundings = s.surroundings := by
  obtain ⟨u, n, r, hf⟩ := rememberGrant_frame h s
  rw [hf]
  rfl

/-- A grant adds to the transactions handed outside at most. -/
theorem surroundings_grant (s : State) : ∃ sent, (grant s).surroundings = { s.surroundings with sent := sent } := by
  unfold grant
  split
  · split
    · unfold grantWalk
      split
      · exact ⟨_, rfl⟩
      · exact ⟨_, State.surroundings_issue _ _ _ _⟩
    · rw [surroundings_settle]
      unfold grantHead
      split
      · split
        · rw [surroundings_presentHead, State.surroundings_issue, surroundings_moveHead, surroundings_rememberGrant]
          exact ⟨_, rfl⟩
        · exact ⟨_, rfl⟩
      · exact ⟨_, rfl⟩
    · exact ⟨_, rfl⟩
  · exact ⟨_, rfl⟩

theorem surroundings_response (status : ResponseStatus) (data : List Word) (s : State) :
    (response status data s).surroundings = s.surroundings := by
  have htake : ∀ (t : Transaction) (u : State), (takeResponse t status data u).surroundings = u.surroundings := by
    intro t u
    unfold takeResponse
    split
    · split
      · exact surroundings_endItem _ _ _ u
      · rw [surroundings_takeDataError, surroundings_endItem]
    · exact State.surroundings_of_outside (takeWalkResponse_outside _ _ _ u)
  have hrun : (responseRunning status data s).surroundings = s.surroundings := by
    unfold responseRunning
    split
    · exact surroundings_enterFailed s
    · split
      · rw [htake]
        rfl
      · exact surroundings_enterFailed s
  unfold response
  split
  · rw [surroundings_settle, hrun]
  · rfl

theorem surroundings_cleared (s : State) : (cleared s).surroundings = s.surroundings := by
  have hclearing : (clearedClearing s).surroundings = s.surroundings := by
    unfold clearedClearing
    split
    · rfl
    · split <;> rfl
  unfold cleared
  split
  · rfl
  · split
    · exact hclearing
    · split
      · rfl
      · rw [surroundings_settle, surroundings_enterFailed]
    · rfl

theorem surroundings_expire (s : State) : (expire s).surroundings = s.surroundings := by
  unfold expire
  split
  · rw [surroundings_settle, surroundings_enterFailed]
    rfl
  · rfl

theorem surroundings_expireClear (s : State) : (expireClear s).surroundings = s.surroundings := by
  unfold expireClear
  split
  · exact State.surroundings_emit rfl
  · rfl

/-! ## Commands -/

theorem surroundings_completeCommand (s : State) : s.completeCommand.surroundings = s.surroundings := rfl

theorem surroundings_disableContext (c : ContextNumber) (s : State) :
    (disableContext c s).surroundings = s.surroundings := by
  obtain ⟨slots, order, parked, hf⟩ := disable_frame c s
  rw [disableContext, State.surroundings_of_outside (representWaiting_outside _), hf]
  refine (State.surroundings_mapPorts fun p => (disablePort_spec c p).2.2.2.2.2).trans ?_
  exact State.surroundings_setContext (s := s) rfl

theorem surroundings_applyCommand (op : CommandOp) (s : State) : (applyCommand op s).surroundings = s.surroundings := by
  cases op with
  | invalidate sc =>
    show (invalidate sc s).completeCommand.surroundings = _
    rw [surroundings_completeCommand, State.surroundings_of_outside (invalidate_outside sc s)]
  | sync marker =>
    refine (surroundings_settleSync (formWatchSet s)).trans ?_
    exact State.surroundings_mapPorts (s := { s with slots := s.slots.map watchWalk }) fun p => rfl
  | enable c => exact State.surroundings_setContext (s := s) rfl
  | disable c => exact (surroundings_settle _).trans (surroundings_disableContext c s)
  | resume h =>
    show (presentHead h (s.setParked h none)).completeCommand.surroundings = _
    rw [surroundings_completeCommand, surroundings_presentHead]
    rfl
  | terminate h =>
    show ((s.setParked h none).setHeadState h (.finishing .faulted)).completeCommand.surroundings = _
    rw [surroundings_completeCommand, State.surroundings_of_outside (State.outside_setHeadState h _ _)]
    rfl
  | clearMemory => exact State.surroundings_emit rfl
  | probe c p => rfl

theorem surroundings_takeCommand (s : State) : (takeCommand s).surroundings = s.surroundings := by
  unfold takeCommand
  split
  · rfl
  · split
    · rfl
    · dsimp only
      split
      · rfl
      · split
        · rfl
        · rw [surroundings_applyCommand]
          rfl

theorem surroundings_submit (code : BitVec 8) (s : State) : (submit code s).surroundings = s.surroundings := by
  unfold submit
  split
  · split <;> rfl
  · rfl

theorem surroundings_writeOperand (w : Word) (s : State) : (writeOperand w s).surroundings = s.surroundings := by
  unfold writeOperand
  split <;> rfl

theorem surroundings_submitAndTake (code : BitVec 8) (s : State) :
    (submitAndTake code s).surroundings = s.surroundings := by
  unfold submitAndTake
  split
  · rw [surroundings_takeCommand, surroundings_submit]
  · exact surroundings_submit code s

theorem surroundings_submitWith (code : CommandCode) (w : Word) (s : State) :
    (submitWith code w s).surroundings = s.surroundings := by
  rw [submitWith, surroundings_submitAndTake, surroundings_writeOperand]

/-! ## The window and the device reset -/

theorem surroundings_deviceReset (s : State) : (deviceReset s).surroundings = s.surroundings := by
  unfold deviceReset
  split
  · unfold startDeviceReset
    rw [State.surroundings_emit rfl]
    have hcontexts : (s.contexts.map ContextRecord.deviceReset).map ContextRecord.deviceReset =
        s.contexts.map ContextRecord.deviceReset := by
      simp [Function.comp_def, ContextRecord.deviceReset]
    have hports : (s.ports.map Port.deviceReset).map Port.binding = s.ports.map Port.binding := by
      simp [Function.comp_def, Port.deviceReset]
    unfold State.surroundings
    dsimp only
    rw [hcontexts, hports]
  · rfl

theorem surroundings_openPort (p : PortNumber) (s : State) : (openPort p s).surroundings = s.surroundings := by
  unfold openPort
  split
  · split
    · exact State.surroundings_setPort rfl
    · rfl
  · rfl

theorem surroundings_closePort (p : PortNumber) (s : State) : (closePort p s).surroundings = s.surroundings := by
  unfold closePort
  split
  · split
    · rw [closeIfEmpty_closing]
      exact State.surroundings_setPort rfl
    · rfl
  · rfl

theorem surroundings_writePortControl (p : PortNumber) (v : Word) (s : State) :
    (writePortControl p v s).surroundings = s.surroundings := by
  unfold writePortControl
  split
  · exact surroundings_openPort p s
  · exact surroundings_closePort p s
  · split <;> rfl

theorem surroundings_writeDeviceControl (v : Word) (s : State) : (writeDeviceControl v s).surroundings = s.surroundings := by
  unfold writeDeviceControl
  split
  · exact surroundings_deviceReset s
  · split <;> rfl

theorem surroundings_writeTimebase (v : Word) (s : State) : (writeTimebase v s).surroundings = s.surroundings := by
  unfold writeTimebase
  split
  · split <;> rfl
  · rfl

theorem surroundings_writeResponseLimit (v : Word) (s : State) :
    (writeResponseLimit v s).surroundings = s.surroundings := by
  unfold writeResponseLimit
  split
  · rw [surroundings_compareLimit]
    rfl
  · rfl

theorem surroundings_writeInterruptStatus (v : Word) (s : State) :
    (writeInterruptStatus v s).surroundings = s.surroundings := by
  unfold writeInterruptStatus
  split <;> rfl

theorem surroundings_writeInterruptEnable (v : Word) (s : State) :
    (writeInterruptEnable v s).surroundings = s.surroundings := by
  unfold writeInterruptEnable
  split <;> rfl

theorem surroundings_popFaultLog (s : State) : (popFaultLog s).surroundings = s.surroundings := by
  unfold popFaultLog
  split
  · split <;> rfl
  · rfl

theorem surroundings_hostRead (o : BitVec 12) (en : BitVec 4) (s : State) :
    (hostRead o en s).surroundings = s.surroundings := by
  have hread : ∀ v, (s.emit (.readData v)).surroundings = s.surroundings := fun v => State.surroundings_emit rfl
  unfold hostRead
  dsimp only
  split <;> exact hread _

theorem surroundings_releaseResetn (s : State) : (releaseResetn s).surroundings = s.surroundings := by
  unfold releaseResetn
  split
  · exact State.surroundings_emit rfl
  · rfl

/-! ## What an event may change of the configuration -/

/-- The configuration as an event may change it: the region map with every context OFF, the fields of a context in OFF, a binding in CLOSED (R19, R20, R30,
R114). The model's queue and the transactions handed outside are as they were. -/
structure State.Configured (s t : State) : Prop where
  pending       : t.pending = s.pending
  sent          : t.surroundings.sent = s.surroundings.sent
  regions       : (∃ c, (s.context c).state ≠ .off) → t.regions = s.regions
  configuration : ∀ c, (s.context c).state ≠ .off → (t.context c).deviceReset = (s.context c).deviceReset
  bindings      : ∀ p, (s.port p).state ≠ .closed → (t.port p).binding = (s.port p).binding

theorem State.Configured.of_surroundings {s t : State} (h : t.surroundings = s.surroundings) : s.Configured t where
  pending := State.pending_of_surroundings h
  sent := congrArg Surroundings.sent h
  regions _ := State.regions_of_surroundings h
  configuration c _ := State.configuration_of_surroundings h c
  bindings p _ := State.binding_of_surroundings h p

theorem State.Configured.setPort {s : State} {p : PortNumber} (hc : (s.port p).state = .closed) (v : Port) :
    s.Configured (s.setPort p v) where
  pending := rfl
  sent := rfl
  regions _ := rfl
  configuration _ _ := rfl
  bindings q hq := by
    rw [State.port_setPort, if_neg]
    rintro rfl
    exact hq hc

theorem State.Configured.setContext {s : State} {c : ContextNumber} (hc : (s.context c).state = .off)
    (v : ContextRecord) : s.Configured (s.setContext c v) where
  pending := rfl
  sent := rfl
  regions _ := rfl
  configuration d hd := by
    rw [State.context_setContext, if_neg]
    rintro rfl
    exact hd hc
  bindings _ _ := rfl

theorem State.Configured.setRegion {s : State} (hoff : ∀ c, (s.context c).state = .off) (i : Fin 8) (v : RegionEntry) :
    s.Configured (s.setRegion i v) where
  pending := rfl
  sent := rfl
  regions h := by
    obtain ⟨c, hc⟩ := h
    exact absurd (hoff c) hc
  configuration _ _ := rfl
  bindings _ _ := rfl

theorem configured_writeBinding (p : PortNumber) (v : Word) (s : State) : s.Configured (writeBinding p v s) := by
  unfold writeBinding
  split
  · split
    · next hc => exact .setPort hc _
    · exact .of_surroundings rfl
  · exact .of_surroundings rfl

theorem configured_writeContext (c : ContextNumber) (word : ContextWord) (v : Word) (s : State) :
    s.Configured (writeContext c word v s) := by
  cases word
  case frame =>
    show s.Configured (writeContextFrame c v s)
    unfold writeContextFrame
    split
    · split
      · next hc => exact .setContext hc _
      · exact .of_surroundings rfl
    · exact .of_surroundings rfl
  case control =>
    show s.Configured (writeContextControl c v s)
    unfold writeContextControl
    split
    · split
      · next hc => exact .setContext hc _
      · exact .of_surroundings rfl
    · exact .of_surroundings rfl

theorem configured_writeRegion (i : Fin 8) (v : Word) (s : State) : s.Configured (writeRegion i v s) := by
  unfold writeRegion
  split
  · split
    · next h => exact .setRegion (s.allOff_iff.1 h.1) _ _
    · exact .of_surroundings rfl
  · exact .of_surroundings rfl

theorem configured_writeRegister (r : Register) (v : Word) (s : State) : s.Configured (writeRegister r v s) := by
  cases r
  case deviceControl => exact .of_surroundings (surroundings_writeDeviceControl v s)
  case interruptStatus => exact .of_surroundings (surroundings_writeInterruptStatus v s)
  case interruptEnable => exact .of_surroundings (surroundings_writeInterruptEnable v s)
  case timebase => exact .of_surroundings (surroundings_writeTimebase v s)
  case responseLimit => exact .of_surroundings (surroundings_writeResponseLimit v s)
  case portControl p => exact .of_surroundings (surroundings_writePortControl p v s)
  case portBinding p => exact configured_writeBinding p v s
  case contextFrame c => exact configured_writeContext c .frame v s
  case contextControl c => exact configured_writeContext c .control v s
  case regionEntry i => exact configured_writeRegion i v s
  case operandWord => exact .of_surroundings (surroundings_writeOperand v s)
  case submitWord => exact .of_surroundings (surroundings_submit _ s)
  case faultLogPop => exact .of_surroundings (surroundings_popFaultLog s)
  all_goals exact .of_surroundings rfl

theorem configured_hostWrite (o : BitVec 12) (en : BitVec 4) (v : Word) (s : State) :
    s.Configured (hostWrite o en v s) := by
  unfold hostWrite
  split
  · split <;> exact .of_surroundings rfl
  · split
    · split <;> exact .of_surroundings rfl
    · exact configured_writeRegister _ v s

/-- Every event but a power-on reset and a grant. -/
theorem configured_exec {i : Instr} {s t : State} (he : exec i s = .next t) (hp : i ≠ .powerOnReset) (hg : i ≠ .grant) :
    s.beginEvent.Configured t := by
  cases i <;> (change Host.Outcome.next _ = Host.Outcome.next _ at he; injection he with he; subst he)
  case powerOnReset => exact absurd rfl hp
  case grant => exact absurd rfl hg
  case portBindingWrite p v => exact configured_writeBinding p v _
  case contextWrite c word v => exact configured_writeContext c word v _
  case regionEntryWrite i v => exact configured_writeRegion i v _
  case registerWrite o en v => exact configured_hostWrite o en v _
  all_goals refine .of_surroundings ?_
  case resetnRelease => exact surroundings_releaseResetn _
  case deviceReset => exact surroundings_deviceReset _
  case request p r => exact surroundings_presentRequest p r _
  case delivery p => exact surroundings_deliver p _
  case response st d => exact surroundings_response st d _
  case cleared => exact surroundings_cleared _
  case expiry => exact surroundings_expire _
  case clearExpiry => exact surroundings_expireClear _
  case transfer p c => exact surroundings_transfer _ _
  case invalidatePage w => exact surroundings_submitWith _ w _
  case invalidateDirectory w => exact surroundings_submitWith _ w _
  case invalidateContext w => exact surroundings_submitWith _ w _
  case invalidateAll => exact surroundings_submitAndTake _ _
  case sync w => exact surroundings_submitWith _ w _
  case enableContext w => exact surroundings_submitWith _ w _
  case disableContext w => exact surroundings_submitWith _ w _
  case resume w => exact surroundings_submitWith _ w _
  case terminate w => exact surroundings_submitWith _ w _
  case clearMemoryPort => exact surroundings_submitAndTake _ _
  case probe w => exact surroundings_submitWith _ w _
  case unknownCode k => exact surroundings_submitAndTake _ _
  case openPort p => exact surroundings_openPort p _
  case closePort p => exact surroundings_closePort p _
  case timebaseWrite v => exact surroundings_writeTimebase v _
  case responseLimitWrite v => exact surroundings_writeResponseLimit v _
  case interruptStatusClear v => exact surroundings_writeInterruptStatus v _
  case interruptEnableWrite v => exact surroundings_writeInterruptEnable v _
  case faultLogPop v => exact surroundings_popFaultLog _
  case commandTake => exact surroundings_takeCommand _
  case malformedRead o en => exact surroundings_hostRead o en _

/-! ## The statements -/

theorem exec_answers_next (c : Instr) (s : State) : ∃ t, exec c s = .next t := by
  cases c <;> exact ⟨_, rfl⟩

/-- Settles O3: the model's queue is among the surroundings of every event. -/
theorem everyEventAnswersNext : Obligations.EveryEventAnswersNext := by
  intro c s
  obtain ⟨t, he⟩ := exec_answers_next c s
  refine ⟨t, he, ?_⟩
  by_cases hp : c = .powerOnReset
  · subst hp
    injection he with he
    subst he
    rfl
  by_cases hg : c = .grant
  · subst hg
    injection he with he
    subst he
    obtain ⟨sent, h⟩ := surroundings_grant s.beginEvent
    exact congrArg Surroundings.pending h
  · exact (configured_exec he hp hg).pending

/-- Settles O51: of the surroundings only the three configuration writes reach the configuration, each in its own state. -/
theorem configurationFixed : Obligations.ConfigurationFixed := by
  intro i s t he hp
  by_cases hg : i = .grant
  · subst hg
    injection he with he
    obtain ⟨sent, h⟩ := surroundings_grant s.beginEvent
    have hs : t.surroundings = ({ s with emitted := sent.map fun x => .transaction x.1 x.2 } : State).surroundings := by
      have hsent : (sent.map fun x => Output.transaction x.1 x.2).filterMap Output.sent? = sent := by
        simp [List.filterMap_map, Function.comp_def, Output.sent?]
      rw [← he, h]
      simp [State.surroundings, hsent]
    exact ⟨fun _ => (State.regions_of_surroundings hs).trans rfl,
      fun c _ => (State.configuration_of_surroundings hs c).trans rfl,
      fun p _ => (State.binding_of_surroundings hs p).trans rfl⟩
  · have hc := configured_exec he hp hg
    exact ⟨hc.regions, hc.configuration, hc.bindings⟩

/-! ## Transactions handed outside (R161, R164) -/

theorem mem_sent_of_emitted {s : State} {op : TxnOp} {a : PhysAddr} (h : .transaction op a ∈ s.emitted) :
    (op, a) ∈ s.surroundings.sent :=
  List.mem_filterMap.2 ⟨_, h, rfl⟩

theorem emitted_settle (s : State) : (settle s).emitted = s.emitted := by
  obtain ⟨c, l, n, m, irq, h⟩ := settle_frame s
  rw [h]

/-- A grant sends one transaction and appends it to the outstanding list, or does neither. -/
theorem grant_issues (s : State) :
    ((grant s).emitted = s.emitted) ∨
      (s.memState = .running ∧ s.outstanding.length < 16 ∧ ∃ op a origin,
        (grant s).emitted = s.emitted ++ [.transaction op a] ∧
        (grant s).outstanding = s.outstanding ++ [{ op := op, address := a, origin := origin, age := 0 }]) := by
  unfold grant
  split
  · next hroom =>
    obtain ⟨hrun, hroom⟩ := hroom
    split
    · unfold grantWalk
      split
      · exact .inl rfl
      · exact .inr ⟨hrun, hroom, _, _, _, rfl, rfl⟩
    · next h _ =>
      rw [emitted_settle, settle_outstanding]
      unfold grantHead
      split
      · next e _ =>
        split
        · next a _ =>
          have hout := presentHead_outside h
          obtain ⟨u, n, r, hf⟩ := rememberGrant_frame h s
          refine .inr ⟨hrun, hroom, clientOp e.request, a, .client (s.requestValues h e.request), ?_, ?_⟩
          · rw [State.outside_emitted (hout _), hf]
            rfl
          · rw [State.outside_outstanding (hout _), hf]
            rfl
        · exact .inl rfl
      · exact .inl rfl
    · exact .inl rfl
  · exact .inl rfl

/-- Settles O52: every event but a grant begins with nothing sent and sends no transaction. -/
theorem transactionsOnlyByGrant : Obligations.TransactionsOnlyByGrant := by
  intro i s t op a he hmem
  by_cases hp : i = .powerOnReset
  · subst hp
    injection he with he
    subst he
    exact absurd hmem List.not_mem_nil
  by_cases hg : i = .grant
  · subst hg
    injection he with he
    subst he
    rcases grant_issues s.beginEvent with h | ⟨hrun, hroom, op', a', origin, hsent, hout⟩
    · rw [h] at hmem
      exact absurd hmem List.not_mem_nil
    · rw [hsent] at hmem
      obtain ⟨rfl, rfl⟩ : op = op' ∧ a = a' := by simpa [State.beginEvent] using hmem
      exact ⟨rfl, hrun, hroom, origin, hout⟩
  · have hsent := (configured_exec he hp hg).sent ▸ mem_sent_of_emitted hmem
    exact absurd hsent List.not_mem_nil

end Sys2Proof.Machine
end

section
/-! PROOFS of the family "the machine and its resets" (R168, R171, R174, R179, R180): the step, the host clock cycle of an empty queue, and both resets. -/

namespace Sys2Proof.Machine

/-! ## A step (log entry 2) -/

theorem step_of_cons {c : Instr} {rest : List Instr} {s : State} (h : s.pending = c :: rest) :
    step s = exec c { s with pending := rest } := by
  rw [step, h]

theorem step_of_nil {s : State} (h : s.pending = []) : step s = .next (hostClock s.beginEvent) := by
  rw [step, h]

/-- Settles O1: the first branch of a step. -/
theorem stepRunsFront : Obligations.StepRunsFront := fun _ _ _ => step_of_cons rfl

/-! ## The host clock cycle (R168, R171) -/

theorem hostClock_of_resetnLow {s : State} (h : s.resetnLow = true) : hostClock s = s := by
  simp [hostClock, h]

theorem hostClock_of_running_tick {s : State} (hl : s.resetnLow = false) (ht : 1 < s.tickLeft) :
    hostClock s = { s with tickLeft := s.tickLeft - 1 } := by
  simp [hostClock, hl, Nat.not_le.2 ht]

theorem hostClock_of_last_cycle {s : State} (hl : s.resetnLow = false) (ht : s.tickLeft ≤ 1) :
    hostClock s = compareLimit (advanceAges (restartTick s)) := by
  simp [hostClock, hl, ht, tick]

theorem limitReached_iff (limit : BitVec 16) (age : Nat) :
    limitReached limit age = true ↔ limit.toNat ≠ 0 ∧ limit.toNat ≤ age := by
  simp [limitReached]

/-- A limit of 16 bits is reached by an age that stops at 65535 exactly when it is by one that does not (R168). -/
theorem limitReached_nextAge (limit : BitVec 16) (age : Nat) :
    limitReached limit (nextAge age) = true ↔ limit.toNat ≠ 0 ∧ limit.toNat ≤ age + 1 := by
  have hlimit := limit.isLt
  rw [limitReached_iff]
  unfold nextAge
  split
  · rfl
  · rename_i h
    have hage : 65535 ≤ age := Nat.not_lt.1 h
    exact and_congr_right fun _ => ⟨fun _ => by omega, fun _ => by omega⟩

/-- The ages after a tick, in the statements' words (R168, R171). -/
theorem advanceAges_restartTick_beginEvent (s : State) :
    advanceAges (restartTick s.beginEvent) =
      { s with
        tickLeft := s.timebase.toNat
        outstanding := s.outstanding.map fun t => { t with age := if t.age < 65535 then t.age + 1 else t.age }
        clearAge := if s.memState = .clearing ∧ s.clearAge < 65535 then s.clearAge + 1 else s.clearAge
        emitted := [] } := by
  have hclear : (if s.memState = .clearing then nextAge s.clearAge else s.clearAge) =
      if s.memState = .clearing ∧ s.clearAge < 65535 then s.clearAge + 1 else s.clearAge := by
    unfold nextAge
    by_cases hm : s.memState = .clearing <;> simp [hm]
  show ({ s with
    tickLeft := s.timebase.toNat
    outstanding := s.outstanding.map fun t => { t with age := nextAge t.age }
    clearAge := if s.memState = .clearing then nextAge s.clearAge else s.clearAge
    emitted := [] } : State) = _
  rw [hclear]
  rfl

/-- A comparison that no age meets has no effect (R168, R171). -/
theorem compareLimit_of_unreached {s : State}
    (hr : s.memState = .running → ∀ t rest, s.outstanding = t :: rest → limitReached s.responseLimit t.age = false)
    (hc : s.memState = .clearing → limitReached s.responseLimit s.clearAge = false) : compareLimit s = s := by
  unfold compareLimit
  split
  · rename_i hm
    split
    · rfl
    · rename_i t rest ho
      rw [hr hm t rest ho]
      rfl
  · rename_i hm
    rw [hc hm]
    rfl
  · rfl

/-- The comparison after a tick that no age meets (R168, R171). -/
theorem compareLimit_advanceAges_of_unreached {s : State}
    (h : s.responseLimit.toNat = 0 ∨ s.memState = .failed ∨
      (s.memState = .running ∧ ∀ t rest, s.outstanding = t :: rest → t.age + 1 < s.responseLimit.toNat) ∨
      (s.memState = .clearing ∧ s.clearAge + 1 < s.responseLimit.toNat)) :
    compareLimit (advanceAges s) = advanceAges s := by
  have hage : ∀ age, limitReached s.responseLimit (nextAge age) = true →
      s.responseLimit.toNat ≠ 0 ∧ s.responseLimit.toNat ≤ age + 1 := fun age => (limitReached_nextAge _ age).1
  refine compareLimit_of_unreached (fun hm t rest ho => ?_) fun hm => ?_
  · have hm' : s.memState = .running := hm
    obtain ⟨x, xs, hx, rfl, -⟩ := List.map_eq_cons_iff.1 ho
    rw [← Bool.not_eq_true]
    intro hreach
    obtain ⟨h0, hle⟩ := hage _ hreach
    rcases h with h | h | ⟨-, h⟩ | ⟨h, -⟩
    · exact h0 h
    · rw [hm'] at h; cases h
    · exact absurd hle (Nat.not_le.2 (h x xs hx))
    · rw [hm'] at h; cases h
  · have hm' : s.memState = .clearing := hm
    have hca : (advanceAges s).clearAge = nextAge s.clearAge := if_pos hm'
    rw [hca, ← Bool.not_eq_true]
    intro hreach
    obtain ⟨h0, hle⟩ := hage _ hreach
    rcases h with h | h | ⟨h, -⟩ | ⟨-, h⟩
    · exact h0 h
    · rw [hm'] at h; cases h
    · rw [hm'] at h; cases h
    · exact absurd hle (Nat.not_le.2 h)

theorem compareLimit_of_clear_expired {s : State} (hm : s.memState = .clearing) (h0 : s.responseLimit.toNat ≠ 0)
    (hl : s.responseLimit.toNat ≤ s.clearAge + 1) : compareLimit (advanceAges s) = resendClear (advanceAges s) := by
  have hreach : limitReached (advanceAges s).responseLimit (advanceAges s).clearAge = true := by
    rw [show (advanceAges s).clearAge = nextAge s.clearAge from if_pos hm]
    exact (limitReached_nextAge _ _).2 ⟨h0, hl⟩
  have hm' : (advanceAges s).memState = .clearing := hm
  simp [compareLimit, hm', hreach]

/-! ## Causes stay set (R182) -/

/-- A cause is set from some event on: every operation of the translation work and of a failure keeps it (R169, R182). -/
def State.CauseSet (n : Nat) (s : State) : Prop := s.irqStatus.getLsbD n = true

theorem State.CauseSet.raise {n : Nat} {s : State} (hs : s.CauseSet n) (c : IrqCause) : (s.raise c).CauseSet n := by
  have hbit : s.irqStatus.getLsbD n = true := hs
  show (s.irqStatus ||| c.mask).getLsbD n = true
  rw [BitVec.getLsbD_or, hbit, Bool.true_or]

theorem State.causeSet_raise_self (c : IrqCause) (s : State) : (s.raise c).CauseSet c.bit := by
  cases c <;> simp [State.CauseSet, State.raise, IrqCause.mask, IrqCause.bit]

theorem State.CauseSet.takeHeadFault {n : Nat} {s : State} (hs : s.CauseSet n) (cause : FaultCause) (h : HeadId) :
    (takeHeadFault cause h s).CauseSet n := by
  unfold Machine.takeHeadFault
  split
  · exact hs
  · dsimp only
    split
    · split
      · exact State.CauseSet.raise (s := { s.parkHead h cause with faultLog := _, nextSeq := _ }) hs .faultLogged
      · exact State.CauseSet.raise (s := { s.finishHead h .faulted with faultLog := _, nextSeq := _ }) hs .faultLogged
    · exact State.CauseSet.raise (s := s.finishHead h .faulted) hs .logOverflow

theorem State.CauseSet.takeDataError {n : Nat} {s : State} (hs : s.CauseSet n) (v : RequestValues) :
    (takeDataError v s).CauseSet n := by
  unfold Machine.takeDataError
  split
  · exact State.CauseSet.raise (s := { s with faultLog := _, nextSeq := _ }) hs .faultLogged
  · exact hs.raise .logOverflow

theorem kept_causeSet (n : Nat) : Kept (State.CauseSet n) where
  head _ _ hs := hs
  fault cause h hs := hs.takeHeadFault cause h
  touchPage _ hs := hs
  touchDir _ hs := hs
  wait _ _ hs := hs
  start _ _ _ _ _ _ _ _ _ _ hs := hs
  join _ _ _ _ _ hs := hs
  popWait _ hs := hs
  release _ hs := hs
  removePage _ _ hs := hs
  removeScope _ hs := hs
  rewalk _ _ _ _ _ _ _ _ hs := hs
  fillPage {s _ _} f word _ _ hs := by
    rw [fillPage_eq]
    exact hs
  fillDir {s _ _} f _ _ hs := by
    rw [fillDir_eq]
    exact hs

theorem State.CauseSet.endOutstanding {n : Nat} (l : List Transaction) {s : State} (hs : s.CauseSet n) :
    (endOutstanding l s).CauseSet n := by
  induction l generalizing s with
  | nil => exact hs
  | cons t rest ih =>
    have hnext : (endTransaction t { s with outstanding := rest }).CauseSet n := by
      unfold endTransaction
      split
      · exact State.CauseSet.takeDataError (s := State.endItem _ _ _ { s with outstanding := rest }) hs _
      · exact (kept_causeSet n).endWalkTransaction _ (s := { s with outstanding := rest }) hs
    exact ih hnext

theorem State.CauseSet.settleSync {n : Nat} {s : State} (hs : s.CauseSet n) : (settleSync s).CauseSet n := by
  unfold Machine.settleSync
  split
  · next marker _ =>
    split
    · exact State.CauseSet.raise (s := { s with syncMarker := marker }) hs .syncDone
    · exact hs
  · exact hs

theorem settleContext_irqStatus (c : ContextNumber) (s : State) : (settleContext c s).irqStatus = s.irqStatus := by
  unfold settleContext
  dsimp only
  split
  · split <;> rfl
  · rfl

theorem State.CauseSet.settle {n : Nat} {s : State} (hs : s.CauseSet n) : (settle s).CauseSet n := by
  have hcontexts (l : List ContextNumber) (t : State) : (l.foldl (fun t c => settleContext c t) t).irqStatus = t.irqStatus := by
    induction l generalizing t with
    | nil => rfl
    | cons c l ih => rw [List.foldl_cons, ih, settleContext_irqStatus]
  have hdrains : (allContexts.foldl (fun t c => settleContext c t) s).CauseSet n := by
    rw [State.CauseSet, hcontexts]
    exact hs
  exact hdrains.settleSync

/-- Every cause that a failure found set stays set, and MEMORY_FAILED is set by it (R169). -/
theorem State.CauseSet.enterFailed {n : Nat} {s : State} (hs : s.CauseSet n ∨ n = 5) : (enterFailed s).CauseSet n := by
  have hraised : (State.raise .memoryFailed { s with memState := .failed, lateCleared := false }).CauseSet n := by
    rcases hs with hs | rfl
    · exact State.CauseSet.raise (s := { s with memState := .failed, lateCleared := false }) hs .memoryFailed
    · exact State.causeSet_raise_self .memoryFailed _
  exact (kept_causeSet n).failAwaiting (hraised.endOutstanding _)

/-- What a failure leaves of the port, from any state: nothing outstanding, and MEMORY_FAILED set (R169). -/
theorem settle_enterFailed_port (s : State) :
    (settle (enterFailed s)).memState = .failed ∧ (settle (enterFailed s)).outstanding = [] ∧
      (settle (enterFailed s)).irqStatus.getLsbD 5 = true := by
  obtain ⟨ho, hm, -, -, -⟩ := endOutstanding_spec s.outstanding
    (State.raise .memoryFailed { s with memState := .failed, lateCleared := false }) rfl
  have hout := failAwaiting_outside (endOutstanding s.outstanding
    (State.raise .memoryFailed { s with memState := .failed, lateCleared := false }))
  refine ⟨?_, ?_, (State.CauseSet.enterFailed (n := 5) (s := s) (.inr rfl)).settle⟩
  · rw [settle_memState]
    exact (State.outside_memState hout).trans hm
  · rw [settle_outstanding]
    exact (State.outside_outstanding hout).trans ho

/-- A comparison after a tick that the oldest age meets fails the port (R168, R169). -/
theorem compareLimit_advanceAges_of_expired {s : State} {t : Transaction} {rest : List Transaction} (hm : s.memState = .running)
    (ho : s.outstanding = t :: rest) (h0 : s.responseLimit.toNat ≠ 0) (hl : s.responseLimit.toNat ≤ t.age + 1) :
    compareLimit (advanceAges s) = settle (enterFailed (advanceAges s)) := by
  have hage : s.responseLimit.toNat ≤ nextAge t.age :=
    ((limitReached_iff _ _).1 ((limitReached_nextAge s.responseLimit t.age).2 ⟨h0, hl⟩)).2
  refine compareLimit_expires (t := { t with age := nextAge t.age }) (rest := rest.map fun t => { t with age := nextAge t.age })
    hm ?_ h0 hage
  show s.outstanding.map _ = _
  rw [ho]
  rfl

/-- Settles O2: the host clock cycle by the tick in progress, and the tick by the comparison it makes. -/
theorem emptyQueueIsOneHostClock : Obligations.EmptyQueueIsOneHostClock := by
  intro s hp
  have hlast (hl : s.resetnLow = false) (ht : s.tickLeft ≤ 1) :
      step s = .next (compareLimit (advanceAges (restartTick s.beginEvent))) := by
    rw [step_of_nil hp, hostClock_of_last_cycle (s := s.beginEvent) hl ht]
  refine ⟨fun hl => ?_, fun hl ht => ?_, fun hl ht hun => ?_, fun hl ht h0 hm hle => ?_, fun hl ht h0 hm t rest ho hle => ?_⟩
  · rw [step_of_nil hp, hostClock_of_resetnLow (s := s.beginEvent) hl]
    rfl
  · rw [step_of_nil hp, hostClock_of_running_tick (s := s.beginEvent) hl ht]
    rfl
  · rw [hlast hl ht, compareLimit_advanceAges_of_unreached (s := restartTick s.beginEvent) hun,
      advanceAges_restartTick_beginEvent]
  · rw [hlast hl ht, compareLimit_of_clear_expired (s := restartTick s.beginEvent) hm h0 hle,
      advanceAges_restartTick_beginEvent]
    rfl
  · rw [hlast hl ht, compareLimit_advanceAges_of_expired (s := restartTick s.beginEvent) hm ho h0 hle]
    exact ⟨_, rfl, settle_enterFailed_port _⟩

/-! ## The state after reset (R18, R63, R110, R123, R174, R179) -/

theorem State.port_reset (p : PortNumber) : State.reset.port p = Port.powerOn := by
  simp [State.port, State.reset, State.powerOn]

theorem State.context_reset (c : ContextNumber) : State.reset.context c = ContextRecord.powerOn := by
  simp [State.context, State.reset, State.powerOn]

theorem State.slot_reset (i : SlotNumber) : State.reset.slot i = none := by
  simp [State.slot, State.reset, State.powerOn]

theorem State.region_reset (i : Fin 8) : State.reset.region i = RegionEntry.powerOn := by
  simp [State.region, State.reset, State.powerOn]

theorem State.parkedPlace_reset (h : HeadId) : State.reset.parkedPlace h = none := by
  obtain ⟨p, c⟩ := h
  cases c <;> simp [State.parkedPlace, State.reset, State.powerOn, PerClass.get]

/-- The state after reset is what the release of RESETN makes of the power-on state (log entry 5). -/
theorem exec_resetnRelease_powerOn (s : State) (hp : s.pending = []) :
    exec .resetnRelease (powerOnReset s) = .next State.reset := by
  have hpower : powerOnReset s = State.powerOn := by rw [powerOnReset, hp]; rfl
  rw [hpower]
  rfl

theorem State.contexts_off_reset (c : ContextNumber) : (State.reset.context c).state = .off := by
  rw [State.context_reset]
  rfl

theorem State.noEnds_reset : State.reset.NoEnds :=
  ⟨fun c => by rw [State.contexts_off_reset]; decide, fun _ => nofun⟩

/-- The state after reset has every invariant: each holds while RESETN is low, or of a part that holds nothing. -/
theorem State.invariants_reset : State.reset.Bounded ∧ State.reset.LogNumbered ∧ State.reset.CommandsInOrder ∧
    State.reset.DrainsHeld ∧ State.reset.CachesSound ∧ State.reset.ResetsQuiet ∧ State.reset.WalkerSettled ∧
    State.reset.TransactionsLinked ∧ State.reset.ItemsPaired ∧ State.reset.HeadsLinked := by
  have hrelease := exec_resetnRelease_powerOn State.powerOn rfl
  have hclosed : (powerOnReset State.powerOn).ClosedEmpty := fun p _ => by rw [port_powerOnReset]; rfl
  have hquiet : (powerOnReset State.powerOn).ResetsQuiet := ⟨fun _ => rfl, fun _ => State.quiet_powerOnReset _, hclosed⟩
  exact ⟨keptByEvents_bounded.exec _ (State.bounded_powerOnReset _) hrelease,
    State.LogNumbered.of_empty rfl,
    State.commandsInOrder_of_empty rfl rfl,
    State.DrainsHeld.of_none State.noEnds_reset.1,
    State.cachesSound_of_empty rfl rfl State.slot_reset,
    keptByEvents_resetsQuiet.exec _ hquiet hrelease,
    State.walkerSettled_of_empty nofun State.slot_reset rfl rfl rfl,
    State.TransactionsLinked.of_empty State.slot_reset rfl,
    State.itemsPaired_of_empty (fun p => by rw [State.port_reset]; rfl) rfl,
    headsLinked_of_powerOnPorts (fun p => by rw [State.port_reset]; exact ⟨rfl, rfl⟩) State.slot_reset rfl
      State.parkedPlace_reset⟩

/-- Settles O4: the fields by evaluation, the invariants from `State.invariants_reset`. -/
theorem resetState : Obligations.ResetState := by
  obtain ⟨hbounded, hlog, horder, hdrains, hcaches, hquiet, hwalker, hlinked, hpaired, hheads⟩ := State.invariants_reset
  exact ⟨⟨rfl, rfl, rfl, rfl⟩, State.port_reset, State.context_reset, ⟨rfl, rfl, State.slot_reset, rfl, rfl⟩,
    State.region_reset, ⟨rfl, rfl, State.parkedPlace_reset⟩, ⟨rfl, rfl, rfl, rfl, rfl, rfl, rfl⟩,
    ⟨rfl, rfl, rfl, rfl, rfl, rfl, rfl, rfl, rfl, rfl, rfl⟩, ⟨rfl, rfl⟩,
    hbounded, hlog, horder, hdrains, hcaches, hquiet, hwalker, hlinked, hpaired, hheads, State.noEnds_reset⟩

/-! ## Both resets (R174, R179, R180) -/

theorem releaseResetn_of_low {s : State} (hl : s.resetnLow = true) :
    releaseResetn s = State.emit .clear
      { s with
        resetnLow := false, device := .resetting, memState := .clearing, clearAge := 0, clearRepeated := false
        tickLeft := s.timebase.toNat } := by
  rw [releaseResetn, if_pos hl]

theorem releaseResetn_of_high {s : State} (hl : s.resetnLow = false) : releaseResetn s = s := by
  simp [releaseResetn, hl]

/-- Settles O5: by the level of the pin. -/
theorem resetPin : Obligations.ResetPin := by
  intro s
  refine ⟨rfl, fun hl => ?_, fun hl => ?_⟩
  · show Host.Outcome.next (releaseResetn s.beginEvent) = _
    rw [releaseResetn_of_low (s := s.beginEvent) hl]
    rfl
  · show Host.Outcome.next (releaseResetn s.beginEvent) = _
    rw [releaseResetn_of_high (s := s.beginEvent) hl]
    rfl

theorem exec_deviceReset_of_not_ready {s : State} (hr : s.ready = false) : exec .deviceReset s = .next s.beginEvent := by
  show Host.Outcome.next (deviceReset s.beginEvent) = _
  rw [deviceReset, if_neg (by rw [show s.beginEvent.ready = false from hr]; decide)]

theorem registerAt_deviceControl : registerAt 0x004#12 = some .deviceControl := by decide

theorem exec_registerWrite_deviceControl (value : Word) (s : State) :
    exec (.registerWrite 0x004#12 0xF#4 value) s = .next (writeDeviceControl value s.beginEvent) := by
  show Host.Outcome.next (hostWrite 0x004#12 0xF#4 value s.beginEvent) = _
  rw [hostWrite_of_assigned value _ registerAt_deviceControl]
  rfl

theorem writeDeviceControl_of_reset {value : Word} (s : State) (h : value.getLsbD 0 = true) :
    writeDeviceControl value s = deviceReset s := if_pos h

theorem writeDeviceControl_of_no_reset {value : Word} (s : State) (h : value.getLsbD 0 = false) :
    writeDeviceControl value s = if s.ready then s.raise .programError else s :=
  if_neg (by rw [controlReset, h]; decide)

/-- The marks a device reset leaves of the CLEAR that it sends: sent again in a port that was CLEARING (log entry 9). -/
theorem startDeviceReset_clearRepeated (s : State) :
    (startDeviceReset s).clearRepeated = decide (s.memState = .clearing) := by
  show (s.memState == .clearing) = _
  cases s.memState <;> rfl

/-- Settles O6: by the device state, and for the write by its reset bit. -/
theorem Resets.deviceReset : Obligations.DeviceReset := by
  intro s value
  refine ⟨fun hr => ?_, exec_deviceReset_of_not_ready, fun h => ?_, fun h hr => ?_, fun h hr => ?_⟩
  · rw [exec_deviceReset_of_ready hr, ← startDeviceReset_clearRepeated s]
    rfl
  · rw [exec_registerWrite_deviceControl, writeDeviceControl_of_reset _ h]
    rfl
  · rw [exec_registerWrite_deviceControl, writeDeviceControl_of_no_reset _ h,
      if_pos (show s.beginEvent.ready = true from hr), raise_programError_beginEvent]
  · rw [exec_registerWrite_deviceControl, writeDeviceControl_of_no_reset _ h,
      if_neg (by rw [show s.beginEvent.ready = false from hr]; decide)]
    rfl

end Sys2Proof.Machine
end

section
/-! PROOFS of the family "single operations": OPEN and CLOSE, the addresses and formats, the fault unit, DELIVERY (R1 to R7, R37 to R43, R61, R121 to R133). -/

namespace Sys2Proof.Machine

/-! ## OPEN and CLOSE as rows (R37 to R40) -/

theorem exec_openPort (p : PortNumber) (s : State) : exec (.openPort p) s = .next (openPort p s.beginEvent) := rfl

theorem exec_closePort (p : PortNumber) (s : State) : exec (.closePort p) s = .next (closePort p s.beginEvent) := rfl

/-- Settles O8: by the device state, the port's state and, for a CLOSE, what the port holds. -/
theorem openAndClose : Obligations.OpenAndClose := by
  intro p s
  have hclosed (hr : s.ready = true) (ho : (s.port p).state = .open_) :
      exec (.closePort p) s = .next
        { s.setPort p { s.port p with state := if (s.port p).isEmpty then .closed else .closing } with emitted := [] } := by
    rw [exec_closePort, closePort_of_open (s := s.beginEvent) hr ho]
    rfl
  refine ⟨fun hr hc => ?opens, fun hr ho he => ?closes, fun hr ho he => ?drains, fun hr hc => ?notClosed,
    fun hr ho => ?notOpen, fun hr => ⟨?openIgnored, ?closeIgnored⟩⟩
  case opens =>
    rw [exec_openPort, openPort_of_closed (s := s.beginEvent) hr hc]
    rfl
  case closes => rw [hclosed hr ho, he, if_pos rfl]
  case drains => rw [hclosed hr ho, he, if_neg Bool.false_ne_true]
  case notClosed => rw [exec_openPort, openPort_of_not_closed (s := s.beginEvent) hr hc, raise_programError_beginEvent]
  case notOpen => rw [exec_closePort, closePort_of_not_open (s := s.beginEvent) hr ho, raise_programError_beginEvent]
  case openIgnored =>
    rw [exec_openPort, openPort_of_not_ready (s := s.beginEvent) p hr]
    rfl
  case closeIgnored =>
    rw [exec_closePort, closePort_of_not_ready (s := s.beginEvent) p hr]
    rfl

/-! ## Addresses (R1, R3, R5, R7) -/

theorem toNat_clientPage (a : Word) : (clientPage a).toNat = a.toNat / 4096 := by
  simp only [clientPage, BitVec.extractLsb'_toNat, Nat.shiftRight_eq_div_pow]
  omega

theorem toNat_clientOffset (a : Word) : (clientOffset a).toNat = a.toNat % 4096 := by
  simp [clientOffset, BitVec.extractLsb'_toNat]

theorem toNat_pageIndex_clientPage (a : Word) : (pageIndex (clientPage a)).toNat = a.toNat / 4096 % 1024 := by
  rw [pageIndex, BitVec.extractLsb'_toNat, toNat_clientPage]
  simp

/-- A frame and an offset within its page give an address without carry (R7). -/
theorem toNat_dataAddress (f : Frame) (o : BitVec 12) : (dataAddress f o).toNat = f.toNat * 4096 + o.toNat := by
  have hf := f.isLt
  have ho := o.isLt
  simp only [dataAddress, BitVec.toNat_add, BitVec.toNat_mul, BitVec.toNat_setWidth, BitVec.toNat_ofNat]
  omega

theorem toNat_entryAddress (f : Frame) (i : BitVec 10) : (entryAddress f i).toNat = f.toNat * 4096 + i.toNat * 4 := by
  have hf := f.isLt
  have hi := i.isLt
  simp only [entryAddress, BitVec.toNat_add, BitVec.toNat_mul, BitVec.toNat_setWidth, BitVec.toNat_ofNat]
  omega

/-! ## Formats (R43, R159) -/

theorem wellFormedRequest_iff (r : Request) : wellFormedRequest r = true ↔
    (4 ≤ r.length ∧ r.length ≤ 256 ∧ r.length % 4 = 0 ∧ r.address.toNat % 4 = 0 ∧
      r.address.toNat % 4096 + r.length ≤ 4096 ∧
      (r.kind = .write → r.data.length = r.length / 4) ∧ (r.kind = .read → r.data = [])) := by
  unfold wellFormedRequest
  rw [toNat_clientOffset]
  cases hk : r.kind <;> simp [and_assoc]

theorem shapeFits_error_iff (op : TxnOp) (data : List Word) : shapeFits op .error data = true ↔ data = [] :=
  List.isEmpty_iff

/-- Settles O10: each clause is one rule of an address or of a format. -/
theorem addressesAndFormats : Obligations.AddressesAndFormats :=
  ⟨fun a => ⟨toNat_clientPage a, toNat_clientOffset a, directoryIndex_clientPage a, toNat_pageIndex_clientPage a⟩,
    toNat_dataAddress, toNat_entryAddress, wellFormedRequest_iff, shapeFits_error_iff, fun _ _ => decide_eq_true_iff,
    fun _ _ _ => List.isEmpty_iff, fun _ _ => decide_eq_true_iff⟩

/-! ## The fault unit (R121 to R133) -/

theorem State.logHasRoom_of_lt {s : State} (h : s.faultLog.length < 16) : s.logHasRoom = true := decide_eq_true h

theorem State.logHasRoom_of_le {s : State} (h : 16 ≤ s.faultLog.length) : s.logHasRoom = false :=
  decide_eq_false (Nat.not_lt.2 h)

section
variable {s : State} {h : HeadId} {e : Entry} {q : List Entry} (cause : FaultCause) (hq : s.queue h = e :: q)
include hq

/-- With room in the log and the policy STALL the head is PARKED on its record (R129, R130). -/
theorem takeHeadFault_of_stall (hroom : s.faultLog.length < 16) (hp : (s.context (s.boundContext h)).policy = .stall) :
    takeHeadFault cause h s =
      { (s.setQueue h ({ e with state := .parked } :: q)).setParked h (some { sequence := s.nextSeq, cause := cause }) with
        faultLog := s.faultLog ++
          [{ sequence := s.nextSeq, port := h.port, cls := h.cls, tag := e.request.tag, kind := e.request.kind
             context := s.boundContext h, address := e.request.address, cause := cause, outcome := .parked }]
        nextSeq := s.nextSeq + 1#16
        irqStatus := s.irqStatus ||| 0x01#8 } := by
  unfold takeHeadFault
  simp only [State.head?_of_queue hq, State.logHasRoom_of_lt hroom, if_true, hp, State.parkHead,
    State.setHeadState_of_queue .parked hq]
  rfl

/-- With room in the log and the policy ABORT the head is FINISHING with FAULTED, with its record (R129, R131). -/
theorem takeHeadFault_of_abort (hroom : s.faultLog.length < 16) (hp : (s.context (s.boundContext h)).policy = .abort) :
    takeHeadFault cause h s =
      { s.setQueue h ({ e with state := .finishing .faulted } :: q) with
        faultLog := s.faultLog ++
          [{ sequence := s.nextSeq, port := h.port, cls := h.cls, tag := e.request.tag, kind := e.request.kind
             context := s.boundContext h, address := e.request.address, cause := cause, outcome := .aborted }]
        nextSeq := s.nextSeq + 1#16
        irqStatus := s.irqStatus ||| 0x01#8 } := by
  unfold takeHeadFault
  simp only [State.head?_of_queue hq, State.logHasRoom_of_lt hroom, if_true, hp, State.finishHead,
    State.setHeadState_of_queue (.finishing .faulted) hq]
  rfl

end

theorem takeDataError_of_room {s : State} (v : RequestValues) (hroom : s.faultLog.length < 16) :
    takeDataError v s =
      { s with
        faultLog := s.faultLog ++
          [{ sequence := s.nextSeq, port := v.port, cls := v.cls, tag := v.tag, kind := v.kind
             context := v.context, address := v.address, cause := .dataError, outcome := .aborted }]
        nextSeq := s.nextSeq + 1#16
        irqStatus := s.irqStatus ||| 0x01#8 } := by
  rw [takeDataError, if_pos (State.logHasRoom_of_lt hroom)]
  rfl

theorem takeDataError_of_full {s : State} (v : RequestValues) (hfull : 16 ≤ s.faultLog.length) :
    takeDataError v s = { s with irqStatus := s.irqStatus ||| 0x02#8 } := by
  rw [takeDataError, if_neg (by rw [State.logHasRoom_of_le hfull]; decide)]
  rfl

/-- Settles O17: the rows of R129's table, by the room in the log and the context's policy. -/
theorem faultUnit : Obligations.FaultUnit :=
  ⟨fun _ _ _ cause _ hq =>
    ⟨takeHeadFault_of_stall cause hq, takeHeadFault_of_abort cause hq, (takeHeadFault_log cause hq).2⟩,
    fun v _ => ⟨takeDataError_of_room v, takeDataError_of_full v⟩⟩

/-! ## DELIVERY (R39, R61) -/

theorem exec_delivery (p : PortNumber) (s : State) : exec (.delivery p) s = .next (deliver p s.beginEvent) := rfl

theorem deliver_of_record {p : PortNumber} {s : State} {record : Completion} {rest : List Completion} (hr : s.ready = true)
    (hc : (s.port p).completions = record :: rest) :
    deliver p s =
      State.emit (.completion p record) (s.setPort p (Port.closeIfEmpty { s.port p with completions := rest })) := by
  unfold deliver
  simp only [hc, hr, if_true]

theorem deliver_of_nothing {p : PortNumber} {s : State} (h : s.ready = false ∨ (s.port p).completions = []) :
    deliver p s = s := by
  unfold deliver
  rcases h with hr | hc
  · split
    · rfl
    · rw [if_neg (by rw [hr]; decide)]
  · rw [hc]

theorem Port.closeIfEmpty_of_empty {v : Port} (hs : v.state = .closing) (he : v.isEmpty = true) :
    v.closeIfEmpty = { v with state := .closed } := if_pos ⟨hs, he⟩

theorem Port.closeIfEmpty_of_not {v : Port} (h : v.state ≠ .closing ∨ v.isEmpty = false) : v.closeIfEmpty = v := by
  refine if_neg fun ⟨hs, he⟩ => ?_
  rcases h with h | h
  · exact h hs
  · rw [he] at h
    cases h

/-- Settles O18: by the front record, and by whether its delivery empties a CLOSING port. -/
theorem deliveryOfRecord : Obligations.DeliveryOfRecord := by
  intro p s
  refine ⟨fun record rest hr hc => ⟨fun hs he => ?closes, fun h => ?stays⟩, fun h => ?nothing⟩
  case closes =>
    rw [exec_delivery, deliver_of_record (s := s.beginEvent) hr hc,
      Port.closeIfEmpty_of_empty (v := { s.beginEvent.port p with completions := rest }) hs he]
    rfl
  case stays =>
    rw [exec_delivery, deliver_of_record (s := s.beginEvent) hr hc,
      Port.closeIfEmpty_of_not (v := { s.beginEvent.port p with completions := rest }) h]
    rfl
  case nothing =>
    rw [exec_delivery, deliver_of_nothing (s := s.beginEvent) h]
    rfl

/-! ## Accesses in error (R178) -/

theorem accessInError_iff (offset : BitVec 12) (enables : BitVec 4) :
    accessInError offset enables = true ↔ enables ≠ 0xF#4 ∨ registerAt offset = none := by
  simp [accessInError, malformedAccess]

theorem hostWrite_of_error {offset : BitVec 12} {enables : BitVec 4} (value : Word) (s : State)
    (h : enables ≠ 0xF#4 ∨ registerAt offset = none) :
    hostWrite offset enables value s = if s.ready then s.raise .accessError else s := by
  unfold hostWrite
  split
  · rfl
  · next hm =>
    have hnone : registerAt offset = none := h.resolve_left fun hne => hm (by simp [malformedAccess, hne])
    rw [hnone]

theorem readValue_of_error {offset : BitVec 12} {enables : BitVec 4} {s : State} (hr : s.ready = true)
    (h : enables ≠ 0xF#4 ∨ registerAt offset = none) : readValue offset enables s = 0#32 := by
  obtain ⟨hl, hd⟩ : s.resetnLow = false ∧ s.device = .ready := by simpa [State.ready] using hr
  unfold readValue
  split
  · rfl
  · next r hreg =>
    have hne : enables ≠ 0xF#4 := h.resolve_right (by rw [hreg]; exact nofun)
    simp [hl, hd, malformedAccess, hne]

/-- While the device is not READY the byte enables do not matter to a read (R178). -/
theorem readValue_enables {offset : BitVec 12} {s : State} (enables : BitVec 4) (hr : s.ready = false) :
    readValue offset enables s = readValue offset 0xF#4 s := by
  unfold readValue
  split
  · rfl
  · split
    · rfl
    · next hl =>
      have hd : s.device = .resetting := by
        cases hd : s.device
        · simp [State.ready, hl, hd] at hr
        · rfl
      rw [hd]

theorem exec_malformedRead (offset : BitVec 12) (enables : BitVec 4) (s : State) :
    exec (.malformedRead offset enables) s = .next (hostRead offset enables s.beginEvent) := rfl

theorem exec_registerWrite (offset : BitVec 12) (enables : BitVec 4) (value : Word) (s : State) :
    exec (.registerWrite offset enables value) s = .next (hostWrite offset enables value s.beginEvent) := rfl

theorem hostRead_of_error {offset : BitVec 12} {enables : BitVec 4} {s : State} (hr : s.ready = true)
    (h : enables ≠ 0xF#4 ∨ registerAt offset = none) :
    hostRead offset enables s = (s.emit (.readData 0#32)).raise .accessError := by
  rw [hostRead, readValue_of_error hr h, if_pos ⟨hr, (accessInError_iff offset enables).2 h⟩]

theorem hostRead_of_no_error {offset : BitVec 12} {enables : BitVec 4} {s : State}
    (h : s.ready = false ∨ accessInError offset enables = false) :
    hostRead offset enables s = s.emit (.readData (readValue offset enables s)) := by
  refine if_neg fun ⟨hr, he⟩ => ?_
  rcases h with h | h
  · rw [h] at hr
    cases hr
  · rw [h] at he
    cases he

/-- Settles O49: by the device state. -/
theorem accessErrors : Obligations.AccessErrors := by
  intro s offset enables value herror
  refine ⟨fun hr => ⟨?write, ?read⟩, fun hr => ⟨?ignored, ?early⟩⟩
  case write =>
    rw [exec_registerWrite, hostWrite_of_error value _ herror, if_pos (show s.beginEvent.ready = true from hr)]
    rfl
  case read =>
    rw [exec_malformedRead, hostRead_of_error (s := s.beginEvent) hr herror]
    rfl
  case ignored =>
    rw [exec_registerWrite, hostWrite_of_error value _ herror,
      if_neg (by rw [show s.beginEvent.ready = false from hr]; decide)]
    rfl
  case early =>
    rw [exec_malformedRead, hostRead_of_no_error (s := s.beginEvent) (.inl hr),
      readValue_enables (s := s.beginEvent) enables hr]
    rfl

end Sys2Proof.Machine
end

section
/-! PROOFS of the family "reads of the window" (R65, R83, R117, R126, R133, R155, R176, R177, R181, R185, R187): what each word reads as, field by field. -/

namespace Sys2Proof.Machine

/-! ## Fields of a window word (R185) -/

theorem fieldAt_eq_shiftLeft (n v : Nat) : fieldAt n v = BitVec.ofNat 32 v <<< n := by
  apply BitVec.eq_of_toNat_eq
  simp [fieldAt, Nat.shiftLeft_eq]

theorem fieldAt_zero (v : Nat) : fieldAt 0 v = BitVec.ofNat 32 v := by
  rw [fieldAt_eq_shiftLeft, BitVec.shiftLeft_zero]

theorem fieldAt_toNat (n : Nat) {w : Nat} (x : BitVec w) : fieldAt n x.toNat = x.setWidth 32 <<< n := by
  rw [fieldAt_eq_shiftLeft, BitVec.ofNat_toNat]

theorem fieldAt_zero_toNat {w : Nat} (x : BitVec w) : fieldAt 0 x.toNat = x.setWidth 32 := by
  rw [fieldAt_zero, BitVec.ofNat_toNat]

theorem fieldAt_classCode (n : Nat) (c : ReqClass) : fieldAt n (classCode c) = bitAt n (c = .urgent) := by
  cases c <;> simp [fieldAt_eq_shiftLeft, classCode, bitAt]

theorem fieldAt_kindCode (n : Nat) (k : ReqKind) : fieldAt n (kindCode k) = bitAt n (k = .write) := by
  cases k <;> simp [fieldAt_eq_shiftLeft, kindCode, bitAt]

theorem fieldAt_outcomeCode (n : Nat) (o : RecordOutcome) : fieldAt n o.code = bitAt n (o = .parked) := by
  cases o <;> simp [fieldAt_eq_shiftLeft, RecordOutcome.code, bitAt]

/-! ## The words' offsets (R184) -/

theorem registerAt_portStatus : ∀ p : PortNumber, registerAt (BitVec.ofNat 12 (0x050 + 4 * p.val)) = some (.portStatus p) := by
  decide

theorem registerAt_regionEntry : ∀ i : Fin 8, registerAt (BitVec.ofNat 12 (0x180 + 4 * i.val)) = some (.regionEntry i) := by
  decide

theorem registerAt_parkedPlace (h : HeadId) :
    registerAt (BitVec.ofNat 12 (0x260 + 8 * h.port.val + if h.cls = .urgent then 4 else 0)) =
      some (.parkedPlace h.port h.cls) := by
  have hnormal : ∀ p : PortNumber, registerAt (BitVec.ofNat 12 (0x260 + 8 * p.val + 0)) = some (.parkedPlace p .normal) := by
    decide
  have hurgent : ∀ p : PortNumber, registerAt (BitVec.ofNat 12 (0x260 + 8 * p.val + 4)) = some (.parkedPlace p .urgent) := by
    decide
  obtain ⟨p, c⟩ := h
  cases c
  · exact hnormal p
  · exact hurgent p

theorem fixedRegisterAt_deviceStatus {n : Nat} (h : fixedRegisterAt n = some .deviceStatus) : n = 0 := by
  unfold fixedRegisterAt at h
  split at h
  · rfl
  all_goals cases h

/-- The device-status word stands at offset 0 only. -/
theorem registerAt_eq_deviceStatus {offset : BitVec 12} (h : registerAt offset = some .deviceStatus) : offset = 0x000#12 := by
  have hn : offset.toNat = 0 := by
    unfold registerAt at h
    dsimp only at h
    split_ifs at h
    any_goals cases h
    exact fixedRegisterAt_deviceStatus h
  exact BitVec.eq_of_toNat_eq hn

/-! ## Reads and writes that change nothing (R177) -/

theorem exec_malformedRead_of_assigned {offset : BitVec 12} {r : Register} (s : State) (ha : registerAt offset = some r) :
    exec (.malformedRead offset 0xF#4) s = .next { s with emitted := [.readData (readValue offset 0xF#4 s)] } := by
  have herror : accessInError offset 0xF#4 = false := by simp [accessInError, malformedAccess, ha]
  rw [exec_malformedRead, hostRead_of_no_error (s := s.beginEvent) (.inr herror)]
  rfl

theorem writeRegister_of_readOnly {r : Register} (value : Word) (s : State)
    (hr : r ∈ [.deviceStatus, .memoryPortStatus, .commandUnitStatus, .commandCounts, .lastError, .syncMarker,
        .probeResult, .faultLogStatus, .faultRecord0, .faultRecord1, .faultRecord2, .parkedSummary] ∨
      (∃ p, r = .portStatus p) ∨ ∃ p cls, r = .parkedPlace p cls) : writeRegister r value s = s := by
  rcases hr with hr | ⟨p, rfl⟩ | ⟨p, cls, rfl⟩
  · simp only [List.mem_cons, List.not_mem_nil, or_false] at hr
    rcases hr with rfl | rfl | rfl | rfl | rfl | rfl | rfl | rfl | rfl | rfl | rfl | rfl <;> rfl
  · rfl
  · rfl

/-! ## Reads while the device is RESETTING (R181) -/

theorem statusWord_eq (s : State) : statusWord s = BitVec.ofNat 32 s.device.code ||| bitAt 8 (s.irqStatus.getLsbD 5) := by
  rw [statusWord, fieldAt_zero]
  rfl

theorem readValue_of_resetting {offset : BitVec 12} {s : State} (hl : s.resetnLow = false) (hd : s.device = .resetting) :
    readValue offset 0xF#4 s = if offset = 0x000#12 then statusWord s else 0#32 := by
  unfold readValue
  split
  · next hnone =>
    rw [if_neg]
    rintro rfl
    cases hnone.symm.trans (show registerAt 0x000#12 = some .deviceStatus by decide)
  · next r hsome =>
    rw [hl, hd]
    by_cases h0 : offset = 0x000#12
    · subst h0
      obtain rfl : r = .deviceStatus := by
        have : registerAt 0x000#12 = some .deviceStatus := by decide
        exact Option.some.inj (hsome.symm.trans this)
      rfl
    · have hr : r ≠ .deviceStatus := by
        rintro rfl
        exact h0 (registerAt_eq_deviceStatus hsome)
      simp [h0, hr]

/-! ## The parked summary (R187) -/

/-- A bit of a word built by a fold of unions is one of the start's or of a member's. -/
theorem getLsbD_foldl_or {α : Type} (f : α → Word) (l : List α) (w : Word) (n : Nat) :
    (l.foldl (fun w a => w ||| f a) w).getLsbD n = true ↔ w.getLsbD n = true ∨ ∃ a ∈ l, (f a).getLsbD n = true := by
  induction l generalizing w with
  | nil => simp
  | cons a l ih => rw [List.foldl_cons, ih, BitVec.getLsbD_or, Bool.or_eq_true, or_assoc, List.exists_mem_cons_iff]

theorem getLsbD_parkedSummaryWord (s : State) (n : Nat) : (parkedSummaryWord s).getLsbD n = true ↔
    ∃ h : HeadId, n = 2 * h.port.val + (if h.cls = .urgent then 1 else 0) ∧ s.parkedPlace h ≠ none := by
  have hbits (p : PortNumber) :
      (bitAt (2 * p.val) (s.parkedPlace ⟨p, .normal⟩).isSome |||
        bitAt (2 * p.val + 1) (s.parkedPlace ⟨p, .urgent⟩).isSome).getLsbD n = true ↔
      (n = 2 * p.val ∧ s.parkedPlace ⟨p, .normal⟩ ≠ none) ∨ (n = 2 * p.val + 1 ∧ s.parkedPlace ⟨p, .urgent⟩ ≠ none) := by
    have hp := p.isLt
    rw [BitVec.getLsbD_or, getLsbD_bitAt (by omega), getLsbD_bitAt (by omega)]
    simp [Option.isSome_iff_ne_none]
  have hword : parkedSummaryWord s = allPorts.foldl (fun w p =>
      w ||| (bitAt (2 * p.val) (s.parkedPlace ⟨p, .normal⟩).isSome |||
        bitAt (2 * p.val + 1) (s.parkedPlace ⟨p, .urgent⟩).isSome)) 0#32 := by
    simp only [parkedSummaryWord, BitVec.or_assoc]
  rw [hword, getLsbD_foldl_or]
  constructor
  · rintro (h | ⟨p, -, h⟩)
    · simp at h
    · rcases (hbits p).1 h with ⟨hn, hs⟩ | ⟨hn, hs⟩
      · exact ⟨⟨p, .normal⟩, by simpa using hn, hs⟩
      · exact ⟨⟨p, .urgent⟩, by simpa using hn, hs⟩
  · rintro ⟨⟨p, c⟩, hn, hs⟩
    refine .inr ⟨p, mem_allPorts p, (hbits p).2 ?_⟩
    cases c
    · exact .inl ⟨by simpa using hn, hs⟩
    · exact .inr ⟨by simpa using hn, hs⟩

/-! ## The words while the device is READY -/

theorem registerValue_deviceStatus_of_ready {s : State} (hr : s.ready = true) :
    registerValue s .deviceStatus = if s.irqStatus.getLsbD 5 then 0x101#32 else 0x001#32 := by
  obtain ⟨-, hd⟩ : s.resetnLow = false ∧ s.device = .ready := by simpa [State.ready] using hr
  rw [registerValue, statusWord_eq, hd]
  cases s.irqStatus.getLsbD 5 <;> rfl

theorem registerValue_memoryPortStatus (s : State) :
    registerValue s .memoryPortStatus =
      (match s.memState with
        | .running => 0#32
        | .failed => 1#32
        | .clearing => 2#32) ||| BitVec.ofNat 32 s.outstanding.length <<< 8 := by
  rw [registerValue, fieldAt_zero, fieldAt_eq_shiftLeft]
  cases s.memState <;> rfl

theorem registerValue_portStatus (s : State) (p : PortNumber) :
    registerValue s (.portStatus p) =
      (match (s.port p).state with
        | .closed => 0#32
        | .open_ => 1#32
        | .closing => 2#32) ||| BitVec.ofNat 32 (s.port p).queues.normal.length <<< 8 |||
        BitVec.ofNat 32 (s.port p).queues.urgent.length <<< 12 ||| BitVec.ofNat 32 (s.port p).creditInUse <<< 16 := by
  rw [registerValue, portStatusWord, fieldAt_zero, fieldAt_eq_shiftLeft, fieldAt_eq_shiftLeft, fieldAt_eq_shiftLeft]
  cases (s.port p).state <;> rfl

theorem registerValue_regionEntry (s : State) (i : Fin 8) :
    registerValue s (.regionEntry i) = (s.region i).endUnit.setWidth 32 |||
      ((match (s.region i).kind with
        | .absent => 0#32
        | .open_ => 1#32
        | .readOnly => 2#32
        | .tables => 3#32) : Word) <<< 16 := by
  rw [registerValue, regionWord, fieldAt_zero_toNat, fieldAt_eq_shiftLeft]
  cases (s.region i).kind <;> rfl

theorem registerValue_commandUnitStatus (s : State) :
    registerValue s .commandUnitStatus =
      (match s.commands with
        | [] => 0#32
        | head :: _ => if head.taken then 2#32 else 1#32) := by
  rw [registerValue, fieldAt_zero, State.unitState]
  cases s.commands with
  | nil => rfl
  | cons c rest => cases hc : c.taken <;> simp [hc, UnitState.code]

theorem registerValue_lastError (s : State) :
    registerValue s .lastError =
      (match s.lastError.code with
        | .none_ => 0#32
        | .unknownCode => 1#32
        | .badOperand => 2#32
        | .wrongState => 3#32
        | .nothingParked => 4#32) ||| s.lastError.number.setWidth 32 <<< 16 := by
  rw [registerValue, fieldAt_zero, fieldAt_toNat]
  cases s.lastError.code <;> rfl

/-- The cause codes of R187, as the statement lists them. -/
theorem ofNat_causeCode (c : FaultCause) :
    BitVec.ofNat 32 c.code =
      (match c with
        | .limit => 1#32
        | .directoryInvalid => 2#32
        | .pageInvalid => 3#32
        | .readDenied => 4#32
        | .writeDenied => 5#32
        | .regionDenied => 6#32
        | .tableRegion => 7#32
        | .tableError => 8#32
        | .dataError => 9#32) := by
  cases c <;> rfl

theorem oldestWord_of_nil {s : State} (hl : s.faultLog = []) (f : FaultRecord → Word) : oldestWord s f = 0#32 := by
  rw [oldestWord, hl]

theorem oldestWord_of_cons {s : State} {r : FaultRecord} {rest : List FaultRecord} (hl : s.faultLog = r :: rest)
    (f : FaultRecord → Word) : oldestWord s f = f r := by
  rw [oldestWord, hl]

theorem recordWord0_eq (r : FaultRecord) :
    recordWord0 r = r.sequence.setWidth 32 ||| BitVec.ofNat 32 r.port.val <<< 16 ||| bitAt 18 (r.cls = .urgent) |||
      bitAt 19 (r.kind = .write) ||| r.tag.setWidth 32 <<< 24 ||| bitAt 31 (r.outcome = .parked) := by
  rw [recordWord0, fieldAt_zero_toNat, fieldAt_eq_shiftLeft, fieldAt_classCode, fieldAt_kindCode, fieldAt_toNat,
    fieldAt_outcomeCode]

theorem recordWord2_eq (r : FaultRecord) :
    recordWord2 r = BitVec.ofNat 32 r.context.val ||| BitVec.ofNat 32 r.cause.code <<< 8 := by
  rw [recordWord2, fieldAt_zero, fieldAt_eq_shiftLeft]

theorem parkedWord_some (v : ParkedPlace) :
    parkedWord (some v) = v.sequence.setWidth 32 ||| BitVec.ofNat 32 v.cause.code <<< 24 ||| 1#32 <<< 31 := by
  rw [parkedWord, fieldAt_zero_toNat, fieldAt_eq_shiftLeft]
  rfl

/-- Settles O50: the reads and writes that change nothing, the reads while RESETTING, and each word by its own lemma. -/
theorem windowReads : Obligations.WindowReads := by
  intro s offset register value
  refine ⟨fun ha => ⟨exec_malformedRead_of_assigned s ha, fun hro => ?write⟩, fun hl hd => ?resetting, fun hr => ?ready⟩
  case write =>
    rw [exec_registerWrite, hostWrite_of_assigned value _ ha, writeRegister_of_readOnly value _ hro]
    rfl
  case resetting =>
    refine ⟨?_, fun h0 => by rw [readValue_of_resetting hl hd, if_neg h0]⟩
    show readValue 0x000#12 0xF#4 s = _
    rw [readValue_of_resetting hl hd, if_pos rfl, statusWord_eq, hd]
    cases s.irqStatus.getLsbD 5 <;> rfl
  case ready =>
    have hread {n : Nat} {r : Register} (ha : registerAt (BitVec.ofNat 12 n) = some r) :
        readValue (BitVec.ofNat 12 n) 0xF#4 s = registerValue s r := readValue_of_ready hr ha
    refine ⟨⟨?_, hread (r := .interruptEnable) (by decide), hread (r := .timebase) (by decide), hread (r := .responseLimit) (by decide),
        hread (r := .deviceControl) (by decide), hread (r := .submitWord) (by decide), hread (r := .faultLogPop) (by decide),
        fun p => hread (registerAt_portControl p)⟩,
      ⟨?_, fun p => ?_, fun i => ?_⟩, ⟨?_, ?_, ?_, hread (r := .syncMarker) (by decide), ?_⟩,
      ⟨?_, fun hl => ⟨?_, ?_, ?_⟩, fun record rest hl => ⟨?_, ?_, ?_⟩⟩, fun h => ⟨fun hp => ?_, fun v hp => ?_⟩, fun n => ?_⟩
    · exact (hread (by decide)).trans (registerValue_deviceStatus_of_ready hr)
    · exact (hread (by decide)).trans (registerValue_memoryPortStatus s)
    · exact (hread (registerAt_portStatus p)).trans (registerValue_portStatus s p)
    · exact (hread (registerAt_regionEntry i)).trans (registerValue_regionEntry s i)
    · exact (hread (by decide)).trans (registerValue_commandUnitStatus s)
    · refine (hread (r := .commandCounts) (by decide)).trans ?_
      rw [registerValue, fieldAt_zero_toNat, fieldAt_toNat]
    · exact (hread (by decide)).trans (registerValue_lastError s)
    · refine (hread (r := .probeResult) (by decide)).trans ?_
      rw [registerValue, probeWord, fieldAt_toNat]
      rfl
    · refine (hread (r := .faultLogStatus) (by decide)).trans ?_
      rw [registerValue, fieldAt_zero, fieldAt_toNat]
    · exact (hread (r := .faultRecord0) (by decide)).trans (oldestWord_of_nil hl _)
    · exact (hread (r := .faultRecord1) (by decide)).trans (oldestWord_of_nil hl _)
    · exact (hread (r := .faultRecord2) (by decide)).trans (oldestWord_of_nil hl _)
    · exact (hread (r := .faultRecord0) (by decide)).trans ((oldestWord_of_cons hl _).trans (recordWord0_eq record))
    · exact (hread (r := .faultRecord1) (by decide)).trans (oldestWord_of_cons hl _)
    · refine (hread (r := .faultRecord2) (by decide)).trans ((oldestWord_of_cons hl _).trans ?_)
      rw [recordWord2_eq, ofNat_causeCode] <;> rfl
    · refine (hread (registerAt_parkedPlace h)).trans ?_
      show parkedWord (s.parkedPlace h) = _
      rw [hp]
      rfl
    · refine (hread (registerAt_parkedPlace h)).trans ?_
      show parkedWord (s.parkedPlace h) = _
      rw [hp, parkedWord_some, ofNat_causeCode] <;> rfl
    · have hword := hread (n := 0x280) (r := .parkedSummary) (by decide)
      exact (iff_of_eq (congrArg (fun w : Word => w.getLsbD n = true) hword)).trans (getLsbD_parkedSummaryWord s n)

end Sys2Proof.Machine
end

section
/-! PROOFS of the family "rows that submit a command" (R21, R82, R139 to R153): the row, its take into an empty queue, ENABLE_CONTEXT, PROBE, SYNC and
CLEAR_MEMORY_PORT. -/

namespace Sys2Proof.Machine

/-! ## The rows (R139 to R142) -/

/-- A row writes its operand word, if it has one, and submits its code. -/
theorem exec_of_submission {i : Instr} {code : BitVec 8} {operand : Option Word} (s : State)
    (hi : submission i = some (code, operand)) :
    exec i s = .next (submitAndTake code (operand.elim s.beginEvent fun w => writeOperand w s.beginEvent)) := by
  cases i
  case unknownCode code =>
    cases hi
    exact exec_unknownCode _ s
  all_goals cases hi
  all_goals rfl

theorem writtenOperand_of_ready {s : State} (operand : Option Word) (hr : s.ready = true) :
    operand.elim s.beginEvent (fun w => writeOperand w s.beginEvent) =
      { s with operandWord := operand.getD s.operandWord, emitted := [] } := by
  cases operand with
  | none => rfl
  | some w => exact writeOperand_of_ready (s := s.beginEvent) w hr

theorem writtenOperand_of_not_ready {s : State} (operand : Option Word) (hr : s.ready = false) :
    operand.elim s.beginEvent (fun w => writeOperand w s.beginEvent) = s.beginEvent := by
  cases operand with
  | none => rfl
  | some w => exact writeOperand_of_not_ready (s := s.beginEvent) w hr

/-- Settles O34: by the device state and the length of the queue. -/
theorem submittedRows : Obligations.SubmittedRows := by
  intro i code operand s hi
  refine ⟨fun hr hc => ?taken, fun hr hpos hlen => ?queued, fun hr hfull => ?refused, fun hr => ?notReady⟩
  case taken =>
    rw [exec_of_submission s hi, writtenOperand_of_ready operand hr, submitAndTake, if_pos hc, exec_commandTake,
      submit_of_room (s := { s with operandWord := operand.getD s.operandWord, emitted := [] }) code hr
        (by rw [show ({ s with operandWord := operand.getD s.operandWord, emitted := [] } : State).commands = [] from hc]; decide)]
    rfl
  case queued =>
    have hne : s.commands ≠ [] := List.ne_nil_of_length_pos hpos
    rw [exec_of_submission s hi, writtenOperand_of_ready operand hr, submitAndTake, if_neg hne,
      submit_of_room (s := { s with operandWord := operand.getD s.operandWord, emitted := [] }) code hr hlen]
    rfl
  case refused =>
    have hne : s.commands ≠ [] := List.ne_nil_of_length_pos (Nat.lt_of_lt_of_le (by decide) hfull)
    rw [exec_of_submission s hi, writtenOperand_of_ready operand hr, submitAndTake, if_neg hne,
      submit_of_full (s := { s with operandWord := operand.getD s.operandWord, emitted := [] }) code hr hfull]
    rfl
  case notReady =>
    rw [exec_of_submission s hi, writtenOperand_of_not_ready operand hr, submitAndTake,
      submit_of_not_ready (s := s.beginEvent) code hr]
    split
    · next hc =>
      rw [takeCommand_of_not_executing (.inl hc)]
      rfl
    · rfl

/-! ## A row taken at once (R142) -/

/-- The part with a row's command entered in an empty queue and taken, before its effect (R140 to R142). -/
def State.withTaken (s : State) (code : BitVec 8) (w : Word) : State :=
  { s with
    operandWord := w
    commands := [{ number := s.takenCount, code := code, operand := w, taken := true }]
    takenCount := s.takenCount + 1#16
    emitted := [] }

theorem takeCheck_commands (s : State) (l : List Command) (n : BitVec 16) (v : Word) (o : List Output) (code : BitVec 8) (w : Word) :
    takeCheck { s with operandWord := v, commands := l, takenCount := n, emitted := o } code w = takeCheck s code w := by
  have hstate (op : CommandOp) :
      stateError { s with operandWord := v, commands := l, takenCount := n, emitted := o } op = stateError s op := by
    cases op <;> rfl
  unfold takeCheck
  simp only [hstate]

/-- A row whose command passes its checks has the command's effect at once (R142). -/
theorem exec_row_of_passes {i : Instr} {code : BitVec 8} {operand : Option Word} {op : CommandOp} {s : State}
    (hi : submission i = some (code, operand)) (hr : s.ready = true) (hc : s.commands = [])
    (hok : takeCheck s code (operand.getD s.operandWord) = .ok op) :
    exec i s = .next (applyCommand op (s.withTaken code (operand.getD s.operandWord))) := by
  obtain ⟨htaken, -, -, -⟩ := submittedRows i code operand s hi
  rw [htaken hr hc, exec_commandTake, hc]
  rw [takeCommand_of_ok (c := { number := s.takenCount, code := code, operand := operand.getD s.operandWord, taken := false })
    (rest := []) (op := op) rfl rfl]
  · rfl
  · exact (takeCheck_commands s _ _ _ _ _ _).trans hok

/-- A blind effect that completes within its take: the effect from the state after the command (R146, R147). -/
theorem complete_withTaken {g : State → State} (hg : UnitBlind g) {s : State} (hc : s.commands = []) (code : BitVec 8) (w : Word) :
    (g (s.withTaken code w)).completeCommand = g (s.afterCommand w) :=
  complete_unitBlind hg hc { number := s.takenCount, code := code, operand := w, taken := true } w

/-! ## ENABLE_CONTEXT (R21, R145) -/

theorem decodeCommand_enable {w : Word} {c : ContextNumber} (hn : operandNames w c) :
    decodeCommand 0x10#8 w = .ok (.enable c) := by
  simp [decodeCommand, withContext, legalContext_of_names hn, show commandOfCode 0x10#8 = some .enableContext by decide]

theorem takeCheck_enable {s : State} {w : Word} {c : ContextNumber} (hn : operandNames w c) (hoff : (s.context c).state = .off)
    (hlow : 1 ≤ (s.context c).limit.toNat) (hhigh : (s.context c).limit.toNat ≤ 1024) :
    takeCheck s 0x10#8 w = .ok (.enable c) := by
  refine takeCheck_eq_ok_iff.2 ⟨decodeCommand_enable hn, ?_⟩
  simp [stateError, hoff, limitLegal, hlow, hhigh, Config.limitMax]

theorem enableContext_unitBlind (c : ContextNumber) : UnitBlind (enableContext c) := fun _ _ _ _ _ => rfl

/-! ## PROBE (R82, R83) -/

theorem decodeCommand_probe {w : Word} {c : ContextNumber} (hn : operandNames w c) :
    decodeCommand 0x28#8 w = .ok (.probe c (operandPage w)) := by
  simp [decodeCommand, withContext, legalContext_of_names hn, show commandOfCode 0x28#8 = some .probe by decide]

/-- The row of a PROBE writes the probe result of its key and moves nothing (R82, R83). -/
theorem exec_probe {s : State} {w : Word} {c : ContextNumber} (hn : operandNames w c) (hr : s.ready = true) (hc : s.commands = []) :
    exec (.probe w) s = .next { s.afterCommand w with probe := s.probeResult c (w.extractLsb' 0 20) } := by
  have hok : takeCheck s 0x28#8 w = .ok (.probe c (operandPage w)) :=
    takeCheck_eq_ok_iff.2 ⟨decodeCommand_probe hn, rfl⟩
  rw [exec_row_of_passes (i := .probe w) (operand := some w) rfl hr hc hok]
  have hblind : UnitBlind fun t => { t with probe := t.probeResult c (operandPage w) } := fun _ _ _ _ _ => rfl
  exact congrArg Host.Outcome.next (complete_withTaken hblind hc 0x28#8 w)

/-- Settles O36: the take of an ENABLE_CONTEXT that passes its checks, and the probe result by the page-cache lookup. -/
theorem enableAndProbe : Obligations.EnableAndProbe := by
  intro s w c hn
  refine ⟨fun hoff hlow hhigh => ⟨fun hr hc => ?row, fun number rest hc => ?turn⟩,
    fun hr hc => ⟨fun e he => ?hit, fun he => ?miss⟩⟩
  case row =>
    rw [exec_row_of_passes (i := .enableContext w) (operand := some w) rfl hr hc (takeCheck_enable hn hoff hlow hhigh)]
    exact congrArg Host.Outcome.next (complete_withTaken (enableContext_unitBlind c) hc 0x10#8 w)
  case turn =>
    rw [exec_commandTake, takeCommand_of_ok (s := s.beginEvent) (op := .enable c) hc rfl
      ((takeCheck_beginEvent s _ _).trans (takeCheck_enable hn hoff hlow hhigh))]
    rfl
  case hit =>
    rw [exec_probe hn hr hc, State.probeResult, he]
  case miss =>
    rw [exec_probe hn hr hc, State.probeResult, he]
    rfl

/-! ## SYNC (R148, R151, R153) -/

/-- An item as a member of the watch set, in the statements' words (R151). -/
theorem watchItem_eq (i : Item) : watchItem i = if i.isInFlight then { i with state := .inFlight true } else i := by
  unfold watchItem Item.isInFlight
  split <;> simp_all

/-- The watch set formed: every IN_FLIGHT item and every BUSY walk marked (R151). -/
theorem formWatchSet_eq (s : State) :
    formWatchSet s =
      { s with
        ports := s.ports.map fun p =>
          { p with returns :=
              ⟨p.returns.normal.map fun i => if i.isInFlight then { i with state := .inFlight true } else i,
                p.returns.urgent.map fun i => if i.isInFlight then { i with state := .inFlight true } else i⟩ }
        slots := s.slots.map fun slot => slot.map fun walk => { walk with watched := true } } := by
  have hitem : watchItem = fun i => if i.isInFlight then { i with state := .inFlight true } else i := funext watchItem_eq
  have hport : watchPort = fun p => { p with returns := ⟨p.returns.normal.map watchItem, p.returns.urgent.map watchItem⟩ } := rfl
  rw [formWatchSet, hport, hitem]
  rfl

theorem get_watchPort_returns (p : Port) (c : ReqClass) : (watchPort p).returns.get c = (p.returns.get c).map watchItem := by
  cases c <;> rfl

theorem port_formWatchSet (s : State) (p : PortNumber) : (formWatchSet s).port p = watchPort (s.port p) := by
  simp [State.port, formWatchSet]

theorem slot_formWatchSet (s : State) (i : SlotNumber) : (formWatchSet s).slot i = watchWalk (s.slot i) := by
  simp [State.slot, formWatchSet]

theorem watchItem_member_iff (i : Item) : (watchItem i).state = .inFlight true ↔ i.isInFlight = true := by
  unfold watchItem Item.isInFlight
  split <;> simp_all

/-- The watch set just formed has a member unless nothing is IN_FLIGHT and no walk is BUSY (R151, R153). -/
theorem formWatchSet_noMember_iff (s : State) : (formWatchSet s).NoMember ↔
    (∀ (h : HeadId) (item : Item), item ∈ (s.port h.port).returns.get h.cls → item.isInFlight = false) ∧ ∀ i, s.slot i = none := by
  refine and_congr (forall_congr' fun h => ?_) (forall_congr' fun i => ?_)
  · rw [port_formWatchSet, get_watchPort_returns]
    simp only [List.mem_map, forall_exists_index, and_imp, forall_apply_eq_imp_iff₂, ne_eq, watchItem_member_iff,
      Bool.not_eq_true]
  · rw [slot_formWatchSet]
    cases s.slot i <;> simp [watchWalk]

/-- With nothing IN_FLIGHT and no walk BUSY there is nothing to mark. -/
theorem formWatchSet_of_quiet {s : State}
    (hi : ∀ (h : HeadId) (item : Item), item ∈ (s.port h.port).returns.get h.cls → item.isInFlight = false)
    (hw : ∀ i, s.slot i = none) : formWatchSet s = s := by
  have hitem (h : HeadId) : ((s.port h.port).returns.get h.cls).map watchItem = (s.port h.port).returns.get h.cls :=
    (List.map_congr_left fun i hmem => by rw [watchItem_eq, hi h i hmem]; rfl).trans (List.map_id _)
  have hports : s.ports.map watchPort = s.ports := by
    refine Vector.ext fun p hp => ?_
    rw [Vector.getElem_map]
    have hport : watchPort (s.port ⟨p, hp⟩) = s.port ⟨p, hp⟩ := by
      unfold watchPort
      rw [show (s.port ⟨p, hp⟩).returns.normal.map watchItem = _ from hitem ⟨⟨p, hp⟩, .normal⟩,
        show (s.port ⟨p, hp⟩).returns.urgent.map watchItem = _ from hitem ⟨⟨p, hp⟩, .urgent⟩]
      rfl
    exact hport
  have hslots : s.slots.map watchWalk = s.slots := by
    refine Vector.ext fun i hi => ?_
    rw [Vector.getElem_map, show s.slots[i] = none from hw ⟨i, hi⟩]
    rfl
  rw [formWatchSet, hports, hslots]

theorem settleSync_of_sync {s : State} {m : BitVec 16} (hw : s.waitingOp = some (.sync m)) :
    (s.NoMember → settleSync s = (State.raise .syncDone { s with syncMarker := m }).completeCommand) ∧
      (¬ s.NoMember → settleSync s = s) := by
  unfold settleSync
  rw [hw]
  exact ⟨fun hn => if_pos ((watchEmpty_iff s).2 hn), fun hn => if_neg fun h => hn ((watchEmpty_iff s).1 h)⟩

/-- The row of a SYNC forms the watch set and tests it at once (R148, R151, R153). -/
theorem exec_sync {s : State} (w : Word) (hr : s.ready = true) (hc : s.commands = []) :
    exec (.sync w) s = .next (settleSync (formWatchSet (s.withTaken 0x08#8 w))) :=
  exec_row_of_passes (i := .sync w) (operand := some w) (op := .sync (operandMarker w)) rfl hr hc rfl

/-! ## CLEAR_MEMORY_PORT (R150, R171) -/

theorem takeCheck_clearMemory {s : State} (w : Word) (hm : s.memState = .failed) : takeCheck s 0x20#8 w = .ok .clearMemory :=
  takeCheck_eq_ok_iff.2 ⟨rfl, by simp [stateError, hm]⟩

/-- Settles O37: the watch set that a SYNC forms, empty or not, and the take of a CLEAR_MEMORY_PORT. -/
theorem waitingCommands : Obligations.WaitingCommands := by
  intro s w hr hc
  have hop : (formWatchSet (s.withTaken 0x08#8 w)).waitingOp = some (.sync (operandMarker w)) := rfl
  obtain ⟨hdone, hwaits⟩ := settleSync_of_sync hop
  have hmember := formWatchSet_noMember_iff (s.withTaken 0x08#8 w)
  refine ⟨fun hquiet => ?done, fun hbusy => ⟨?waits, ?member⟩, fun hm => ?clear⟩
  case done =>
    rw [exec_sync w hr hc, hdone (hmember.2 hquiet), formWatchSet_of_quiet (s := s.withTaken 0x08#8 w) hquiet.1 hquiet.2]
    have hblind : UnitBlind fun t => State.raise .syncDone { t with syncMarker := operandMarker w } := fun _ _ _ _ _ => rfl
    exact congrArg Host.Outcome.next (complete_withTaken hblind hc 0x08#8 w)
  case waits =>
    rw [exec_sync w hr hc, hwaits fun h => hbusy (hmember.1 h), formWatchSet_eq]
    rfl
  case member =>
    have hno := fun h => hbusy (hmember.1 h)
    rw [formWatchSet_eq] at hno
    exact hno
  case clear =>
    rw [exec_row_of_passes (i := .clearMemoryPort) (operand := none) rfl hr hc (takeCheck_clearMemory _ hm)]
    rfl

end Sys2Proof.Machine
end

section
/-! PROOFS of the family "the memory port" (R150, R161, R164 to R174): GRANT to a walk, CLEARED, the response limit and the timebase. -/

namespace Sys2Proof.Machine

/-! ## GRANT to a walk (R161, R164) -/

/-- Settles O21: the walk's transaction is issued, or one of the three conditions of a grant fails. -/
theorem grantToWalk : Obligations.GrantToWalk := by
  intro s
  refine ⟨fun i w hrun hroom hw hi => ?granted, fun h => ?nothing⟩
  case granted =>
    rw [exec_grant, grant_of_walk (s := s.beginEvent) hrun hroom hw, grantWalk, State.slot_beginEvent, hi]
    rfl
  case nothing =>
    have hgrant : grant s.beginEvent = s.beginEvent := by
      by_cases hopen : s.memState = .running ∧ s.outstanding.length < 16
      · have hnone : s.winner = none :=
          (h.resolve_left (not_not_intro hopen.1)).resolve_left (Nat.not_le.2 hopen.2)
        exact grant_of_no_winner (s := s.beginEvent) hopen.1 hopen.2 hnone
      · exact if_neg hopen
    rw [exec_grant, hgrant]
    rfl

/-! ## CLEARED (R150, R166, R172, R174) -/

theorem exec_cleared (s : State) : exec .cleared s = .next (cleared s.beginEvent) := rfl

theorem cleared_of_resetnLow {s : State} (hl : s.resetnLow = true) : cleared s = s := by
  rw [cleared, if_pos hl]

theorem cleared_of_clearing {s : State} (hl : s.resetnLow = false) (hm : s.memState = .clearing) :
    cleared s = clearedClearing s := by
  rw [cleared, if_neg (by rw [hl]; decide), hm]

theorem cleared_of_running {s : State} (hl : s.resetnLow = false) (hm : s.memState = .running) :
    cleared s = if s.lateCleared then { s with lateCleared := false } else settle (enterFailed s) := by
  rw [cleared, if_neg (by rw [hl]; decide), hm]

theorem cleared_of_failed {s : State} (hl : s.resetnLow = false) (hm : s.memState = .failed) :
    cleared s = s.raise .memoryFailed := by
  rw [cleared, if_neg (by rw [hl]; decide), hm]

theorem clearedClearing_of_resetting {s : State} (hd : s.device = .resetting) :
    clearedClearing s = { enterRunning s with device := .ready } := by
  rw [clearedClearing, hd]

theorem clearedClearing_of_waiting {s : State} (hd : s.device = .ready) (hw : s.waitingOp = some .clearMemory) :
    clearedClearing s = (enterRunning s).completeCommand := by
  rw [clearedClearing, hd]
  exact if_pos hw

theorem waitingOp_of_clearMemory {s : State} {c : Command} {rest : List Command} (hc : s.commands = c :: rest)
    (ht : c.taken = true) (hk : c.code = 0x20#8) : s.waitingOp = some .clearMemory := by
  have hdecode : decodeCommand c.code c.operand = .ok .clearMemory := by rw [hk]; rfl
  simp [State.waitingOp, hc, ht, hdecode]

/-- Settles O29: by the pin and the port's state, and in CLEARING by the device state. -/
theorem clearedArrives : Obligations.ClearedArrives := by
  intro s
  refine ⟨fun hl => ?low, fun hl hm hd => ?reset, fun c rest hl hm hd hc ht hk => ?command, fun hl hm hlate => ?late,
    fun hl hm hlate => ?unexpected, fun hl hm => ?failed⟩
  case low =>
    rw [exec_cleared, cleared_of_resetnLow (s := s.beginEvent) hl]
    rfl
  case reset =>
    rw [exec_cleared, cleared_of_clearing (s := s.beginEvent) hl hm, clearedClearing_of_resetting (s := s.beginEvent) hd]
    rfl
  case command =>
    have hw : s.beginEvent.waitingOp = some .clearMemory := waitingOp_of_clearMemory (s := s.beginEvent) hc ht hk
    have hdone : (enterRunning s.beginEvent).completeCommand =
        { enterRunning s.beginEvent with commands := rest, completedCount := s.completedCount + 1#16 } := by
      rw [State.completeCommand, show (enterRunning s.beginEvent).commands = c :: rest from hc]
      rfl
    rw [exec_cleared, cleared_of_clearing (s := s.beginEvent) hl hm, clearedClearing_of_waiting (s := s.beginEvent) hd hw, hdone]
    rfl
  case late =>
    rw [exec_cleared, cleared_of_running (s := s.beginEvent) hl hm, if_pos (show s.beginEvent.lateCleared = true from hlate)]
    rfl
  case unexpected =>
    rw [exec_cleared, cleared_of_running (s := s.beginEvent) hl hm,
      if_neg (by rw [show s.beginEvent.lateCleared = false from hlate]; decide)]
    exact ⟨_, rfl, settle_enterFailed_port _⟩
  case failed =>
    rw [exec_cleared, cleared_of_failed (s := s.beginEvent) hl hm]
    rfl

/-! ## The settings that time the port (R167, R168) -/

/-- The settings that time the memory port, and the tick in progress. -/
def State.timing (s : State) : BitVec 16 × BitVec 8 × Nat := (s.responseLimit, s.timebase, s.tickLeft)

theorem State.timing_of_outside {s t : State} (h : t.outside = s.outside) : t.timing = s.timing := by
  rw [State.timing, State.timing, State.outside_responseLimit h, State.outside_timebase h, State.outside_tickLeft h]

theorem timing_endOutstanding (l : List Transaction) (s : State) : (endOutstanding l s).timing = s.timing := by
  induction l generalizing s with
  | nil => rfl
  | cons t rest ih =>
    have hone (u : State) : (endTransaction t u).timing = u.timing := by
      unfold endTransaction
      split
      · exact (State.timing_of_outside (outside_takeDataError _ _)).trans rfl
      · exact State.timing_of_outside (endWalkTransaction_outside _ u)
    rw [endOutstanding, ih, hone]
    rfl

/-- A failure leaves the settings and the tick in progress alone (R169). -/
theorem timing_settle_enterFailed (s : State) : (settle (enterFailed s)).timing = s.timing := by
  have hsettle : (settle (enterFailed s)).timing = (enterFailed s).timing := by
    obtain ⟨c, l, n, m, irq, h⟩ := settle_frame (enterFailed s)
    rw [h]
    rfl
  rw [hsettle, enterFailed, State.timing_of_outside (failAwaiting_outside _), timing_endOutstanding]
  rfl

theorem responseLimit_settle_enterFailed (s : State) : (settle (enterFailed s)).responseLimit = s.responseLimit :=
  (Prod.mk.inj (timing_settle_enterFailed s)).1

theorem responseLimitField_eq (w : Word) : responseLimitField w = BitVec.ofNat 16 w.toNat := by
  apply BitVec.eq_of_toNat_eq
  simp [responseLimitField, BitVec.extractLsb'_toNat]

theorem timebaseField_eq (w : Word) : timebaseField w = BitVec.ofNat 8 w.toNat := by
  apply BitVec.eq_of_toNat_eq
  simp [timebaseField, BitVec.extractLsb'_toNat]

theorem timebaseField_eq_zero_iff (w : Word) : timebaseField w = 0#8 ↔ w.toNat % 256 = 0 := by
  rw [timebaseField_eq, ← BitVec.toNat_inj]
  simp

theorem exec_timebaseWrite (value : Word) (s : State) :
    exec (.timebaseWrite value) s = .next (writeTimebase value s.beginEvent) := rfl

theorem exec_responseLimitWrite (value : Word) (s : State) :
    exec (.responseLimitWrite value) s = .next (writeResponseLimit value s.beginEvent) := rfl

theorem writeTimebase_of_ready {s : State} (value : Word) (hr : s.ready = true) :
    writeTimebase value s =
      if value.toNat % 256 = 0 then s.raise .programError else { s with timebase := BitVec.ofNat 8 value.toNat } := by
  rw [writeTimebase, if_pos hr, timebaseField_eq]
  exact if_congr ((timebaseField_eq value ▸ timebaseField_eq_zero_iff value)) rfl rfl

theorem writeTimebase_of_not_ready {s : State} (value : Word) (hr : s.ready = false) : writeTimebase value s = s := by
  simp [writeTimebase, hr]

theorem writeResponseLimit_of_not_ready {s : State} (value : Word) (hr : s.ready = false) :
    writeResponseLimit value s = s := by
  simp [writeResponseLimit, hr]

/-- The part with a response limit written, before the comparison that the write is (R167). -/
def State.limitWritten (value : Word) (s : State) : State :=
  { s with responseLimit := BitVec.ofNat 16 value.toNat, emitted := [] }

/-- The row of a response-limit write is the comparison it makes (R168). -/
theorem exec_responseLimitWrite_of_ready {s : State} (value : Word) (hr : s.ready = true) :
    exec (.responseLimitWrite value) s = .next (compareLimit (s.limitWritten value)) := by
  rw [exec_responseLimitWrite, writeResponseLimit, if_pos (show s.beginEvent.ready = true from hr), responseLimitField_eq]
  rfl

theorem limitReached_ofNat (value : Word) (age : Nat) :
    limitReached (BitVec.ofNat 16 value.toNat) age = true ↔ value.toNat % 65536 ≠ 0 ∧ value.toNat % 65536 ≤ age := by
  rw [limitReached_iff, BitVec.toNat_ofNat]

/-- A write of a limit that no age has reached is a write only (R168). -/
theorem compareLimit_of_limit_unreached {s : State} {value : Word} (hv : s.responseLimit = BitVec.ofNat 16 value.toNat)
    (h : value.toNat % 65536 = 0 ∨ s.memState = .failed ∨
      (s.memState = .running ∧ ∀ t rest, s.outstanding = t :: rest → t.age < value.toNat % 65536) ∨
      (s.memState = .clearing ∧ s.clearAge < value.toNat % 65536)) : compareLimit s = s := by
  refine compareLimit_of_unreached (fun hm t rest ho => ?_) fun hm => ?_
  all_goals
    rw [hv, ← Bool.not_eq_true, limitReached_ofNat]
    rintro ⟨h0, hle⟩
  · rcases h with h | h | ⟨-, h⟩ | ⟨h, -⟩
    · exact h0 h
    · rw [hm] at h; cases h
    · exact absurd hle (Nat.not_le.2 (h t rest ho))
    · rw [hm] at h; cases h
  · rcases h with h | h | ⟨h, -⟩ | ⟨-, h⟩
    · exact h0 h
    · rw [hm] at h; cases h
    · rw [hm] at h; cases h
    · exact absurd hle (Nat.not_le.2 h)

theorem compareLimit_of_clear_reached {s : State} (hm : s.memState = .clearing)
    (h : limitReached s.responseLimit s.clearAge = true) : compareLimit s = resendClear s := by
  rw [compareLimit, hm]
  exact if_pos h

/-- A tick ends as it began: the next one has the length of the timebase (R167, R168). -/
theorem timing_compareLimit (s : State) : (compareLimit s).timing = s.timing := by
  unfold compareLimit
  split
  · split
    · rfl
    · split
      · exact timing_settle_enterFailed s
      · rfl
  · split <;> rfl
  · rfl

/-! ## EXPIRY, CLEAR_EXPIRY and RESPONSE outside their states (R168, R170, R171, R173, R174) -/

theorem exec_expiry (s : State) : exec .expiry s = .next (expire s.beginEvent) := rfl

theorem exec_clearExpiry (s : State) : exec .clearExpiry s = .next (expireClear s.beginEvent) := rfl

theorem exec_response (status : ResponseStatus) (data : List Word) (s : State) :
    exec (.response status data) s = .next (response status data s.beginEvent) := rfl

theorem expire_of_nothing {s : State}
    (h : s.resetnLow = true ∨ s.memState ≠ .running ∨ s.outstanding = [] ∨ s.responseLimit.toNat = 0) : expire s = s := by
  refine if_neg fun ⟨hl, hm, ho, h0⟩ => ?_
  rcases h with h | h | h | h
  · rw [hl] at h; cases h
  · exact h hm
  · exact ho h
  · exact h0 h

theorem expireClear_of_nothing {s : State}
    (h : s.resetnLow = true ∨ s.memState ≠ .clearing ∨ s.responseLimit.toNat = 0) : expireClear s = s := by
  refine if_neg fun ⟨hl, hm, h0⟩ => ?_
  rcases h with h | h | h
  · rw [hl] at h; cases h
  · exact h hm
  · exact h0 h

theorem response_of_not_running {s : State} (status : ResponseStatus) (data : List Word)
    (h : s.resetnLow = true ∨ s.memState ≠ .running) : response status data s = s := by
  refine if_neg fun ⟨hl, hm⟩ => ?_
  rcases h with h | h
  · rw [hl] at h; cases h
  · exact h hm

/-- Settles O32: each clause is one row of the timing settings, or the condition that keeps it from an effect. -/
theorem timingSettings : Obligations.TimingSettings := by
  intro s value status data
  refine ⟨fun t ht => ?powerOn, fun t ht => ?reset, fun hr h0 => ?timebase, fun hr h0 => ?zero, fun hr h => ?unreached,
    fun hr h0 hm hle => ?clearReached, fun t rest hr h0 hm ho hle => ?oldestReached, fun hr => ⟨?ignoredBase, ?ignoredLimit⟩,
    fun hp hl ht => ?tick, fun hl hm h0 => ?clearExpiry, fun h => ?noClearExpiry, fun h => ?noExpiry, fun h => ?noResponse⟩
  case powerOn =>
    cases ht
    exact ⟨rfl, rfl⟩
  case reset =>
    cases hr : s.ready
    · rw [exec_deviceReset_of_not_ready hr] at ht
      cases ht
      exact ⟨rfl, rfl⟩
    · rw [exec_deviceReset_of_ready hr] at ht
      cases ht
      exact ⟨rfl, rfl⟩
  case timebase =>
    rw [exec_timebaseWrite, writeTimebase_of_ready (s := s.beginEvent) value hr, if_neg h0]
    rfl
  case zero =>
    rw [exec_timebaseWrite, writeTimebase_of_ready (s := s.beginEvent) value hr, if_pos h0, raise_programError_beginEvent]
  case unreached =>
    rw [exec_responseLimitWrite_of_ready value hr,
      compareLimit_of_limit_unreached (s := s.limitWritten value) (value := value) rfl h]
    rfl
  case clearReached =>
    rw [exec_responseLimitWrite_of_ready value hr,
      compareLimit_of_clear_reached (s := s.limitWritten value) hm
        ((limitReached_ofNat value _).2 ⟨h0, hle⟩)]
    rfl
  case oldestReached =>
    have hlimit := (limitReached_iff _ _).1 ((limitReached_ofNat value t.age).2 ⟨h0, hle⟩)
    rw [exec_responseLimitWrite_of_ready value hr,
      compareLimit_expires (s := s.limitWritten value) hm ho hlimit.1 hlimit.2]
    exact ⟨_, rfl, responseLimit_settle_enterFailed _, settle_enterFailed_port _⟩
  case ignoredBase =>
    rw [exec_timebaseWrite, writeTimebase_of_not_ready (s := s.beginEvent) value hr]
    rfl
  case ignoredLimit =>
    rw [exec_responseLimitWrite, writeResponseLimit_of_not_ready (s := s.beginEvent) value hr]
    rfl
  case tick =>
    rw [step_of_nil hp, hostClock_of_last_cycle (s := s.beginEvent) hl ht]
    exact ⟨_, rfl, congrArg (fun x => x.2.2) (timing_compareLimit (advanceAges (restartTick s.beginEvent)))⟩
  case clearExpiry =>
    rw [exec_clearExpiry, expireClear,
      if_pos (show s.beginEvent.resetnLow = false ∧ s.beginEvent.memState = .clearing ∧ s.beginEvent.responseLimit.toNat ≠ 0 from
        ⟨hl, hm, h0⟩)]
    rfl
  case noClearExpiry =>
    rw [exec_clearExpiry, expireClear_of_nothing (s := s.beginEvent) h]
    rfl
  case noExpiry =>
    rw [exec_expiry, expire_of_nothing (s := s.beginEvent) h]
    rfl
  case noResponse =>
    rw [exec_response, response_of_not_running (s := s.beginEvent) status data h]
    rfl

end Sys2Proof.Machine
end

section
/-! PROOFS of the family "requests" (R41 to R49, R70 to R74, R88 to R93, R100, R106): what a request does when it is answered, and, into an empty queue, when
it is presented at once. -/

namespace Sys2Proof.Machine

/-! ## What a presentation reads besides the queues -/

/-- Two states that a presentation cannot tell apart but by their queues and lists: the same contexts, region map, caches, walks, memory port state and
bindings. -/
structure State.SameTables (s t : State) : Prop where
  contexts  : t.contexts = s.contexts
  regions   : t.regions = s.regions
  pageCache : t.pageCache = s.pageCache
  dirCache  : t.dirCache = s.dirCache
  slots     : t.slots = s.slots
  memState  : t.memState = s.memState
  bound     : ∀ h, t.boundContext h = s.boundContext h

theorem State.boundContext_setPort {s : State} {p : PortNumber} {v : Port} (hv : v.binding = (s.port p).binding) (k : HeadId) :
    (s.setPort p v).boundContext k = s.boundContext k := by
  rw [State.boundContext, State.port_setPort]
  split
  · next hp => rw [hv, hp]; rfl
  · rfl

theorem State.SameTables.setQueue (s : State) (h : HeadId) (q : List Entry) (o : List Output) :
    s.SameTables { s.setQueue h q with emitted := o } :=
  ⟨rfl, rfl, rfl, rfl, rfl, rfl, State.boundContext_setPort rfl⟩

namespace State.SameTables
variable {s t : State} (H : s.SameTables t)
include H

theorem context (c : ContextNumber) : t.context c = s.context c := by
  rw [State.context, State.context, H.contexts]

theorem slot (i : SlotNumber) : t.slot i = s.slot i := by
  rw [State.slot, State.slot, H.slots]

theorem regionOf (a : PhysAddr) : t.regionOf a = s.regionOf a := by
  rw [State.regionOf, State.regionOf, H.regions]

theorem pageLookup (c : ContextNumber) (p : PageNumber) : t.pageLookup c p = s.pageLookup c p := by
  rw [State.pageLookup, State.pageLookup, H.pageCache]

theorem pageFront (e : PageEntry) : t.pageFront e = s.pageFront e := by
  rw [State.pageFront, State.pageFront, H.pageCache]

theorem dirFront (c : ContextNumber) (i : BitVec 10) : t.dirFront c i = s.dirFront c i := by
  rw [State.dirFront, State.dirFront, State.dirLookup, State.dirLookup, H.dirCache]

theorem translated {h : HeadId} {r : Request} (hs : s.Translated h r) : t.Translated h r where
  active := by rw [H.bound, H.context]; exact hs.active
  limit := by rw [H.bound, H.context]; exact hs.limit

theorem permits_iff (c : ContextNumber) (k : ReqKind) (e : PageEntry) : t.Permits c k e ↔ s.Permits c k e := by
  cases k
  · exact Iff.rfl
  · show e.writePermit = true ∧ (t.context c).writesPermitted = true ↔ _
    rw [H.context]
    exact Iff.rfl

theorem regionAdmits_iff (k : ReqKind) (a : PhysAddr) : t.RegionAdmits k a ↔ s.RegionAdmits k a := by
  cases k
  · show t.regionOf a = .open_ ∨ t.regionOf a = .readOnly ↔ _
    rw [H.regionOf]
    exact Iff.rfl
  · show t.regionOf a = .open_ ↔ _
    rw [H.regionOf]
    exact Iff.rfl

theorem tableAdmits_iff (op : TxnOp) (a : PhysAddr) : t.TableAdmits op a ↔ s.TableAdmits op a := by
  cases op
  · show t.regionOf a ≠ .absent ↔ _
    rw [H.regionOf]
    exact Iff.rfl
  · exact Iff.rfl
  · show t.regionOf a = .open_ ∨ t.regionOf a = .tables ↔ _
    rw [H.regionOf]
    exact Iff.rfl

theorem hitReady {c : ContextNumber} {r : Request} {e : PageEntry} {a : PhysAddr} (hs : s.HitReady c r e a) : t.HitReady c r e a where
  address := hs.address
  permits := (H.permits_iff _ _ _).2 hs.permits
  region := (H.regionAdmits_iff _ _).2 hs.region
  known := hs.known

theorem hitFault {c : ContextNumber} {r : Request} {e : PageEntry} {cause : FaultCause} (hs : s.HitFault c r e cause) :
    t.HitFault c r e cause := by
  unfold State.HitFault at hs ⊢
  rw [H.permits_iff, H.regionAdmits_iff]
  exact hs

theorem needsWalk {c : ContextNumber} {r : Request} {k : WalkKind} {pages : List PageEntry} (hs : s.NeedsWalk c r k pages) :
    t.NeedsWalk c r k pages := by
  cases hs with
  | miss hm =>
    rw [← H.pageCache]
    exact .miss ((H.pageLookup _ _).trans hm)
  | flag e he hk hm hp hr =>
    rw [← H.pageFront]
    exact .flag e ((H.pageLookup _ _).trans he) hk hm ((H.permits_iff _ _ _).2 hp) ((H.regionAdmits_iff _ _).2 hr)

theorem noWalk {c : ContextNumber} {p : PageNumber} (hs : s.NoWalk c p) : t.NoWalk c p :=
  fun i w hw => hs i w ((H.slot i).symm.trans hw)

theorem allBusy (hs : ∀ i, s.slot i ≠ none) (i : SlotNumber) : t.slot i ≠ none := by
  rw [H.slot]
  exact hs i

theorem lowestFree {i : SlotNumber} (hs : s.LowestFree i) : t.LowestFree i :=
  ⟨(H.slot i).trans hs.1, fun j hj => by rw [H.slot]; exact hs.2 j hj⟩

theorem walkOf {c : ContextNumber} {p : PageNumber} {i : SlotNumber} {w : Walk} (hs : s.WalkOf c p i w) : t.WalkOf c p i w where
  busy := (H.slot i).trans hs.busy
  live := hs.live
  context := hs.context
  page := hs.page
  lowest j v hj hv := hs.lowest j v hj ((H.slot j).symm.trans hv)

theorem firstAccess {k : WalkKind} {c : ContextNumber} {p : PageNumber} {stage : WalkStage} {op : TxnOp} {a : PhysAddr}
    {frame : Option Frame} (hs : s.FirstAccess k c p stage op a frame) : t.FirstAccess k c p stage op a frame :=
  firstAccess_of H.dirCache H.contexts hs

theorem tableRefuses {op : TxnOp} {a : PhysAddr} {cause : FaultCause} (hs : s.TableRefuses op a cause) : t.TableRefuses op a cause := by
  unfold State.TableRefuses at hs ⊢
  rw [H.tableAdmits_iff, H.memState]
  exact hs

theorem startsWalk {h : HeadId} {r : Request} {i : SlotNumber} {w : Walk} {pages : List PageEntry} (hs : s.StartsWalk h r i w pages) :
    t.StartsWalk h r i w pages := by
  cases hs with
  | start k pages stage op a frame ht hn hno hfree hf hadm hrun =>
    rw [← H.bound]
    exact .start k pages stage op a frame (H.translated ht) (H.bound h ▸ H.needsWalk hn) (H.bound h ▸ H.noWalk hno)
      (H.lowestFree hfree) (H.bound h ▸ H.firstAccess hf) ((H.tableAdmits_iff _ _).2 hadm) (H.memState.trans hrun)

theorem refusesHead {h : HeadId} {r : Request} {cause : FaultCause} {pages : List PageEntry} {dirs : List DirEntry}
    (hs : s.RefusesHead h r cause pages dirs) : t.RefusesHead h r cause pages dirs := by
  cases hs with
  | limit ha hl =>
    rw [← H.pageCache, ← H.dirCache]
    exact .limit (by rw [H.bound, H.context]; exact ha) (by rw [H.bound, H.context]; exact hl)
  | hit x cause ht hx hf =>
    rw [← H.pageFront, ← H.dirCache]
    exact .hit x cause (H.translated ht) (by rw [H.bound, H.pageLookup]; exact hx) (H.bound h ▸ H.hitFault hf)
  | table k pages i stage op a frame cause ht hn hno hfree hf href =>
    rw [← H.dirFront, ← H.bound]
    exact .table k pages i stage op a frame cause (H.translated ht) (H.bound h ▸ H.needsWalk hn) (H.bound h ▸ H.noWalk hno)
      (H.lowestFree hfree) (H.bound h ▸ H.firstAccess hf) (H.tableRefuses href)

end State.SameTables

/-! ## The answer (R41 to R45) -/

theorem newEntry_of_wellFormed {r : Request} (h : wellFormedRequest r = true) :
    newEntry r = { request := r, malformed := false, abortMark := false, state := .queued } := if_pos h

theorem newEntry_of_malformed {r : Request} (h : wellFormedRequest r = false) :
    newEntry r = { request := { r with data := [] }, malformed := true, abortMark := false, state := .queued } :=
  if_neg (by rw [h]; decide)

theorem exec_request (p : PortNumber) (r : Request) (s : State) :
    exec (.request p r) s = .next (presentRequest p r s.beginEvent) := rfl

/-- A request accepted, its entry at the back of its queue, before any presentation (R41, R45). -/
def State.accepted (s : State) (p : PortNumber) (r : Request) : State :=
  { s.setQueue ⟨p, r.cls⟩ (s.queue ⟨p, r.cls⟩ ++ [newEntry r]) with emitted := [.answer p .accept] }

section
variable {p : PortNumber} {r : Request} {s : State}

theorem exec_request_of_declined (h : ¬ (s.ready = true ∧ (s.port p).state = .open_)) :
    exec (.request p r) s = .next { s with emitted := [.answer p .decline] } := by
  have hanswer : s.beginEvent.answerFor p r = .decline := if_neg h
  rw [exec_request, presentRequest, hanswer]
  rfl

theorem exec_request_of_held (hr : s.ready = true) (ho : (s.port p).state = .open_) (hl : 8 ≤ (s.queue ⟨p, r.cls⟩).length) :
    exec (.request p r) s = .next { s with emitted := [.answer p .hold] } := by
  have hanswer : s.beginEvent.answerFor p r = .hold := (if_pos ⟨hr, ho⟩).trans (if_neg (Nat.not_lt.2 hl))
  rw [exec_request, presentRequest, hanswer]
  rfl

theorem exec_request_of_accepted (hr : s.ready = true) (ho : (s.port p).state = .open_) (hl : (s.queue ⟨p, r.cls⟩).length < 8) :
    exec (.request p r) s =
      .next (if s.queue ⟨p, r.cls⟩ = [] then presentHead ⟨p, r.cls⟩ (s.accepted p r) else s.accepted p r) := by
  have hanswer : s.beginEvent.answerFor p r = .accept := (if_pos ⟨hr, ho⟩).trans (if_pos hl)
  rw [exec_request, presentRequest, hanswer]
  rfl

/-- A request into an empty queue is what its presentation at once does (R45, R48). -/
theorem exec_request_of_presents {u : State} (hoff : s.Offered) (hr : s.ready = true) (ho : (s.port p).state = .open_)
    (hq : s.queue ⟨p, r.cls⟩ = []) (hu : (s.accepted p r).Presents ⟨p, r.cls⟩ u) : exec (.request p r) s = .next u := by
  have hl : (s.queue ⟨p, r.cls⟩).length < 8 := by rw [hq]; decide
  rw [exec_request_of_accepted hr ho hl, if_pos hq, presentHead_eq_present (s := s.accepted p r) _ hoff, present_of_presents hu]

theorem State.sameTables_accepted (s : State) (p : PortNumber) (r : Request) : s.SameTables (s.accepted p r) :=
  State.SameTables.setQueue s _ _ _

theorem State.queue_accepted (hq : s.queue ⟨p, r.cls⟩ = []) : (s.accepted p r).queue ⟨p, r.cls⟩ = [newEntry r] := by
  have h := State.queue_setQueue_self ⟨p, r.cls⟩ (s.queue ⟨p, r.cls⟩ ++ [newEntry r]) s
  exact h.trans (by rw [hq]; rfl)

/-- A queue written after an acceptance is as if written in its place. -/
theorem State.setQueue_accepted (s : State) (p : PortNumber) (r : Request) (q : List Entry) :
    (s.accepted p r).setQueue ⟨p, r.cls⟩ q = { s.setQueue ⟨p, r.cls⟩ q with emitted := [.answer p .accept] } := by
  have h := State.setQueue_setQueue ⟨p, r.cls⟩ q (s.queue ⟨p, r.cls⟩ ++ [newEntry r]) s
  exact congrArg (fun x : State => { x with emitted := [.answer p .accept] }) h

end

/-- Settles O11: by the answer, and behind other entries by the format. -/
theorem requestAnswered : Obligations.RequestAnswered := by
  intro p r s
  refine ⟨exec_request_of_declined, exec_request_of_held, fun hr ho hpos hl hw => ?wellFormed, fun hr ho hpos hl hw => ?malformed⟩
  case wellFormed =>
    rw [exec_request_of_accepted hr ho hl, if_neg (List.ne_nil_of_length_pos hpos), State.accepted, newEntry_of_wellFormed hw]
  case malformed =>
    rw [exec_request_of_accepted hr ho hl, if_neg (List.ne_nil_of_length_pos hpos), State.accepted, newEntry_of_malformed hw]

/-- Settles O12: the first check of presentation, and the third. -/
theorem requestFinishedAtOnce : Obligations.RequestFinishedAtOnce := by
  intro p r s h hoff hr ho hq
  have hnew : (s.accepted p r).queue h = [newEntry r] := State.queue_accepted hq
  refine ⟨fun hw => ?malformed, fun hw hc => ?noContext⟩
  case malformed =>
    rw [newEntry_of_malformed hw] at hnew
    rw [exec_request_of_presents hoff hr ho hq (.malformed _ [] hnew rfl), State.setQueue_accepted]
  case noContext =>
    have hsame := s.sameTables_accepted p r
    rw [newEntry_of_wellFormed hw] at hnew
    rw [exec_request_of_presents hoff hr ho hq
      (.noContext _ [] hnew ⟨rfl, rfl⟩ (by rw [hsame.bound, hsame.context]; exact hc)), State.setQueue_accepted]

/-- Settles O13: a hit whose checks pass is READY. -/
theorem requestHits : Obligations.RequestHits := by
  intro p r s e a h c hoff hr ho hq hw ht he ha
  have hsame := s.sameTables_accepted p r
  have hnew : (s.accepted p r).queue h = [newEntry r] := State.queue_accepted hq
  rw [newEntry_of_wellFormed hw] at hnew
  rw [exec_request_of_presents hoff hr ho hq
    (.ready _ [] e a hnew ⟨rfl, rfl⟩ (hsame.translated ht) (by rw [hsame.bound, hsame.pageLookup]; exact he)
      (hsame.bound h ▸ hsame.hitReady ha)), State.setQueue_accepted, hsame.pageFront]

/-- A head that presentation refuses takes its fault in the event of its acceptance (R48, R74). -/
theorem exec_request_of_refused {p : PortNumber} {r : Request} {s : State} {cause : FaultCause} {pages : List PageEntry}
    {dirs : List DirEntry} (hoff : s.Offered) (hr : s.ready = true) (ho : (s.port p).state = .open_)
    (hq : s.queue ⟨p, r.cls⟩ = []) (hw : wellFormedRequest r = true) (hf : s.RefusesHead ⟨p, r.cls⟩ r cause pages dirs) :
    exec (.request p r) s = .next (takeHeadFault cause ⟨p, r.cls⟩
      { s.setQueue ⟨p, r.cls⟩ [{ request := r, malformed := false, abortMark := false, state := .queued }] with
        pageCache := pages, dirCache := dirs, emitted := [.answer p .accept] }) := by
  have hnew : (s.accepted p r).queue ⟨p, r.cls⟩ = [newEntry r] := State.queue_accepted hq
  rw [newEntry_of_wellFormed hw] at hnew
  rw [exec_request_of_presents hoff hr ho hq
    (.refused _ [] cause pages dirs hnew ⟨rfl, rfl⟩ ((s.sameTables_accepted p r).refusesHead hf)), State.accepted, hq,
    newEntry_of_wellFormed hw]
  rfl

/-- Settles O14: the fourth check of presentation, and a hit that R71 refuses. -/
theorem requestFaults : Obligations.RequestFaults := by
  intro p r s h c accepted hoff hr ho hq hw hc
  exact ⟨fun hl => exec_request_of_refused hoff hr ho hq hw (.limit hc hl),
    fun e cause ht he hf => exec_request_of_refused hoff hr ho hq hw (.hit e cause ht he hf)⟩

/-- Settles O15: the walk's first transaction is formed, or refused by the memory port's state or by the region map. -/
theorem requestStartsWalk : Obligations.RequestStartsWalk := by
  intro p r s i k pages stage op a frame h c page entry refused hoff hr ho hq hw ht hn hno hfree hf
  have hrefused (cause : FaultCause) (href : s.TableRefuses op a cause) : exec (.request p r) s = .next (refused cause) :=
    exec_request_of_refused hoff hr ho hq hw (.table k pages i stage op a frame cause ht hn hno hfree hf href)
  refine ⟨fun hadm hrun => ?starts, fun hadm hrun => hrefused _ (.inr ⟨hadm, hrun, rfl⟩), fun hadm => hrefused _ (.inl ⟨hadm, rfl⟩)⟩
  have hsame := s.sameTables_accepted p r
  have hnew : (s.accepted p r).queue h = [newEntry r] := State.queue_accepted hq
  rw [newEntry_of_wellFormed hw] at hnew
  rw [exec_request_of_presents hoff hr ho hq (.starts _ [] i _ pages hnew ⟨rfl, rfl⟩
    (hsame.startsWalk (.start k pages stage op a frame ht hn hno hfree hf hadm hrun))), State.walkStarted, hsame.dirFront]
  have hqueue : ((s.accepted p r).setSlot i (some (startedWalk k c page h stage op a frame))).setQueue h [entry .walking] =
      { (s.setSlot i (some (startedWalk k c page h stage op a frame))).setQueue h [entry .walking] with
        emitted := [.answer p .accept] } :=
    State.setQueue_accepted (s.setSlot i (some (startedWalk k c page h stage op a frame))) p r _
  exact congrArg (fun x : State => Host.Outcome.next { x with
    startOrder := s.startOrder ++ [i], pageCache := pages, dirCache := s.dirFront c (directoryIndex page) }) hqueue

/-- A key's only live walk is the one a head joins (R89). -/
theorem State.walkOf_of_only {s : State} {c : ContextNumber} {p : PageNumber} {i : SlotNumber} {w : Walk} (hi : s.slot i = some w)
    (ha : w.abandoned = false) (hc : w.context = c) (hp : w.page = p)
    (honly : ∀ j v, s.slot j = some v → v.abandoned = false → v.context = c → v.page = p → j = i) : s.WalkOf c p i w where
  busy := hi
  live := ha
  context := hc
  page := hp
  lowest j v hj hv hva hvc hvp := absurd (honly j v hv hva hvc hvp) (ne_of_lt hj)

/-- Settles O16: with a walk of its key to join, and with none and no slot FREE. -/
theorem requestJoinsOrWaits : Obligations.RequestJoinsOrWaits := by
  intro p r s k pages h c page entry hoff hr ho hq hw ht hn
  have hsame := s.sameTables_accepted p r
  have hnew : (s.accepted p r).queue h = [newEntry r] := State.queue_accepted hq
  rw [newEntry_of_wellFormed hw] at hnew
  refine ⟨fun i w hi ha hc hp honly => ?joins, fun hno hbusy => ?waits⟩
  case joins =>
    rw [exec_request_of_presents hoff hr ho hq (.joins _ [] k pages i w hnew ⟨rfl, rfl⟩ (hsame.translated ht)
      (hsame.bound h ▸ hsame.needsWalk hn) (hsame.bound h ▸ hsame.walkOf (State.walkOf_of_only hi ha hc hp honly))), State.walkJoined]
    have hqueue : ((s.accepted p r).setSlot i (some { w with waiters := w.waiters ++ [h] })).setQueue h [entry .walking] =
        { (s.setSlot i (some { w with waiters := w.waiters ++ [h] })).setQueue h [entry .walking] with
          emitted := [.answer p .accept] } :=
      State.setQueue_accepted (s.setSlot i (some { w with waiters := w.waiters ++ [h] })) p r _
    exact congrArg (fun x : State => Host.Outcome.next { x with pageCache := pages }) hqueue
  case waits =>
    rw [exec_request_of_presents hoff hr ho hq (.waits _ [] k pages hnew ⟨rfl, rfl⟩ (hsame.translated ht)
      (hsame.bound h ▸ hsame.needsWalk hn) (hsame.bound h ▸ hsame.noWalk hno) (hsame.allBusy hbusy)), State.setQueue_accepted]
    rfl

end Sys2Proof.Machine
end

section
/-! PROOFS of the family "events that end work" (R25, R46, R56 to R60, R75 to R81, R91 to R104, R149 to R153, R165): TRANSFER, GRANT to a head, the responses
to a client's and to a walk's transaction, and the end of a SYNC and of a drain. -/

namespace Sys2Proof.Machine

/-! ## TRANSFER (R46, R56, R58) -/

theorem exec_transfer (h : HeadId) (s : State) : exec (.transfer h.port h.cls) s = .next (transfer h s.beginEvent) := rfl

theorem State.headFinishing_of {s : State} {h : HeadId} {e : Entry} {q : List Entry} {st : LocalStatus} (hq : s.queue h = e :: q)
    (he : e.state = .finishing st) : s.headFinishing h = true := by
  rw [State.headFinishing, State.head?_of_queue hq]
  simp [Entry.finishing?, he]

theorem State.transferAllowed_of_waits {s : State} {h : HeadId} (hw : s.TransferWaits h) : s.transferAllowed h = false := by
  unfold State.transferAllowed
  rcases hw with hfull | ⟨hc, h7, e, q, st, hq, he⟩
  · have hcredit : (s.port h.port).hasCredit = false := by
      rw [← Bool.not_eq_true, Port.hasCredit_iff]
      exact Nat.not_lt.2 hfull
    rw [hcredit, Bool.false_and]
  · simp [hc, h7, Config.credit, State.headFinishing_of hq he]

theorem transfer_of_waits {s : State} {h : HeadId} (hw : s.TransferWaits h) : transfer h s = s := by
  unfold transfer
  split
  · split
    · rw [if_neg (by rw [State.transferAllowed_of_waits hw]; decide)]
    · rfl
  · rfl

theorem transfer_of_not_finishing {s : State} {h : HeadId} {e : Entry} {q : List Entry} (hq : s.queue h = e :: q)
    (he : ∀ st, e.state ≠ .finishing st) : transfer h s = s := by
  have hnone : e.finishing? = none := by
    unfold Entry.finishing?
    split
    · next st hst => exact absurd hst (he st)
    · rfl
  unfold transfer
  simp only [State.head?_of_queue hq, hnone]

/-- The queue that a head has left. -/
theorem State.queue_of_head_gone {s t : State} {h : HeadId} {q : List Entry} {v : Port} (hv : v.queues = (s.port h.port).queues.set h.cls q)
    (ht : t.ports = (s.setPort h.port v).ports) : t.queue h = q := by
  have hport : t.port h.port = v := by
    have hset : (s.setPort h.port v).port h.port = v := State.port_setPort_self _ _ _
    rw [State.port, ht]
    exact hset
  rw [State.queue, hport, hv, PerClass.get_set_self]

theorem State.queue_transferred (s : State) (h : HeadId) (e : Entry) (q : List Entry) (st : LocalStatus) :
    (s.transferred h e q st).queue h = q :=
  State.queue_of_head_gone (s := s) rfl rfl

theorem State.boundContext_transferred (s : State) (h : HeadId) (e : Entry) (q : List Entry) (st : LocalStatus) (k : HeadId) :
    (s.transferred h e q st).boundContext k = s.boundContext k := by
  have hset (v : Port) (hv : v.binding = (s.port h.port).binding) : (s.setPort h.port v).boundContext k = s.boundContext k :=
    State.boundContext_setPort hv k
  exact hset _ rfl

/-- Presenting the head of an empty queue, with the slot wait list settled, does nothing. -/
theorem presentHead_of_empty {s : State} {h : HeadId} (hq : s.queue h = []) (ho : s.Offered) : presentHead h s = s := by
  rw [presentHead_eq_present h ho, present_of_presents (.empty hq)]

/-- Settles O19: the row by what its head is, and the presentation of the next entry by `Presents`. -/
theorem transferOfFinished : Obligations.TransferOfFinished := by
  intro h e q st s hq port waits moved
  have hexec (he : e.state = .finishing st) (hw : ¬ waits) (hf : FrontInFlight (port.returns.get h.cls)) :
      exec (.transfer h.port h.cls) s = .next (settle (presentHead h moved)) :=
    congrArg Host.Outcome.next (transfer_eq hq he hw hf)
  have hqueue : moved.queue h = q := s.queue_transferred h e q st
  have hout := presentHead_outside h moved
  refine ⟨fun he hw hf hn => ?settled, fun he hw hf ho hends => ?presents, fun he hw => ?waits, fun he => ?other⟩
  case settled =>
    have hset : settle (presentHead h moved) = presentHead h moved :=
      settle_of_noEnds (noEnds_of (State.outside_contexts hout) (State.outside_commands hout) hn)
    refine ⟨(hexec he hw hf).trans (congrArg _ hset), fun hnil ho => ?_⟩
    rw [hexec he hw hf, hset, presentHead_of_empty (hqueue.trans hnil) ho]
  case presents =>
    have hset : settle (presentHead h moved) = presentHead h moved := by
      rcases hends with hn | ⟨hne, hd⟩
      · exact settle_of_noEnds (noEnds_of (State.outside_contexts hout) (State.outside_commands hout) hn)
      · have hleft : (presentHead h moved).queue h ≠ [] := by
          intro hnil
          have hlen := State.outside_queue_length hout h
          rw [hnil, hqueue] at hlen
          exact hne (List.length_eq_zero_iff.1 hlen.symm)
        have hbound : (presentHead h moved).boundContext h = s.boundContext h :=
          (State.outside_binding hout h.port).trans (s.boundContext_transferred h e q st h)
        refine settle_of_drainsOnly (drainsOnly_of (State.outside_contexts hout) (State.outside_commands hout) hd) ?_
        rw [← hbound]
        exact not_nothingLeft_of_queue hleft
    have hone : ∀ u, moved.Presents h u → exec (.transfer h.port h.cls) s = .next u := fun u hu => by
      rw [hexec he hw hf, hset, presentHead_eq_present (s := moved) h ho, present_of_presents hu]
    refine ⟨hone, fun next behind hnext => ⟨fun hm => ?_, fun hm ha => ?_⟩⟩
    · exact hone _ (.malformed next behind (hqueue.trans hnext) hm)
    · exact hone _ (.marked next behind (hqueue.trans hnext) hm ha)
  case waits =>
    rw [exec_transfer, transfer_of_waits (s := s.beginEvent) hw]
    rfl
  case other =>
    rw [exec_transfer, transfer_of_not_finishing (s := s.beginEvent) hq he]
    rfl

/-! ## GRANT to a head (R46, R57, R164) -/

/-- Settles O22: the head leaves, its transaction is issued, and the next entry is presented. -/
theorem grantToHead : Obligations.GrantToHead := by
  intro h e q a s port op granted hrun hroom hwin hq he hf hn
  have hqueue : granted.queue h = q := State.queue_of_head_gone (s := s) rfl rfl
  have hexec : exec .grant s = .next (presentHead h granted) := by
    have hout := presentHead_outside h granted
    have hset : settle (presentHead h granted) = presentHead h granted :=
      settle_of_noEnds (noEnds_of (State.outside_contexts hout) (State.outside_commands hout) hn)
    rw [exec_grant, grant_of_head (s := s.beginEvent) hrun hroom hwin, grantHead_eq hq he hf]
    exact congrArg Host.Outcome.next hset
  refine ⟨hexec, fun hnil ho => ?_, fun ho u hu => ?_⟩
  · rw [hexec, presentHead_of_empty (hqueue.trans hnil) ho]
  · rw [hexec, presentHead_eq_present (s := granted) h ho, present_of_presents hu]

/-! ## Responses to a client's transaction (R59, R60, R132, R165) -/

/-- Settles O23: the first item ends, with the data of a READ. -/
theorem responseOkEndsItem : Obligations.ResponseOkEndsItem := by
  intro s t rest v n words data i done later port taken hl hm ho hv hr hi hd hf hn
  have hends (d : List Word) (hfit : shapeFits t.op .ok d = true) :=
    exec_of_endsWork_noEnds (.itemOk t rest d v i done later ⟨hl, hm, ho, hfit⟩ hv hr hi hd hf) hn
  refine ⟨fun hop hlen => ?read, fun hop => ?write⟩
  case read =>
    have h := hends data (by rw [hop]; exact decide_eq_true hlen)
    rw [hop] at h
    exact h
  case write =>
    have h := hends [] (by rw [hop]; rfl)
    rw [hop] at h
    exact h

/-- Settles O24: the first item ends with MEMORY_ERROR, and the fault unit takes its DATA_ERROR. -/
theorem responseErrorEndsItem : Obligations.ResponseErrorEndsItem := by
  intro s t rest v i done later port ended hl hm ho hv hr hi hd hf hn
  have hends := exec_of_endsWork_noEnds (.itemError t rest v i done later ⟨hl, hm, ho, rfl⟩ hv hr hi hd hf) hn
  exact ⟨fun hroom => hends.trans (congrArg _ (takeDataError_of_room (s := ended) v hroom)),
    fun hfull => hends.trans (congrArg _ (takeDataError_of_full (s := ended) v hfull))⟩

/-! ## Responses to a walk's transaction (R94 to R104) -/

theorem State.walkFailed_of_ne {s : State} {i : SlotNumber} {w : Walk} {rest : List Transaction} {cause : FaultCause}
    (dirs : List DirEntry) (hc : cause ≠ .pageInvalid) :
    s.walkFailed i w rest cause dirs = { s.walkEnded i rest with dirCache := dirs } := by
  rw [State.walkFailed, if_neg fun h => hc h.2]
  rfl

/-- A walk that fails with one waiter, and no head waiting for a slot. -/
theorem exec_of_failedWalk_one {s : State} {t : Transaction} {rest : List Transaction} {status : ResponseStatus} {data : List Word}
    {i : SlotNumber} {w : Walk} {cause : FaultCause} {dirs : List DirEntry} {h : HeadId} (ha : s.Answers t rest status data)
    (ht : t.origin = .walk i) (hi : s.slot i = some w) (hab : w.abandoned = false) (hst : w.stale = false)
    (hf : s.FailsWalk t w status data cause dirs) (hn : s.NoEnds) (hw : w.waiters = [h]) (hq : s.slotWait = []) :
    exec (.response status data) s = .next (takeHeadFault cause h (s.walkFailed i w rest cause dirs)) := by
  refine exec_of_endsWork_noEnds (.failedWalk t rest status data i w cause dirs _ _ ha ht hi hab hst hf
    (hw ▸ .cons h [] _ _ (.nil _)) (.done _ (offered_of_empty ?_))) hn
  rw [takeHeadFault_slotWait]
  exact hq

/-- Settles O25: the walk goes on with the transaction it forms, or fails with TABLE_REGION at one that is refused. -/
theorem responseAdvancesWalk : Obligations.ResponseAdvancesWalk := by
  intro s t rest i w word frame page filled taken onward hl hm ho ht hop hi hab hst hvalid
  have ha : s.Answers t rest .ok [word] := ⟨hl, hm, ho, by rw [hop]; rfl⟩
  refine ⟨fun hstage => ⟨fun hk hs hadm => ?fill, fun hk hs hadm => ?flag, fun h href hn hw hq => ?refused⟩,
    fun hstage hrec href => ⟨fun hs hadm => ?update, fun h hadm hn hw hq => ?updateRefused⟩⟩
  case fill => exact exec_of_advancesWalk ha ht hi hab hst (.directory .page _ hstage hop hvalid (.inl ⟨hk, rfl, rfl⟩) hadm) hs
  case flag => exact exec_of_advancesWalk ha ht hi hab hst (.directory .update _ hstage hop hvalid (.inr ⟨hk, rfl, rfl⟩) hadm) hs
  case refused =>
    have hfails : s.FailsWalk t w .ok [word] .tableRegion filled := by
      rcases href with ⟨hk, hadm⟩ | ⟨hk, hadm⟩
      · exact .region word (.read 4) hstage hop hvalid (.inl ⟨hk, rfl⟩) hadm
      · exact .region word (.update true) hstage hop hvalid (.inr ⟨hk, rfl⟩) hadm
    rw [exec_of_failedWalk_one ha ht hi hab hst hfails hn hw hq, State.walkFailed_of_ne _ (by decide)]
  case update => exact exec_of_advancesWalk ha ht hi hab hst (.page hstage hop hvalid hrec href hadm) hs
  case updateRefused =>
    rw [exec_of_failedWalk_one ha ht hi hab hst (.flagRegion word hstage hop hvalid hrec href hadm) hn hw hq,
      State.walkFailed_of_ne _ (by decide)]
    rfl

/-- With every slot BUSY before, the slot that a walk leaves is the only FREE one (R91). -/
theorem State.slot_eq_none_iff_of_busy {s : State} (hbusy : ∀ j, s.slot j ≠ none) (i j : SlotNumber) :
    (s.setSlot i none).slot j = none ↔ j = i := by
  rw [State.slot_setSlot]
  split
  · next hij => exact ⟨fun _ => hij.symm, fun _ => rfl⟩
  · next hij => exact ⟨fun h => absurd h (hbusy j), fun h => absurd h.symm hij⟩

/-- The front head of the slot wait list takes the only FREE slot (R91). -/
theorem represents_of_freed {s x : State} {i j : SlotNumber} {k : HeadId} {waiting : List HeadId} {e : Entry} {q : List Entry}
    {v : Walk} {pages : List PageEntry} (hslot : ∀ j, x.slot j = (s.setSlot i none).slot j) (hbusy : ∀ j, s.slot j ≠ none)
    (hwait : x.slotWait = k :: waiting) (hq : State.queue { x with slotWait := waiting } k = e :: q) (hu : e.Unmarked)
    (hst : State.StartsWalk { x with slotWait := waiting } k e.request j v pages) :
    x.Represents (State.walkStarted { x with slotWait := waiting } k e q j v pages) := by
  have hfree (j : SlotNumber) : x.slot j = none ↔ j = i := by rw [hslot, State.slot_eq_none_iff_of_busy hbusy]
  have hj : j = i := by
    cases hst with
    | start k' pages stage op a frame ht hn hno hlow hf hadm hrun => exact (hfree j).1 hlow.1
  exact represents_start hwait ⟨i, (hfree i).2 rfl⟩ (fun l hl => ((hfree l).1 hl).trans hj.symm) hq hu hst

theorem State.SameTables.takeHeadFault (cause : FaultCause) (h : HeadId) (s : State) : s.SameTables (takeHeadFault cause h s) := by
  have hout := outside_takeHeadFault cause h s
  obtain ⟨hpages, hdirs⟩ := takeHeadFault_caches cause h s
  have hslots : (Machine.takeHeadFault cause h s).slots = s.slots := by
    obtain ⟨st, parked, log, n, irq, hf | hf⟩ := takeHeadFault_frame cause h s
    · rw [hf]
    · rw [hf]
      rfl
  exact ⟨State.outside_contexts hout, State.outside_regions hout, hpages, hdirs, hslots, State.outside_memState hout,
    fun k => State.outside_binding hout k.port⟩

/-- Settles O26: by the presentation of the waiters, and of the slot wait list in the freed slot. -/
theorem responseCompletesWalk : Obligations.ResponseCompletesWalk := by
  intro s t rest i w word entry filled waits hl hm ho ht hi hab hst hn hc
  have ha : s.Answers t rest .ok [word] := ⟨hl, hm, ho, shapeFits_of_completesWalk hc⟩
  have hexec : ∀ u v, PresentsInTurn filled w.waiters u → u.Represents v → exec (.response .ok [word]) s = .next v :=
    fun u v hu hv => exec_of_endsWork_noEnds (.completedWalk t rest word i w entry u v ha ht hi hab hst hc hu hv) hn
  have hlookup (x : State) (hx : x.pageCache = s.filledPages entry) :
      x.pageLookup w.context w.page = some entry ∧ x.pageFront entry = x.pageCache := by
    obtain ⟨hfront, hfind⟩ := pageFront_filledPages hx
    rw [hc.context, hc.page] at hfind
    exact ⟨hfind, hfront.trans hx.symm⟩
  refine ⟨hexec, fun h e q a hw hwaits hready => ?ready, fun h₁ h₂ e₁ e₂ q₁ q₂ cause₁ cause₂ hw hne hq hw₁ hw₂ hf₁ hf₂ => ?faults⟩
  case ready =>
    obtain ⟨hqueue, hu, hbound, hpage, htr⟩ := hwaits
    intro ready
    have hpresents : filled.Presents h (ready s.slotWait) := by
      have hp := State.Presents.ready (s := filled) (h := h) e q entry a hqueue hu ⟨htr.active, htr.limit⟩
        (by rw [show filled.boundContext h = w.context from hbound, hpage]; exact (hlookup filled rfl).1)
        (by rw [show filled.boundContext h = w.context from hbound]; exact ⟨hready.address, hready.permits, hready.region, hready.known⟩)
      rw [(hlookup filled rfl).2] at hp
      exact hp
    have hturn : PresentsInTurn filled w.waiters (ready s.slotWait) := hw ▸ .cons h [] _ _ _ hpresents (.nil _)
    refine ⟨fun hq => ?_, fun k waiting e' q' j v pages hq hbusy hk hu' hstart => ?_⟩
    · rw [hexec _ _ hturn (.done _ (offered_of_empty hq)), hq]
    · exact hexec _ _ hturn (represents_of_freed (s := s) (i := i) (fun _ => rfl) hbusy hq hk hu' hstart)
  case faults =>
    obtain ⟨hqueue₁, hu₁, hbound₁, hpage₁, htr₁⟩ := hw₁
    obtain ⟨hqueue₂, hu₂, hbound₂, hpage₂, htr₂⟩ := hw₂
    have hrefuse (x : State) (H : filled.SameTables x) (h : HeadId) (e : Entry) (q : List Entry) (cause : FaultCause)
        (hqueue : x.queue h = e :: q) (hu : e.Unmarked) (hbound : s.boundContext h = w.context)
        (hpage : clientPage e.request.address = w.page) (htr : s.Translated h e.request)
        (hf : s.HitFault w.context e.request entry cause) : x.Presents h (takeHeadFault cause h x) := by
      have hb : x.boundContext h = w.context := (H.bound h).trans hbound
      obtain ⟨hfind, hfront⟩ := hlookup x H.pageCache
      have hp := State.Presents.refused (s := x) (h := h) e q cause _ _ hqueue hu
        (.hit entry cause (H.translated (s := filled) ⟨htr.active, htr.limit⟩) (by rw [hb, hpage]; exact hfind)
          (by rw [hb]; exact H.hitFault (s := filled) hf))
      rw [hfront] at hp
      exact hp
    have hfirst := hrefuse filled ⟨rfl, rfl, rfl, rfl, rfl, rfl, fun _ => rfl⟩ h₁ e₁ q₁ cause₁ hqueue₁ hu₁ hbound₁ hpage₁ htr₁ hf₁
    have hsecond := hrefuse (takeHeadFault cause₁ h₁ filled) (State.SameTables.takeHeadFault cause₁ h₁ filled) h₂ e₂ q₂ cause₂
      ((takeHeadFault_queue cause₁ filled hne).trans hqueue₂) hu₂ hbound₂ hpage₂ htr₂ hf₂
    refine ⟨_, hexec _ _ (hw ▸ .cons h₁ _ _ _ _ hfirst (.cons h₂ [] _ _ _ hsecond (.nil _))) (.done _ (offered_of_empty ?_)), rfl,
      (takeHeadFault_two (x := filled) cause₁ cause₂ hne hqueue₁ hqueue₂).1⟩
    rw [takeHeadFault_slotWait, takeHeadFault_slotWait]
    exact hq

/-- Settles O27: by the faults of the waiters, and of the slot wait list in the freed slot. -/
theorem responseFailsWalk : Obligations.ResponseFailsWalk := by
  intro s t rest i w status data cause dirs failed hl hm ho ht hi hab hst hn hf
  have ha : s.Answers t rest status data := ⟨hl, hm, ho, shapeFits_of_failsWalk hf⟩
  have hexec : ∀ u v, FaultsInTurn cause failed w.waiters u → u.Represents v → exec (.response status data) s = .next v :=
    fun u v hu hv => exec_of_endsWork_noEnds (.failedWalk t rest status data i w cause dirs u v ha ht hi hab hst hf hu hv) hn
  refine ⟨hexec, fun h hw => ?one, fun h₁ h₂ e₁ e₂ q₁ q₂ hw hne hq hq₁ hq₂ => ?two⟩
  case one =>
    intro faulted
    refine ⟨exec_of_failedWalk_one ha ht hi hab hst hf hn hw, fun k waiting e q j v pages hq hbusy hk hu hstart => ?_⟩
    have hwait : (takeHeadFault cause h failed).slotWait = k :: waiting := (takeHeadFault_slotWait cause h failed).trans hq
    exact hexec _ _ (hw ▸ .cons h [] _ _ (.nil _))
      (represents_of_freed (s := s) (i := i) (fun j => State.slot_takeHeadFault cause h failed j) hbusy hwait hk hu hstart)
  case two =>
    obtain ⟨htwo, hlast⟩ := takeHeadFault_two (x := failed) cause cause hne hq₁ hq₂
    refine ⟨_, hexec _ _ (hw ▸ .cons h₁ _ _ _ (.cons h₂ [] _ _ (.nil _))) (.done _ (offered_of_empty ?_)), rfl, htwo, hlast⟩
    rw [takeHeadFault_slotWait, takeHeadFault_slotWait]
    exact hq

/-! ## What waits for the end of work (R25, R149, R151 to R153) -/

theorem State.DrainWait.of_fields {s t : State} {d : ContextNumber} {waiting : List Command} (hs : s.DrainWait d waiting)
    (hx : t.contexts = s.contexts) (hc : t.commands = s.commands) : t.DrainWait d waiting := by
  have hcontext (c : ContextNumber) : t.context c = s.context c := by rw [State.context, State.context, hx]
  exact ⟨by rw [hcontext]; exact hs.draining, fun c hcd => by rw [hcontext]; exact hs.alone c hcd, by rw [hc]; exact hs.head,
    hs.behind⟩

theorem State.SyncWait.of_fields {s t : State} {operand : Word} {waiting : List Command} (hs : s.SyncWait operand waiting)
    (hx : t.contexts = s.contexts) (hc : t.commands = s.commands) : t.SyncWait operand waiting := by
  have hcontext (c : ContextNumber) : t.context c = s.context c := by rw [State.context, State.context, hx]
  exact ⟨fun c => by rw [hcontext]; exact hs.draining c, by rw [hc]; exact hs.head, hs.behind⟩

/-- Settles O31: the event's own effects, then the test of the watch set. -/
theorem syncEnds : Obligations.SyncEnds := by
  intro s operand waiting c u hs hends
  obtain ⟨hx, hc, hn⟩ := endsWork_keeps hends
  obtain ⟨hdone, hwaits⟩ := settle_of_syncWait (hs.of_fields hx hc)
  rw [exec_of_endsWork hends]
  exact ⟨fun hno => by rw [hdone hno, hn], fun hno => by rw [hwaits hno]⟩

/-- Settles O39: the event's own effects, then the test of the drain. -/
theorem drainEnds : Obligations.DrainEnds := by
  intro s d waiting c u hs hends
  obtain ⟨hx, hc, hn⟩ := endsWork_keeps hends
  obtain ⟨hdone, hwaits⟩ := settle_of_drainWait (hs.of_fields hx hc)
  have hcontext : u.context d = s.context d := by rw [State.context, State.context, hx]
  rw [exec_of_endsWork hends]
  exact ⟨fun hleft => by rw [hdone hleft, hn, hcontext], fun hleft => by rw [hwaits hleft]⟩

/-! ## Responses that are discarded (R81, R101 to R104) -/

theorem State.dirFront_of_none {s : State} {c : ContextNumber} {i : BitVec 10} (h : s.dirLookup c i = none) :
    s.dirFront c i = s.dirCache := by
  rw [State.dirFront, h]

theorem State.dirFront_of_some {s : State} {c : ContextNumber} {i : BitVec 10} {d : DirEntry} (h : s.dirLookup c i = some d) :
    s.dirFront c i = d :: s.dirCache.filter fun x => !(x.context == d.context && x.index == d.index) := by
  rw [State.dirFront, h]

/-- Settles O28: an abandoned walk ends, with the test of the drain; a stale one restarts. -/
theorem responseDiscardedByWalk : Obligations.ResponseDiscardedByWalk := by
  intro s t rest i w status data taken restarted directory ended ha ht hi
  refine ⟨fun waiting hab hd hq => ?abandoned, fun hab hst => ⟨fun hs => ⟨fun hmiss hreg => ?miss, fun d hhit => ?hit⟩, fun hn => ?restarts⟩⟩
  case abandoned =>
    have hends : s.EndsWork (.response status data) ended :=
      .abandonedWalk t rest status data i w ended ha ht hi hab (.done _ (offered_of_empty hq))
    obtain ⟨hdone, hwaits⟩ := drainEnds s w.context waiting _ ended hd hends
    exact ⟨hwaits, hdone⟩
  case miss =>
    rw [exec_of_restarted ha ht hi hab hst (.miss hmiss) hreg hs, State.walkRestarted,
      State.dirFront_of_none (s := s.responseTaken rest) hmiss]
    rfl
  case hit =>
    refine ⟨fun hk hadm => ?_, fun hk hadm => ?_⟩
    · rw [exec_of_restarted ha ht hi hab hst (.fill d hhit hk) hadm hs, State.walkRestarted,
        State.dirFront_of_some (s := s.responseTaken rest) hhit]
      rfl
    · rw [exec_of_restarted ha ht hi hab hst (.flag d hhit hk) hadm hs, State.walkRestarted,
        State.dirFront_of_some (s := s.responseTaken rest) hhit]
      rfl
  case restarts =>
    obtain ⟨v, hv⟩ := restarts_total (s.responseTaken rest) i w
    exact ⟨v, hv, exec_of_endsWork_noEnds (.restartedWalk t rest status data i w v ha ht hi hab hst hv) hn⟩

end Sys2Proof.Machine
end

section
/-! PROOFS of the family "parked heads" (R129 to R136): TERMINATE and RESUME of a PARKED head. -/

namespace Sys2Proof.Machine

/-! ## The rows (R134, R136, R144, R145) -/

theorem withHead_of_operandHead {w : Word} {h : HeadId} (hn : operandHead w h) (f : HeadId → CommandOp) :
    withHead w f = .ok (f h) := by
  obtain ⟨hp, hc⟩ := (operandHead_iff w h).1 hn
  rw [withHead, hp, hc]

theorem takeCheck_resume {s : State} {w : Word} {h : HeadId} (hn : operandHead w h) (hp : s.ParkedHead h) :
    takeCheck s 0x18#8 w = .ok (.resume h) :=
  takeCheck_eq_ok_iff.2 ⟨withHead_of_operandHead hn .resume, if_pos ((s.headParked_iff h).2 hp)⟩

theorem takeCheck_terminate {s : State} {w : Word} {h : HeadId} (hn : operandHead w h) (hp : s.ParkedHead h) :
    takeCheck s 0x19#8 w = .ok (.terminate h) :=
  takeCheck_eq_ok_iff.2 ⟨withHead_of_operandHead hn .terminate, if_pos ((s.headParked_iff h).2 hp)⟩

theorem terminateHead_unitBlind (h : HeadId) : UnitBlind (terminateHead h) := fun _ _ _ _ _ => rfl

/-- The part after the command of a RESUME or TERMINATE, with the parked place of its head empty (R134, R136). -/
def State.woken (s : State) (w : Word) (h : HeadId) : State := (s.afterCommand w).setParked h none

section
variable {s : State} {w : Word} {h : HeadId} {e : Entry} {q : List Entry} (hn : operandHead w h) (hr : s.ready = true)
  (hc : s.commands = []) (hq : s.queue h = e :: q) (hp : e.state = .parked)
include hn hr hc hq hp

theorem exec_terminate : exec (.terminate w) s =
    .next ((s.woken w h).setQueue h ({ e with state := .finishing .faulted } :: q)) := by
  rw [exec_row_of_passes (i := .terminate w) (operand := some w) rfl hr hc (takeCheck_terminate hn ⟨e, q, hq, hp⟩)]
  have hhead := State.setHeadState_of_queue (s := s.woken w h) (.finishing .faulted) hq
  exact congrArg Host.Outcome.next ((complete_withTaken (terminateHead_unitBlind h) hc 0x19#8 w).trans hhead)

/-- A RESUME presents its head again, with its place empty (R134). -/
theorem exec_resume_of_presents (ho : s.Offered) {u : State} (hu : (s.woken w h).Presents h u) : exec (.resume w) s = .next u := by
  rw [exec_row_of_passes (i := .resume w) (operand := some w) rfl hr hc (takeCheck_resume hn ⟨e, q, hq, hp⟩)]
  have hpresent : presentHead h (s.woken w h) = u := by
    rw [presentHead_eq_present (s := s.woken w h) h ho, present_of_presents hu]
  exact congrArg Host.Outcome.next ((complete_withTaken (resumeHead_unitBlind h) hc 0x18#8 w).trans hpresent)

end

theorem State.sameTables_woken (s : State) (w : Word) (h : HeadId) : s.SameTables (s.woken w h) :=
  ⟨rfl, rfl, rfl, rfl, rfl, rfl, fun _ => rfl⟩

/-! ## The record of a head fault by the policy (R122, R129) -/

theorem State.headRecord_of_stall {s : State} {h : HeadId} (hp : (s.context (s.boundContext h)).policy = .stall) (r : Request)
    (n : BitVec 16) (cause : FaultCause) :
    s.headRecord h r n cause =
      { sequence := n, port := h.port, cls := h.cls, tag := r.tag, kind := r.kind, context := s.boundContext h
        address := r.address, cause := cause, outcome := .parked } := by
  rw [State.headRecord, hp]

theorem State.headRecord_of_abort {s : State} {h : HeadId} (hp : (s.context (s.boundContext h)).policy = .abort) (r : Request)
    (n : BitVec 16) (cause : FaultCause) :
    s.headRecord h r n cause =
      { sequence := n, port := h.port, cls := h.cls, tag := r.tag, kind := r.kind, context := s.boundContext h
        address := r.address, cause := cause, outcome := .aborted } := by
  rw [State.headRecord, hp]

/-- Settles O38: the place is emptied; a terminated head is FINISHING, a resumed one is presented, with the outcome `Presents` names. -/
theorem terminateAndResume : Obligations.TerminateAndResume := by
  intro s w h e q hn hr hc hq hp woken put
  have hresume (ho : s.Offered) {u : State} (hu : woken.Presents h u) : exec (.resume w) s = .next u :=
    exec_resume_of_presents hn hr hc hq hp ho hu
  have hsame : s.SameTables woken := s.sameTables_woken w h
  refine ⟨exec_terminate hn hr hc hq hp, fun ho u hu => hresume ho hu, fun ho hu => ⟨fun entry a ht he ha => ?ready,
    fun i v pages hstart => ?starts, fun k pages ht hneed => ⟨fun i v hwalk => ?joins, fun hno hbusy => ?waits⟩,
    fun cause pages dirs href => ?refused⟩⟩
  case ready =>
    rw [hresume ho (.ready e q entry a hq hu (hsame.translated ht) ((hsame.pageLookup _ _).trans he) (hsame.hitReady ha)), hsame.pageFront]
  case starts =>
    rw [hresume ho (.starts e q i v pages hq hu (hsame.startsWalk hstart)), State.walkStarted, hsame.dirFront]
    rfl
  case joins => exact hresume ho (.joins e q k pages i v hq hu (hsame.translated ht) (hsame.needsWalk hneed) (hsame.walkOf hwalk))
  case waits =>
    exact hresume ho (.waits e q k pages hq hu (hsame.translated ht) (hsame.needsWalk hneed) (hsame.noWalk hno) (hsame.allBusy hbusy))
  case refused =>
    intro refused
    have hexec := hresume ho (.refused e q cause pages dirs hq hu (hsame.refusesHead href))
    refine ⟨fun hroom hpolicy => ?_, fun hroom hpolicy => ?_, fun hfull => ?_⟩
    · rw [hexec, takeHeadFault_of_stall (s := refused) cause hq hroom hpolicy, State.headRecord_of_stall hpolicy]
      rfl
    · rw [hexec, takeHeadFault_of_abort (s := refused) cause hq hroom hpolicy, State.headRecord_of_abort hpolicy]
      rfl
    · rw [hexec, (takeHeadFault_log (x := refused) cause hq).2 hfull]
      rfl

end Sys2Proof.Machine
end

section
/-! PROOFS of the family `other`: an invalidation by its three steps (R79, R80, R101). -/

namespace Sys2Proof.Machine

/-! ## Which state a row of an invalidation leaves -/

section
variable {s : State} {c : Instr} {operand : Option Word} {pages : ContextNumber → PageNumber → Bool}
  {dirs : ContextNumber → BitVec 10 → Bool} (hcov : InvalidationCovers c operand pages dirs) (hr : s.ready = true) (hc : s.commands = [])
include hcov hr hc

/-- The row of an invalidation by its scope, and by the state that its three steps name. -/
theorem exec_invalidation : ∃ sc : Scope, (∀ d p, sc.covers d p = pages d p) ∧ (∀ d i, sc.coversDir d i = dirs d i) ∧
    exec c s = .next (representReady sc (markScope sc (s.scopeRemoved operand pages dirs))) ∧
    (s.scopeRemoved operand pages dirs).Invalidates pages (representReady sc (markScope sc (s.scopeRemoved operand pages dirs))) := by
  obtain ⟨sc, hpages, hdirs, hexec⟩ := exec_of_covers hcov hr hc
  have hinv := invalidates_invalidate hpages (s.afterCommand (operand.getD s.operandWord))
  rw [invalidate, scopeRemoved_eq hpages hdirs] at hinv
  rw [invalidate, scopeRemoved_eq hpages hdirs] at hexec
  exact ⟨sc, hpages, hdirs, hexec, hinv⟩

theorem exec_of_invalidates {t : State} (ht : (s.scopeRemoved operand pages dirs).Invalidates pages t) : exec c s = .next t := by
  obtain ⟨sc, -, -, hexec, hinv⟩ := exec_invalidation hcov hr hc
  rw [hexec, Invalidates.unique hinv ht]

end

/-! ## Invalidations that present no head, or one -/

section
variable {s t : State} {pages : ContextNumber → PageNumber → Bool} {l : List SlotNumber}

theorem invalidates_of_no_ready (hl : s.WalksOf pages l) (hm : MarksInTurn s l t) (hn : ∀ h, ¬ t.ReadyIn pages h) (ho : t.Offered) :
    s.Invalidates pages t :=
  .steps l [] t t t hl hm ⟨.nil, fun h => iff_of_false List.not_mem_nil (hn h)⟩ (.nil t) (.done t ho)

theorem invalidates_of_one_ready (hl : s.WalksOf pages l) (hm : MarksInTurn s l t) {h : HeadId} (hh : t.ReadyIn pages h)
    (hone : ∀ k, t.ReadyIn pages k → k = h) (ho : t.Offered) {u : State} (hu : t.Presents h u) : s.Invalidates pages u := by
  have hready : t.ReadyOf pages [h] := ⟨List.pairwise_singleton _ _, fun k => by
    rw [List.mem_singleton]
    exact ⟨fun hk => hk ▸ hh, hone k⟩⟩
  have hoff : u.Offered := presents_iff.1 hu ▸ present_offered h ho
  exact .steps l [h] t u u hl hm hready (.cons h [] t u u hu (.nil u)) (.done u hoff)

end

/-! ## Walks of the scope whose transactions are outstanding -/

/-- The part with the stale mark on every walk of the scope (R80 step 2). -/
def State.scopeMarked (s : State) (pages : ContextNumber → PageNumber → Bool) : State :=
  { s with slots := s.slots.map fun slot => slot.map (staleIn pages) }

theorem State.slot_scopeMarked (s : State) (pages : ContextNumber → PageNumber → Bool) (i : SlotNumber) :
    (s.scopeMarked pages).slot i = (s.slot i).map (staleIn pages) := by
  simp [State.slot, State.scopeMarked]

theorem State.offered_scopeMarked {s : State} (pages : ContextNumber → PageNumber → Bool) (ho : s.Offered) : (s.scopeMarked pages).Offered := by
  intro hfree
  refine ho fun hnone => hfree ?_
  rw [State.freeSlot?_none] at hnone ⊢
  intro i hi
  rw [State.slot_scopeMarked, Option.map_eq_none_iff] at hi
  exact hnone i hi

/-- Where every walk of the scope is outstanding, step 2 marks each and changes nothing else (R101). -/
theorem marksInTurn_scopeMarked {s : State} {sc : Scope} {pages : ContextNumber → PageNumber → Bool} (hp : ∀ d p, sc.covers d p = pages d p)
    (hout : ∀ i v, s.slot i = some v → v.abandoned = false → pages v.context v.page = true → v.awaiting = false) :
    MarksInTurn s (allSlots.filter fun i => walkInScope sc (s.slot i)) (s.scopeMarked pages) := by
  have hscope := (walksOf_filter hp s).all
  obtain ⟨slots, hmark, hslots⟩ := markStale_foldl_outstanding (l := allSlots.filter fun i => walkInScope sc (s.slot i)) (s := s)
    (List.Nodup.filter _ (by decide)) (fun i hi => by
      obtain ⟨w, hw, ha, hcov⟩ := (hscope i).1 hi
      exact ⟨w, hw, hout i w hw ha hcov⟩)
  have hmarked : markScope sc s = s.scopeMarked pages := by
    rw [markScope, hmark, State.scopeMarked]
    congr 1
    refine Vector.ext fun n hn => ?_
    have hthis := hslots ⟨n, hn⟩
    have hslot : s.slots[n] = s.slot ⟨n, hn⟩ := rfl
    rw [Vector.getElem_map, hslot]
    refine hthis.trans ?_
    cases hw : s.slot ⟨n, hn⟩ with
    | none => simp
    | some w =>
      by_cases hin : w.abandoned = false ∧ pages w.context w.page = true
      · rw [if_pos ((hscope _).2 ⟨w, hw, hin⟩)]
        simp [staleIn, hin]
      · rw [if_neg fun hmem => ?_]
        · simp [staleIn, hin]
        · obtain ⟨v, hv, hv'⟩ := (hscope _).1 hmem
          cases hw.symm.trans hv
          exact hin hv'
  exact hmarked ▸ marksInTurn_markScope s

/-- A page of the scope is not found in the page cache after step 1 (R79). -/
theorem State.pageLookup_scopeRemoved (s : State) (operand : Option Word) {pages : ContextNumber → PageNumber → Bool}
    (dirs : ContextNumber → BitVec 10 → Bool) {c : ContextNumber} {p : PageNumber} (h : pages c p = true) :
    (s.scopeRemoved operand pages dirs).pageLookup c p = none := by
  refine List.find?_eq_none.2 fun e he hkey => ?_
  have hout := (List.mem_filter.1 he).2
  obtain ⟨rfl, rfl⟩ : e.context = c ∧ e.page = p := by simpa [PageEntry.hasKey] using hkey
  simp [h] at hout

/-- Settles O41: each case names the state that the three steps reach. -/
theorem invalidationsQuiet : Obligations.InvalidationsQuiet := by
  intro s c operand pages dirs removed marked outstanding hcov hr hc ho
  have hexec {t : State} (ht : removed.Invalidates pages t) : exec c s = .next t := exec_of_invalidates hcov hr hc ht
  obtain ⟨sc, hpages, -, -, -⟩ := exec_invalidation hcov hr hc
  have hwalks : removed.WalksOf pages (allSlots.filter fun i => walkInScope sc (removed.slot i)) := walksOf_filter hpages removed
  have hmarks (hout : outstanding) : MarksInTurn removed (allSlots.filter fun i => walkInScope sc (removed.slot i)) marked :=
    marksInTurn_scopeMarked (s := removed) hpages hout
  have hoffered : marked.Offered := State.offered_scopeMarked (s := removed) pages ho
  refine ⟨fun hn => ⟨fun hnone => ?nothing, fun hout => ?outstanding, fun i w hi ha hin haw honly stage op a frame hf hadm hm => ?awaiting⟩,
    fun hout h hh hone => ⟨?one, fun e q i w hq hu ht hw => ?joins⟩⟩
  case nothing =>
    have hnil : removed.WalksOf pages [] := ⟨.nil, fun i => iff_of_false List.not_mem_nil fun ⟨w, hw, ha, hin⟩ => by
      rw [hnone i w hw ha] at hin
      cases hin⟩
    exact hexec (invalidates_of_no_ready hnil (.nil removed) hn ho)
  case outstanding => exact hexec (invalidates_of_no_ready hwalks (hmarks hout) hn hoffered)
  case awaiting =>
    have hone : removed.WalksOf pages [i] := ⟨List.pairwise_singleton _ _, fun j => by
      rw [List.mem_singleton]
      refine ⟨fun hj => hj ▸ ⟨w, hi, ha, hin⟩, fun ⟨v, hv, hva, hvin⟩ => honly j v hv hva hvin⟩⟩
    refine hexec (invalidates_of_no_ready hone (.awaiting i [] removed _ _ w hi haw (.goes stage op a frame hf hadm hm) (.nil _)) hn ?_)
    intro hfree
    refine ho fun hnone => hfree ?_
    rw [State.freeSlot?_none] at hnone ⊢
    intro j hj
    have hj' : (removed.setSlot i (some _)).slot j = none := hj
    rw [State.slot_setSlot] at hj'
    split at hj'
    · cases hj'
    · exact hnone j hj'
  case one =>
    obtain ⟨u, hu⟩ := presents_total marked h
    exact ⟨u, hu, hexec (invalidates_of_one_ready hwalks (hmarks hout) hh hone hoffered hu)⟩
  case joins =>
    have hscope : pages (s.boundContext h) (clientPage e.request.address) = true := by
      obtain ⟨e', q', a, hq', -, hin⟩ := hh
      cases hq.symm.trans hq'
      exact hin
    have hmiss : marked.pageLookup (s.boundContext h) (clientPage e.request.address) = none :=
      s.pageLookup_scopeRemoved operand dirs hscope
    exact hexec (invalidates_of_one_ready hwalks (hmarks hout) hh hone hoffered
      (.joins (s := marked) e q .fill marked.pageCache i w hq hu ⟨ht.active, ht.limit⟩ (.miss hmiss) hw))

end Sys2Proof.Machine
end

section
/-! PROOFS of the family `other`: what an invalidation leaves in the caches, at the heads and in the walk slots (R79, R80, R101). -/

namespace Sys2Proof.Machine

/-! ## Translation work puts nothing into the caches -/

/-- Every entry of the caches has a property of its own. -/
structure State.CachesWithin (F : PageEntry → Prop) (G : DirEntry → Prop) (s : State) : Prop where
  pages : ∀ e ∈ s.pageCache, F e
  dirs  : ∀ d ∈ s.dirCache, G d

theorem State.CachesWithin.of_subset {F : PageEntry → Prop} {G : DirEntry → Prop} {s t : State} (hs : s.CachesWithin F G)
    (hp : t.pageCache ⊆ s.pageCache) (hd : t.dirCache ⊆ s.dirCache) : t.CachesWithin F G where
  pages e he := hs.pages e (hp he)
  dirs d hd' := hs.dirs d (hd hd')

/-- Only the response to a walk fills a cache (R76, R77). -/
theorem keptBase_cachesWithin (F : PageEntry → Prop) (G : DirEntry → Prop) : KeptBase (State.CachesWithin F G) where
  head _ _ hs := hs.of_subset (List.Subset.refl _) (List.Subset.refl _)
  fault {s} cause h hs := by
    obtain ⟨hp, hd⟩ := takeHeadFault_caches cause h s
    exact hs.of_subset (fun _ he => hp ▸ he) fun _ he => hd ▸ he
  touchPage he hs := hs.of_subset (List.cons_subset.2 ⟨he, List.filter_sublist.subset⟩) (List.Subset.refl _)
  touchDir he hs := hs.of_subset (List.Subset.refl _) (List.cons_subset.2 ⟨he, List.filter_sublist.subset⟩)
  wait _ _ hs := hs.of_subset (List.Subset.refl _) (List.Subset.refl _)
  start _ _ _ _ _ _ _ _ _ _ hs := hs.of_subset (List.Subset.refl _) (List.Subset.refl _)
  join _ _ _ _ _ hs := hs.of_subset (List.Subset.refl _) (List.Subset.refl _)
  popWait _ hs := hs.of_subset (List.Subset.refl _) (List.Subset.refl _)
  release _ hs := hs.of_subset (List.Subset.refl _) (List.Subset.refl _)
  removePage _ _ hs := hs.of_subset List.filter_sublist.subset (List.Subset.refl _)
  removeScope _ hs := hs.of_subset List.filter_sublist.subset List.filter_sublist.subset
  rewalk _ _ _ _ _ _ _ _ hs := hs.of_subset (List.Subset.refl _) (List.Subset.refl _)

/-- No entry of the scope is left in the caches (R79). -/
abbrev State.OutOfScope (pages : ContextNumber → PageNumber → Bool) (dirs : ContextNumber → BitVec 10 → Bool) : State → Prop :=
  State.CachesWithin (fun e => pages e.context e.page = false) fun d => dirs d.context d.index = false

theorem State.outOfScope_scopeRemoved (s : State) (operand : Option Word) (pages : ContextNumber → PageNumber → Bool)
    (dirs : ContextNumber → BitVec 10 → Bool) : (s.scopeRemoved operand pages dirs).OutOfScope pages dirs where
  pages e he := by simpa using (List.mem_filter.1 he).2
  dirs d hd := by simpa using (List.mem_filter.1 hd).2

/-! ## No head of the scope becomes READY -/

/-- A faulted head is PARKED or FINISHING (R129, R130). -/
theorem takeHeadFault_head (cause : FaultCause) {s : State} {h : HeadId} {e : Entry} {q : List Entry} (hq : s.queue h = e :: q) :
    (takeHeadFault cause h s).queue h = { e with state := .parked } :: q ∨
      (takeHeadFault cause h s).queue h = { e with state := .finishing .faulted } :: q := by
  rcases Nat.lt_or_ge s.faultLog.length 16 with hroom | hfull
  · cases hp : (s.context (s.boundContext h)).policy with
    | stall =>
      rw [takeHeadFault_of_stall cause hq hroom hp]
      exact .inl (State.queue_setQueue_self _ _ _)
    | abort =>
      rw [takeHeadFault_of_abort cause hq hroom hp]
      exact .inr (State.queue_setQueue_self _ _ _)
  · rw [(takeHeadFault_log cause hq).2 hfull]
    exact .inr (State.queue_setQueue_self _ _ _)

section
variable {pages : ContextNumber → PageNumber → Bool} {dirs : ContextNumber → BitVec 10 → Bool} {s u : State}

theorem State.not_readyIn_of_queue {h : HeadId} {e : Entry} {q : List Entry} (hq : u.queue h = e :: q) (he : ∀ a, e.state ≠ .ready a) :
    ¬ u.ReadyIn pages h := by
  rintro ⟨e', q', a, hq', ha, -⟩
  cases hq.symm.trans hq'
  exact he a ha

/-- With no page of the scope in the page cache, a presented head of the scope is not READY (R48, R70). -/
theorem State.Presents.not_readyIn {h : HeadId} (hs : s.OutOfScope pages dirs) (hp : s.Presents h u) : ¬ u.ReadyIn pages h := by
  have hset (t : State) (e : Entry) (q : List Entry) (he : ∀ a, e.state ≠ .ready a) : ¬ (t.setQueue h (e :: q)).ReadyIn pages h :=
    State.not_readyIn_of_queue (State.queue_setQueue_self h _ t) he
  cases hp with
  | empty hq =>
    rintro ⟨e, q, a, hq', -⟩
    cases hq.symm.trans hq'
  | malformed e q => exact hset _ _ _ nofun
  | marked e q => exact hset _ _ _ nofun
  | noContext e q => exact hset _ _ _ nofun
  | refused e q cause pcache dcache hq =>
    rcases takeHeadFault_head cause (s := { s with pageCache := pcache, dirCache := dcache }) hq with hf | hf
    · exact State.not_readyIn_of_queue hf nofun
    · exact State.not_readyIn_of_queue hf nofun
  | ready e q x a hq hu ht hx =>
    rintro ⟨e', q', a', hq', -, hin⟩
    obtain ⟨hmem, hxc, hxp⟩ := State.pageLookup_mem hx
    cases (State.queue_setQueue_self h _ s).symm.trans hq'
    have hb : (s.setQueue h ({ e with state := .ready a } :: q)).boundContext h = s.boundContext h :=
      (State.SameTables.setQueue s h _ s.emitted).bound h
    have hout := hs.pages x hmem
    rw [hxc, hxp, ← hb] at hout
    exact Bool.false_ne_true (hout.symm.trans hin)
  | joins e q k pcache i w => exact hset (s.setSlot i _) _ _ nofun
  | starts e q i w => exact hset (s.setSlot i _) _ _ nofun
  | waits e q => exact hset _ _ _ nofun

/-- So a head of the scope that is READY after a presentation is another one, READY before. -/
theorem State.Presents.readyIn {h k : HeadId} (hs : s.OutOfScope pages dirs) (hp : s.Presents h u) (hk : u.ReadyIn pages k) :
    k ≠ h ∧ s.ReadyIn pages k := by
  have hne : k ≠ h := by
    rintro rfl
    exact hp.not_readyIn hs hk
  obtain ⟨e, q, a, hq, ha, hin⟩ := hk
  rw [presents_iff.1 hp] at hq hin
  rw [present_queue s (Ne.symm hne)] at hq
  have hb : (present h s).boundContext k = s.boundContext k := State.outside_binding (present_outside h s) _
  exact ⟨hne, e, q, a, hq, ha, hb ▸ hin⟩

theorem PresentsInTurn.readyIn {hs : List HeadId} {k : HeadId} (ho : s.OutOfScope pages dirs) (hp : PresentsInTurn s hs u)
    (hk : u.ReadyIn pages k) : k ∉ hs ∧ s.ReadyIn pages k := by
  induction hp with
  | nil s => exact ⟨List.not_mem_nil, hk⟩
  | cons h hs s t u hpres _ ih =>
    have ht : t.OutOfScope pages dirs := presents_iff.1 hpres ▸ (keptBase_cachesWithin _ _).present h ho
    obtain ⟨hnot, hready⟩ := ih ht hk
    obtain ⟨hne, hold⟩ := hpres.readyIn ho hready
    exact ⟨fun hmem => (List.mem_cons.1 hmem).elim hne hnot, hold⟩

theorem State.Represents.readyIn {k : HeadId} (ho : s.OutOfScope pages dirs) (hr : s.Represents u) (hk : u.ReadyIn pages k) :
    s.ReadyIn pages k := by
  induction hr with
  | done => exact hk
  | turn s t u h waiting _ _ hpres _ ih =>
    have hpop : State.OutOfScope pages dirs { s with slotWait := waiting } := ho.of_subset (List.Subset.refl _) (List.Subset.refl _)
    have ht : t.OutOfScope pages dirs := presents_iff.1 hpres ▸ (keptBase_cachesWithin _ _).present h hpop
    exact (hpres.readyIn hpop (ih ht hk)).2

end

/-! ## Walks after translation work -/

/-- A walk started afresh: its transaction awaits a grant, and what it holds of its path is what the directory cache gives its key now (R93). -/
structure Walk.Fresh (s : State) (w : Walk) : Prop where
  awaiting  : w.awaiting = true
  entryWord : w.entryWord = none
  path      : w.tableFrame = none ∧ w.stage = .directory ∨
    ∃ d, s.dirLookup w.context (directoryIndex w.page) = some d ∧ w.tableFrame = some d.tableFrame

/-- Translation work leaves every lookup of the directory cache as it was, and every walk but for its waiters, or fresh. -/
structure State.Renews (s u : State) : Prop where
  lookup : ∀ c i, u.dirLookup c i = s.dirLookup c i
  walks  : ∀ j v, u.slot j = some v → v.Fresh s ∨ ∃ w, s.slot j = some w ∧ v = { w with waiters := v.waiters }

theorem Walk.Fresh.of_lookup {s t : State} {w : Walk} (h : w.Fresh s) (hl : ∀ c i, t.dirLookup c i = s.dirLookup c i) : w.Fresh t where
  awaiting := h.awaiting
  entryWord := h.entryWord
  path := h.path.imp_right fun ⟨d, hd, hf⟩ => ⟨d, (hl _ _).trans hd, hf⟩

/-- A hit moved to the front is still what its key finds, and no other key's entry is lost (R67). -/
theorem State.dirLookup_of_dirFront {s t : State} {c : ContextNumber} {i : BitVec 10} (ht : t.dirCache = s.dirFront c i) (c' : ContextNumber)
    (i' : BitVec 10) : t.dirLookup c' i' = s.dirLookup c' i' := by
  unfold State.dirLookup
  rw [ht]
  cases hd : s.dirLookup c i with
  | none => rw [State.dirFront_of_none hd]
  | some d =>
    obtain ⟨-, hc, hi⟩ := State.dirLookup_mem hd
    rw [State.dirFront_of_some hd, List.find?_cons]
    by_cases hkey : DirEntry.hasKey c' i' d = true
    · obtain ⟨rfl, rfl⟩ : c = c' ∧ i = i' := by simpa [DirEntry.hasKey, hc, hi] using hkey
      rw [hkey]
      exact hd.symm
    · rw [Bool.eq_false_iff.2 hkey]
      dsimp only
      rw [List.find?_filter]
      congr 1
      funext x
      by_cases hx : DirEntry.hasKey c' i' x = true
      · obtain ⟨rfl, rfl⟩ : x.context = c' ∧ x.index = i' := by simpa [DirEntry.hasKey] using hx
        have hxd : ¬ (x.context = d.context ∧ x.index = d.index) := fun h => hkey (by simp [DirEntry.hasKey, h.1, h.2])
        simpa [hx] using not_and_or.1 hxd
      · simp [hx]

/-- The first access of a walk leaves it fresh (R93). -/
theorem Walk.fresh_of_firstAccess {s : State} {k : WalkKind} {w : Walk} {op : TxnOp} {a : PhysAddr} (ha : w.awaiting = true)
    (he : w.entryWord = none) (hf : s.FirstAccess k w.context w.page w.stage op a w.tableFrame) : w.Fresh s where
  awaiting := ha
  entryWord := he
  path := by
    generalize hst : w.stage = stage at hf
    generalize hfr : w.tableFrame = frame at hf
    cases hf with
    | miss => exact .inl ⟨rfl, rfl⟩
    | fill d hd => exact .inr ⟨d, hd, rfl⟩
    | flag d hd => exact .inr ⟨d, hd, rfl⟩

namespace State.Renews

theorem of_slots {s u : State} (hl : ∀ c i, u.dirLookup c i = s.dirLookup c i) (hs : ∀ j, u.slot j = s.slot j) : s.Renews u where
  lookup := hl
  walks j v hv := .inr ⟨v, (hs j).symm.trans hv, rfl⟩

theorem trans {s t u : State} (h1 : s.Renews t) (h2 : t.Renews u) : s.Renews u where
  lookup c i := (h2.lookup c i).trans (h1.lookup c i)
  walks j v hv := by
    rcases h2.walks j v hv with hfresh | ⟨w, hw, hvw⟩
    · exact .inl (hfresh.of_lookup fun c i => (h1.lookup c i).symm)
    · rcases h1.walks j w hw with hfresh | ⟨x, hx, hwx⟩
      · exact .inl (hvw ▸ ⟨hfresh.awaiting, hfresh.entryWord, hfresh.path⟩)
      · exact .inr ⟨x, hx, hvw.trans (by rw [hwx])⟩

/-- One slot written with a fresh walk, one with more waiters, or none. -/
theorem of_setSlot {s u : State} {i : SlotNumber} {v : Option Walk} (hl : ∀ c i, u.dirLookup c i = s.dirLookup c i)
    (hu : ∀ j, u.slot j = (s.setSlot i v).slot j)
    (hv : ∀ x, v = some x → x.Fresh s ∨ ∃ w, s.slot i = some w ∧ x = { w with waiters := x.waiters }) : s.Renews u where
  lookup := hl
  walks j x hx := by
    rw [hu, State.slot_setSlot] at hx
    split at hx
    · next hij => exact hij ▸ hv x hx
    · exact .inr ⟨x, hx, rfl⟩

end State.Renews

theorem State.Presents.renews {s u : State} {h : HeadId} (hp : s.Presents h u) : s.Renews u := by
  have hsame (c : ContextNumber) (i : BitVec 10) : s.dirLookup c i = s.dirLookup c i := rfl
  cases hp with
  | empty => exact .of_slots hsame fun _ => rfl
  | malformed => exact .of_slots hsame fun _ => rfl
  | marked => exact .of_slots hsame fun _ => rfl
  | noContext => exact .of_slots hsame fun _ => rfl
  | refused e q cause pcache dcache _ _ href =>
    refine .of_slots (fun c i => ?_) fun j => State.slot_takeHeadFault cause h _ j
    have hd := (takeHeadFault_caches cause h { s with pageCache := pcache, dirCache := dcache }).2
    cases href with
    | limit => exact congrArg (List.find? _) hd
    | hit => exact congrArg (List.find? _) hd
    | table => exact State.dirLookup_of_dirFront hd c i
  | ready => exact .of_slots hsame fun _ => rfl
  | joins e q k pcache i w _ _ _ _ hw =>
    refine .of_setSlot hsame (fun _ => rfl) fun x hx => .inr ⟨w, hw.busy, ?_⟩
    cases hx
    rfl
  | starts e q i w pcache _ _ hst =>
    cases hst with
    | start k _ stage op a frame _ _ _ _ hf =>
      refine .of_setSlot (fun c j => State.dirLookup_of_dirFront rfl c j) (fun _ => rfl) fun x hx => .inl ?_
      cases hx
      exact Walk.fresh_of_firstAccess rfl rfl hf
  | waits => exact .of_slots hsame fun _ => rfl

theorem PresentsInTurn.renews {s u : State} {hs : List HeadId} (hp : PresentsInTurn s hs u) : s.Renews u := by
  induction hp with
  | nil => exact .of_slots (fun _ _ => rfl) fun _ => rfl
  | cons _ _ _ _ _ h1 _ ih => exact h1.renews.trans ih

theorem State.Represents.renews {s u : State} (hr : s.Represents u) : s.Renews u := by
  induction hr with
  | done => exact .of_slots (fun _ _ => rfl) fun _ => rfl
  | turn s t u h waiting _ _ h1 _ ih =>
    have hpop : s.Renews { s with slotWait := waiting } := .of_slots (fun _ _ => rfl) fun _ => rfl
    exact hpop.trans (h1.renews.trans ih)

theorem deliverFault_dirCache (cause : FaultCause) (hs : List HeadId) (s : State) : (deliverFault cause hs s).dirCache = s.dirCache := by
  unfold deliverFault
  induction hs generalizing s with
  | nil => rfl
  | cons h l ih => rw [List.foldl_cons, ih, (takeHeadFault_caches cause h s).2]

/-- A restart renews the walks, and a walk found in its slot afterwards is fresh (R101, R102). -/
theorem State.Restarts.renews {s v : State} {i : SlotNumber} {w : Walk} (hr : s.Restarts i w v) :
    s.Renews v ∧ ∀ x, v.slot i = some x → x.Fresh s := by
  cases hr with
  | goes stage op a frame hf =>
    have hfresh (x : Walk) (hx : (s.walkRestarted i w stage op a frame).slot i = some x) : x.Fresh s := by
      cases (State.slot_setSlot_self i _ s).symm.trans hx
      exact Walk.fresh_of_firstAccess rfl rfl hf
    refine ⟨.of_setSlot (fun c j => State.dirLookup_of_dirFront rfl c j) (fun _ => rfl) fun x hx => .inl (hfresh x ?_), hfresh⟩
    exact (State.slot_setSlot_self i _ s).trans hx
  | fails stage op a frame cause u v _ _ hp hrep =>
    have hslot (j : SlotNumber) : u.slot j = (s.setSlot i none).slot j := by
      rw [faultsInTurn_iff.1 hp, deliverFault_slot]
      rfl
    have hdir : u.dirCache = s.dirFront w.context (directoryIndex w.page) := by
      rw [faultsInTurn_iff.1 hp]
      exact deliverFault_dirCache _ _ _
    have hu : s.Renews u := .of_setSlot (fun c j => State.dirLookup_of_dirFront hdir c j) hslot nofun
    refine ⟨hu.trans hrep.renews, fun x hx => ?_⟩
    rcases hrep.renews.walks i x hx with hfresh | ⟨y, hy, -⟩
    · exact hfresh.of_lookup fun c j => (hu.lookup c j).symm
    · rw [hslot, State.slot_setSlot_self] at hy
      cases hy

/-- After step 2 a walk is stale or fresh, or of a slot that was not marked (R80, R101). -/
theorem MarksInTurn.walks {s t : State} {l : List SlotNumber} (hm : MarksInTurn s l t) :
    (∀ c i, t.dirLookup c i = s.dirLookup c i) ∧
      ∀ j v, t.slot j = some v →
        v.stale = true ∨ v.Fresh s ∨ j ∉ l ∧ ∃ w, s.slot j = some w ∧ v = { w with waiters := v.waiters } := by
  induction hm with
  | nil s => exact ⟨fun _ _ => rfl, fun j v hv => .inr (.inr ⟨List.not_mem_nil, v, hv, rfl⟩)⟩
  | outstanding i l s u w hi _ _ ih =>
    obtain ⟨hl, hw⟩ := ih
    refine ⟨hl, fun j v hv => ?_⟩
    rcases hw j v hv with hst | hfresh | ⟨hj, x, hx, hvx⟩
    · exact .inl hst
    · exact .inr (.inl (hfresh.of_lookup fun _ _ => rfl))
    · rw [State.slot_setSlot] at hx
      split at hx
      · cases hx
        exact .inl (by rw [hvx])
      · next hij => exact .inr (.inr ⟨fun hmem => (List.mem_cons.1 hmem).elim (fun h => hij h.symm) hj, x, hx, hvx⟩)
  | awaiting i l s t u w hi _ hr _ ih =>
    obtain ⟨hl, hw⟩ := ih
    obtain ⟨hren, hself⟩ := hr.renews
    have hback {x : Walk} (hx : x.Fresh t) : x.Fresh s := hx.of_lookup fun c j => (hren.lookup c j).symm
    refine ⟨fun c j => (hl c j).trans (hren.lookup c j), fun j v hv => ?_⟩
    rcases hw j v hv with hst | hfresh | ⟨hj, x, hx, hvx⟩
    · exact .inl hst
    · exact .inr (.inl (hback hfresh))
    · have hvfresh (hx : x.Fresh s) : v.Fresh s := hvx ▸ ⟨hx.awaiting, hx.entryWord, hx.path⟩
      by_cases hji : j = i
      · exact .inr (.inl (hvfresh (hself x (hji ▸ hx))))
      · rcases hren.walks j x hx with hxf | ⟨y, hy, hxy⟩
        · exact .inr (.inl (hvfresh hxf))
        · exact .inr (.inr ⟨fun hmem => (List.mem_cons.1 hmem).elim hji hj, y, hy, hvx.trans (by rw [hxy])⟩)

/-! ## What an invalidation leaves -/

section
variable {s v : State} {pages : ContextNumber → PageNumber → Bool}

/-- A walk of the scope is left stale or fresh (R80, R101). -/
theorem State.Invalidates.walks (hi : s.Invalidates pages v) {j : SlotNumber} {x : Walk} (hx : v.slot j = some x) (ha : x.abandoned = false)
    (hin : pages x.context x.page = true) : x.stale = true ∨ x.Fresh v := by
  cases hi with
  | steps l hs t u _ hl hm _ hp hr =>
    obtain ⟨hlook, hwalks⟩ := hm.walks
    have hren : t.Renews v := hp.renews.trans hr.renews
    have hfwd {y : Walk} (hy : y.Fresh t) : y.Fresh v := hy.of_lookup hren.lookup
    rcases hren.walks j x hx with hfresh | ⟨y, hy, hxy⟩
    · exact .inr (hfwd hfresh)
    rcases hwalks j y hy with hst | hfresh | ⟨hj, z, hz, hyz⟩
    · exact .inl (by rw [hxy]; exact hst)
    · refine .inr (hfwd (hxy ▸ ?_))
      have hyt : y.Fresh t := hfresh.of_lookup hlook
      exact ⟨hyt.awaiting, hyt.entryWord, hyt.path⟩
    · rw [hxy, hyz] at ha hin
      exact absurd ((hl.all j).2 ⟨z, hz, ha, hin⟩) hj

/-- No head of the scope is left READY (R80 step 3). -/
theorem not_readyIn_of_steps {dirs : ContextNumber → BitVec 10 → Bool} {t u : State} {hs : List HeadId} (ho : t.OutOfScope pages dirs)
    (hready : t.ReadyOf pages hs) (hp : PresentsInTurn t hs u) (hr : u.Represents v) (h : HeadId) : ¬ v.ReadyIn pages h := by
  intro hk
  have hu : u.OutOfScope pages dirs := presentsInTurn_iff.1 hp ▸ (keptBase_cachesWithin _ _).presentAll hs ho
  obtain ⟨hnot, hold⟩ := hp.readyIn ho (hr.readyIn hu hk)
  exact hnot ((hready.all h).2 hold)

end

/-- Step 3 is the presentation of the READY heads, and then of the slot wait list (R80, R91). -/
theorem representReady_steps {sc : Scope} {pages : ContextNumber → PageNumber → Bool} (hp : ∀ c p, sc.covers c p = pages c p) (s : State) :
    ∃ hs u, s.ReadyOf pages hs ∧ PresentsInTurn s hs u ∧ u.Represents (representReady sc s) := by
  refine ⟨_, _, readyOf_filter hp s, presentsInTurn_iff.2 rfl, represents_iff.2 ?_⟩
  rw [representReady, foldl_ready_eq sc (by decide)]

/-- Settles O42: no step of an invalidation brings back what step 1 removed; walks of the scope are stale or fresh. -/
theorem invalidationLeavesNothing : Obligations.InvalidationLeavesNothing := by
  intro s c operand pages dirs hcov hr hc
  obtain ⟨sc, hpages, -, hexec, hinv⟩ := exec_invalidation hcov hr hc
  have hmarked : (markScope sc (s.scopeRemoved operand pages dirs)).OutOfScope pages dirs :=
    (keptBase_cachesWithin _ _).markScope sc (s.outOfScope_scopeRemoved operand pages dirs)
  have hleft := (keptBase_cachesWithin _ _).representReady sc hmarked
  obtain ⟨hs, u, hready, hpres, hrep⟩ := representReady_steps hpages (markScope sc (s.scopeRemoved operand pages dirs))
  refine ⟨_, hexec, hinv, hleft.pages, hleft.dirs, not_readyIn_of_steps hmarked hready hpres hrep, fun j v hv ha hin => ?_⟩
  refine (hinv.walks hv ha hin).imp_right fun hfresh => ⟨hfresh.awaiting, hfresh.entryWord, hfresh.path.imp_right ?_⟩
  rintro ⟨d, hd, hframe⟩
  obtain ⟨hmem, hdc, hdi⟩ := State.dirLookup_mem hd
  exact ⟨d, hmem, hdc, hdi, hframe⟩

end Sys2Proof.Machine
end

section
/-! PROOFS of the family `other`: DISABLE_CONTEXT, its steps and the end of its drain (R22, R25, R32, R91, R103, R149). -/

namespace Sys2Proof.Machine

/-! ## Heads that are not presented -/

/-- A faulted head reaches no parked place but its own (R129, R133). -/
theorem takeHeadFault_parkedPlace (cause : FaultCause) {s : State} {h k : HeadId} {e : Entry} {q : List Entry} (hq : s.queue h = e :: q)
    (hk : h ≠ k) : (takeHeadFault cause h s).parkedPlace k = s.parkedPlace k := by
  rcases Nat.lt_or_ge s.faultLog.length 16 with hroom | hfull
  · cases hp : (s.context (s.boundContext h)).policy with
    | stall =>
      rw [takeHeadFault_of_stall cause hq hroom hp]
      exact (State.parkedPlace_setParked h k _ (s.setQueue h ({ e with state := .parked } :: q))).trans (if_neg hk)
    | abort =>
      rw [takeHeadFault_of_abort cause hq hroom hp]
      rfl
  · rw [(takeHeadFault_log cause hq).2 hfull]
    rfl

/-- A presentation reaches no parked place but its own head's (R133). -/
theorem present_parkedPlace {h k : HeadId} (s : State) (hk : h ≠ k) : (present h s).parkedPlace k = s.parkedPlace k := by
  have hp := presents_present h s
  generalize present h s = u at hp
  cases hp with
  | empty => rfl
  | malformed => rfl
  | marked => rfl
  | noContext => rfl
  | refused e q cause pages dirs hq =>
    exact takeHeadFault_parkedPlace cause (s := { s with pageCache := pages, dirCache := dirs }) hq hk
  | ready => rfl
  | joins => rfl
  | starts => rfl
  | waits => rfl

/-- The re-presentation of the slot wait list leaves a head alone that is not in it (R91). -/
theorem State.Represents.untouched {s u : State} {k : HeadId} (hr : s.Represents u) (hk : k ∉ s.slotWait) :
    u.queue k = s.queue k ∧ u.parkedPlace k = s.parkedPlace k ∧ k ∉ u.slotWait := by
  induction hr with
  | done => exact ⟨rfl, rfl, hk⟩
  | turn s t u h waiting hfree hwait hp _ ih =>
    rw [hwait, List.mem_cons, not_or] at hk
    obtain ⟨hne, hrest⟩ := hk
    have hfree' : State.freeSlot? { s with slotWait := waiting } ≠ none := fun hnone =>
      hfree.elim fun i hi => State.freeSlot?_none.1 hnone i hi
    have ht : t.slotWait = waiting := by
      rw [presents_iff.1 hp]
      exact present_slotWait h _ hfree'
    obtain ⟨hqueue, hpark, hwaits⟩ := ih (ht ▸ hrest)
    rw [presents_iff.1 hp, present_queue _ (Ne.symm hne)] at hqueue
    rw [presents_iff.1 hp, present_parkedPlace _ (Ne.symm hne)] at hpark
    exact ⟨hqueue, hpark, hwaits⟩

/-! ## Walks of a context that is not ACTIVE -/

/-- A context is not ACTIVE, and its walks are abandoned with no waiters (R103). -/
structure State.Abandons (c : ContextNumber) (s : State) : Prop where
  inactive : (s.context c).state ≠ .active
  walks    : ∀ i v, s.slot i = some v → v.context = c → v.abandoned = true ∧ v.waiters = []

theorem State.Abandons.of_slots {c : ContextNumber} {s t : State} (hs : s.Abandons c) (hc : t.contexts = s.contexts)
    (hw : ∀ i v, t.slot i = some v → s.slot i = some v ∨ v.context ≠ c) : t.Abandons c where
  inactive := by rw [State.context, hc]; exact hs.inactive
  walks i v hv hvc := (hw i v hv).elim (fun h => hs.walks i v h hvc) fun h => absurd hvc h

theorem State.Abandons.setSlot {c : ContextNumber} {s : State} (hs : s.Abandons c) (i : SlotNumber) {v : Option Walk}
    (hv : ∀ w, v = some w → w.context ≠ c) : (s.setSlot i v).Abandons c :=
  hs.of_slots rfl fun j w hw => by
    rw [State.slot_setSlot] at hw
    split at hw
    · exact .inr (hv w hw)
    · exact .inl hw

/-- A walk that goes on is of another context. -/
theorem State.Abandons.context_ne {c : ContextNumber} {s : State} (hs : s.Abandons c) {i : SlotNumber} {w : Walk} (hi : s.slot i = some w)
    (ha : w.abandoned = false) : w.context ≠ c := fun hwc => by
  rw [(hs.walks i w hi hwc).1] at ha
  cases ha

/-- Translation work starts no walk of such a context and gives its walks no waiter (R32, R103). -/
theorem keptBase_abandons (c : ContextNumber) : KeptBase (State.Abandons c) where
  head _ _ hs := hs.of_slots rfl fun _ _ hv => .inl hv
  fault {s} cause h hs := hs.of_slots (State.outside_contexts (outside_takeHeadFault cause h s)) fun i v hv => by
    rw [State.slot_takeHeadFault] at hv
    exact .inl hv
  touchPage _ hs := hs.of_slots rfl fun _ _ hv => .inl hv
  touchDir _ hs := hs.of_slots rfl fun _ _ hv => .inl hv
  wait _ _ hs := hs.of_slots rfl fun _ _ hv => .inl hv
  start {s} i w h _ _ hact _ _ _ _ hs := by
    have hne : w.context ≠ c := by
      rintro rfl
      exact hs.inactive hact
    exact (hs.setSlot i (v := some w) fun x hx => by cases hx; exact hne).of_slots rfl fun _ _ hv => .inl hv
  join i w h hi ha hs := by
    refine (hs.setSlot i (v := some { w with waiters := w.waiters ++ [h] }) fun x hx => ?_).of_slots rfl fun _ _ hv => .inl hv
    cases hx
    exact hs.context_ne (w := w) hi ha
  popWait _ hs := hs.of_slots rfl fun _ _ hv => .inl hv
  release i hs := (hs.setSlot i (v := none) nofun).of_slots rfl fun _ _ hv => .inl hv
  removePage _ _ hs := hs.of_slots rfl fun _ _ hv => .inl hv
  removeScope _ hs := hs.of_slots rfl fun _ _ hv => .inl hv
  rewalk {s i w} w' hi ha hc _ _ _ _ hs := hs.setSlot i fun x hx => by
    cases hx
    rw [hc]
    exact hs.context_ne hi ha

/-! ## The steps of a disable -/

section
variable (s : State) (c : ContextNumber) (w : Word)

theorem State.context_disabled (d : ContextNumber) :
    (s.disabled c w).context d = if c = d then { s.context c with state := .draining } else s.context d :=
  State.context_setContext c d _ s

theorem State.slot_disabled (i : SlotNumber) : (s.disabled c w).slot i = abandonedWalk c (s.slot i) := by
  simp [State.slot, State.disabled]

theorem State.port_disabled (p : PortNumber) :
    (s.disabled c w).port p =
      if (s.port p).binding = c then
        { s.port p with
          queues := { normal := disabledQueue (s.port p).queues.normal, urgent := disabledQueue (s.port p).queues.urgent } }
      else s.port p :=
  Vector.getElem_map _ p.isLt

theorem State.boundContext_disabled (h : HeadId) : (s.disabled c w).boundContext h = s.boundContext h := by
  unfold State.boundContext
  rw [State.port_disabled]
  split <;> rfl

theorem State.queue_disabled {h : HeadId} (hb : s.boundContext h = c) : (s.disabled c w).queue h = disabledQueue (s.queue h) := by
  unfold State.queue
  rw [State.port_disabled, if_pos (show (s.port h.port).binding = c from hb)]
  obtain ⟨p, k⟩ := h
  cases k <;> rfl

theorem State.parkedPlace_disabled (h : HeadId) :
    (s.disabled c w).parkedPlace h = if s.boundContext h = c ∧ s.headParked h = true then none else s.parkedPlace h := by
  obtain ⟨p, k⟩ := h
  cases k <;> simp [State.parkedPlace, State.disabled, PerClass.get]

theorem State.not_mem_slotWait_disabled {h : HeadId} (hb : s.boundContext h = c) : h ∉ (s.disabled c w).slotWait := by
  intro hmem
  have hne := (List.mem_filter.1 hmem).2
  simp [hb] at hne

theorem State.abandons_disabled : (s.disabled c w).Abandons c where
  inactive := by simp [State.context_disabled]
  walks i v hv hvc := by
    rw [State.slot_disabled] at hv
    unfold abandonedWalk at hv
    split at hv
    · cases hv
    · split at hv
      · split at hv
        · cases hv
        · cases hv
          exact ⟨rfl, rfl⟩
      · next hne =>
        cases hv
        exact absurd hvc hne

theorem State.cachesWithin_disabled : (s.disabled c w).CachesWithin (fun e => e.context ≠ c) fun d => d.context ≠ c where
  pages e he := by simpa using (List.mem_filter.1 he).2
  dirs d hd := by simpa using (List.mem_filter.1 hd).2

/-- What a disable and the re-presentation after it leave of the heads, the walks and the cache entries of the context (R22, R103). -/
structure State.Cleared (t : State) : Prop where
  pages    : ∀ e ∈ t.pageCache, e.context ≠ c
  dirs     : ∀ e ∈ t.dirCache, e.context ≠ c
  walks    : ∀ i v, t.slot i = some v → v.context = c → v.abandoned = true ∧ v.waiters = []
  queues   : ∀ h, s.boundContext h = c → t.queue h = disabledQueue (s.queue h)
  parked   : ∀ h, s.boundContext h = c → s.ParkedHead h → t.parkedPlace h = none
  slotWait : ∀ h, s.boundContext h = c → h ∉ t.slotWait

theorem State.headParked_of_parkedHead {s : State} {h : HeadId} (hp : s.ParkedHead h) : s.headParked h = true := by
  obtain ⟨e, q, hq, he⟩ := hp
  simp [State.headParked, State.head?, hq, he]

theorem State.cleared_representWaiting : s.Cleared c (representWaiting (s.disabled c w)) := by
  have hcaches := (keptBase_cachesWithin _ _).representWaiting (s.cachesWithin_disabled c w)
  have hrep := represents_representWaiting (s.disabled c w)
  have hheads (h : HeadId) (hb : s.boundContext h = c) := hrep.untouched (s.not_mem_slotWait_disabled c w hb)
  exact {
    pages := hcaches.pages
    dirs := hcaches.dirs
    walks := ((keptBase_abandons c).representWaiting (s.abandons_disabled c w)).walks
    queues := fun h hb => (hheads h hb).1.trans (s.queue_disabled c w hb)
    parked := fun h hb hp => (hheads h hb).2.1.trans ((s.parkedPlace_disabled c w h).trans (if_pos ⟨hb, State.headParked_of_parkedHead hp⟩))
    slotWait := fun h hb => (hheads h hb).2.2 }

theorem State.Cleared.settle {s t : State} {c : ContextNumber} (ht : s.Cleared c t) : s.Cleared c (settle t) := by
  obtain ⟨contexts, commands, n, m, irq, hframe⟩ := settle_frame t
  rw [hframe]
  exact ⟨ht.pages, ht.dirs, ht.walks, ht.queues, ht.parked, ht.slotWait⟩

end

/-! ## The end of the drain, whatever the other contexts do (R25, R149) -/

/-- What the tests of one drain read and write. -/
def State.drainView (c : ContextNumber) (s : State) : ContextRecord × List Command × BitVec 16 × Vector Port 4 × Vector (Option Walk) 4 :=
  (s.context c, s.commands, s.completedCount, s.ports, s.slots)

/-- The unit waits for the drain of a context, or for nothing. -/
def State.WaitsAtMost (c : ContextNumber) (s : State) : Prop := s.waitingOp = some (.disable c) ∨ s.waitingOp = none

theorem State.waitingOp_of_commands {s t : State} (h : t.commands = s.commands) : t.waitingOp = s.waitingOp := by
  unfold State.waitingOp
  rw [h]

theorem State.nothingLeft_of_fields {s t : State} (hp : t.ports = s.ports) (hw : t.slots = s.slots) (c : ContextNumber) :
    t.NothingLeft c ↔ s.NothingLeft c := by
  unfold State.NothingLeft State.boundContext State.queue State.port State.slot
  rw [hp, hw]

/-- The drain of another context leaves it all alone. -/
theorem settleContext_drainView {c d : ContextNumber} (hd : d ≠ c) {s : State} (hw : s.WaitsAtMost c) :
    (settleContext d s).drainView c = s.drainView c := by
  have hnot : s.waitingOp ≠ some (.disable d) := by
    rcases hw with hw | hw <;> rw [hw]
    · simpa using Ne.symm hd
    · simp
  unfold settleContext
  dsimp only
  rw [if_neg hnot]
  split
  · have hcontext : (s.setContext d { s.context d with state := .off }).context c = s.context c := by
      rw [State.context_setContext, if_neg hd]
    unfold State.drainView
    rw [hcontext]
    rfl
  · rfl

theorem fields_of_drainView {c : ContextNumber} {s : State} {v : ContextRecord} {l : List Command} {n : BitVec 16} {p : Vector Port 4}
    {slots : Vector (Option Walk) 4} (h : s.drainView c = (v, l, n, p, slots)) :
    s.context c = v ∧ s.commands = l ∧ s.completedCount = n := by
  simp only [State.drainView, Prod.mk.injEq] at h
  obtain ⟨hv, hl, hn, -⟩ := h
  exact ⟨hv, hl, hn⟩

theorem commands_of_drainView {c : ContextNumber} {s t : State} (h : t.drainView c = s.drainView c) : t.commands = s.commands :=
  congrArg (fun v => v.2.1) h

theorem nothingLeft_of_drainView {c : ContextNumber} {s t : State} (h : t.drainView c = s.drainView c) :
    t.NothingLeft c ↔ s.NothingLeft c :=
  State.nothingLeft_of_fields (congrArg (fun v => v.2.2.2.1) h) (congrArg (fun v => v.2.2.2.2) h) c

theorem foldl_settleContext_drainView {c : ContextNumber} {l : List ContextNumber} (hl : c ∉ l) {s : State} (hw : s.WaitsAtMost c) :
    (l.foldl (fun t d => settleContext d t) s).drainView c = s.drainView c := by
  induction l generalizing s with
  | nil => rfl
  | cons d l ih =>
    rw [List.mem_cons, not_or] at hl
    obtain ⟨hne, hrest⟩ := hl
    have hview := settleContext_drainView (Ne.symm hne) hw
    have hw' : (settleContext d s).WaitsAtMost c := by
      unfold State.WaitsAtMost
      rw [State.waitingOp_of_commands (commands_of_drainView hview)]
      exact hw
    rw [List.foldl_cons, ih hrest hw', hview]

theorem settleSync_of_waitsAtMost {c : ContextNumber} {s : State} (hw : s.WaitsAtMost c) : settleSync s = s := by
  unfold settleSync
  rcases hw with hw | hw <;> rw [hw]

theorem exists_split_allContexts (c : ContextNumber) : ∃ l r : List ContextNumber, allContexts = l ++ c :: r ∧ c ∉ l ∧ c ∉ r := by
  obtain ⟨l, r, hlr⟩ := List.append_of_mem (mem_allContexts c)
  have hn : (l ++ c :: r).Nodup := hlr ▸ (by decide)
  rw [List.nodup_append, List.nodup_cons] at hn
  exact ⟨l, r, hlr, fun hc => hn.2.2 c hc c (by simp) rfl, hn.2.1.1⟩

/-- While a DISABLE_CONTEXT waits alone, the tests at the end of an event do to its context and to the command queue what its own drain says. -/
theorem settle_drainView {c : ContextNumber} {s : State} {cmd : Command} (hc : s.commands = [cmd]) (hw : s.waitingOp = some (.disable c))
    (hd : (s.context c).state = .draining) :
    (s.NothingLeft c → (settle s).drainView c =
        ({ s.context c with state := .off }, [], s.completedCount + 1#16, s.ports, s.slots)) ∧
      (¬ s.NothingLeft c → (settle s).drainView c = s.drainView c) := by
  obtain ⟨l, r, hlr, hl, hr⟩ := exists_split_allContexts c
  have hbefore := foldl_settleContext_drainView hl (.inl hw)
  generalize hx : l.foldl (fun t d => settleContext d t) s = x at hbefore
  have hxw : x.waitingOp = some (.disable c) := (State.waitingOp_of_commands (commands_of_drainView hbefore)).trans hw
  have hxc : x.context c = s.context c := congrArg Prod.fst hbefore
  have hsettle {y : State} (hy : settleContext c x = y) (hyw : y.WaitsAtMost c) : (settle s).drainView c = y.drainView c := by
    have hafter := foldl_settleContext_drainView hr hyw
    have hfold : settle s = settleSync (r.foldl (fun t d => settleContext d t) y) := by
      rw [settle, hlr, List.foldl_append, hx, List.foldl_cons, hy]
    rw [hfold, settleSync_of_waitsAtMost (c := c), hafter]
    unfold State.WaitsAtMost
    rw [State.waitingOp_of_commands (commands_of_drainView hafter)]
    exact hyw
  refine ⟨fun hn => ?_, fun hn => ?_⟩
  · have hstep : settleContext c x = (x.setContext c { x.context c with state := .off }).completeCommand := by
      unfold settleContext
      rw [if_pos ⟨hxc ▸ hd, (drained_iff x c).2 ((nothingLeft_of_drainView hbefore).2 hn)⟩]
      exact if_pos hxw
    have hcommands : x.commands = [cmd] := (commands_of_drainView hbefore).trans hc
    rw [hsettle hstep (.inr (by simp [State.waitingOp, State.completeCommand, State.setContext, hcommands]))]
    have hcontext : (x.setContext c { x.context c with state := .off }).context c = { s.context c with state := .off } := by
      rw [State.context_setContext_self, hxc]
    obtain ⟨-, hcount, hports, hslots⟩ :
        x.commands = s.commands ∧ x.completedCount = s.completedCount ∧ x.ports = s.ports ∧ x.slots = s.slots := by
      simpa [State.drainView, hxc] using hbefore
    show ((x.setContext c { x.context c with state := .off }).context c, x.commands.tail, x.completedCount + 1#16, x.ports, x.slots) = _
    rw [hcontext, hcommands, hcount, hports, hslots]
    rfl
  · have hstep : settleContext c x = x := by
      unfold settleContext
      rw [if_neg fun hh => hn ((nothingLeft_of_drainView hbefore).1 ((drained_iff x c).1 hh.2))]
    rw [hsettle hstep (.inl hxw), hbefore]

/-! ## The row -/

section
variable {s : State} {w : Word} {c : ContextNumber} (hn : operandNames w c)

/-- The state in which the tests at the end of the row are made. -/
def State.drainTested (s : State) (c : ContextNumber) (w : Word) : State := representWaiting (s.disabled c w)

theorem State.context_drainTested (d : ContextNumber) :
    (s.drainTested c w).context d = if c = d then { s.context c with state := .draining } else s.context d :=
  (State.outside_context (representWaiting_outside _) d).trans (s.context_disabled c w d)

theorem State.commands_drainTested :
    (s.drainTested c w).commands = [{ number := s.takenCount, code := 0x11#8, operand := w, taken := true }] :=
  State.outside_commands (representWaiting_outside _)

theorem State.completedCount_drainTested : (s.drainTested c w).completedCount = s.completedCount :=
  (State.outside_completedCount (representWaiting_outside (s.disabled c w))).trans rfl

include hn

/-- With no other context DRAINING, the drain is the only thing that waits. -/
theorem State.drainWait_drainTested (hd : ∀ d, (s.context d).state ≠ .draining) : (s.drainTested c w).DrainWait c [] where
  draining := by simp [State.context_drainTested]
  alone d hne := by
    rw [State.context_drainTested, if_neg (Ne.symm hne)]
    exact hd d
  head := ⟨_, State.commands_drainTested, rfl, rfl, hn⟩
  behind := nofun

/-- Then the row ends with the drain's own end. -/
theorem exec_disable_ends (hr : s.ready = true) (hc : s.commands = []) (ha : (s.context c).state = .active)
    (hd : ∀ d, (s.context d).state ≠ .draining) :
    ((s.drainTested c w).NothingLeft c → exec (.disableContext w) s = .next
        { (s.drainTested c w).setContext c { s.context c with state := .off } with
          commands := [], completedCount := s.completedCount + 1#16 }) ∧
      (¬ (s.drainTested c w).NothingLeft c → exec (.disableContext w) s = .next (s.drainTested c w)) := by
  obtain ⟨hdone, hwaits⟩ := settle_of_drainWait (State.drainWait_drainTested hn hd)
  have hoff : ({ (s.drainTested c w).context c with state := .off } : ContextRecord) = { s.context c with state := .off } := by
    rw [State.context_drainTested, if_pos rfl]
  refine ⟨fun hleft => ?_, fun hleft => ?_⟩
  · rw [exec_disableContext hn hr hc ha]
    refine congrArg Host.Outcome.next ((hdone hleft).trans ?_)
    rw [hoff, State.completedCount_drainTested]
  · rw [exec_disableContext hn hr hc ha]
    exact congrArg Host.Outcome.next (hwaits hleft)

end

/-! ## A context with nothing to drain -/

/-- A disable of a context with nothing left changes its state, its cache entries and the command unit only (R22). -/
theorem State.disabled_of_nothingLeft {s : State} {c : ContextNumber} (w : Word) (hleft : s.NothingLeft c)
    (hwait : ∀ h ∈ s.slotWait, s.boundContext h ≠ c) :
    s.disabled c w =
      { (s.withTaken 0x11#8 w).setContext c { s.context c with state := .draining } with
        pageCache := s.pageCache.filter fun e => e.context != c
        dirCache := s.dirCache.filter fun e => e.context != c } := by
  obtain ⟨hheads, hwalks⟩ := hleft
  have hport (p : PortNumber) : (s.disabled c w).port p = s.port p := by
    rw [State.port_disabled]
    split
    · next hb =>
      have hnormal : (s.port p).queues.normal = [] := (hheads ⟨p, .normal⟩ hb).1
      have hurgent : (s.port p).queues.urgent = [] := (hheads ⟨p, .urgent⟩ hb).1
      generalize s.port p = v at hnormal hurgent
      obtain ⟨_, _, ⟨_, _⟩, _, _⟩ := v
      cases hnormal
      cases hurgent
      rfl
    · rfl
  have hslot (i : SlotNumber) : abandonedWalk c (s.slot i) = s.slot i := by
    cases hi : s.slot i with
    | none => rfl
    | some v => exact if_neg (hwalks i v hi)
  have hplace (h : HeadId) : (s.disabled c w).parkedPlace h = s.parkedPlace h := by
    rw [State.parkedPlace_disabled, if_neg]
    rintro ⟨hb, hp⟩
    simp [State.headParked, State.head?, (hheads h hb).1] at hp
  have hports : (s.disabled c w).ports = s.ports := Vector.ext fun n hlt => hport ⟨n, hlt⟩
  have hslots : (s.disabled c w).slots = s.slots := Vector.ext fun n hlt => (s.slot_disabled c w ⟨n, hlt⟩).trans (hslot ⟨n, hlt⟩)
  have hparked : (s.disabled c w).parked = s.parked := Vector.ext fun n hlt => by
    have hnormal : ((s.disabled c w).parked[n]).normal = s.parked[n].normal := hplace ⟨⟨n, hlt⟩, .normal⟩
    have hurgent : ((s.disabled c w).parked[n]).urgent = s.parked[n].urgent := hplace ⟨⟨n, hlt⟩, .urgent⟩
    cases hx : (s.disabled c w).parked[n]
    cases hy : s.parked[n]
    rw [hx, hy] at hnormal hurgent
    exact congr (congrArg PerClass.mk hnormal) hurgent
  have horder : (s.disabled c w).startOrder = s.startOrder := List.filter_eq_self.2 fun i _ => by
    rw [hslot]
    simp [em]
  have hlist : (s.disabled c w).slotWait = s.slotWait := List.filter_eq_self.2 fun h hmem => by simpa using hwait h hmem
  calc s.disabled c w
      = { (s.withTaken 0x11#8 w).setContext c { s.context c with state := .draining } with
          pageCache := s.pageCache.filter fun e => e.context != c
          dirCache := s.dirCache.filter fun e => e.context != c
          ports := (s.disabled c w).ports
          slots := (s.disabled c w).slots
          parked := (s.disabled c w).parked
          startOrder := (s.disabled c w).startOrder
          slotWait := (s.disabled c w).slotWait } := rfl
    _ = _ := by
      rw [hports, hslots, hparked, horder, hlist]
      rfl

/-- Settles O40: the steps by what they leave of the context, the end by its drain. -/
theorem Commands.disableContext : Obligations.DisableContext := by
  intro s w c hn hr hc ha
  have hexec : exec (.disableContext w) s = .next (settle (s.drainTested c w)) := exec_disableContext hn hr hc ha
  refine ⟨⟨_, hexec, ?steps⟩, fun hends ho hleft hwait => ?nothing, fun hheld => ?ends⟩
  case steps =>
    have hclear := (s.cleared_representWaiting c w).settle
    have hcommands := State.commands_drainTested (s := s) (c := c) (w := w)
    obtain ⟨hdone, hwaits⟩ := settle_drainView (s := s.drainTested c w) hcommands
      (waitingOp_of_disable hcommands rfl rfl hn) (by simp [State.context_drainTested])
    have hleft : (settle (s.drainTested c w)).NothingLeft c ↔ (s.drainTested c w).NothingLeft c := by
      obtain ⟨contexts, commands, n, m, irq, hframe⟩ := settle_frame (s.drainTested c w)
      rw [hframe]
      exact State.nothingLeft_of_fields rfl rfl c
    refine ⟨hclear.pages, hclear.dirs, hclear.walks, fun h e q hb hq => ⟨fun st he => ?_, fun hf hqueued => ?_⟩,
      hclear.parked, hclear.slotWait, fun hnothing => ?_, fun hsomething => ?_⟩
    · rw [State.drainTested, hclear.queues h hb, hq, disabledQueue, Entry.disabled, he]
    · rw [State.drainTested, hclear.queues h hb, hq, disabledQueue, Entry.disabled]
      cases he : e.state with
      | finishing st => exact absurd he (hf st)
      | queued => exact absurd he hqueued
      | _ => rfl
    · have hview := hdone (hleft.1 hnothing)
      rw [State.context_drainTested, if_pos rfl, State.completedCount_drainTested] at hview
      exact fields_of_drainView hview
    · obtain ⟨hcontext, hcmd, hcount⟩ := fields_of_drainView (hwaits (mt hleft.2 hsomething))
      exact ⟨hcontext.trans ((State.context_drainTested c).trans (if_pos rfl)), hcmd.trans hcommands,
        hcount.trans State.completedCount_drainTested⟩
  case nothing =>
    have hdisabled := State.disabled_of_nothingLeft w hleft hwait
    have htested : s.drainTested c w = s.disabled c w := by
      refine representWaiting_of_offered ?_
      rw [hdisabled]
      exact ho
    have hnothing : (s.drainTested c w).NothingLeft c := by
      rw [htested, hdisabled]
      exact (State.nothingLeft_of_fields (s := s) rfl rfl c).2 hleft
    rw [(exec_disable_ends hn hr hc ha hends.1).1 hnothing, htested, hdisabled]
    simp [State.setContext, State.withTaken, State.afterCommand, hc]
  case ends =>
    have hdraining (d : ContextNumber) : (s.context d).state ≠ .draining := by
      intro hd
      obtain ⟨cmd, rest, hcommands, -⟩ := hheld d hd
      rw [hc] at hcommands
      cases hcommands
    have hends := exec_disable_ends hn hr hc ha hdraining
    refine ⟨⟨s.drainTested c w, represents_representWaiting _, hends⟩, fun ho => ?_⟩
    rw [State.drainTested, representWaiting_of_offered ho] at hends
    exact hends

end Sys2Proof.Machine
end

section
/-! PROOFS of the family `other`: what the end of all work at a failure of the memory port does to the return lists and to the fault log (R59, R60,
R105, R132, R169). -/

namespace Sys2Proof.Machine

/-! ## The parts of a failure (R169) -/

/-- The part FAILED, with MEMORY_FAILED set, before any work is ended (R169 step 1). -/
def State.failStart (s : State) : State := State.raise .memoryFailed { s with memState := .failed, lateCleared := false }

theorem enterFailed_eq (s : State) : enterFailed s = failAwaiting (endOutstanding s.outstanding s.failStart) := rfl

/-- The property is kept by each part of a failure: a transaction leaves the list, a client's item ends with its DATA_ERROR, a walk ends. -/
structure KeptByFailure (P : State → Prop) : Prop where
  shorter : ∀ {s : State} (rest : List Transaction), P s → P { s with outstanding := rest }
  client  : ∀ {s : State} (v : RequestValues), P s → P (takeDataError v (s.endItem ⟨v.port, v.cls⟩ .memoryError none))
  walk    : ∀ {s : State} (i : SlotNumber), P s → P (endWalkTransaction i s)

namespace KeptByFailure
variable {P : State → Prop} (K : KeptByFailure P)
include K

theorem endTransaction (t : Transaction) {s : State} (h : P s) : P (Machine.endTransaction t s) := by
  unfold Machine.endTransaction
  split
  · exact K.client _ h
  · exact K.walk _ h

theorem endOutstanding (l : List Transaction) {s : State} (h : P s) : P (Machine.endOutstanding l s) := by
  induction l generalizing s with
  | nil => exact h
  | cons t rest ih => exact ih (K.endTransaction t (K.shorter rest h))

theorem failAwaiting {s : State} (h : P s) : P (Machine.failAwaiting s) := by
  unfold Machine.failAwaiting
  generalize s.startOrder = l
  induction l generalizing s with
  | nil => exact h
  | cons i l ih => exact ih (K.walk i h)

theorem enterFailed {s : State} (h : P s.failStart) : P (Machine.enterFailed s) := K.failAwaiting (K.endOutstanding _ h)

end KeptByFailure

/-- The late-CLEARED mark stays cleared (R169, R172). -/
theorem keptByFailure_lateCleared : KeptByFailure fun s => s.lateCleared = false where
  shorter _ hs := hs
  client v hs := (State.outside_lateCleared (outside_takeDataError v _)).trans hs
  walk i hs := (State.outside_lateCleared (endWalkTransaction_outside i _)).trans hs

/-! ## Return lists and completion queues (R59, R60, R169) -/

/-- An item's end with MEMORY_ERROR does not change the record it gives. -/
theorem map_failed_endFirstInFlight (l : List Item) : (endFirstInFlight .memoryError none l).map Item.failed = l.map Item.failed := by
  induction l with
  | nil => rfl
  | cons i l ih =>
    unfold endFirstInFlight
    cases hi : i.state with
    | inFlight b => simp [Item.failed, hi]
    | done st d => simp [ih]

/-- The DONE items at the front become the records they give (R60). -/
theorem map_failed_splitDone (l : List Item) : l.map Item.failed = (splitDone l).1 ++ (splitDone l).2.map Item.failed := by
  induction l with
  | nil => rfl
  | cons i l ih =>
    unfold splitDone
    cases hi : i.state with
    | inFlight b => rfl
    | done st d =>
      have hrecord : i.failed = i.record st d := by rw [Item.failed, hi]; rfl
      simp [ih, hrecord]

/-- A port whose items end with MEMORY_ERROR: the records that entered its completion queue, and for each class the items that they are, in the list's
order. -/
structure Port.Fails (p v : Port) (ended : List Completion) (gone : ReqClass → List Completion) : Prop where
  completions : v.completions = p.completions ++ ended
  perm        : ended.Perm (gone .normal ++ gone .urgent)
  order       : ∀ c, (gone c).Sublist ended
  items       : ∀ c, (p.returns.get c).map Item.failed = gone c ++ (v.returns.get c).map Item.failed

namespace Port.Fails

theorem of_fields {p v : Port} (hr : v.returns = p.returns) (hc : v.completions = p.completions) : p.Fails v [] fun _ => [] where
  completions := by rw [hc, List.append_nil]
  perm := List.Perm.nil
  order _ := List.Sublist.refl _
  items c := by rw [hr, List.nil_append]

theorem trans {p v u : Port} {e1 e2 : List Completion} {g1 g2 : ReqClass → List Completion} (h1 : p.Fails v e1 g1) (h2 : v.Fails u e2 g2) :
    p.Fails u (e1 ++ e2) fun c => g1 c ++ g2 c where
  completions := by rw [h2.completions, h1.completions, List.append_assoc]
  perm := by
    refine (h1.perm.append h2.perm).trans ?_
    rw [List.append_assoc, List.append_assoc]
    refine List.Perm.append_left _ ?_
    rw [← List.append_assoc, ← List.append_assoc]
    exact List.Perm.append_right _ List.perm_append_comm
  order c := (h1.order c).append (h2.order c)
  items c := by rw [h1.items, h2.items, List.append_assoc]

/-- The end of one item, with the moves of R60, in one class. -/
theorem endItem (p : Port) (c : ReqClass) :
    ∃ ended gone, p.Fails
      (Port.flushReturns c { p with returns := p.returns.set c (endFirstInFlight .memoryError none (p.returns.get c)) }) ended gone := by
  let ended := (splitDone (endFirstInFlight .memoryError none (p.returns.get c))).1
  refine ⟨ended, fun d => if d = c then ended else [], ?_, ?_, fun d => ?_, fun d => ?_⟩
  · simp [Port.flushReturns, ended]
  · cases c <;> simp
  · split
    · exact List.Sublist.refl _
    · exact List.nil_sublist _
  · simp only [Port.flushReturns, PerClass.get_set]
    by_cases hd : d = c
    · subst hd
      simp only [if_pos]
      rw [← map_failed_endFirstInFlight (p.returns.get d)]
      exact map_failed_splitDone _
    · simp [hd, Ne.symm hd]

/-- No credit is used or freed by a failure (R55, R169). -/
theorem creditInUse {p v : Port} {ended : List Completion} {gone : ReqClass → List Completion} (h : p.Fails v ended gone) :
    v.creditInUse = p.creditInUse := by
  have hperm := h.perm.length_eq
  have hnormal := congrArg List.length (h.items .normal)
  have hurgent := congrArg List.length (h.items .urgent)
  simp only [List.length_append, List.length_map, PerClass.get] at hperm hnormal hurgent
  simp only [Port.creditInUse, h.completions, List.length_append]
  omega

end Port.Fails

theorem State.port_endItem (s : State) (h : HeadId) (st : Status) (d : Option (List Word)) (p : PortNumber) :
    (s.endItem h st d).port p =
      if h.port = p then
        Port.flushReturns h.cls
          { s.port h.port with
            returns := (s.port h.port).returns.set h.cls (endFirstInFlight st d ((s.port h.port).returns.get h.cls)) }
      else s.port p :=
  State.port_setPort _ _ _ _

theorem keptByFailure_fails (s : State) : KeptByFailure fun t => ∀ p, ∃ ended gone, (s.port p).Fails (t.port p) ended gone where
  shorter _ hs := hs
  client {t} v hs p := by
    obtain ⟨e1, g1, h1⟩ := hs p
    have hend : ∃ e2 g2, (t.port p).Fails ((t.endItem ⟨v.port, v.cls⟩ .memoryError none).port p) e2 g2 := by
      rw [State.port_endItem]
      split
      · next hp =>
        subst hp
        exact Port.Fails.endItem _ _
      · exact ⟨_, _, .of_fields rfl rfl⟩
    obtain ⟨e2, g2, h2⟩ := hend
    have hout := outside_takeDataError v (t.endItem ⟨v.port, v.cls⟩ .memoryError none)
    exact ⟨_, _, (h1.trans h2).trans (.of_fields (State.outside_returns hout p) (State.outside_completions hout p))⟩
  walk {t} i hs p := by
    obtain ⟨e1, g1, h1⟩ := hs p
    have hout := endWalkTransaction_outside i t
    exact ⟨_, _, h1.trans (.of_fields (State.outside_returns hout p) (State.outside_completions hout p))⟩

/-- Each port after the end of all work (R169). -/
theorem fails_enterFailed (s : State) (p : PortNumber) : ∃ ended gone, (s.port p).Fails ((enterFailed s).port p) ended gone :=
  (keptByFailure_fails s).enterFailed (fun _ => ⟨_, _, .of_fields rfl rfl⟩) p

/-- With the transactions paired with the items, no item is IN_FLIGHT once none is outstanding (R169). -/
theorem State.ItemsPaired.no_inFlight {s : State} (hs : s.ItemsPaired) (ho : s.outstanding = []) (h : HeadId) {item : Item}
    (hi : item ∈ (s.port h.port).returns.get h.cls) : item.isInFlight = false := by
  have hnone := hs h
  rw [ho, List.filterMap_nil, inFlightOf, List.map_eq_nil_iff, List.filter_eq_nil_iff] at hnone
  simpa using hnone item hi

theorem eq_nil_of_frontInFlight {l : List Item} (hf : FrontInFlight l) (hn : ∀ i ∈ l, i.isInFlight = false) : l = [] := by
  cases l with
  | nil => rfl
  | cons i rest =>
    have hi := hf i rest rfl
    rw [hn i List.mem_cons_self] at hi
    cases hi

/-! ## The fault log (R122 to R124, R132) -/

/-- The fault log grows by records of head faults only, and not at all once it is full; LOG_OVERFLOW stays set. -/
structure State.LogsHeads (s t : State) : Prop where
  records  : ∃ records, t.faultLog = s.faultLog ++ records ∧ ∀ r ∈ records, r.cause ≠ .dataError
  full     : 16 ≤ s.faultLog.length → t.faultLog = s.faultLog
  overflow : s.CauseSet 1 → t.CauseSet 1

namespace State.LogsHeads

theorem same {s t : State} (hl : t.faultLog = s.faultLog) (hi : t.irqStatus = s.irqStatus) : s.LogsHeads t where
  records := ⟨[], by rw [hl, List.append_nil], nofun⟩
  full _ := hl
  overflow h := by rwa [State.CauseSet, hi]

theorem trans {s t u : State} (h1 : s.LogsHeads t) (h2 : t.LogsHeads u) : s.LogsHeads u where
  records := by
    obtain ⟨r1, e1, n1⟩ := h1.records
    obtain ⟨r2, e2, n2⟩ := h2.records
    exact ⟨r1 ++ r2, by rw [e2, e1, List.append_assoc], fun r hr => (List.mem_append.1 hr).elim (n1 r) (n2 r)⟩
  full hf := by
    have ht := h1.full hf
    exact (h2.full (ht ▸ hf)).trans ht
  overflow h := h2.overflow (h1.overflow h)

theorem takeHeadFault {cause : FaultCause} (hc : cause ≠ .dataError) (h : HeadId) (s : State) : s.LogsHeads (takeHeadFault cause h s) where
  records := by
    cases hq : s.queue h with
    | nil => exact ⟨[], by simp [Machine.takeHeadFault, State.head?, hq], nofun⟩
    | cons e q =>
      obtain ⟨hroom, hfull⟩ := takeHeadFault_log cause hq
      rcases Nat.lt_or_ge s.faultLog.length 16 with hl | hl
      · exact ⟨_, (hroom hl).1, fun r hr => by rw [List.mem_singleton.1 hr]; exact hc⟩
      · exact ⟨[], by rw [hfull hl, List.append_nil]; rfl, nofun⟩
  full hl := by
    cases hq : s.queue h with
    | nil => simp [Machine.takeHeadFault, State.head?, hq]
    | cons e q => rw [(takeHeadFault_log cause hq).2 hl]; rfl
  overflow hs := hs.takeHeadFault cause h

theorem presents {s u : State} {h : HeadId} (hp : s.Presents h u) : s.LogsHeads u := by
  cases hp with
  | empty => exact .same rfl rfl
  | malformed => exact .same rfl rfl
  | marked => exact .same rfl rfl
  | noContext => exact .same rfl rfl
  | refused e q cause pages dirs _ _ href =>
    have hc : cause ≠ .dataError := by
      cases href with
      | limit => decide
      | hit x cause _ _ hf =>
        rcases hf with ⟨-, -, rfl⟩ | ⟨-, -, rfl⟩ | ⟨-, -, rfl⟩
        · decide
        · decide
        · decide
      | table k pages i stage op a frame cause _ _ _ _ _ hr =>
        rcases hr with ⟨-, rfl⟩ | ⟨-, -, rfl⟩
        · decide
        · decide
    have hcaches : s.LogsHeads { s with pageCache := pages, dirCache := dirs } := .same rfl rfl
    exact hcaches.trans (takeHeadFault hc h _)
  | ready => exact .same rfl rfl
  | joins => exact .same rfl rfl
  | starts => exact .same rfl rfl
  | waits => exact .same rfl rfl

theorem represents {s u : State} (hr : s.Represents u) : s.LogsHeads u := by
  induction hr with
  | done => exact .same rfl rfl
  | turn s t u h waiting _ _ hp _ ih =>
    have hpop : s.LogsHeads { s with slotWait := waiting } := .same rfl rfl
    exact hpop.trans ((presents hp).trans ih)

theorem deliverFault {cause : FaultCause} (hc : cause ≠ .dataError) (hs : List HeadId) (s : State) :
    s.LogsHeads (deliverFault cause hs s) := by
  unfold Machine.deliverFault
  induction hs generalizing s with
  | nil => exact .same rfl rfl
  | cons h l ih => exact (takeHeadFault hc h s).trans (ih _)

end State.LogsHeads

/-- The end of a walk by the memory port, in its two steps (R100, R104, R105). -/
theorem endWalkTransaction_of_some {s : State} {i : SlotNumber} {w : Walk} (hi : s.slot i = some w) :
    endWalkTransaction i s =
      representWaiting (if w.abandoned then s.releaseSlot i else deliverFault .tableError w.waiters (s.releaseSlot i)) := by
  unfold endWalkTransaction
  rw [hi]
  dsimp only
  split
  · rfl
  · have hdrop : dropFlagged w .tableError s = s := if_neg fun hh => absurd hh.2 nofun
    unfold failWalk
    rw [hi]
    dsimp only
    rw [hdrop]

theorem State.LogsHeads.endWalkTransaction (i : SlotNumber) (s : State) : s.LogsHeads (endWalkTransaction i s) := by
  cases hi : s.slot i with
  | none =>
    unfold Machine.endWalkTransaction
    rw [hi]
    exact .same rfl rfl
  | some w =>
    rw [endWalkTransaction_of_some hi]
    refine State.LogsHeads.trans ?_ (.represents (represents_representWaiting _))
    have hrelease : s.LogsHeads (s.releaseSlot i) := .same rfl rfl
    split
    · exact hrelease
    · exact hrelease.trans (.deliverFault (by decide) _ _)

theorem State.LogsHeads.failAwaiting (s : State) : s.LogsHeads (failAwaiting s) := by
  unfold Machine.failAwaiting
  generalize s.startOrder = l
  induction l generalizing s with
  | nil => exact .same rfl rfl
  | cons i l ih => exact (State.LogsHeads.endWalkTransaction i s).trans (ih _)

/-- The records of client transactions among those that were added: each ABORTED, of the transactions in their order, and of all of them
unless the log is full, with LOG_OVERFLOW set (R123, R132). -/
structure State.LogsClients (s t : State) (lost : List RequestValues) : Prop where
  records : ∃ records, t.faultLog = s.faultLog ++ records ∧
    (∀ r ∈ records.filter fun r => decide (r.cause = .dataError), r.outcome = .aborted) ∧
    (records.filter fun r => decide (r.cause = .dataError)).map FaultRecord.values <+: lost ∧
    ((records.filter fun r => decide (r.cause = .dataError)).map FaultRecord.values = lost ∨ 16 ≤ t.faultLog.length ∧ t.CauseSet 1)
  full : 16 ≤ s.faultLog.length → t.faultLog = s.faultLog
  overflow : s.CauseSet 1 → t.CauseSet 1

namespace State.LogsClients

theorem filter_eq_nil {records : List FaultRecord} (hn : ∀ r ∈ records, r.cause ≠ .dataError) :
    (records.filter fun r => decide (r.cause = .dataError)) = [] :=
  List.filter_eq_nil_iff.2 fun r hr => by simpa using hn r hr

theorem of_logsHeads {s t : State} (h : s.LogsHeads t) : s.LogsClients t [] where
  records := by
    obtain ⟨records, hl, hn⟩ := h.records
    refine ⟨records, hl, ?_⟩
    rw [filter_eq_nil hn]
    exact ⟨nofun, ⟨[], rfl⟩, .inl rfl⟩
  full := h.full
  overflow := h.overflow

/-- One DATA_ERROR (R132). -/
theorem takeDataError (v : RequestValues) (s : State) : s.LogsClients (takeDataError v s) [v] where
  records := by
    rcases Nat.lt_or_ge s.faultLog.length 16 with hroom | hfull
    · rw [takeDataError_of_room v hroom]
      refine ⟨_, rfl, ?_⟩
      simp [FaultRecord.values]
    · refine ⟨[], ?_, nofun, ⟨[v], rfl⟩, .inr ?_⟩
      · rw [takeDataError_of_full v hfull, List.append_nil]
      · refine ⟨?_, ?_⟩
        · rw [takeDataError_of_full v hfull]
          exact hfull
        · rw [takeDataError_of_full v hfull]
          simp [State.CauseSet]
  full hfull := by rw [takeDataError_of_full v hfull]
  overflow hs := hs.takeDataError v

theorem trans {s t u : State} {l m : List RequestValues} (h1 : s.LogsClients t l) (h2 : t.LogsClients u m) : s.LogsClients u (l ++ m) where
  records := by
    obtain ⟨r1, e1, a1, p1, q1⟩ := h1.records
    obtain ⟨r2, e2, a2, p2, q2⟩ := h2.records
    refine ⟨r1 ++ r2, by rw [e2, e1, List.append_assoc], ?_⟩
    rw [List.filter_append, List.map_append]
    refine ⟨fun r hr => (List.mem_append.1 hr).elim (a1 r) (a2 r), ?_⟩
    rcases q1 with q1 | ⟨hfull, hover⟩
    · rw [q1]
      obtain ⟨later, hlater⟩ := p2
      refine ⟨⟨later, by rw [List.append_assoc, hlater]⟩, q2.imp (fun q2 => by rw [q2]) id⟩
    · have hsame := h2.full hfull
      have hnil : r2 = [] := by
        rw [hsame] at e2
        exact List.self_eq_append_right.1 e2
      subst hnil
      rw [List.filter_nil, List.map_nil, List.append_nil]
      exact ⟨p1.trans ⟨m, rfl⟩, .inr ⟨hsame ▸ hfull, h2.overflow hover⟩⟩
  full hf := by
    have ht := h1.full hf
    exact (h2.full (ht ▸ hf)).trans ht
  overflow h := h2.overflow (h1.overflow h)

theorem same {s t : State} (hl : t.faultLog = s.faultLog) (hi : t.irqStatus = s.irqStatus) : s.LogsClients t [] :=
  of_logsHeads (.same hl hi)

end State.LogsClients

theorem logsClients_endTransaction (t : Transaction) (s : State) : s.LogsClients (endTransaction t s) t.client?.toList := by
  cases ho : t.origin with
  | client v =>
    have hlost : t.client? = some v := by rw [Transaction.client?, ho]
    have hend : endTransaction t s = takeDataError v (s.endItem ⟨v.port, v.cls⟩ .memoryError none) := by rw [endTransaction, ho]
    have hitem : s.LogsClients (s.endItem ⟨v.port, v.cls⟩ .memoryError none) [] := .same rfl rfl
    rw [hlost, hend]
    exact hitem.trans (.takeDataError v _)
  | walk i =>
    have hlost : t.client? = none := by rw [Transaction.client?, ho]
    have hend : endTransaction t s = endWalkTransaction i s := by rw [endTransaction, ho]
    rw [hlost, hend]
    exact .of_logsHeads (.endWalkTransaction i s)

theorem logsClients_endOutstanding (l : List Transaction) (s : State) :
    s.LogsClients (endOutstanding l s) (l.filterMap Transaction.client?) := by
  induction l generalizing s with
  | nil => exact .same rfl rfl
  | cons t rest ih =>
    have hpop : s.LogsClients { s with outstanding := rest } [] := .same rfl rfl
    have hall := (hpop.trans (logsClients_endTransaction t { s with outstanding := rest })).trans (ih _)
    have hlist : [] ++ t.client?.toList ++ rest.filterMap Transaction.client? = (t :: rest).filterMap Transaction.client? := by
      rw [List.filterMap_cons]
      cases t.client? <;> rfl
    rw [← hlist]
    exact hall

/-- The records of a failure (R132, R169). -/
theorem logsClients_enterFailed (s : State) : s.failStart.LogsClients (enterFailed s) (s.outstanding.filterMap Transaction.client?) := by
  have hall := (logsClients_endOutstanding s.outstanding s.failStart).trans (.of_logsHeads (.failAwaiting _))
  rwa [List.append_nil] at hall

end Sys2Proof.Machine
end

section
/-! PROOFS of the family `other`: what the end of all work at a failure of the memory port does to the heads (R100, R105, R129, R169). -/

namespace Sys2Proof.Machine

/-! ## A head fault and what follows it -/

/-- What a fault makes of a head stays so while the head, its place and the log's length and LOG_OVERFLOW do. -/
theorem State.Faulted.mono {s s' u u' : State} {records records' : List FaultRecord} {h : HeadId} {e : Entry} {q : List Entry}
    {cause : FaultCause} (hf : s.Faulted u records h e q cause) (hc : s'.contexts = s.contexts) (hb : s'.boundContext h = s.boundContext h)
    (hsub : records ⊆ records') (hqueue : u'.queue h = u.queue h) (hplace : u'.parkedPlace h = u.parkedPlace h)
    (hlen : u.faultLog.length ≤ u'.faultLog.length) (hover : u.CauseSet 1 → u'.CauseSet 1) : s'.Faulted u' records' h e q cause := by
  have hcontext : s'.context (s'.boundContext h) = s.context (s.boundContext h) := by rw [State.context, State.context, hb, hc]
  unfold State.Faulted
  rw [hcontext, hb, hqueue, hplace]
  rcases hf with ⟨r, hr, hrest⟩ | ⟨hfull, hbit, hq⟩
  · exact .inl ⟨r, hsub hr, hrest⟩
  · exact .inr ⟨hfull.trans hlen, hover hbit, hq⟩

/-- A head fault, by the log's room and the context's policy (R129, R130). -/
theorem takeHeadFault_faulted (cause : FaultCause) {s : State} {h : HeadId} {e : Entry} {q : List Entry} (hq : s.queue h = e :: q) :
    ∃ records, (takeHeadFault cause h s).faultLog = s.faultLog ++ records ∧
      s.Faulted (takeHeadFault cause h s) records h e q cause := by
  obtain ⟨hlog, hover⟩ := takeHeadFault_log cause hq
  rcases Nat.lt_or_ge s.faultLog.length 16 with hroom | hfull
  · refine ⟨_, (hlog hroom).1, .inl ⟨_, List.mem_singleton.2 rfl, rfl, rfl, ?_⟩⟩
    cases hp : (s.context (s.boundContext h)).policy with
    | stall =>
      rw [takeHeadFault_of_stall cause hq hroom hp, State.headRecord_of_stall hp]
      refine .inl ⟨rfl, rfl, State.queue_setQueue_self _ _ _, ?_⟩
      exact (State.parkedPlace_setParked h h _ (s.setQueue h ({ e with state := .parked } :: q))).trans (if_pos rfl)
    | abort =>
      rw [takeHeadFault_of_abort cause hq hroom hp, State.headRecord_of_abort hp]
      exact .inr ⟨rfl, rfl, State.queue_setQueue_self _ _ _⟩
  · rw [hover hfull]
    exact ⟨[], (List.append_nil _).symm, .inr ⟨hfull, by simp, State.queue_setQueue_self _ _ _⟩⟩

/-- A fault of other heads reaches neither the queue nor the place of a head. -/
theorem deliverFault_untouched {cause : FaultCause} {hs : List HeadId} {k : HeadId} (hk : k ∉ hs) (s : State) :
    (deliverFault cause hs s).queue k = s.queue k ∧ (deliverFault cause hs s).parkedPlace k = s.parkedPlace k := by
  unfold deliverFault
  induction hs generalizing s with
  | nil => exact ⟨rfl, rfl⟩
  | cons h l ih =>
    rw [List.mem_cons, not_or] at hk
    obtain ⟨hne, hrest⟩ := hk
    obtain ⟨hqueue, hplace⟩ := ih hrest (takeHeadFault cause h s)
    refine ⟨hqueue.trans (takeHeadFault_queue cause s (Ne.symm hne)), hplace.trans ?_⟩
    cases hq : s.queue h with
    | nil => simp [takeHeadFault, State.head?, hq]
    | cons e q => exact takeHeadFault_parkedPlace cause hq (Ne.symm hne)

theorem deliverFault_slotWait (cause : FaultCause) (hs : List HeadId) (s : State) : (deliverFault cause hs s).slotWait = s.slotWait := by
  unfold deliverFault
  induction hs generalizing s with
  | nil => rfl
  | cons h l ih => rw [List.foldl_cons, ih, takeHeadFault_slotWait]

/-- A fault delivered to a list of heads, each once, faults each of them (R100 step 3). -/
theorem deliverFault_faulted {cause : FaultCause} (hc : cause ≠ .dataError) {hs : List HeadId} (hn : hs.Nodup) {s : State} {h : HeadId}
    (hh : h ∈ hs) {e : Entry} {q : List Entry} (hq : s.queue h = e :: q) :
    ∃ records, (deliverFault cause hs s).faultLog = s.faultLog ++ records ∧
      s.Faulted (deliverFault cause hs s) records h e q cause := by
  induction hs generalizing s with
  | nil => cases hh
  | cons k l ih =>
    rw [List.nodup_cons] at hn
    obtain ⟨hkl, hl⟩ := hn
    have hcons : deliverFault cause (k :: l) s = deliverFault cause l (takeHeadFault cause k s) := rfl
    rw [hcons]
    rcases List.mem_cons.1 hh with rfl | hmem
    · obtain ⟨r1, e1, hf⟩ := takeHeadFault_faulted cause hq
      have hgrow := State.LogsHeads.deliverFault hc l (takeHeadFault cause h s)
      obtain ⟨r2, e2, -⟩ := hgrow.records
      obtain ⟨hqueue, hplace⟩ := deliverFault_untouched (cause := cause) hkl (takeHeadFault cause h s)
      refine ⟨r1 ++ r2, by rw [e2, e1, List.append_assoc], hf.mono rfl rfl (List.subset_append_left _ _) hqueue hplace ?_ hgrow.overflow⟩
      rw [e2, List.length_append]
      exact Nat.le_add_right _ _
    · have hne : k ≠ h := by
        rintro rfl
        exact hkl hmem
      have hout := outside_takeHeadFault cause k s
      obtain ⟨r1, e1, -⟩ := (State.LogsHeads.takeHeadFault hc k s).records
      obtain ⟨r2, e2, hf⟩ := ih hl hmem ((takeHeadFault_queue cause s hne).trans hq)
      refine ⟨r1 ++ r2, by rw [e2, e1, List.append_assoc], ?_⟩
      exact hf.mono (State.outside_contexts hout).symm (State.outside_binding hout h.port).symm (List.subset_append_right _ _) rfl rfl
        (Nat.le_refl _) id

/-! ## The end of one walk -/

section
variable {s : State} {i : SlotNumber} {h : HeadId}

/-- A head that waits neither for the walk nor for a slot is left as it is (R91, R100, R104). -/
theorem endWalkTransaction_untouched (hwalk : ∀ w, s.slot i = some w → h ∉ w.waiters) (hwait : h ∉ s.slotWait) :
    (endWalkTransaction i s).queue h = s.queue h ∧ (endWalkTransaction i s).parkedPlace h = s.parkedPlace h := by
  cases hi : s.slot i with
  | none =>
    unfold endWalkTransaction
    rw [hi]
    exact ⟨rfl, rfl⟩
  | some w =>
    rw [endWalkTransaction_of_some hi]
    generalize hx : (if w.abandoned then s.releaseSlot i else deliverFault .tableError w.waiters (s.releaseSlot i)) = x
    have hkeep : x.queue h = s.queue h ∧ x.parkedPlace h = s.parkedPlace h ∧ x.slotWait = s.slotWait := by
      rw [← hx]
      split
      · exact ⟨rfl, rfl, rfl⟩
      · obtain ⟨hqueue, hplace⟩ := deliverFault_untouched (cause := .tableError) (hwalk w hi) (s.releaseSlot i)
        exact ⟨hqueue, hplace, deliverFault_slotWait _ _ _⟩
    obtain ⟨hqueue, hplace, hlist⟩ := hkeep
    obtain ⟨hqueue', hplace', -⟩ := (represents_representWaiting x).untouched (hlist ▸ hwait)
    exact ⟨hqueue'.trans hqueue, hplace'.trans hplace⟩

theorem State.HeadsLinked.not_mem_slotWait (hs : s.HeadsLinked) {e : Entry} {q : List Entry} (hq : s.queue h = e :: q)
    (he : e.state ≠ .waitSlot) : h ∉ s.slotWait := by
  intro hmem
  obtain ⟨e', q', hq', he'⟩ := (hs.waitSlot h).2 hmem
  cases hq.symm.trans hq'
  exact he he'

theorem State.HeadsLinked.not_mem_waiters (hs : s.HeadsLinked) {e : Entry} {q : List Entry} (hq : s.queue h = e :: q)
    (he : e.state ≠ .walking) {w : Walk} (hi : s.slot i = some w) : h ∉ w.waiters := by
  intro hmem
  obtain ⟨e', q', hq', he'⟩ := (hs.walking h).2 ⟨i, w, hi, hmem⟩
  cases hq.symm.trans hq'
  exact he he'

/-- A waiter of the walk is faulted with TABLE_ERROR (R100, R105). -/
theorem endWalkTransaction_faulted (hs : s.HeadsLinked) {w : Walk} (hi : s.slot i = some w) (hh : h ∈ w.waiters) {e : Entry}
    {q : List Entry} (hq : s.queue h = e :: q) :
    ∃ records, (endWalkTransaction i s).faultLog = s.faultLog ++ records ∧
      s.Faulted (endWalkTransaction i s) records h e q .tableError := by
  obtain ⟨hnodup, -, hempty⟩ := hs.waiters i w hi
  have hlive : ¬ w.abandoned = true := fun ha => by
    rw [hempty.2 ha] at hh
    cases hh
  have hwalking : e.state = .walking := by
    obtain ⟨e', q', hq', he'⟩ := (hs.walking h).2 ⟨i, w, hi, hh⟩
    cases hq.symm.trans hq'
    exact he'
  have hwait : h ∉ s.slotWait := hs.not_mem_slotWait hq (by rw [hwalking]; decide)
  rw [endWalkTransaction_of_some hi, if_neg hlive]
  obtain ⟨r1, e1, hf⟩ := deliverFault_faulted (cause := .tableError) (by decide) hnodup (s := s.releaseSlot i) hh hq
  have hlist := deliverFault_slotWait .tableError w.waiters (s.releaseSlot i)
  generalize deliverFault .tableError w.waiters (s.releaseSlot i) = x at e1 hf hlist
  have hrep := represents_representWaiting x
  obtain ⟨hqueue, hplace, -⟩ := hrep.untouched (k := h) (by rw [hlist]; exact hwait)
  have hgrow := State.LogsHeads.represents hrep
  obtain ⟨r2, e2, -⟩ := hgrow.records
  refine ⟨r1 ++ r2, by rw [e2, e1, List.append_assoc]; rfl, ?_⟩
  refine hf.mono rfl rfl (List.subset_append_left _ _) hqueue hplace ?_ hgrow.overflow
  rw [e2, List.length_append]
  exact Nat.le_add_right _ _

end

/-! ## Heads that had no part in the work that ends -/

/-- A head has its entries and the lists are linked. -/
structure State.HeadKept (h : HeadId) (l : List Entry) (t : State) : Prop where
  linked : t.HeadsLinked
  queue  : t.queue h = l

theorem takeDataError_queue (v : RequestValues) (s : State) (h : HeadId) : (takeDataError v s).queue h = s.queue h := by
  unfold takeDataError
  split <;> rfl

theorem takeDataError_parkedPlace (v : RequestValues) (s : State) (h : HeadId) : (takeDataError v s).parkedPlace h = s.parkedPlace h := by
  unfold takeDataError
  split <;> rfl

theorem State.queue_endItem (s : State) (k h : HeadId) (st : Status) (d : Option (List Word)) : (s.endItem k st d).queue h = s.queue h := by
  unfold State.queue
  rw [State.port_endItem]
  split
  · next hp => rw [← hp]; rfl
  · rfl

theorem State.boundContext_endItem (s : State) (k h : HeadId) (st : Status) (d : Option (List Word)) :
    (s.endItem k st d).boundContext h = s.boundContext h := by
  unfold State.boundContext
  rw [State.port_endItem]
  split
  · next hp => rw [← hp]; rfl
  · rfl

/-- A head that is neither WALKING nor WAIT_SLOT has no part in a failure (R105, R169). -/
theorem keptByFailure_headKept (h : HeadId) {e : Entry} (q : List Entry) (hwalking : e.state ≠ .walking) (hwait : e.state ≠ .waitSlot) :
    KeptByFailure (State.HeadKept h (e :: q)) where
  shorter _ hs := ⟨hs.linked.of_fields rfl rfl rfl rfl, hs.queue⟩
  client v hs := ⟨takeDataError_linked v (endItem_linked _ _ _ hs.linked),
    (takeDataError_queue v _ h).trans ((State.queue_endItem _ _ _ _ _).trans hs.queue)⟩
  walk {s} i hs := by
    have hkeep := endWalkTransaction_untouched (i := i) (fun _ hi => hs.linked.not_mem_waiters hs.queue hwalking hi)
      (hs.linked.not_mem_slotWait hs.queue hwait)
    exact ⟨endWalkTransaction_linked i hs.linked, hkeep.1.trans hs.queue⟩

/-! ## Heads that wait for a walk -/

/-- A head that waited for a walk waits still, or has been faulted with TABLE_ERROR, since a state. -/
structure State.HeadFails (s : State) (h : HeadId) (e : Entry) (q : List Entry) (t : State) : Prop where
  linked   : t.HeadsLinked
  contexts : t.contexts = s.contexts
  bound    : t.boundContext h = s.boundContext h
  outcome  : ∃ records, t.faultLog = s.faultLog ++ records ∧
    (t.queue h = e :: q ∨ s.Faulted t records h e q .tableError)

/-- A faulted head is PARKED or FINISHING. -/
theorem State.Faulted.head {s u : State} {records : List FaultRecord} {h : HeadId} {e : Entry} {q : List Entry} {cause : FaultCause}
    (hf : s.Faulted u records h e q cause) : ∃ e', u.queue h = e' :: q ∧ e'.state ≠ .walking ∧ e'.state ≠ .waitSlot := by
  rcases hf with ⟨_, _, _, _, ⟨-, -, hq, -⟩ | ⟨-, -, hq⟩⟩ | ⟨-, -, hq⟩
  · exact ⟨_, hq, by simp, by simp⟩
  · exact ⟨_, hq, by simp, by simp⟩
  · exact ⟨_, hq, by simp, by simp⟩

/-- A part of the failure that does not reach the head. -/
theorem State.HeadFails.untouched {s t u : State} {h : HeadId} {e : Entry} {q : List Entry} {l : List RequestValues}
    (ht : s.HeadFails h e q t) (hu : u.HeadsLinked) (hc : u.contexts = t.contexts) (hb : u.boundContext h = t.boundContext h)
    (hlog : t.LogsClients u l) (hqueue : u.queue h = t.queue h) (hplace : u.parkedPlace h = t.parkedPlace h) : s.HeadFails h e q u where
  linked := hu
  contexts := hc.trans ht.contexts
  bound := hb.trans ht.bound
  outcome := by
    obtain ⟨r1, e1, hout⟩ := ht.outcome
    obtain ⟨r2, e2, -⟩ := hlog.records
    refine ⟨r1 ++ r2, by rw [e2, e1, List.append_assoc], hout.imp (hqueue.trans ·) fun hf => ?_⟩
    refine hf.mono rfl rfl (List.subset_append_left _ _) hqueue hplace ?_ hlog.overflow
    rw [e2, List.length_append]
    exact Nat.le_add_right _ _

theorem keptByFailure_headFails (s : State) (h : HeadId) {e : Entry} (q : List Entry) (he : e.state = .walking) :
    KeptByFailure (s.HeadFails h e q) where
  shorter _ ht := ht.untouched (ht.linked.of_fields rfl rfl rfl rfl) rfl rfl (.same rfl rfl) rfl rfl
  client {t} v ht := by
    have hout := outside_takeDataError v (t.endItem ⟨v.port, v.cls⟩ .memoryError none)
    have hitem : t.LogsClients (t.endItem ⟨v.port, v.cls⟩ .memoryError none) [] := .same rfl rfl
    exact ht.untouched (takeDataError_linked v (endItem_linked _ _ _ ht.linked)) ((State.outside_contexts hout).trans rfl)
      ((State.outside_binding hout h.port).trans (State.boundContext_endItem _ _ _ _ _)) (hitem.trans (.takeDataError v _))
      ((takeDataError_queue v _ h).trans (State.queue_endItem _ _ _ _ _)) (takeDataError_parkedPlace v _ h)
  walk {t} i ht := by
    have hout := endWalkTransaction_outside i t
    have hlinked := endWalkTransaction_linked i ht.linked
    have hlog : t.LogsClients (endWalkTransaction i t) [] := .of_logsHeads (.endWalkTransaction i t)
    have hleave {e' : Entry} {q' : List Entry} (hq : t.queue h = e' :: q') (hwait : e'.state ≠ .waitSlot)
        (hwalk : ∀ w, t.slot i = some w → h ∉ w.waiters) : s.HeadFails h e q (endWalkTransaction i t) := by
      obtain ⟨hqueue, hplace⟩ := endWalkTransaction_untouched hwalk (ht.linked.not_mem_slotWait hq hwait)
      exact ht.untouched hlinked (State.outside_contexts hout) (State.outside_binding hout h.port) hlog hqueue hplace
    obtain ⟨r1, e1, hq | hf⟩ := ht.outcome
    · by_cases hmem : ∃ w, t.slot i = some w ∧ h ∈ w.waiters
      · obtain ⟨w, hi, hh⟩ := hmem
        obtain ⟨r2, e2, hf⟩ := endWalkTransaction_faulted ht.linked hi hh hq
        refine ⟨hlinked, (State.outside_contexts hout).trans ht.contexts, (State.outside_binding hout h.port).trans ht.bound,
          r1 ++ r2, by rw [e2, e1, List.append_assoc], .inr ?_⟩
        exact hf.mono ht.contexts.symm ht.bound.symm (List.subset_append_right _ _) rfl rfl (Nat.le_refl _) id
      · exact hleave hq (by rw [he]; decide) fun w hi hh => hmem ⟨w, hi, hh⟩
    · obtain ⟨e', hq, hwalking, hwait⟩ := hf.head
      exact hleave hq hwait fun w hi => ht.linked.not_mem_waiters hq hwalking hi

end Sys2Proof.Machine
end

section
/-! PROOFS of the family `other`: a failure of the memory port as a whole, with the tests at its end (R25, R28, R105, R149, R153, R166 to R169). -/

namespace Sys2Proof.Machine

/-! ## What goes on waiting after the tests (R25, R28, R153) -/

/-- A DRAINING context has something left. -/
def State.DrainGoesOn (d : ContextNumber) (s : State) : Prop := (s.context d).state = .draining → ¬ s.NothingLeft d

/-- One test does nothing, or turns its context OFF (R25). -/
theorem settleContext_cases (c : ContextNumber) (s : State) :
    (¬ ((s.context c).state = .draining ∧ s.NothingLeft c) ∧ settleContext c s = s) ∨
      ∃ commands n, settleContext c s =
        { s.setContext c { s.context c with state := .off } with commands := commands, completedCount := n } := by
  unfold settleContext
  split
  · dsimp only
    split
    · exact .inr ⟨_, _, rfl⟩
    · exact .inr ⟨s.commands, s.completedCount, rfl⟩
  · next hnot => exact .inl ⟨fun hd => hnot ⟨hd.1, (drained_iff s c).2 hd.2⟩, rfl⟩

theorem settleContext_drainGoesOn_self (d : ContextNumber) (s : State) : (settleContext d s).DrainGoesOn d := by
  rcases settleContext_cases d s with ⟨hnot, heq⟩ | ⟨commands, n, heq⟩
  · rw [heq]
    exact fun hd hleft => hnot ⟨hd, hleft⟩
  · rw [heq]
    intro hd
    have hoff := State.context_setContext_self d { s.context d with state := .off } s
    exact absurd ((congrArg ContextRecord.state hoff).symm.trans hd) (by simp)

theorem State.DrainGoesOn.settleContext {d : ContextNumber} {s : State} (hs : s.DrainGoesOn d) (c : ContextNumber) :
    (settleContext c s).DrainGoesOn d := by
  by_cases hcd : c = d
  · exact hcd ▸ settleContext_drainGoesOn_self c s
  · rcases settleContext_cases c s with ⟨-, heq⟩ | ⟨commands, n, heq⟩
    · rwa [heq]
    · rw [heq]
      intro hd hleft
      have hother : (s.setContext c { s.context c with state := .off }).context d = s.context d := by
        rw [State.context_setContext, if_neg hcd]
      exact hs ((congrArg ContextRecord.state hother).symm.trans hd) ((State.nothingLeft_of_fields (s := s) rfl rfl d).1 hleft)

theorem settleSync_frame (s : State) : ∃ commands n m irq,
    settleSync s = { s with commands := commands, completedCount := n, syncMarker := m, irqStatus := irq } := by
  unfold settleSync
  split
  · split
    · exact ⟨_, _, _, _, rfl⟩
    · exact ⟨s.commands, s.completedCount, s.syncMarker, s.irqStatus, rfl⟩
  · exact ⟨s.commands, s.completedCount, s.syncMarker, s.irqStatus, rfl⟩

/-- No drained context stays DRAINING (R25, R28). -/
theorem settle_drainGoesOn (d : ContextNumber) (s : State) : (settle s).DrainGoesOn d := by
  obtain ⟨l, r, hlr, -, -⟩ := exists_split_allContexts d
  have hfold (r : List ContextNumber) {t : State} (ht : t.DrainGoesOn d) : (r.foldl (fun t c => settleContext c t) t).DrainGoesOn d := by
    induction r generalizing t with
    | nil => exact ht
    | cons c r ih => exact ih (ht.settleContext c)
  rw [settle, hlr, List.foldl_append, List.foldl_cons]
  have hend := hfold r (settleContext_drainGoesOn_self d (l.foldl (fun t c => settleContext c t) s))
  obtain ⟨commands, n, m, irq, heq⟩ := settleSync_frame
    (r.foldl (fun t c => settleContext c t) (settleContext d (l.foldl (fun t c => settleContext c t) s)))
  rw [heq]
  exact hend

/-- With the commands in order, none waits behind the head (R142). -/
theorem State.CommandsInOrder.tail_untaken {s : State} (hs : s.CommandsInOrder) : ∀ cmd ∈ s.commands.tail, cmd.taken = false := by
  intro cmd hmem
  obtain ⟨k, hk⟩ := List.mem_iff_getElem?.1 hmem
  rw [List.getElem?_tail] at hk
  by_contra htaken
  exact absurd (hs.head (k + 1) cmd hk (by simpa using htaken)) (by omega)

theorem State.noMember_of_fields {s t : State} (hp : t.ports = s.ports) (hw : t.slots = s.slots) : t.NoMember ↔ s.NoMember := by
  unfold State.NoMember State.port State.slot
  rw [hp, hw]

/-- With nothing to wait for, no SYNC waits on (R153). -/
theorem settle_no_sync {s : State} (ho : s.CommandsInOrder) (hn : s.NoMember) (m : BitVec 16) : (settle s).waitingOp ≠ some (.sync m) := by
  unfold settle
  have hfold (l : List ContextNumber) {t : State} (ht : t.CommandsInOrder ∧ t.NoMember) :
      (l.foldl (fun t c => settleContext c t) t).CommandsInOrder ∧ (l.foldl (fun t c => settleContext c t) t).NoMember := by
    induction l generalizing t with
    | nil => exact ht
    | cons c l ih =>
      refine ih ⟨keptByEvents_commandsInOrder.settleContext c ht.1, ?_⟩
      dsimp only
      rcases settleContext_cases c t with ⟨-, heq⟩ | ⟨commands, n, heq⟩
      · rw [heq]
        exact ht.2
      · rw [heq]
        exact (State.noMember_of_fields (s := t) rfl rfl).2 ht.2
  obtain ⟨hyo, hyn⟩ := hfold allContexts ⟨ho, hn⟩
  generalize allContexts.foldl (fun t c => settleContext c t) s = y at hyo hyn
  intro hwait
  by_cases hsync : ∃ k, y.waitingOp = some (.sync k)
  · obtain ⟨k, hk⟩ := hsync
    rw [(settleSync_of_sync hk).1 hyn] at hwait
    rw [waitingOp_behind rfl hyo.tail_untaken] at hwait
    cases hwait
  · have hsame : settleSync y = y := by
      unfold settleSync
      split
      · next k hk => exact absurd ⟨k, hk⟩ hsync
      · rfl
    rw [hsame] at hwait
    exact hsync ⟨m, hwait⟩

/-! ## The state that a failure starts from and the one it reaches -/

/-- The part as a failing event finds it: what goes with the event itself is the response limit, the tick in progress and the ages. -/
def State.aged (s : State) (limit : BitVec 16) (left : Nat) (age : Nat → Nat) : State :=
  { s with
    emitted := [], responseLimit := limit, tickLeft := left
    outstanding := s.outstanding.map fun t => { t with age := age t.age } }

/-- No work is left, and what is left of the work is kept apart: the part after a failure, before the tests at its end. -/
structure State.Ended (s f : State) : Prop where
  late       : f.lateCleared = false
  slots      : ∀ i, f.slot i = none
  startOrder : f.startOrder = []
  slotWait   : f.slotWait = []
  items      : ∀ (h : HeadId) (item : Item), item ∈ (f.port h.port).returns.get h.cls → item.isInFlight = false
  ports      : ∀ p, ∃ ended gone, (s.port p).Fails (f.port p) ended gone
  contexts   : f.contexts = s.contexts
  commands   : f.commands = s.commands
  count      : f.completedCount = s.completedCount
  marker     : f.syncMarker = s.syncMarker
  syncDone   : f.irqStatus.getLsbD 2 = s.irqStatus.getLsbD 2
  order      : f.CommandsInOrder
  log        : s.LogsClients f (s.outstanding.filterMap Transaction.client?)

theorem enterFailed_ordered {s : State} (hs : s.Ordered) : (enterFailed s).Ordered := by
  obtain ⟨-, -, -, hkept, -⟩ := endOutstanding_spec s.outstanding s.failStart rfl
  exact kept_ordered.failAwaiting (hkept (ordered_of (s := s) (fun _ => rfl) rfl hs))

theorem State.ItemsPaired.aged {s : State} (hs : s.ItemsPaired) (limit : BitVec 16) (left : Nat) (age : Nat → Nat) :
    (s.aged limit left age).ItemsPaired := fun h => by
  show _ = (s.outstanding.map _).filterMap _
  rw [List.filterMap_map]
  exact hs h

theorem State.ended_enterFailed {s : State} (hw : s.WalkerSettled) (hp : s.ItemsPaired) (ho : s.CommandsInOrder) (hr : s.memState = .running)
    (limit : BitVec 16) (left : Nat) (age : Nat → Nat) : s.Ended (enterFailed (s.aged limit left age)) := by
  obtain ⟨-, hout, hslots, hlist, -⟩ := enterFailed_spec (s.aged limit left age) hw.ordered hw.offered
  obtain ⟨hcontexts, hcommands, hcount, hmarker, hdone⟩ := enterFailed_keeps (s.aged limit left age)
  have hpaired : (enterFailed (s.aged limit left age)).ItemsPaired := keptByEvents_itemsPaired.enterFailed hr (hp.aged limit left age)
  have hclients : (s.aged limit left age).outstanding.filterMap Transaction.client? = s.outstanding.filterMap Transaction.client? :=
    List.filterMap_map
  have hlog := logsClients_enterFailed (s.aged limit left age)
  rw [hclients] at hlog
  have hstart : s.LogsClients (s.aged limit left age).failStart [] :=
    ⟨⟨[], (List.append_nil _).symm, nofun, ⟨[], rfl⟩, .inl rfl⟩, fun _ => rfl, fun h => State.CauseSet.raise h .memoryFailed⟩
  have hordered := enterFailed_ordered (s := s.aged limit left age) hw.ordered
  exact {
    late := keptByFailure_lateCleared.enterFailed rfl
    slots := hslots
    startOrder := List.eq_nil_iff_forall_not_mem.2 fun i hi => (hordered.1 i).1 hi (hslots i)
    slotWait := hlist
    items := fun h item hi => hpaired.no_inFlight hout h hi
    ports := fails_enterFailed (s.aged limit left age)
    contexts := hcontexts
    commands := hcommands
    count := hcount
    marker := hmarker
    syncDone := hdone
    order := keptByEvents_commandsInOrder.enterFailed (s := s.aged limit left age) hr ⟨ho.numbers, ho.counts, ho.head⟩
    log := hstart.trans hlog }

theorem State.Ended.noMember {s f : State} (hf : s.Ended f) : f.NoMember where
  left h item hi hstate := by
    have hflight := hf.items h item hi
    rw [Item.isInFlight, hstate] at hflight
    cases hflight
  right i w hi := by
    rw [hf.slots i] at hi
    cases hi

/-! ## The heads after a failure -/

section
variable {s : State} (hs : s.HeadsLinked) {limit : BitVec 16} {left : Nat} {age : Nat → Nat}
include hs

theorem State.HeadsLinked.failStart_aged : (s.aged limit left age).failStart.HeadsLinked := hs.of_fields rfl rfl rfl rfl

theorem State.HeadsLinked.enterFailed_aged : (enterFailed (s.aged limit left age)).HeadsLinked :=
  enterFailed_linked (s := s.aged limit left age) (hs.of_fields rfl rfl rfl rfl)

/-- A head with no part in a walk or in the slot wait list stays as it was (R105, R169). -/
theorem queue_enterFailed {h : HeadId} {e : Entry} {q : List Entry} (hq : s.queue h = e :: q) (hwalking : e.state ≠ .walking)
    (hwait : e.state ≠ .waitSlot) : (enterFailed (s.aged limit left age)).queue h = e :: q :=
  ((keptByFailure_headKept h q hwalking hwait).enterFailed ⟨hs.failStart_aged, hq⟩).queue

/-- A waiter of a walk is faulted with TABLE_ERROR (R100, R105). -/
theorem faulted_enterFailed (hslots : ∀ i, (enterFailed (s.aged limit left age)).slot i = none) {records : List FaultRecord}
    (hlog : (enterFailed (s.aged limit left age)).faultLog = s.faultLog ++ records) {i : SlotNumber} {w : Walk} {h : HeadId} {e : Entry}
    {q : List Entry} (hi : s.slot i = some w) (hh : h ∈ w.waiters) (hq : s.queue h = e :: q) :
    s.Faulted (enterFailed (s.aged limit left age)) records h e q .tableError := by
  have he : e.state = .walking := by
    obtain ⟨e', q', hq', he'⟩ := (hs.walking h).2 ⟨i, w, hi, hh⟩
    cases hq.symm.trans hq'
    exact he'
  have hstart : (s.aged limit left age).failStart.HeadFails h e q (s.aged limit left age).failStart :=
    ⟨hs.failStart_aged, rfl, rfl, [], (List.append_nil _).symm, .inl hq⟩
  obtain ⟨hlinked, -, -, records', hlog', hout⟩ := (keptByFailure_headFails _ h q he).enterFailed (s := s.aged limit left age) hstart
  obtain rfl : records' = records := List.append_cancel_left (hlog'.symm.trans hlog)
  rcases hout with hqueue | hf
  · obtain ⟨j, v, hj, -⟩ := (hlinked.walking h).1 ⟨e, q, hqueue, he⟩
    rw [hslots j] at hj
    cases hj
  · exact hf.mono rfl rfl (List.Subset.refl _) rfl rfl (Nat.le_refl _) id

end

/-- Every item of a port is in its completion queue once none is IN_FLIGHT (R60, R169). -/
theorem Port.Fails.all {p v : Port} {ended : List Completion} {gone : ReqClass → List Completion} (h : p.Fails v ended gone)
    (hn : ∀ c, v.returns.get c = []) :
    v.returns = ⟨[], []⟩ ∧ ∃ ended, v.completions = p.completions ++ ended ∧
      ended.Perm ((p.returns.get .normal).map Item.failed ++ (p.returns.get .urgent).map Item.failed) ∧
        ∀ cls, ((p.returns.get cls).map Item.failed).Sublist ended := by
  have hgone (c : ReqClass) : (p.returns.get c).map Item.failed = gone c := by
    rw [h.items c, hn c, List.map_nil, List.append_nil]
  refine ⟨?_, ended, h.completions, ?_, fun c => ?_⟩
  · have hnormal := hn .normal
    have hurgent := hn .urgent
    exact congr (congrArg PerClass.mk hnormal) hurgent
  · rw [hgone, hgone]
    exact h.perm
  · rw [hgone]
    exact h.order c

/-! ## The command unit after a failure (R28, R149, R152, R153) -/

section
variable {s f : State} (hf : s.Ended f)
include hf

theorem State.Ended.context (d : ContextNumber) : f.context d = s.context d := by rw [State.context, State.context, hf.contexts]

/-- A SYNC that waits completes. -/
theorem State.Ended.settle_sync {operand : Word} {waiting : List Command} (hsync : s.SyncWait operand waiting) :
    (settle f).commands = waiting ∧ (settle f).completedCount = s.completedCount + 1#16 ∧
      (settle f).syncMarker = operand.extractLsb' 0 16 ∧ (settle f).irqStatus.getLsbD 2 = true := by
  rw [(settle_of_syncWait (hsync.of_fields hf.contexts hf.commands)).1 hf.noMember]
  exact ⟨rfl, congrArg (· + 1#16) hf.count, rfl, by simp⟩

/-- A DISABLE_CONTEXT that waits completes, or waits on. -/
theorem State.Ended.settle_drain {d : ContextNumber} {waiting : List Command} (hdrain : s.DrainWait d waiting) :
    (f.NothingLeft d → (settle f).context d = { s.context d with state := .off } ∧ (settle f).commands = waiting ∧
        (settle f).completedCount = s.completedCount + 1#16) ∧
      (¬ f.NothingLeft d → (settle f).context d = s.context d ∧ (settle f).commands = s.commands ∧
        (settle f).completedCount = s.completedCount) ∧
      (settle f).syncMarker = s.syncMarker ∧ (settle f).irqStatus.getLsbD 2 = s.irqStatus.getLsbD 2 := by
  obtain ⟨hdone, hwaits⟩ := settle_of_drainWait (hdrain.of_fields hf.contexts hf.commands)
  refine ⟨fun hleft => ?_, fun hleft => ?_, ?_⟩
  · rw [hdone hleft]
    refine ⟨?_, rfl, congrArg (· + 1#16) hf.count⟩
    rw [← hf.context d]
    exact State.context_setContext_self d _ f
  · rw [hwaits hleft]
    exact ⟨hf.context d, hf.commands, hf.count⟩
  · by_cases hleft : f.NothingLeft d
    · rw [hdone hleft]
      exact ⟨hf.marker, hf.syncDone⟩
    · rw [hwaits hleft]
      exact ⟨hf.marker, hf.syncDone⟩

theorem State.Ended.settle_noEnds (hn : s.NoEnds) : settle f = f := settle_of_noEnds (noEnds_of hf.contexts hf.commands hn)

end

/-- Settles O30: all work ends in `enterFailed`, part by part; the tests at the end complete what waits. -/
theorem failureEndsEverything : Obligations.FailureEndsEverything := by
  intro s event hw hp ho hlow hr hfails
  obtain ⟨limit, left, age, hnext⟩ := failsPort_spec hfails hlow hr
  have hevent : event = .next (settle (enterFailed (s.aged limit left age))) := hnext
  have hf : s.Ended (enterFailed (s.aged limit left age)) := State.ended_enterFailed hw hp ho hr limit left age
  obtain ⟨hmem, hout, hirq⟩ := settle_enterFailed_port (s.aged limit left age)
  obtain ⟨contexts, commands, n, m, irq, hframe⟩ := settle_frame (enterFailed (s.aged limit left age))
  have hport (p : PortNumber) := settle_port (enterFailed (s.aged limit left age)) p
  have hleft (d : ContextNumber) :
      (settle (enterFailed (s.aged limit left age))).NothingLeft d ↔ (enterFailed (s.aged limit left age)).NothingLeft d := by
    rw [hframe]
    exact State.nothingLeft_of_fields rfl rfl d
  refine ⟨_, hevent, hmem, hirq, ?late, hout, ?slots, ?order, ?list, ?items, settle_no_sync hf.order hf.noMember,
    fun d => settle_drainGoesOn d _, ?credit, fun operand waiting hsync => hf.settle_sync hsync, fun d waiting hdrain => ?drain,
    fun hn => ?idle, fun hn => ?marker, fun d hd => ?context, fun hlinked => ⟨fun p => ?records, ?faults⟩⟩
  case late => rw [hframe]; exact hf.late
  case slots => intro i; rw [settle_slot]; exact hf.slots i
  case order => rw [settle_startOrder]; exact hf.startOrder
  case list => rw [settle_slotWait]; exact hf.slotWait
  case items => intro h item; rw [settle_port]; exact hf.items h item
  case credit =>
    intro p
    obtain ⟨ended, gone, hfail⟩ := hf.ports p
    rw [settle_port]
    exact hfail.creditInUse
  case drain =>
    obtain ⟨hdone, hwaits, -⟩ := hf.settle_drain hdrain
    exact ⟨fun h => hdone ((hleft d).1 h), fun h => hwaits (mt (hleft d).2 h)⟩
  case idle =>
    rw [hf.settle_noEnds hn]
    exact ⟨hf.commands, hf.count⟩
  case marker =>
    rcases hn with hn | ⟨d, waiting, hdrain⟩
    · rw [hf.settle_noEnds hn]
      exact ⟨hf.marker, hf.syncDone⟩
    · exact (hf.settle_drain hdrain).2.2
  case context =>
    rw [← hf.context d] at hd ⊢
    exact settle_context hd
  case records =>
    obtain ⟨ended, gone, hfail⟩ := hf.ports p
    rw [settle_port]
    refine hfail.all fun c => ?_
    exact eq_nil_of_frontInFlight (hlinked.enterFailed_aged.front ⟨p, c⟩) (hf.items ⟨p, c⟩)
  case faults =>
    obtain ⟨records, hlog, habort, hfirst, hall⟩ := hf.log.records
    have hulog : (settle (enterFailed (s.aged limit left age))).faultLog = (enterFailed (s.aged limit left age)).faultLog := by rw [hframe]
    have hover (hset : (enterFailed (s.aged limit left age)).CauseSet 1) : (settle (enterFailed (s.aged limit left age))).CauseSet 1 :=
      hset.settle
    have huqueue (h : HeadId) : (settle (enterFailed (s.aged limit left age))).queue h = (enterFailed (s.aged limit left age)).queue h := by
      rw [hframe]; rfl
    have hplace (h : HeadId) : (settle (enterFailed (s.aged limit left age))).parkedPlace h =
        (enterFailed (s.aged limit left age)).parkedPlace h := by
      rw [hframe]; rfl
    generalize settle (enterFailed (s.aged limit left age)) = u at hulog hover huqueue hplace ⊢
    refine ⟨records, hulog.trans hlog, ⟨habort, hfirst, hall.imp_right fun ⟨hfull, hset⟩ => ⟨hulog ▸ hfull, hover hset⟩⟩,
      fun i w h e q hi hh hq => ?_, fun h e q hq hwalking hwait => (huqueue h).trans (queue_enterFailed hlinked hq hwalking hwait)⟩
    refine (faulted_enterFailed hlinked hf.slots hlog hi hh hq).mono rfl rfl (List.Subset.refl _) (huqueue h) (hplace h)
      (Nat.le_of_eq (congrArg List.length hulog.symm)) hover

end Sys2Proof.Machine
end
